-- ==== Sys2Proof/Word.lean ====
section
/-! DEFINITION. The word types of the block and the fixed-size and sparse containers its state is made of. -/

set_option Elab.async false

namespace Sys2Proof

/-- One byte of a memory (`20_memory.md` R70, R73). -/
abbrev Byte := BitVec 8
/-- A 16-bit register or a half of a 32-bit one (`10_state.md` R10). -/
abbrev Half := BitVec 16
/-- A 32-bit bus word or address (`20_memory.md` R71). -/
abbrev Word := BitVec 32
/-- A colour: 15 bits, red 4:0, green 9:5, blue 14:10 (`00_scope.md` section 6). -/
abbrev Colour := BitVec 15

/-- Four like things, one for each channel, layer or bucket 0 to 3 (`00_scope.md` R1). -/
structure Four (α : Type) where
  c0 : α
  c1 : α
  c2 : α
  c3 : α
  deriving DecidableEq, Repr

/-- The element of channel `i`. -/
def Four.get {α : Type} (f : Four α) (i : Fin 4) : α :=
  match i with
  | 0 => f.c0
  | 1 => f.c1
  | 2 => f.c2
  | 3 => f.c3

/-- `f` with the element of channel `i` replaced. -/
def Four.set {α : Type} (f : Four α) (i : Fin 4) (v : α) : Four α :=
  match i with
  | 0 => { f with c0 := v }
  | 1 => { f with c1 := v }
  | 2 => { f with c2 := v }
  | 3 => { f with c3 := v }

/-- Four copies of one value. -/
def Four.all {α : Type} (v : α) : Four α := ⟨v, v, v, v⟩

/-- A sparse store: (key, value) pairs. An unlisted key reads as a default of its own. -/
abbrev Store (α : Type) := List (Nat × α)

/-- A byte memory: a list of `Host.Cell`. -/
abbrev Memory := List Host.Cell

end Sys2Proof
end

