-- ==== Sys2Proof/Syntax.lean ====
section
/-! DEFINITION. The operations of the block as syntax: one constructor per row of spec/opcode_table.json
(`30_encoding.md` R120 and R103), and the raw form in which an operation reaches the block. -/

set_option Elab.async false

namespace Sys2Proof

/-- The four reference-point registers of `10_state.md` R19. -/
inductive BgRef where
  | bg2x
  | bg2y
  | bg3x
  | bg3y
  deriving DecidableEq, Repr

/-- An operation as it reaches the block, before it is decoded (`30_encoding.md` R100). -/
inductive RawOp where
  /-- Formats `OP` and `BUS`: the operation as one number, bit 0 the least significant bit of its first byte
  (`opnum` in bits 7:0, then the operands by position, R101, R102; log 4). -/
  | port (bits : Nat)
  /-- Format `HOOK`: a host write that gives the register (half) at offset `off` of the register file the merged
  word `w` (R103, whose table names the registers by offset; log 6, 7). -/
  | hook (off : Nat) (w : Half)
  deriving DecidableEq, Repr

/-- The operations. The rule of each stands in `30_encoding.md` R120; the last eight are the `HOOK` rows of R103. -/
inductive Instr where
  | advance
  | haltuntil (mask : Half)
  | haltvbl
  | halt
  | irqSeten (s : Byte) (b : Bool)
  | irqRaise (s : Byte)
  | irqAck (s : Byte)
  | irqSetime (b : Bool)
  | irqDeliver (s : Byte)
  | irqDispatch
  | dmaConfigure (ch : Byte) (src dst : Word) (count flags : Half)
  | dmaStop (ch : Byte)
  | dmaFireHblank
  | dmaFireVblank
  | dmaXfer (ch : Byte)
  | tmrStart (ch : Byte) (reload : Half) (prescaler : BitVec 2) (cascade irq : Bool)
  | tmrStop (ch : Byte)
  | tmrTickline
  | tmrTick (ch : Byte)
  | tmrMscfg (ms : Word)
  | ppuRenderline (y : Byte)
  | ppuFramestart
  | ppuBgText (n : BitVec 2) (y : Byte)
  | ppuBgAffine (k : BitVec 2) (y : Byte)
  | ppuBgBitmap3 (y : Byte)
  | ppuBgBitmap4 (y : Byte)
  | ppuBgBitmap5 (y : Byte)
  | ppuObj (y : Byte)
  | ppuSort
  | ppuWindow (x y : Byte)
  | ppuEffect (x : Byte)
  | ppuGreenswap
  | ppuCommit (y : Byte)
  | ppuSwap
  | ppuGetframe
  | rd8 (addr : Word)
  | rd16 (addr : Word)
  | rd32 (addr : Word)
  | wr8 (addr : Word) (data : Byte)
  | wr16 (addr : Word) (data : Half)
  | wr32 (addr : Word) (data : Word)
  | hookDmaConfigure (ch : BitVec 2) (w : Half)
  | hookDmaStop (ch : BitVec 2) (w : Half)
  | hookTmrStart (ch : BitVec 2) (w : Half)
  | hookTmrStop (ch : BitVec 2) (w : Half)
  | hookIrqSeten (w : Half)
  | hookIrqAck (w : Half)
  | hookIrqSetime (w : Half)
  | bgRefReload (r : BgRef) (hi : Bool) (w : Half)
  deriving DecidableEq, Repr

end Sys2Proof
end

