-- ==== Sys2Proof/Config.lean ====
section
/-! DEFINITION. The counts the source fixes (`00_scope.md` R1) and the parameters of the model (`00_scope.md` R2),
each a field of `Config` with the value the spec decided in `Config.decided`. -/

set_option Elab.async false

namespace Sys2Proof

/-- Scanlines per frame (R1). -/
abbrev nLines : Nat := 228
/-- Visible scanlines (R1). -/
abbrev nVisible : Nat := 160
/-- Pixels in a line (R1). -/
abbrev screenW : Nat := 240
/-- Lines of a frame buffer (R1). -/
abbrev screenH : Nat := 160
/-- Source bits of IE, IF and the wait masks, indices 0 to 13 (`10_state.md` R31, R32, `41_interrupts.md` R150). -/
abbrev nIrq : Nat := 14

/-- The host's handler for one source (R2, R4; `41_interrupts.md` R156; log 2). -/
inductive Handler where
  /-- No handler is registered: delivery runs an empty handler. -/
  | absent
  /-- A list of operations of its own; the handler returns after the last. -/
  | program (ops : List RawOp)
  /-- The handler's operations are the host's next events, up to a return event. -/
  | interactive
  deriving DecidableEq, Repr

/-- When the background mode is looked up (`44_ppu_backgrounds.md` R242). -/
inductive ModeLatch where
  | perLine
  | perFrame
  deriving DecidableEq, Repr

/-- One mapped range of `EXT_MEM` (`20_memory.md` R72): `size` bytes from `base`, the initial bytes by
system-bus address (a byte not listed is 0), and whether it may be written (log 16). -/
structure ExtRange where
  base : Nat
  size : Nat
  init : List Host.Cell
  writable : Bool
  deriving DecidableEq, Repr

/-- The parameters of `00_scope.md` R2. -/
structure Config where
  regBase : Nat
  regfileSize : Nat
  palBase : Nat
  palSize : Nat
  vramBase : Nat
  vramSize : Nat
  oamBase : Nat
  oamSize : Nat
  romLo : Nat
  romHi : Nat
  /-- `N_IRQ`, at most the 14 source bits of IE and IF (R31; log 14). -/
  irqCount : Fin (nIrq + 1)
  cyclesPerLine : Nat
  clockHz : Nat
  dmaCountMax : Four Nat
  imeEntryClear : Bool
  modeLatch : ModeLatch
  /-- `INIT_IMAGE`: initial palette, VRAM and OAM bytes by offset; a byte not listed is 0. -/
  initPal : List Host.Cell
  initVram : List Host.Cell
  initOam : List Host.Cell
  extMem : List ExtRange
  /-- `HANDLER[s]` by source index; a source past the end of the list has none. -/
  handlers : List Handler
  deriving DecidableEq, Repr

/-- The values the spec leaves open: 32 bits for the `use`th operation that takes any, at index `i`. It has no body, so nothing
can be proved of them but that they are some value (log 27). -/
opaque Config.freeValue (use i : Nat) : BitVec 32

/-- The values the spec decided (R2), with no handler registered and no external range mapped (log 16, 17). -/
def Config.decided : Config where
  regBase := 0x04000000
  regfileSize := 0x400
  palBase := 0x05000000
  palSize := 0x400
  vramBase := 0x06000000
  vramSize := 0x18000
  oamBase := 0x07000000
  oamSize := 0x400
  romLo := 0x08000000
  romHi := 0x0DFFFFFF
  irqCount := 14
  cyclesPerLine := 1232
  clockHz := 16777216
  dmaCountMax := ⟨0x4000, 0x4000, 0x4000, 0x10000⟩
  imeEntryClear := true
  modeLatch := .perLine
  initPal := []
  initVram := []
  initOam := []
  extMem := []
  handlers := []

end Sys2Proof
end

