-- ==== Sys2Proof/WellFormed.lean ====
section
/-! DEFINITION. Which terms of the syntax an issue of an operation can be: the conditions of the hook table
(`30_encoding.md` R103). -/

set_option Elab.async false

namespace Sys2Proof

/-- Whether the operation is one of the map or of the hook table. Every value of an operand is well formed: a channel or
source out of range raises a fault of its own (R108), and a line, column or layer its rule states nothing of leaves free
values (log 27). -/
def Instr.wellFormed : Instr → Bool
  | .advance | .haltuntil _ | .haltvbl | .halt => true
  | .irqSeten _ _ | .irqRaise _ | .irqAck _ | .irqSetime _ | .irqDeliver _ | .irqDispatch => true
  | .dmaConfigure _ _ _ _ _ | .dmaStop _ | .dmaFireHblank | .dmaFireVblank | .dmaXfer _ => true
  | .tmrStart _ _ _ _ _ | .tmrStop _ | .tmrTickline | .tmrTick _ | .tmrMscfg _ => true
  | .ppuRenderline _ | .ppuFramestart | .ppuBgText _ _ | .ppuBgAffine _ _ => true
  | .ppuBgBitmap3 _ | .ppuBgBitmap4 _ | .ppuBgBitmap5 _ | .ppuObj _ | .ppuSort => true
  | .ppuWindow _ _ | .ppuEffect _ | .ppuGreenswap | .ppuCommit _ | .ppuSwap | .ppuGetframe => true
  | .rd8 _ | .rd16 _ | .rd32 _ | .wr8 _ _ | .wr16 _ _ | .wr32 _ _ => true
  -- the conditions on the merged word (R103)
  | .hookDmaConfigure _ w => w.getLsbD 15
  | .hookDmaStop _ w => !w.getLsbD 15
  | .hookTmrStart _ w => w.getLsbD 7
  | .hookTmrStop _ w => !w.getLsbD 7
  | .hookIrqSeten _ | .hookIrqAck _ | .hookIrqSetime _ | .bgRefReload _ _ _ => true

end Sys2Proof
end

