-- ==== Sys2Proof/Decode.lean ====
section
/-! DEFINITION. The decoder, total on any raw operation, and the encoder, both from the operation map of
`30_encoding.md` R120 (`opnum` and operand order) and the hook table of R103. -/

set_option Elab.async false

namespace Sys2Proof

/-- Why a raw operation names no operation. -/
inductive DecodeError where
  /-- The `opnum` is not in the operation map (R112). -/
  | unknownOpnum (opnum : Nat)
  /-- Bits stand above the last operand: they are no operand's (R101; log 5). -/
  | trailingBits
  /-- The offset is not that of a hook register (R103). -/
  | noHook (off : Nat)
  deriving DecidableEq, Repr

/-! ### The operand stream: fields from bit 0 up, each of its operand's width (R101; log 4) -/

/-- The first `n` bits of an operand stream. -/
def fieldLow (n r : Nat) : BitVec n := BitVec.ofNat n r

/-- What follows the first `n` bits. -/
def fieldRest (n r : Nat) : Nat := r / 2 ^ n

/-- An `n`-bit field followed by `r`. -/
def fieldCons {n : Nat} (v : BitVec n) (r : Nat) : Nat := v.toNat + 2 ^ n * r

/-- A 1-bit operand. -/
def fieldFlag (r : Nat) : Bool := (fieldLow 1 r).getLsbD 0

/-- The operation `i`, if nothing stands after its operands. -/
def fieldEnd (r : Nat) (i : Instr) : Except DecodeError Instr := if r = 0 then .ok i else .error .trailingBits

/-- An operation with one byte operand. -/
def decodeByteOp (r : Nat) (mk : Byte → Instr) : Except DecodeError Instr :=
  fieldEnd (fieldRest 8 r) (mk (fieldLow 8 r))

/-- A bus read: one 32-bit address (R102). -/
def decodeReadOp (r : Nat) (mk : Word → Instr) : Except DecodeError Instr :=
  fieldEnd (fieldRest 32 r) (mk (fieldLow 32 r))

/-- A bus write: a 32-bit address and `n` bits of data (R102). -/
def decodeWriteOp (n r : Nat) (mk : Word → BitVec n → Instr) : Except DecodeError Instr :=
  fieldEnd (fieldRest n (fieldRest 32 r)) (mk (fieldLow 32 r) (fieldLow n (fieldRest 32 r)))

/-- A 2-bit layer number and a line (R250, R260). -/
def decodeLayerOp (r : Nat) (mk : BitVec 2 → Byte → Instr) : Except DecodeError Instr :=
  fieldEnd (fieldRest 8 (fieldRest 2 r)) (mk (fieldLow 2 r) (fieldLow 8 (fieldRest 2 r)))

/-- `IRQ_SETEN s, b` (R152). -/
def decodeSeten (r : Nat) : Except DecodeError Instr :=
  fieldEnd (fieldRest 1 (fieldRest 8 r)) (.irqSeten (fieldLow 8 r) (fieldFlag (fieldRest 8 r)))

/-- `IRQ_SETIME b` (R157). -/
def decodeSetime (r : Nat) : Except DecodeError Instr := fieldEnd (fieldRest 1 r) (.irqSetime (fieldFlag r))

/-- `DMA_CONFIGURE ch, src, dst, count, flags` (R181). -/
def decodeConfigure (r : Nat) : Except DecodeError Instr :=
  let r1 := fieldRest 8 r
  let r2 := fieldRest 32 r1
  let r3 := fieldRest 32 r2
  let r4 := fieldRest 16 r3
  fieldEnd (fieldRest 16 r4)
    (.dmaConfigure (fieldLow 8 r) (fieldLow 32 r1) (fieldLow 32 r2) (fieldLow 16 r3) (fieldLow 16 r4))

/-- `TMR_START ch, reload, prescaler, cascade, irqEnable` (R211). -/
def decodeTmrStart (r : Nat) : Except DecodeError Instr :=
  let r1 := fieldRest 8 r
  let r2 := fieldRest 16 r1
  let r3 := fieldRest 2 r2
  let r4 := fieldRest 1 r3
  fieldEnd (fieldRest 1 r4) (.tmrStart (fieldLow 8 r) (fieldLow 16 r1) (fieldLow 2 r2) (fieldFlag r3) (fieldFlag r4))

/-- The operation map (R120): `opnum` and the operand stream `r` after it. -/
def decodePort (opnum r : Nat) : Except DecodeError Instr :=
  match opnum with
  | 0x01 => fieldEnd r .advance
  | 0x02 => fieldEnd (fieldRest 16 r) (.haltuntil (fieldLow 16 r))
  | 0x03 => fieldEnd r .haltvbl
  | 0x04 => fieldEnd r .halt
  | 0x10 => decodeSeten r
  | 0x11 => decodeByteOp r .irqRaise
  | 0x12 => decodeByteOp r .irqAck
  | 0x13 => decodeSetime r
  | 0x14 => decodeByteOp r .irqDeliver
  | 0x15 => fieldEnd r .irqDispatch
  | 0x20 => decodeConfigure r
  | 0x21 => decodeByteOp r .dmaStop
  | 0x22 => fieldEnd r .dmaFireHblank
  | 0x23 => fieldEnd r .dmaFireVblank
  | 0x24 => decodeByteOp r .dmaXfer
  | 0x30 => decodeTmrStart r
  | 0x31 => decodeByteOp r .tmrStop
  | 0x32 => fieldEnd r .tmrTickline
  | 0x33 => decodeByteOp r .tmrTick
  | 0x34 => fieldEnd (fieldRest 32 r) (.tmrMscfg (fieldLow 32 r))
  | 0x40 => decodeByteOp r .ppuRenderline
  | 0x41 => fieldEnd r .ppuFramestart
  | 0x42 => decodeLayerOp r .ppuBgText
  | 0x43 => decodeLayerOp r .ppuBgAffine
  | 0x44 => decodeByteOp r .ppuBgBitmap3
  | 0x45 => decodeByteOp r .ppuBgBitmap4
  | 0x46 => decodeByteOp r .ppuBgBitmap5
  | 0x47 => decodeByteOp r .ppuObj
  | 0x48 => fieldEnd r .ppuSort
  | 0x49 => fieldEnd (fieldRest 8 (fieldRest 8 r)) (.ppuWindow (fieldLow 8 r) (fieldLow 8 (fieldRest 8 r)))
  | 0x4A => decodeByteOp r .ppuEffect
  | 0x4B => fieldEnd r .ppuGreenswap
  | 0x4C => decodeByteOp r .ppuCommit
  | 0x4D => fieldEnd r .ppuSwap
  | 0x4E => fieldEnd r .ppuGetframe
  | 0x50 => decodeReadOp r .rd8
  | 0x51 => decodeReadOp r .rd16
  | 0x52 => decodeReadOp r .rd32
  | 0x54 => decodeWriteOp 8 r .wr8
  | 0x55 => decodeWriteOp 16 r .wr16
  | 0x56 => decodeWriteOp 32 r .wr32
  | n => .error (.unknownOpnum n)

/-- A write of DMAchCNT_H: a configure when bit 15 of the merged word is 1, else a stop (R103). -/
def decodeDmaHook (ch : BitVec 2) (w : Half) : Instr :=
  if w.getLsbD 15 then .hookDmaConfigure ch w else .hookDmaStop ch w

/-- A write of TMchCNT_H: a start when bit 7 of the merged word is 1, else a stop (R103). -/
def decodeTmrHook (ch : BitVec 2) (w : Half) : Instr :=
  if w.getLsbD 7 then .hookTmrStart ch w else .hookTmrStop ch w

/-- The hook table (R103) by register offset. -/
def decodeHook (off : Nat) (w : Half) : Except DecodeError Instr :=
  match off with
  | 0x0BA => .ok (decodeDmaHook 0 w)
  | 0x0C6 => .ok (decodeDmaHook 1 w)
  | 0x0D2 => .ok (decodeDmaHook 2 w)
  | 0x0DE => .ok (decodeDmaHook 3 w)
  | 0x102 => .ok (decodeTmrHook 0 w)
  | 0x106 => .ok (decodeTmrHook 1 w)
  | 0x10A => .ok (decodeTmrHook 2 w)
  | 0x10E => .ok (decodeTmrHook 3 w)
  | 0x200 => .ok (.hookIrqSeten w)
  | 0x202 => .ok (.hookIrqAck w)
  | 0x208 => .ok (.hookIrqSetime w)
  | 0x028 => .ok (.bgRefReload .bg2x false w)
  | 0x02A => .ok (.bgRefReload .bg2x true w)
  | 0x02C => .ok (.bgRefReload .bg2y false w)
  | 0x02E => .ok (.bgRefReload .bg2y true w)
  | 0x038 => .ok (.bgRefReload .bg3x false w)
  | 0x03A => .ok (.bgRefReload .bg3x true w)
  | 0x03C => .ok (.bgRefReload .bg3y false w)
  | 0x03E => .ok (.bgRefReload .bg3y true w)
  | o => .error (.noHook o)

/-- The operation a raw operation names (R100). -/
def decode : RawOp → Except DecodeError Instr
  | .port bits => decodePort (bits % 256) (bits / 256)
  | .hook off w => decodeHook off w

/-- A list of bytes, the first the least significant, as the number a `RawOp.port` carries. -/
def bitsOfBytes : List Byte → Nat
  | [] => 0
  | b :: bs => b.toNat + 256 * bitsOfBytes bs

/-- The operation a list of bytes names: the bytes of its number, little-endian (log 4). -/
def decodeBytes (bs : List Byte) : Except DecodeError Instr := decode (.port (bitsOfBytes bs))

/-- The host's question of one opcode-table row: `nbits` bits of the operation, the bits above them 0.
A row of format `HOOK` gives the written word without the register that selects the operation, so no such word
names an operation by itself (log 6). -/
def decodeTableWord (nbits w : Nat) : Option Instr :=
  match decode (.port (w % 2 ^ nbits)) with
  | .ok i => some i
  | .error _ => none

/-! ### The encoder -/

/-- An operation of formats `OP` and `BUS`: its number and its operand stream. -/
def encodePort (opnum : Byte) (r : Nat) : RawOp := .port (fieldCons opnum r)

/-- A 1-bit operand. -/
def flagBit (b : Bool) : BitVec 1 := if b then 1 else 0

/-- The offset of DMAchCNT_H (R103). -/
def encodeDmaCntH (ch : BitVec 2) : Nat := 0x0BA + 12 * ch.toNat

/-- The offset of TMchCNT_H (R103). -/
def encodeTmrCntH (ch : BitVec 2) : Nat := 0x102 + 4 * ch.toNat

/-- The offset of a half of a reference-point register (R103). -/
def encodeBgRef (r : BgRef) (hi : Bool) : Nat :=
  (match r with
    | .bg2x => 0x028
    | .bg2y => 0x02C
    | .bg3x => 0x038
    | .bg3y => 0x03C) + (if hi then 2 else 0)

/-- The raw form of an operation, from R120 and R103. -/
def encode : Instr → RawOp
  | .advance => encodePort 0x01 0
  | .haltuntil m => encodePort 0x02 (fieldCons m 0)
  | .haltvbl => encodePort 0x03 0
  | .halt => encodePort 0x04 0
  | .irqSeten s b => encodePort 0x10 (fieldCons s (fieldCons (flagBit b) 0))
  | .irqRaise s => encodePort 0x11 (fieldCons s 0)
  | .irqAck s => encodePort 0x12 (fieldCons s 0)
  | .irqSetime b => encodePort 0x13 (fieldCons (flagBit b) 0)
  | .irqDeliver s => encodePort 0x14 (fieldCons s 0)
  | .irqDispatch => encodePort 0x15 0
  | .dmaConfigure ch src dst count flags =>
    encodePort 0x20 (fieldCons ch (fieldCons src (fieldCons dst (fieldCons count (fieldCons flags 0)))))
  | .dmaStop ch => encodePort 0x21 (fieldCons ch 0)
  | .dmaFireHblank => encodePort 0x22 0
  | .dmaFireVblank => encodePort 0x23 0
  | .dmaXfer ch => encodePort 0x24 (fieldCons ch 0)
  | .tmrStart ch reload p c q =>
    encodePort 0x30 (fieldCons ch (fieldCons reload (fieldCons p (fieldCons (flagBit c) (fieldCons (flagBit q) 0)))))
  | .tmrStop ch => encodePort 0x31 (fieldCons ch 0)
  | .tmrTickline => encodePort 0x32 0
  | .tmrTick ch => encodePort 0x33 (fieldCons ch 0)
  | .tmrMscfg ms => encodePort 0x34 (fieldCons ms 0)
  | .ppuRenderline y => encodePort 0x40 (fieldCons y 0)
  | .ppuFramestart => encodePort 0x41 0
  | .ppuBgText n y => encodePort 0x42 (fieldCons n (fieldCons y 0))
  | .ppuBgAffine k y => encodePort 0x43 (fieldCons k (fieldCons y 0))
  | .ppuBgBitmap3 y => encodePort 0x44 (fieldCons y 0)
  | .ppuBgBitmap4 y => encodePort 0x45 (fieldCons y 0)
  | .ppuBgBitmap5 y => encodePort 0x46 (fieldCons y 0)
  | .ppuObj y => encodePort 0x47 (fieldCons y 0)
  | .ppuSort => encodePort 0x48 0
  | .ppuWindow x y => encodePort 0x49 (fieldCons x (fieldCons y 0))
  | .ppuEffect x => encodePort 0x4A (fieldCons x 0)
  | .ppuGreenswap => encodePort 0x4B 0
  | .ppuCommit y => encodePort 0x4C (fieldCons y 0)
  | .ppuSwap => encodePort 0x4D 0
  | .ppuGetframe => encodePort 0x4E 0
  | .rd8 a => encodePort 0x50 (fieldCons a 0)
  | .rd16 a => encodePort 0x51 (fieldCons a 0)
  | .rd32 a => encodePort 0x52 (fieldCons a 0)
  | .wr8 a d => encodePort 0x54 (fieldCons a (fieldCons d 0))
  | .wr16 a d => encodePort 0x55 (fieldCons a (fieldCons d 0))
  | .wr32 a d => encodePort 0x56 (fieldCons a (fieldCons d 0))
  | .hookDmaConfigure ch w => .hook (encodeDmaCntH ch) w
  | .hookDmaStop ch w => .hook (encodeDmaCntH ch) w
  | .hookTmrStart ch w => .hook (encodeTmrCntH ch) w
  | .hookTmrStop ch w => .hook (encodeTmrCntH ch) w
  | .hookIrqSeten w => .hook 0x200 w
  | .hookIrqAck w => .hook 0x202 w
  | .hookIrqSetime w => .hook 0x208 w
  | .bgRefReload r hi w => .hook (encodeBgRef r hi) w

end Sys2Proof
end

