-- ==== Sys2Proof/Machine/State.lean ====
section
/-! DEFINITION. The state of the block, every piece `10_state.md` gives it, the suspended operations
(`60_exceptions.md` R388), the ports, and the reasons a step can stop. -/

set_option Elab.async false

namespace Sys2Proof.Machine

/-- The latches of one DMA channel (`10_state.md` R51). -/
structure DmaLatch where
  srcCur : Word
  dstCur : Word
  cntCur : BitVec 17
  deriving DecidableEq, Repr

/-- The hidden state of one timer (`10_state.md` R52); `reload` and `counter` are the two faces of TMchCNT_L (R29). -/
structure Timer where
  reload : Half
  counter : Half
  prescAcc : BitVec 10
  deriving DecidableEq, Repr

/-- The reference-point latches (`10_state.md` R53). -/
structure RefLatches where
  bgx2 : BitVec 28
  bgy2 : BitVec 28
  bgx3 : BitVec 28
  bgy3 : BitVec 28
  deriving DecidableEq, Repr

/-- A sprite pixel of a bucket: its colour and its `semi` mark (`10_state.md` R54). -/
structure ObjPixel where
  colour : Colour
  semi : Bool
  deriving DecidableEq, Repr

/-- A layer of the draw order (`46_ppu_compose.md` R300). -/
inductive Layer where
  | obj (p : Fin 4)
  | bg (n : Fin 4)
  | backdrop
  deriving DecidableEq, Repr

/-- The line buffers (`10_state.md` R54) and the two values of the line pipeline that `PPU_EFFECT` uses
(`46_ppu_compose.md` R310); `none` is `Transparent` (log 8). -/
structure LineBuffers where
  bgpix : Four (List (Option Colour))
  objpix : Four (List (Option ObjPixel))
  objwin : List Bool
  line : List Colour
  order : List Layer
  wm : BitVec 6
  deriving DecidableEq, Repr

/-- The fault codes of `60_exceptions.md` R370. -/
inductive FaultCode where
  | invalidChannel
  | dmaMisaligned
  | dmaRomSource
  | zeroWaitMask
  | dmaStepMode
  | dmaIntoControl
  | busError
  | hostMisaligned
  | invalidSource
  deriving DecidableEq, Repr

/-- A dispatch frame (`10_state.md` R58). -/
structure DispatchFrame where
  source : Fin nIrq
  savedIme : Bool
  touched : Bool
  deriving DecidableEq, Repr

/-- A wait frame (`10_state.md` R59). -/
structure WaitFrame where
  mask : BitVec 14
  seen : BitVec 14
  deriving DecidableEq, Repr

/-- Where a suspended `ADVANCE` goes on (`40_scheduler.md` R131, R132). -/
inductive AdvancePoint where
  /-- At line 11: the VBlank raise. -/
  | vblankRaise
  /-- At line 12: the HBlank point. -/
  | hblankPoint
  /-- At line 14: the VCOUNT compare. -/
  | vcountCompare
  /-- At line 15: the HBlank raise. -/
  | hblankRaise
  /-- At line 16: the timers. -/
  | timerTicks
  deriving DecidableEq, Repr

/-- The pseudocode position of a suspended operation (`60_exceptions.md` R388; log 1). -/
inductive Kont where
  /-- `IRQ_DELIVER` inside an interactive `HostHandler(s)`: the host's events are the handler's (R156; log 2). -/
  | handlerReturn
  /-- `IRQ_DELIVER` inside a `HostHandler(s)` that is a program: the operations it has still to issue (R156; log 2). -/
  | handlerProgram (ops : List RawOp)
  /-- `ADVANCE` of line `line`, at a later pseudocode line (R132). -/
  | advance (line : BitVec 8) (at_ : AdvancePoint)
  /-- A fire operation with the last `left` channels still to look at (R187, R188). -/
  | fire (timing : BitVec 2) (left : Nat)
  /-- `IRQ_DISPATCH`, to search again (R158). -/
  | dispatch
  /-- `TMR_TICK` of channel `ch`, at its cascade (R214). -/
  | tickCascade (ch : Fin 4)
  /-- `TMR_TICKLINE` with `slots` (cycle, channel) pairs left (R213). -/
  | tickLine (slots : Nat)
  /-- `WR32` to the register file, at its second halfword (R348). -/
  | writeHigh (off : Nat) (data : Half)
  /-- `HALTUNTIL` at the head of its loop (R133). -/
  | haltLoop
  /-- `HALTUNTIL` at the call of `ADVANCE`, after a collaborator's raise (log 20). -/
  | haltAdvance
  /-- `HALTUNTIL` at the call of `IRQ_DISPATCH`. -/
  | haltPoll
  /-- `HALTUNTIL` at the test of its loop. -/
  | haltTest
  deriving DecidableEq, Repr

/-- The result value of an operation (`00_scope.md` R6; log 9). -/
inductive Result where
  | none
  | byte (v : Byte)
  | half (v : Half)
  | word (v : Word)
  /-- `TMR_MSCFG`: the (selector, reload) pair (R217). -/
  | timerPeriod (selector : BitVec 2) (reload : Half)
  /-- `TMR_MSCFG`: `Error(TimerPeriodUnrepresentable)`, with the `ms` operand (R217, R370 E1). -/
  | timerPeriodUnrepresentable (ms : Word)
  /-- `PPU_SORT` (R300). -/
  | order (layers : List Layer)
  /-- `PPU_WINDOW` (R305). -/
  | mask (wm : BitVec 6)
  /-- `PPU_EFFECT` (R310). -/
  | colour (c : Colour)
  /-- `PPU_GETFRAME`: a reference to one of the two frame buffers (R322). -/
  | frame (which : BitVec 1)
  deriving DecidableEq, Repr

/-- An event on the host's ports (`00_scope.md` R4, R7; log 2). -/
inductive HostEvent where
  /-- The host issues an operation. -/
  | op (raw : RawOp)
  /-- The running interactive handler returns (`60_exceptions.md` R378). -/
  | handlerReturn
  /-- System reset (`70_reset_and_hazards.md` R410). -/
  | reset
  deriving DecidableEq, Repr

/-- The state of the machine. -/
structure State where
  /-- The parameters (`00_scope.md` R2); no step changes them. -/
  cfg : Config
  /-- The register file's stored halfwords by even offset (R10, R11); an unlisted one is 0. -/
  regs : Store Half
  /-- Palette memory by offset (R40). -/
  pal : Memory
  /-- Video memory by offset (R41). -/
  vram : Memory
  /-- Object attribute memory by offset (R42). -/
  oam : Memory
  /-- External memory by system-bus address (`20_memory.md` R71, R72). -/
  ext : Memory
  /-- The index of the line the next `ADVANCE` processes (R50). -/
  frameClock : BitVec 8
  /-- The DMA latches (R51). -/
  dma : Four DmaLatch
  /-- The timers' hidden state (R52). -/
  tmr : Four Timer
  /-- The reference-point latches (R53). -/
  refs : RefLatches
  /-- The background mode `PPU_FRAMESTART` sampled, used when `MODE_LATCH` = per_frame (R242; log 15). -/
  frameMode : BitVec 3
  /-- The line buffers (R54). -/
  lb : LineBuffers
  /-- Frame buffer 0: its rows (R55). -/
  fb0 : List (List Colour)
  /-- Frame buffer 1: its rows (R55). -/
  fb1 : List (List Colour)
  /-- The index of the frame buffer being composited (R55). -/
  active : BitVec 1
  /-- Empty, or the code of the first fault (R57). -/
  faulted : Option FaultCode
  /-- The dispatch stack, innermost frame first (R58). -/
  dispatch : List DispatchFrame
  /-- The wait stack, innermost frame first (R59). -/
  waits : List WaitFrame
  /-- The suspended operations, innermost first (R388; log 1). -/
  kont : List Kont
  /-- The value the latest operation with a result gave (R6; log 9). -/
  result : Result
  /-- The host's pending events, next first (log 2). -/
  host : List HostEvent
  /-- The collaborators' pending raises, one item for each scanline of a halt (log 20). -/
  extRaises : List (Option Byte)
  /-- The model's own: how many operations have taken free values (log 27). -/
  freeCount : Nat
  deriving DecidableEq, Repr

/-- The faults of `60_exceptions.md` R370. Each carries `info` and the state the fault leaves
(R372 (3); log 13), whose `faulted` is set. All are the spec's own faults, so stopping is safe. -/
inductive Fault where
  /-- Code 1, by the DMA and timer operations with a channel operand: the operand is above 3 (R108). Safe. -/
  | invalidChannel (info : Word) (left : State)
  /-- Code 2, by `DMA_CONFIGURE`: an address is not a multiple of the unit (R181). Safe. -/
  | dmaMisaligned (info : Word) (left : State)
  /-- Code 3, by `DMA_CONFIGURE` and `DMA_XFER`: channel 0, 1 or 2 reads cartridge ROM (R181, R186). Safe. -/
  | dmaRomSource (info : Word) (left : State)
  /-- Code 4, by `HALTUNTIL` and `HALT`: no source in the mask (R133). Safe. -/
  | zeroWaitMask (info : Word) (left : State)
  /-- Code 5, by `DMA_CONFIGURE`: an invalid step mode (R184). Safe. -/
  | dmaStepMode (info : Word) (left : State)
  /-- Code 6, by `DMA_XFER`: a unit falls on a control register (R84). Safe. -/
  | dmaIntoControl (info : Word) (left : State)
  /-- Code 7, by `DMA_XFER` and the bus accesses: nothing answers at the address (R72, R340). Safe. -/
  | busError (info : Word) (left : State)
  /-- Code 8, by the bus accesses: a misaligned host access (R340). Safe. -/
  | hostMisaligned (info : Word) (left : State)
  /-- Code 9, by the interrupt operations with a source operand: the operand is above 13 (R108). Safe. -/
  | invalidSource (info : Word) (left : State)
  /-- No code, by the step: `faulted` is set and only reset is left (R372 (4), R426). Safe. -/
  | stuck (code : FaultCode)
  deriving DecidableEq, Repr

/-- Why the model gives a step no meaning. -/
inductive Refusal where
  /-- By the dispatch, for an operation whose meaning is not written. Safe. -/
  | notModelled (mnemonic : String)
  /-- By the step: what the host issues is no operation: an unknown `opnum` (`30_encoding.md` R112: the model refuses it), no
  hook register (R103), or bits that are no operand's (log 5). No value of an operand is refused. Safe. -/
  | noOperation (why : DecodeError)
  /-- By the step: the host returns from a handler, and none is running (R378). Safe. -/
  | returnOutsideHandler
  /-- By the step: a reset while an operation is in progress (R410). Safe. -/
  | resetInsideOperation
  deriving DecidableEq, Repr

/-- Empty line buffers: every pixel `Transparent`, every bit and colour 0 (log 8). -/
def LineBuffers.cleared : LineBuffers where
  bgpix := Four.all (List.replicate screenW none)
  objpix := Four.all (List.replicate screenW none)
  objwin := List.replicate screenW false
  line := List.replicate screenW 0
  order := []
  wm := 0

/-- A black frame buffer (`10_state.md` R62). -/
def blackFrame : List (List Colour) := List.replicate screenH (List.replicate screenW 0)

/-- The machine right after reset, for the parameters `cfg` (`10_state.md` R62, `70_reset_and_hazards.md` R410). -/
def State.resetWith (cfg : Config) : State where
  cfg := cfg
  regs := []
  pal := []
  vram := []
  oam := []
  ext := []
  frameClock := 0
  dma := ⟨⟨0, 0, BitVec.ofNat 17 cfg.dmaCountMax.c0⟩, ⟨0, 0, BitVec.ofNat 17 cfg.dmaCountMax.c1⟩,
    ⟨0, 0, BitVec.ofNat 17 cfg.dmaCountMax.c2⟩, ⟨0, 0, BitVec.ofNat 17 cfg.dmaCountMax.c3⟩⟩
  tmr := Four.all ⟨0, 0, 0⟩
  refs := ⟨0, 0, 0, 0⟩
  frameMode := 0
  lb := LineBuffers.cleared
  fb0 := blackFrame
  fb1 := blackFrame
  active := 0
  faulted := none
  dispatch := []
  waits := []
  kont := []
  result := .none
  host := []
  extRaises := []
  freeCount := 0

/-- The machine right after reset, with the decided parameters (`00_scope.md` R2). -/
def State.reset : State := State.resetWith Config.decided

end Sys2Proof.Machine
end

