-- ==== Sys2Proof/Machine/Ops.lean ====
section
/-! DEFINITION. The shared operations: bit fields, the sparse stores, the register map and its accessors, the named
updates of the state, faults, the sequencing of operations that a handler may suspend, and the delivery of an
interrupt with the return from its handler. -/

set_option Elab.async false

namespace Sys2Proof

/-! ### Bit fields (`00_scope.md` section 6) -/

/-- `v[lo+n-1:lo]` as an unsigned number. -/
def fieldOf {w : Nat} (v : BitVec w) (lo n : Nat) : Nat := v.toNat / 2 ^ lo % 2 ^ n

/-- `v` with bit `i` set to `b`. -/
def withBit {w : Nat} (v : BitVec w) (i : Nat) (b : Bool) : BitVec w :=
  if b then v ||| (1#w <<< i) else v &&& ~~~(1#w <<< i)

/-! ### Sparse stores -/

/-- The value at key `a`; an unlisted key reads as `dflt a`. -/
def Store.get {α : Type} (dflt : Nat → α) : Store α → Nat → α
  | [], a => dflt a
  | (k, v) :: m, a => if k = a then v else Store.get dflt m a

/-- `m` with the entry of key `a` put in its place. -/
def Store.insert {α : Type} : Store α → Nat → α → Store α
  | [], a, v => [(a, v)]
  | (k, w) :: m, a, v =>
    if a < k then (a, v) :: (k, w) :: m
    else if a = k then (a, v) :: m
    else (k, w) :: Store.insert m a v

/-- `m` without an entry of key `a`. -/
def Store.erase {α : Type} (m : Store α) (a : Nat) : Store α := m.filter (fun c => c.1 != a)

/-- A write: the value an unlisted key reads as removes the entry, so the canonical form is kept. -/
def Store.set {α : Type} [DecidableEq α] (dflt : Nat → α) (m : Store α) (a : Nat) (v : α) : Store α :=
  if v = dflt a then Store.erase m a else Store.insert m a v

/-- The canonical form: keys strictly rising, and no entry equal to what its key reads as when unlisted. -/
abbrev Store.wf {α : Type} [DecidableEq α] (dflt : Nat → α) (m : Store α) : Prop :=
  m.Pairwise (fun x y => x.1 < y.1) ∧ ∀ c ∈ m, c.2 ≠ dflt c.1

/-- The canonical form of a byte memory. -/
abbrev Memory.wf (dflt : Nat → Byte) (m : Memory) : Prop := Store.wf dflt m

/-- `n` bytes from key `a`, little-endian (`20_memory.md` R70). -/
def readLE (get : Nat → Byte) : Nat → Nat → Nat
  | 0, _ => 0
  | n + 1, a => (get a).toNat + 256 * readLE get n (a + 1)

/-- The low `n` bytes of `v` written from key `a`, little-endian (R70). -/
def writeLE (dflt : Nat → Byte) : Nat → Memory → Nat → Nat → Memory
  | 0, m, _, _ => m
  | n + 1, m, a, v => writeLE dflt n (Store.set dflt m a (BitVec.ofNat 8 v)) (a + 1) (v / 256)

/-- The byte of an image at an offset; one not listed is 0 (`00_scope.md` R2 `INIT_IMAGE`). -/
def imageByte (img : List Host.Cell) (a : Nat) : Byte := Store.get (fun _ => 0) img a

/-- The external range that holds address `a`, if one does (`20_memory.md` R72). DESIGN CHOICE (log 16): the spec does not say
which range a byte of two overlapping ranges follows; here the first of the list gives its initial byte and its writable
flag. -/
def Config.rangeOf (cfg : Config) (a : Nat) : Option ExtRange :=
  cfg.extMem.find? (fun r => decide (r.base ≤ a) && decide (a < r.base + r.size))

/-- What an external byte that nothing has written reads as: its range's initial byte (R72; log 16). -/
def Config.extInit (cfg : Config) (a : Nat) : Byte :=
  match cfg.rangeOf a with
  | some r => imageByte r.init a
  | none => 0

/-- The handler of source `i` (`41_interrupts.md` R156). -/
def Config.handlerOf (cfg : Config) (i : Fin nIrq) : Handler := cfg.handlers.getD i.val .absent

/-- The window an address lies in (`20_memory.md` R71), with the offset in it. -/
inductive Window where
  | reg (off : Nat)
  | pal (off : Nat)
  | vram (off : Nat)
  | oam (off : Nat)
  | ext
  deriving DecidableEq, Repr

/-- Routing by address (R71): the four windows are not mirrored. -/
def Config.route (cfg : Config) (addr : Word) : Window :=
  let a := addr.toNat
  if cfg.regBase ≤ a ∧ a < cfg.regBase + cfg.regfileSize then .reg (a - cfg.regBase)
  else if cfg.palBase ≤ a ∧ a < cfg.palBase + cfg.palSize then .pal (a - cfg.palBase)
  else if cfg.vramBase ≤ a ∧ a < cfg.vramBase + cfg.vramSize then .vram (a - cfg.vramBase)
  else if cfg.oamBase ≤ a ∧ a < cfg.oamBase + cfg.oamSize then .oam (a - cfg.oamBase)
  else .ext

/-! ### The register map (`10_state.md` R11): offsets in the register file -/

namespace Reg

def dispcnt : Nat := 0x000
def greenswap : Nat := 0x002
def dispstat : Nat := 0x004
def vcount : Nat := 0x006
def bgcnt (n : Fin 4) : Nat := 0x008 + 2 * n.val
def bghofs (n : Fin 4) : Nat := 0x010 + 4 * n.val
def bgvofs (n : Fin 4) : Nat := 0x012 + 4 * n.val
/-- The affine registers of BG2 and BG3 start at 0x020 and 0x030; `k3` says BG3. -/
def affine (k3 : Bool) : Nat := if k3 then 0x030 else 0x020
def bgpa (k3 : Bool) : Nat := affine k3
def bgpb (k3 : Bool) : Nat := affine k3 + 2
def bgpc (k3 : Bool) : Nat := affine k3 + 4
def bgpd (k3 : Bool) : Nat := affine k3 + 6
/-- The low half of a reference-point register (R19). -/
def bgref : BgRef → Nat
  | .bg2x => 0x028
  | .bg2y => 0x02C
  | .bg3x => 0x038
  | .bg3y => 0x03C
/-- WIN0H or WIN1H. -/
def winh (w1 : Bool) : Nat := if w1 then 0x042 else 0x040
/-- WIN0V or WIN1V. -/
def winv (w1 : Bool) : Nat := if w1 then 0x046 else 0x044
def winin : Nat := 0x048
def winout : Nat := 0x04A
def mosaic : Nat := 0x04C
def bldcnt : Nat := 0x050
def bldalpha : Nat := 0x052
def bldy : Nat := 0x054
def dmaSad (ch : Fin 4) : Nat := 0x0B0 + 12 * ch.val
def dmaDad (ch : Fin 4) : Nat := 0x0B4 + 12 * ch.val
def dmaCntL (ch : Fin 4) : Nat := 0x0B8 + 12 * ch.val
def dmaCntH (ch : Fin 4) : Nat := 0x0BA + 12 * ch.val
def tmrCntL (ch : Fin 4) : Nat := 0x100 + 4 * ch.val
def tmrCntH (ch : Fin 4) : Nat := 0x102 + 4 * ch.val
def ie : Nat := 0x200
/-- IF. -/
def irf : Nat := 0x202
def ime : Nat := 0x208

end Reg

namespace Machine

/-! ### Reading the state -/

/-- `x[NAME]`: the stored halfword at an offset of the register file. -/
def State.x (s : State) (o : Nat) : Half := Store.get (fun _ => 0) s.regs o

/-- A 32-bit register: its two stored halves (R10). -/
def State.x32 (s : State) (o : Nat) : Word := s.x (o + 2) ++ s.x o

/-- What an unlisted palette byte reads as. -/
def State.palInit (s : State) : Nat → Byte := imageByte s.cfg.initPal
/-- What an unlisted VRAM byte reads as. -/
def State.vramInit (s : State) : Nat → Byte := imageByte s.cfg.initVram
/-- What an unlisted OAM byte reads as. -/
def State.oamInit (s : State) : Nat → Byte := imageByte s.cfg.initOam
/-- What an external byte that nothing has written reads as. -/
def State.extInit (s : State) : Nat → Byte := s.cfg.extInit

/-- The palette byte at an offset. -/
def State.palByte (s : State) (a : Nat) : Byte := Store.get s.palInit s.pal a
/-- The VRAM byte at an offset. -/
def State.vramByte (s : State) (a : Nat) : Byte := Store.get s.vramInit s.vram a
/-- The OAM byte at an offset. -/
def State.oamByte (s : State) (a : Nat) : Byte := Store.get s.oamInit s.oam a
/-- The external byte at a system-bus address. -/
def State.extByte (s : State) (a : Nat) : Byte := Store.get s.extInit s.ext a

/-- `Vram8(a)` (`20_memory.md` R74). -/
def State.vram8 (s : State) (a : Nat) : Nat := (s.vramByte (a % s.cfg.vramSize)).toNat
/-- `Vram16(a)` (R74). -/
def State.vram16 (s : State) (a : Nat) : Nat := s.vram8 a + 256 * s.vram8 (a + 1)
/-- `Pal16(a)`: bit 15 dropped (R74). -/
def State.pal16 (s : State) (a : Nat) : Colour :=
  BitVec.ofNat 15 ((s.palByte (a % s.cfg.palSize)).toNat + 256 * (s.palByte ((a + 1) % s.cfg.palSize)).toNat)
/-- `Oam16(a)` (R74). -/
def State.oam16 (s : State) (a : Nat) : Half :=
  BitVec.ofNat 16 ((s.oamByte (a % s.cfg.oamSize)).toNat + 256 * (s.oamByte ((a + 1) % s.cfg.oamSize)).toNat)

/-! ### Named updates of the state -/

/-- `x[NAME] <- v`: a stored halfword, no hook (`00_scope.md` section 6). -/
@[simps] def State.setReg (s : State) (o : Nat) (v : Half) : State :=
  { s with regs := Store.set (fun _ => 0) s.regs o v }

/-- `n` bytes of the palette from an offset. -/
@[simps] def State.writePal (s : State) (n off v : Nat) : State :=
  { s with pal := writeLE s.palInit n s.pal off v }
/-- `n` bytes of VRAM from an offset. -/
@[simps] def State.writeVram (s : State) (n off v : Nat) : State :=
  { s with vram := writeLE s.vramInit n s.vram off v }
/-- `n` bytes of OAM from an offset. -/
@[simps] def State.writeOam (s : State) (n off v : Nat) : State :=
  { s with oam := writeLE s.oamInit n s.oam off v }
/-- `n` bytes of external memory from an address. -/
@[simps] def State.writeExt (s : State) (n a v : Nat) : State :=
  { s with ext := writeLE s.extInit n s.ext a v }

/-- The DMA latches of a channel. -/
@[simps] def State.setDma (s : State) (ch : Fin 4) (v : DmaLatch) : State := { s with dma := s.dma.set ch v }
/-- The hidden state of a timer. -/
@[simps] def State.setTmr (s : State) (ch : Fin 4) (v : Timer) : State := { s with tmr := s.tmr.set ch v }
/-- The reference-point latches. -/
@[simps] def State.setRefs (s : State) (v : RefLatches) : State := { s with refs := v }
/-- The line buffers. -/
@[simps] def State.setLb (s : State) (v : LineBuffers) : State := { s with lb := v }
/-- The result port. -/
@[simps] def State.setResult (s : State) (r : Result) : State := { s with result := r }
/-- The dispatch stack. -/
@[simps] def State.setDispatch (s : State) (d : List DispatchFrame) : State := { s with dispatch := d }
/-- The wait stack. -/
@[simps] def State.setWaits (s : State) (w : List WaitFrame) : State := { s with waits := w }
/-- The host's pending events. -/
@[simps] def State.setHost (s : State) (h : List HostEvent) : State := { s with host := h }
/-- The suspended operations. -/
@[simps] def State.setKont (s : State) (k : List Kont) : State := { s with kont := k }

/-- The operation takes free values: the next one takes others (log 27). -/
@[simps] def State.useFree (s : State) : State := { s with freeCount := s.freeCount + 1 }

/-- A free value: the one of kind `kind` at column `px` in this operation (log 27). -/
def State.freeAt (s : State) (px kind : Nat) : BitVec 32 := Config.freeValue s.freeCount (16 * px + kind)

/-- A 32-bit register written as its two halves. -/
def State.setReg32 (s : State) (o : Nat) (v : Word) : State :=
  (s.setReg o (v.setWidth 16)).setReg (o + 2) ((v >>> 16).setWidth 16)

/-- One bit of a register. -/
def State.setRegBit (s : State) (o i : Nat) (b : Bool) : State := s.setReg o (withBit (s.x o) i b)

/-! ### Faults (`60_exceptions.md` R370, R372) -/

/-- The state a fault leaves: as the pseudocode had made it, with `faulted` set if it was empty, and every enclosing
operation and handler ended: what a handler program had still to issue goes with its position (R372 (1) to (3)). The
host's own list stays: it is what the host does after the fault (log 13). -/
@[simps] def State.afterFault (s : State) (code : FaultCode) : State :=
  { s with faulted := s.faulted.or (some code), kont := [] }

/-- `raise Fault(code, info)` (R372). -/
def raiseFault (code : FaultCode) (info : Word) (s : State) : Fault :=
  match code with
  | .invalidChannel => .invalidChannel info (s.afterFault code)
  | .dmaMisaligned => .dmaMisaligned info (s.afterFault code)
  | .dmaRomSource => .dmaRomSource info (s.afterFault code)
  | .zeroWaitMask => .zeroWaitMask info (s.afterFault code)
  | .dmaStepMode => .dmaStepMode info (s.afterFault code)
  | .dmaIntoControl => .dmaIntoControl info (s.afterFault code)
  | .busError => .busError info (s.afterFault code)
  | .hostMisaligned => .hostMisaligned info (s.afterFault code)
  | .invalidSource => .invalidSource info (s.afterFault code)

/-- The numbers of the fault codes (R370). -/
def FaultCode.number : FaultCode → Nat
  | .invalidChannel => 1
  | .dmaMisaligned => 2
  | .dmaRomSource => 3
  | .zeroWaitMask => 4
  | .dmaStepMode => 5
  | .dmaIntoControl => 6
  | .busError => 7
  | .hostMisaligned => 8
  | .invalidSource => 9

/-! ### Sequencing (`60_exceptions.md` R388; log 1) -/

/-- How a piece of an operation ends. -/
inductive Run where
  /-- It is complete. -/
  | done (s : State)
  /-- It stops here for now; `ks` are the positions where it goes on, innermost first. -/
  | susp (s : State) (ks : List Kont)
  /-- It ends with a fault. -/
  | fault (f : Fault)
  deriving DecidableEq, Repr

/-- `r`, then `f`; if `r` is suspended, position `k` is where the rest goes on. -/
def Run.andThen (r : Run) (k : Kont) (f : State → Run) : Run :=
  match r with
  | .done s => f s
  | .susp s ks => .susp s (ks ++ [k])
  | .fault e => .fault e

/-- A piece that cannot be suspended. -/
def Run.ofExcept : Except Fault State → Run
  | .ok s => .done s
  | .error e => .fault e

/-- The outcome of a step (`00_scope.md` R6): the positions of a suspended operation go on top of those already there. -/
def Run.finish : Run → Host.Outcome State Fault Refusal
  | .done s => .next s
  | .susp s ks => .next (s.setKont (ks ++ s.kont))
  | .fault e => .fault e

/-! ### Delivering an interrupt, and returning from its handler (`41_interrupts.md` R155, R156) -/

/-- The bit of a 14-bit mask that stands for source `i`. -/
def sourceBit (i : Fin nIrq) : BitVec 14 := 1#14 <<< i.val

/-- `AckEvent(s)`: every wait frame records the source (R155). -/
def ackEvent (s : State) (i : Fin nIrq) : State :=
  s.setWaits (s.waits.map (fun w => { w with seen := w.seen ||| sourceBit i }))

/-- The master enable (`10_state.md` R33). -/
def State.ime (s : State) : Bool := (s.x Reg.ime).getLsbD 0

/-- `x[IME].ime <- b`, not marking any frame. -/
def State.setIme (s : State) (b : Bool) : State := s.setRegBit Reg.ime 0 b

/-- What follows `HostHandler(s)`: pop the frame, and restore the master enable unless the handler wrote it
(R156, `60_exceptions.md` R378). -/
def deliverReturn (s : State) : State :=
  match s.dispatch with
  | [] => s
  | f :: fs => if f.touched then s.setDispatch fs else (s.setDispatch fs).setIme f.savedIme

/-- What precedes `HostHandler(s)`: the pending bit is cleared, the acknowledge event recorded, a dispatch frame pushed
and, with `IME_ENTRY_CLEAR`, the master enable cleared (R156, `60_exceptions.md` R377). -/
def deliverEntry (s : State) (i : Fin nIrq) : State :=
  let s1 := ackEvent (s.setRegBit Reg.irf i.val false) i
  let s2 := s1.setDispatch ({ source := i, savedIme := s1.ime, touched := false } :: s1.dispatch)
  if s2.cfg.imeEntryClear then s2.setIme false else s2

/-- `IRQ_DELIVER(s)` for a source in range (R156). With no handler the delivery completes at once; with one, the handler
has control until it returns: a program issues its own operations, whatever the host's list holds (log 2). -/
def deliver (s : State) (i : Fin nIrq) : Run :=
  let s1 := deliverEntry s i
  match s1.cfg.handlerOf i with
  | .absent => .done (deliverReturn s1)
  | .program ops => .susp s1 [.handlerProgram ops]
  | .interactive => .susp s1 [.handlerReturn]

end Machine

end Sys2Proof
end

