-- ==== Sys2Proof/Machine/Flags.lean ====
section
/-! DEFINITION. The status flags of the block (`10_state.md` R61): the pending bits, the delivery condition, and the
flag bits of DISPSTAT. The block has no arithmetic condition codes. -/

set_option Elab.async false

namespace Sys2Proof.Machine

/-- Source `i` is pending: bit `i` of IF (`10_state.md` R32). -/
def State.pending (s : State) (i : Fin nIrq) : Bool := (s.x Reg.irf).getLsbD i.val

/-- The display sub-enable that gates source `i`; true for a source that has none (`10_state.md` R14). -/
def State.subEnabled (s : State) (i : Fin nIrq) : Bool :=
  match i.val with
  | 0 => (s.x Reg.dispstat).getLsbD 3
  | 1 => (s.x Reg.dispstat).getLsbD 4
  | 2 => (s.x Reg.dispstat).getLsbD 5
  | _ => true

/-- `Deliverable(s)` (`41_interrupts.md` R151). -/
def State.deliverable (s : State) (i : Fin nIrq) : Bool :=
  s.ime && (s.x Reg.ie).getLsbD i.val && s.subEnabled i

/-- The order in which the poll looks at the sources (`41_interrupts.md` R158). -/
def dispatchOrder : List (Fin nIrq) := [1, 2, 0, 3, 4, 5, 6, 7, 8, 9, 10, 11, 12, 13]

/-- The first source of the order that is pending and deliverable (R158). -/
def State.nextSource (s : State) : Option (Fin nIrq) :=
  dispatchOrder.find? (fun i => s.pending i && s.deliverable i)

/-- `x[VCOUNT].line` (`10_state.md` R15). -/
def State.line (s : State) : Nat := fieldOf (s.x Reg.vcount) 0 8

/-- `x[DISPSTAT].vcount_match` (`10_state.md` R14). -/
def State.vcountMatch (s : State) : Nat := fieldOf (s.x Reg.dispstat) 8 8

/-- `x[DISPSTAT].vblank_flag <- b` (R14). -/
def State.setVblankFlag (s : State) (b : Bool) : State := s.setRegBit Reg.dispstat 0 b

/-- `x[DISPSTAT].hblank_flag <- b` (R14). -/
def State.setHblankFlag (s : State) (b : Bool) : State := s.setRegBit Reg.dispstat 1 b

/-- DISPSTAT as it reads: bit 2, `vcount_flag`, is computed at the read (R14, `47_register_access.md` R341). -/
def State.dispstatView (s : State) : Half :=
  withBit (s.x Reg.dispstat) 2 (decide (s.line = s.vcountMatch))

end Sys2Proof.Machine
end

