-- ==== Sys2Proof/Machine/Operands.lean ====
section
/-! DEFINITION. The operand forms: channel and source operands (`30_encoding.md` R108), and the fields of the control
words and of the OAM attributes (`10_state.md` R12 to R46). -/

set_option Elab.async false

namespace Sys2Proof

/-- An operation on a channel operand: a number above 3 is the fault `InvalidChannel` (R108). -/
def Machine.withChannel (ch : Byte) (s : Machine.State) (f : Fin 4 → Machine.Run) : Machine.Run :=
  if h : ch.toNat < 4 then f ⟨ch.toNat, h⟩
  else .fault (Machine.raiseFault .invalidChannel (ch.setWidth 32) s)

/-- An operation on a source operand: a number from `N_IRQ` up (decided 14, so above 13) is the fault `InvalidSource`
(R108; log 12, 14). -/
def Machine.withSource (i : Byte) (s : Machine.State) (f : Fin nIrq → Machine.Run) : Machine.Run :=
  if h : i.toNat < s.cfg.irqCount.val then f ⟨i.toNat, Nat.lt_of_lt_of_le h (Nat.le_of_lt_succ s.cfg.irqCount.isLt)⟩
  else .fault (Machine.raiseFault .invalidSource (i.setWidth 32) s)

/-- A 2-bit channel or layer number. -/
def channelOf (c : BitVec 2) : Fin 4 := c.toFin

/-- The interrupt source of timer `ch` (`41_interrupts.md` R150). -/
def timerSource (ch : Fin 4) : Fin nIrq := ⟨3 + ch.val, by have := ch.isLt; simp only [nIrq]; omega⟩

/-- The interrupt source of DMA channel `ch` (R150). -/
def dmaSource (ch : Fin 4) : Fin nIrq := ⟨8 + ch.val, by have := ch.isLt; simp only [nIrq]; omega⟩

/-! ### DMAchCNT_H (`10_state.md` R28) -/

namespace DmaCtl

def dstMode (c : Half) : Nat := fieldOf c 5 2
def srcMode (c : Half) : Nat := fieldOf c 7 2
def repeats (c : Half) : Bool := c.getLsbD 9
def word32 (c : Half) : Bool := c.getLsbD 10
def timing (c : Half) : Nat := fieldOf c 12 2
def irq (c : Half) : Bool := c.getLsbD 14
def enable (c : Half) : Bool := c.getLsbD 15
/-- The unit size in bytes. -/
def unit (c : Half) : Nat := if word32 c then 4 else 2

end DmaCtl

/-! ### TMchCNT_H (`10_state.md` R30) -/

namespace TmrCtl

def prescaler (c : Half) : Nat := fieldOf c 0 2
def cascade (c : Half) : Bool := c.getLsbD 2
def irq (c : Half) : Bool := c.getLsbD 6
def running (c : Half) : Bool := c.getLsbD 7

/-- The control word with its four fields written (`43_timers.md` R211). -/
def withFields (c : Half) (prescaler : BitVec 2) (cascade irq running : Bool) : Half :=
  withBit (withBit (withBit (withBit (withBit c 0 (prescaler.getLsbD 0)) 1 (prescaler.getLsbD 1)) 2 cascade) 6 irq)
    7 running

/-- `Div(sel)`: the divisor of a prescaler selector (`43_timers.md` R216). -/
def div (sel : Nat) : Nat :=
  match sel with
  | 0 => 1
  | 1 => 64
  | 2 => 256
  | _ => 1024

end TmrCtl

/-! ### DISPCNT, BGnCNT and MOSAIC (`10_state.md` R12, R16, R22) -/

namespace DispCnt

def mode (d : Half) : Nat := fieldOf d 0 3
def frame (d : Half) : Bool := d.getLsbD 4
def obj1d (d : Half) : Bool := d.getLsbD 6
def forcedBlank (d : Half) : Bool := d.getLsbD 7
def bgEn (d : Half) (n : Fin 4) : Bool := d.getLsbD (8 + n.val)
def objEn (d : Half) : Bool := d.getLsbD 12
def winEn (d : Half) (w1 : Bool) : Bool := d.getLsbD (if w1 then 14 else 13)
def objwinEn (d : Half) : Bool := d.getLsbD 15

end DispCnt

namespace BgCnt

def priority (c : Half) : Nat := fieldOf c 0 2
def charBase (c : Half) : Nat := fieldOf c 2 2
def mosaic (c : Half) : Bool := c.getLsbD 6
def bpp8 (c : Half) : Bool := c.getLsbD 7
def screenBase (c : Half) : Nat := fieldOf c 8 5
def wrap (c : Half) : Bool := c.getLsbD 13
def size (c : Half) : Nat := fieldOf c 14 2

end BgCnt

namespace Mosaic

def bgH (m : Half) : Nat := fieldOf m 0 4
def bgV (m : Half) : Nat := fieldOf m 4 4
def objH (m : Half) : Nat := fieldOf m 8 4
def objV (m : Half) : Nat := fieldOf m 12 4

end Mosaic

/-! ### OAM attributes (`10_state.md` R43 to R46) -/

namespace ObjAttr

def y (a0 : Half) : Nat := fieldOf a0 0 8
def affine (a0 : Half) : Bool := a0.getLsbD 8
def dblOrDis (a0 : Half) : Bool := a0.getLsbD 9
def objmode (a0 : Half) : Nat := fieldOf a0 10 2
def mosaic (a0 : Half) : Bool := a0.getLsbD 12
def bpp8 (a0 : Half) : Bool := a0.getLsbD 13
def shape (a0 : Half) : Nat := fieldOf a0 14 2
def x (a1 : Half) : Nat := fieldOf a1 0 9
def matrix (a1 : Half) : Nat := fieldOf a1 9 5
def hflip (a1 : Half) : Bool := a1.getLsbD 12
def vflip (a1 : Half) : Bool := a1.getLsbD 13
def size (a1 : Half) : Nat := fieldOf a1 14 2
def tile (a2 : Half) : Nat := fieldOf a2 0 10
def priority (a2 : Half) : Fin 4 := ⟨fieldOf a2 10 2, Nat.mod_lt _ (by decide)⟩
def palette (a2 : Half) : Nat := fieldOf a2 12 4

/-- Width and height of a shape and size class (R46); shape 3 is reserved and never drawn (R281). -/
def sizeOf (shape size : Nat) : Nat × Nat :=
  match shape, size with
  | 0, 0 => (8, 8)
  | 0, 1 => (16, 16)
  | 0, 2 => (32, 32)
  | 0, _ => (64, 64)
  | 1, 0 => (16, 8)
  | 1, 1 => (32, 8)
  | 1, 2 => (32, 16)
  | 1, _ => (64, 32)
  | _, 0 => (8, 16)
  | _, 1 => (8, 32)
  | _, 2 => (16, 32)
  | _, _ => (32, 64)

end ObjAttr

end Sys2Proof
end

