-- ==== Sys2Proof/Machine/Registers.lean ====
section
/-! DEFINITION. Register accesses common to the host bus and the DMA bus: the read views, the write masks, plain
storage with the reference-point reload, and reads by address (`47_register_access.md` R341, R342, R350, R356, R358,
`20_memory.md` R72). -/

set_option Elab.async false

namespace Sys2Proof.Machine

/-- The registers whose accesses differ from plain storage (R341, R342). -/
inductive RegKind where
  | vcount
  | dispstat
  | bgRef (r : BgRef)
  | dmaCntH (ch : Fin 4)
  | tmrCntL (ch : Fin 4)
  | tmrCntH (ch : Fin 4)
  | ie
  | irf
  | ime
  | plain
  deriving DecidableEq, Repr

/-- The kind of the register at an even offset (`10_state.md` R11). -/
def regKind (o : Nat) : RegKind :=
  match o with
  | 0x004 => .dispstat
  | 0x006 => .vcount
  | 0x028 => .bgRef .bg2x
  | 0x02A => .bgRef .bg2x
  | 0x02C => .bgRef .bg2y
  | 0x02E => .bgRef .bg2y
  | 0x038 => .bgRef .bg3x
  | 0x03A => .bgRef .bg3x
  | 0x03C => .bgRef .bg3y
  | 0x03E => .bgRef .bg3y
  | 0x0BA => .dmaCntH 0
  | 0x0C6 => .dmaCntH 1
  | 0x0D2 => .dmaCntH 2
  | 0x0DE => .dmaCntH 3
  | 0x100 => .tmrCntL 0
  | 0x104 => .tmrCntL 1
  | 0x108 => .tmrCntL 2
  | 0x10C => .tmrCntL 3
  | 0x102 => .tmrCntH 0
  | 0x106 => .tmrCntH 1
  | 0x10A => .tmrCntH 2
  | 0x10E => .tmrCntH 3
  | 0x200 => .ie
  | 0x202 => .irf
  | 0x208 => .ime
  | _ => .plain

/-- `WriteMask(o)` (R358). -/
def writeMask (o : Nat) : Half :=
  match o with
  | 0x000 => 0xFFF7
  | 0x002 => 0x0001
  | 0x004 => 0xFF38
  | 0x006 => 0x0000
  | 0x008 | 0x00A | 0x00C | 0x00E => 0xFFCF
  | 0x010 | 0x012 | 0x014 | 0x016 | 0x018 | 0x01A | 0x01C | 0x01E => 0x01FF
  | 0x02A | 0x02E | 0x03A | 0x03E => 0x0FFF
  | 0x048 | 0x04A => 0x3F3F
  | 0x050 => 0x3FFF
  | 0x052 => 0x1F1F
  | 0x054 => 0x001F
  | 0x0B8 | 0x0C4 | 0x0D0 => 0x3FFF
  | 0x0BA | 0x0C6 | 0x0D2 => 0xF7E0
  | 0x0DE => 0xFFE0
  | 0x102 => 0x00C3
  | 0x106 | 0x10A | 0x10E => 0x00C7
  | 0x200 | 0x202 => 0x3FFF
  | 0x208 => 0x0001
  | _ => 0xFFFF

/-- `RegRead16(o)`: the read view (R341). -/
def regRead16 (s : State) (o : Nat) : Half :=
  match regKind o with
  | .dispstat => s.dispstatView
  | .tmrCntL ch => (s.tmr.get ch).counter
  | _ => s.x o

/-- The stored halfword a write is merged with: the reload value for TMchCNT_L, 0 for IF (R342). -/
def storedHalf (s : State) (o : Nat) : Half :=
  match regKind o with
  | .tmrCntL ch => (s.tmr.get ch).reload
  | .irf => 0
  | _ => s.x o

/-- The reference-point reload: the latch takes bits 27:0 of the register as it now stands (R350). -/
def reloadRef (s : State) (r : BgRef) : State :=
  let v : BitVec 28 := (s.x32 (Reg.bgref r)).setWidth 28
  match r with
  | .bg2x => s.setRefs { s.refs with bgx2 := v }
  | .bg2y => s.setRefs { s.refs with bgy2 := v }
  | .bg3x => s.setRefs { s.refs with bgx3 := v }
  | .bg3y => s.setRefs { s.refs with bgy3 := v }

/-- A masked halfword stored without any hook but the reference-point reload (R342, R357). -/
def storeReg (s : State) (o : Nat) (new : Half) : State :=
  match regKind o with
  | .vcount => s
  | .dispstat => s.setReg o ((new &&& 0xFFF8) ||| (s.x o &&& 0x0007))
  | .bgRef r => reloadRef (s.setReg o new) r
  | .tmrCntL ch => s.setTmr ch { s.tmr.get ch with reload := new }
  | _ => s.setReg o new

/-- `n` bytes of the register file from offset `off`, a multiple of `n` (R343 to R345). -/
def regReadLE (s : State) (n off : Nat) : Nat :=
  match n with
  | 1 => (regRead16 s (off - off % 2)).toNat / 256 ^ (off % 2) % 256
  | 2 => (regRead16 s off).toNat
  | _ => (regRead16 s off).toNat + 65536 * (regRead16 s (off + 2)).toNat

/-- Whether `n` external bytes from `a` are all mapped (`20_memory.md` R72). -/
def State.extMapped (s : State) (n a : Nat) : Bool :=
  (List.range n).all (fun i => (s.cfg.rangeOf (a + i)).isSome)

/-- Whether `n` external bytes from `a` are all mapped and may be written (R72). -/
def State.extWritable (s : State) (n a : Nat) : Bool :=
  (List.range n).all (fun i => (s.cfg.rangeOf (a + i)).any (fun r => r.writable))

/-- The address an access of `n` bytes has on the bus. R72 gives `MemRead` and `MemWrite` for multiples of `n` only, and every
latch a configure loads is one (R75); but a repeating channel in destination mode 3 reloads from a DMAchDAD the host may
have written since (`42_dma.md` R190, R196), and a lone `DMA_XFER` after a HOOK-form stop that sets `word32` (R191) may find
a source and a destination latch that are multiples of 2 only. DESIGN CHOICE (log 26): the bus does not carry the low bits of
such an address. -/
def busAddr (addr : Word) (n : Nat) : Word := BitVec.ofNat 32 (addr.toNat - addr.toNat % n)

/-- `MemRead(addr, n)`; `none` where nothing answers (R72; log 19). DESIGN CHOICE (log 26): the low bits of an address that is no
multiple of `n` are dropped. -/
def memRead (s : State) (addr : Word) (n : Nat) : Option Nat :=
  let a := busAddr addr n
  match s.cfg.route a with
  | .reg off => some (regReadLE s n off)
  | .pal off => some (readLE s.palByte n off)
  | .vram off => some (readLE s.vramByte n off)
  | .oam off => some (readLE s.oamByte n off)
  | .ext => if s.extMapped n a.toNat then some (readLE s.extByte n a.toNat) else none

end Sys2Proof.Machine
end

