-- ==== Sys2Proof/Machine/Interrupts.lean ====
section
/-! DEFINITION. The interrupt controller (`41_interrupts.md`). -/

set_option Elab.async false

namespace Sys2Proof.Machine

/-- `x[IE][s] <- b` (R152). -/
def irqSetEnabled (s : State) (i : Fin nIrq) (b : Bool) : State := s.setRegBit Reg.ie i.val b

/-- Acknowledge one source: an acknowledge event only if it is pending (R154). -/
def irqAcknowledge (s : State) (i : Fin nIrq) : State :=
  if s.pending i then ackEvent (s.setRegBit Reg.irf i.val false) i else s

/-- Write the master enable; a running handler's frame is marked (R157). -/
def irqSetMaster (s : State) (b : Bool) : State :=
  let s1 := s.setIme b
  match s1.dispatch with
  | [] => s1
  | f :: fs => s1.setDispatch ({ f with touched := true } :: fs)

/-- A hardware event of source `i`: the pending bit always, the handler if it may run (R153). -/
def raise (s : State) (i : Fin nIrq) : Run :=
  let s1 := s.setRegBit Reg.irf i.val true
  if s1.deliverable i then deliver s1 i else .done s1

/-- The poll: deliver in order until nothing pending is deliverable (R158). A delivery without a handler clears a
pending bit and sets none, so 14 rounds are enough; a handler starts the search again. -/
def dispatchLoop : Nat → State → Run
  | 0, s => .done s
  | n + 1, s =>
    match s.nextSource with
    | none => .done s
    | some i => (deliver s i).andThen .dispatch (dispatchLoop n)

/-- `IRQ_DISPATCH` (R158). -/
def irqDispatch (s : State) : Run := dispatchLoop nIrq s

/-- `IRQ_SETEN s, b` (R152). -/
def execIrqSeten (i : Byte) (b : Bool) (s : State) : Host.Outcome State Fault Refusal :=
  (withSource i s (fun i => .done (irqSetEnabled s i b))).finish

/-- `IRQ_RAISE s` (R153). -/
def execIrqRaise (i : Byte) (s : State) : Host.Outcome State Fault Refusal :=
  (withSource i s (fun i => raise s i)).finish

/-- `IRQ_ACK s` (R154). -/
def execIrqAck (i : Byte) (s : State) : Host.Outcome State Fault Refusal :=
  (withSource i s (fun i => .done (irqAcknowledge s i))).finish

/-- `IRQ_SETIME b` (R157). -/
def execIrqSetime (b : Bool) (s : State) : Host.Outcome State Fault Refusal :=
  (Run.done (irqSetMaster s b)).finish

/-- `IRQ_DELIVER s` (R156; log 12 for a source that is not deliverable). -/
def execIrqDeliver (i : Byte) (s : State) : Host.Outcome State Fault Refusal :=
  (withSource i s (fun i => deliver s i)).finish

/-- `IRQ_DISPATCH` (R158). -/
def execIrqDispatch (s : State) : Host.Outcome State Fault Refusal := (irqDispatch s).finish

end Sys2Proof.Machine
end

