-- ==== Sys2Proof/Machine/Dma.lean ====
section
/-! DEFINITION. The DMA controller (`42_dma.md`) and the DMA bus (`20_memory.md` R72, R84). -/

set_option Elab.async false

namespace Sys2Proof

/-- `InRom(a)` (`20_memory.md` R78). -/
def Config.inRom (cfg : Config) (a : Word) : Bool := decide (cfg.romLo ≤ a.toNat) && decide (a.toNat ≤ cfg.romHi)

/-- `CountOf(ch, c)` (R183). -/
def Config.countOf (cfg : Config) (ch : Fin 4) (c : Half) : BitVec 17 :=
  if c = 0 then BitVec.ofNat 17 (cfg.dmaCountMax.get ch) else c.setWidth 17

namespace Machine

/-- DMAchCNT_H. -/
def State.dmaCtl (s : State) (ch : Fin 4) : Half := s.x (Reg.dmaCntH ch)

/-- `StepModesValid(ch, f)` (R184). -/
def stepModesValid (ch : Fin 4) (f : Half) : Bool :=
  decide (DmaCtl.srcMode f ≠ 3) && (decide (DmaCtl.dstMode f ≠ 3) || decide (ch = 1) || decide (ch = 2))

/-- `Step(a, mode, unit)` (R185). -/
def stepAddr (a : Word) (mode unit : Nat) : Word :=
  match mode with
  | 1 => a - BitVec.ofNat 32 unit
  | 2 => a
  | _ => a + BitVec.ofNat 32 unit

/-- A register half a DMA unit may not touch: DMAchCNT_H, TMchCNT_H, IF, IME (`20_memory.md` R84). -/
def dmaForbidden (o : Nat) : Bool :=
  match regKind o with
  | .dmaCntH _ => true
  | .tmrCntH _ => true
  | .irf => true
  | .ime => true
  | _ => false

/-- A DMA unit written into the register file: masks and reference reload, no other hook
(R84, `47_register_access.md` R357). -/
def dmaRegWrite (s : State) (off unit v : Nat) : State :=
  let s1 := storeReg s off (BitVec.ofNat 16 v &&& writeMask off)
  if unit = 4 then storeReg s1 (off + 2) (BitVec.ofNat 16 (v / 65536) &&& writeMask (off + 2)) else s1

/-- `MemWrite(addr, unit, v)` by the DMA controller (`20_memory.md` R72, R84; log 19). DESIGN CHOICE (log 26): at an address that
is not a multiple of the unit, the low bits are not carried. -/
def dmaWrite (s : State) (addr : Word) (unit v : Nat) : Except Fault State :=
  let a := busAddr addr unit
  match s.cfg.route a with
  | .reg off =>
    if dmaForbidden off || (decide (unit = 4) && dmaForbidden (off + 2)) then
      .error (raiseFault .dmaIntoControl addr s)
    else .ok (dmaRegWrite s off unit v)
  | .pal off => .ok (s.writePal unit off v)
  | .vram off => .ok (s.writeVram unit off v)
  | .oam off => .ok (s.writeOam unit off v)
  | .ext =>
    if s.extWritable unit a.toNat then .ok (s.writeExt unit a.toNat v)
    else .error (raiseFault .busError addr s)

/-- One unit of a transfer under control word `c` (R186). -/
def dmaUnit (ch : Fin 4) (c : Half) (s : State) : Except Fault State :=
  let l := s.dma.get ch
  let unit := DmaCtl.unit c
  if decide (ch.val ≤ 2) && s.cfg.inRom l.srcCur then .error (raiseFault .dmaRomSource l.srcCur s)
  else
    match memRead s l.srcCur unit with
    | none => .error (raiseFault .busError l.srcCur s)
    | some v =>
      match dmaWrite s l.dstCur unit v with
      | .error e => .error e
      | .ok s1 => .ok (s1.setDma ch { l with
          srcCur := stepAddr l.srcCur (DmaCtl.srcMode c) unit
          dstCur := stepAddr l.dstCur (DmaCtl.dstMode c) unit })

/-- `n` units in ascending order, each read before its write, each write before the next read (R186). -/
def dmaUnits (ch : Fin 4) (c : Half) : Nat → State → Except Fault State
  | 0, s => .ok s
  | n + 1, s =>
    match dmaUnit ch c s with
    | .error e => .error e
    | .ok s1 => dmaUnits ch c n s1

/-- `DMA_XFER(ch)` (R186): the control word is read once. -/
def dmaXfer (s : State) (ch : Fin 4) : Except Fault State :=
  dmaUnits ch (s.dmaCtl ch) (s.dma.get ch).cntCur.toNat s

/-- The reload of a repeating channel (R190). -/
def dmaReload (s : State) (ch : Fin 4) : State :=
  let l := s.dma.get ch
  s.setDma ch { l with
    cntCur := s.cfg.countOf ch (s.x (Reg.dmaCntL ch))
    dstCur := if DmaCtl.dstMode (s.dmaCtl ch) = 3 then s.x32 (Reg.dmaDad ch) else l.dstCur }

/-- `DmaComplete(ch)` (R189): disable or reload, then the completion interrupt (R192). -/
def dmaComplete (s : State) (ch : Fin 4) : Run :=
  let c := s.dmaCtl ch
  let s1 := if DmaCtl.timing c = 0 ∨ DmaCtl.repeats c = false then s.setRegBit (Reg.dmaCntH ch) 15 false
    else dmaReload s ch
  if DmaCtl.irq c then raise s1 (dmaSource ch) else .done s1

/-- A transfer and its bookkeeping. -/
def dmaTransfer (s : State) (ch : Fin 4) : Run :=
  match dmaXfer s ch with
  | .error e => .fault e
  | .ok s1 => dmaComplete s1 ch

/-- The control word a configure stores: reserved bits cleared, bit 15 set (R181 line 2). -/
def dmaFlags (ch : Fin 4) (flags : Half) : Half := (flags &&& writeMask (Reg.dmaCntH ch)) ||| 0x8000

/-- Lines 8 to 14 of a configure: the registers and the latches (R181). -/
def dmaStore (s : State) (ch : Fin 4) (src dst : Word) (count f : Half) : State :=
  let cnt := count &&& writeMask (Reg.dmaCntL ch)
  let s1 := ((s.setReg32 (Reg.dmaSad ch) src).setReg32 (Reg.dmaDad ch) dst).setReg (Reg.dmaCntL ch) cnt
  (s1.setReg (Reg.dmaCntH ch) f).setDma ch { srcCur := src, dstCur := dst, cntCur := s.cfg.countOf ch cnt }

/-- `DMA_CONFIGURE` of a channel in range (R181): validate, store, and run if immediate. -/
def dmaConfigure (s : State) (ch : Fin 4) (src dst : Word) (count flags : Half) : Run :=
  let f := dmaFlags ch flags
  let unit := DmaCtl.unit f
  if src.toNat % unit ≠ 0 then .fault (raiseFault .dmaMisaligned src s)
  else if dst.toNat % unit ≠ 0 then .fault (raiseFault .dmaMisaligned dst s)
  else if decide (ch.val ≤ 2) && s.cfg.inRom src then .fault (raiseFault .dmaRomSource src s)
  else if stepModesValid ch f = false then .fault (raiseFault .dmaStepMode (f.setWidth 32) s)
  else
    let s1 := dmaStore s ch src dst count f
    if DmaCtl.timing f = 0 then dmaTransfer s1 ch else .done s1

/-- Disable a channel (R191). -/
def dmaStop (s : State) (ch : Fin 4) : State := s.setRegBit (Reg.dmaCntH ch) 15 false

/-- A channel armed for a trigger: enabled with that timing (R187, R188). -/
def State.armed (s : State) (ch : Fin 4) (timing : Nat) : Bool :=
  DmaCtl.enable (s.dmaCtl ch) && decide (DmaCtl.timing (s.dmaCtl ch) = timing)

/-- The last `n` channels of a fire operation, in ascending order (R187, R188). -/
def fireFrom (timing : BitVec 2) : Nat → State → Run
  | 0, s => .done s
  | n + 1, s =>
    let ch : Fin 4 := Fin.ofNat 4 (3 - n)
    (if s.armed ch timing.toNat then dmaTransfer s ch else .done s).andThen (.fire timing n) (fireFrom timing n)

/-- `DMA_FIRE_HBLANK` (R187). -/
def fireHblank (s : State) : Run := fireFrom 2 4 s

/-- `DMA_FIRE_VBLANK` (R188). -/
def fireVblank (s : State) : Run := fireFrom 1 4 s

/-- `DMA_CONFIGURE ch, src, dst, count, flags` (R181). -/
def execDmaConfigure (ch : Byte) (src dst : Word) (count flags : Half) (s : State) :
    Host.Outcome State Fault Refusal :=
  (withChannel ch s (fun c => dmaConfigure s c src dst count flags)).finish

/-- `DMA_STOP ch` (R191). -/
def execDmaStop (ch : Byte) (s : State) : Host.Outcome State Fault Refusal :=
  (withChannel ch s (fun c => .done (dmaStop s c))).finish

/-- `DMA_FIRE_HBLANK` (R187). -/
def execDmaFireHblank (s : State) : Host.Outcome State Fault Refusal := (fireHblank s).finish

/-- `DMA_FIRE_VBLANK` (R188). -/
def execDmaFireVblank (s : State) : Host.Outcome State Fault Refusal := (fireVblank s).finish

/-- `DMA_XFER ch` (R186). -/
def execDmaXfer (ch : Byte) (s : State) : Host.Outcome State Fault Refusal :=
  (withChannel ch s (fun c => Run.ofExcept (dmaXfer s c))).finish

end Machine

end Sys2Proof
end

