-- ==== Sys2Proof/Machine/Timers.lean ====
section
/-! DEFINITION. The timer cascade unit (`43_timers.md`). -/

set_option Elab.async false

namespace Sys2Proof.Machine

/-- TMchCNT_H. -/
def State.tmrCtl (s : State) (ch : Fin 4) : Half := s.x (Reg.tmrCntH ch)

/-- (Re)start a timer (R211): stop, load the reload value, clear the accumulator, store the control fields, run. -/
def tmrStart (s : State) (ch : Fin 4) (reload : Half) (prescaler : BitVec 2) (cascade irq : Bool) : State :=
  let s1 := s.setRegBit (Reg.tmrCntH ch) 7 false
  let s2 := s1.setTmr ch { reload := reload, counter := reload, prescAcc := 0 }
  s2.setReg (Reg.tmrCntH ch) (TmrCtl.withFields (s2.tmrCtl ch) prescaler (cascade && decide (0 < ch.val)) irq true)

/-- Stop a timer, keeping its state (R212). -/
def tmrStop (s : State) (ch : Fin 4) : State := s.setRegBit (Reg.tmrCntH ch) 7 false

/-- The overflow of a timer: reload, then the interrupt (R214). -/
def tmrOverflow (s : State) (ch : Fin 4) : Run :=
  let t := s.tmr.get ch
  let s1 := s.setTmr ch { t with counter := t.reload }
  if TmrCtl.irq (s1.tmrCtl ch) then raise s1 (timerSource ch) else .done s1

/-- One count of timer `ch`; `cascade` is what an overflow does to the channel above (R214). -/
def tmrCount (ch : Fin 4) (cascade : State → Run) (s : State) : Run :=
  let t := s.tmr.get ch
  if t.counter = 0xFFFF then (tmrOverflow s ch).andThen (.tickCascade ch) cascade
  else .done (s.setTmr ch { t with counter := t.counter + 1 })

/-- Whether the channel takes cascade increments: it is running with `cascade` set (R214). -/
def State.cascades (s : State) (ch : Fin 4) : Bool :=
  TmrCtl.running (s.tmrCtl ch) && TmrCtl.cascade (s.tmrCtl ch)

/-- `TMR_TICK` of the channel that has `up` channels above it (R214). -/
def tickUp : Nat → State → Run
  | 0, s => tmrCount 3 .done s
  | up + 1, s =>
    tmrCount (Fin.ofNat 4 (2 - up))
      (fun s1 => if s1.cascades (Fin.ofNat 4 (3 - up)) then tickUp up s1 else .done s1) s

/-- `TMR_TICK(ch)` (R214). -/
def tmrTick (s : State) (ch : Fin 4) : Run := tickUp (3 - ch.val) s

/-- What an overflow of channel `ch` does to the channel above it, after any handler has returned (R214). -/
def tickCascade (s : State) (ch : Fin 4) : Run :=
  if h : ch.val < 3 then
    (if s.cascades ⟨ch.val + 1, by omega⟩ then tmrTick s ⟨ch.val + 1, by omega⟩ else .done s)
  else .done s

/-- One channel's turn in one base-clock cycle (R213). -/
def tickSlot (s : State) (ch : Fin 4) : Run :=
  let c := s.tmrCtl ch
  if TmrCtl.running c && (decide (ch.val = 0) || !TmrCtl.cascade c) then
    let t := s.tmr.get ch
    if TmrCtl.div (TmrCtl.prescaler c) ≤ t.prescAcc.toNat + 1 then
      tmrTick (s.setTmr ch { t with prescAcc := 0 }) ch
    else .done (s.setTmr ch { t with prescAcc := t.prescAcc + 1 })
  else .done s

/-- The channel whose turn it is when `n` turns follow: 0, 1, 2, 3 in every cycle (R213). -/
def slotChannel (n : Nat) : Fin 4 := ⟨3 - n % 4, by omega⟩

/-- The last `n` (cycle, channel) turns of a line (R213). -/
def tickSlots : Nat → State → Run
  | 0, s => .done s
  | n + 1, s => (tickSlot s (slotChannel n)).andThen (.tickLine n) (tickSlots n)

/-- `TMR_TICKLINE` (R213): `CYCLES_PER_LINE` cycles of four turns. -/
def tmrTickline (s : State) : Run := tickSlots (4 * s.cfg.cyclesPerLine) s

/-- The ticks of a period of `ms` milliseconds under a selector, rounded down (R217). -/
def msTicks (cfg : Config) (ms : Word) (sel : Nat) : Nat := ms.toNat * cfg.clockHz / (1000 * TmrCtl.div sel)

/-- The result of `TMR_MSCFG`: the finest selector whose ticks fit, else the error (R217). -/
def msConfig (cfg : Config) (ms : Word) : Result :=
  match [0, 1, 2, 3].find? (fun sel => decide (1 ≤ msTicks cfg ms sel) && decide (msTicks cfg ms sel ≤ 65536)) with
  | some sel => .timerPeriod (BitVec.ofNat 2 sel) (BitVec.ofNat 16 (65536 - msTicks cfg ms sel))
  | none => .timerPeriodUnrepresentable ms

/-- `TMR_START ch, reload, prescaler, cascade, irqEnable` (R211). -/
def execTmrStart (ch : Byte) (reload : Half) (prescaler : BitVec 2) (cascade irq : Bool) (s : State) :
    Host.Outcome State Fault Refusal :=
  (withChannel ch s (fun c => .done (tmrStart s c reload prescaler cascade irq))).finish

/-- `TMR_STOP ch` (R212). -/
def execTmrStop (ch : Byte) (s : State) : Host.Outcome State Fault Refusal :=
  (withChannel ch s (fun c => .done (tmrStop s c))).finish

/-- `TMR_TICKLINE` (R213). -/
def execTmrTickline (s : State) : Host.Outcome State Fault Refusal := (tmrTickline s).finish

/-- `TMR_TICK ch` (R214). -/
def execTmrTick (ch : Byte) (s : State) : Host.Outcome State Fault Refusal :=
  (withChannel ch s (fun c => tmrTick s c)).finish

/-- `TMR_MSCFG ms` (R217): a result only. -/
def execTmrMscfg (ms : Word) (s : State) : Host.Outcome State Fault Refusal :=
  (Run.done (s.setResult (msConfig s.cfg ms))).finish

end Sys2Proof.Machine
end

