-- ==== Sys2Proof/Machine/Hooks.lean ====
section
/-! DEFINITION. The register-write hooks (`47_register_access.md` R342, R350 to R355) and the `HOOK` forms of the
operations (`30_encoding.md` R103). -/

set_option Elab.async false

namespace Sys2Proof.Machine

/-- A configure by a write of DMAchCNT_H: the operands are the registers and the merged word (R351, R104). -/
def hookConfigure (s : State) (ch : Fin 4) (new : Half) : Run :=
  dmaConfigure s ch (s.x32 (Reg.dmaSad ch)) (s.x32 (Reg.dmaDad ch)) (s.x (Reg.dmaCntL ch)) new

/-- A stop by a write of a control register: the merged word is stored whole (R351, R352). -/
def hookStore (s : State) (o : Nat) (new : Half) : State := s.setReg o new

/-- Host write of DMAchCNT_H (R351). -/
def writeDmaCntH (s : State) (ch : Fin 4) (new : Half) : Run :=
  if new.getLsbD 15 then hookConfigure s ch new else .done (hookStore s (Reg.dmaCntH ch) new)

/-- A start by a write of TMchCNT_H (R352, R105). -/
def hookStart (s : State) (ch : Fin 4) (new : Half) : State :=
  tmrStart s ch (s.tmr.get ch).reload (BitVec.ofNat 2 (TmrCtl.prescaler new)) (TmrCtl.cascade new) (TmrCtl.irq new)

/-- Host write of TMchCNT_H (R352). -/
def writeTmrCntH (s : State) (ch : Fin 4) (new : Half) : State :=
  if new.getLsbD 7 then hookStart s ch new else hookStore s (Reg.tmrCntH ch) new

/-- The sources in ascending index. -/
def allSources : List (Fin nIrq) := List.finRange nIrq

/-- Host write of IE: `IRQ_SETEN` once per source whose bit differs, ascending (R353, R106). -/
def writeIe (s : State) (old new : Half) : State :=
  allSources.foldl (fun t i =>
    if new.getLsbD i.val ≠ old.getLsbD i.val then irqSetEnabled t i (new.getLsbD i.val) else t) s

/-- Host write of IF: `IRQ_ACK` once per source whose written bit is 1, ascending (R354, R107). -/
def writeIf (s : State) (wr : Half) : State :=
  allSources.foldl (fun t i => if wr.getLsbD i.val then irqAcknowledge t i else t) s

/-- `RegWrite16`: a host write of one 16-bit register, `new` merged and masked, `wr` the written bytes (R342). -/
def regWrite16 (s : State) (o : Nat) (old new wr : Half) : Run :=
  match regKind o with
  | .dmaCntH ch => writeDmaCntH s ch new
  | .tmrCntH ch => .done (writeTmrCntH s ch new)
  | .ie => .done (writeIe s old new)
  | .irf => .done (writeIf s wr)
  | .ime => .done (irqSetMaster s (new.getLsbD 0))
  | _ => .done (storeReg s o new)

/-- `DMA_CONFIGURE` in `HOOK` form (R351). -/
def execHookDmaConfigure (ch : BitVec 2) (w : Half) (s : State) : Host.Outcome State Fault Refusal :=
  (hookConfigure s (channelOf ch) (w &&& writeMask (Reg.dmaCntH (channelOf ch)))).finish

/-- `DMA_STOP` in `HOOK` form (R191, R351). -/
def execHookDmaStop (ch : BitVec 2) (w : Half) (s : State) : Host.Outcome State Fault Refusal :=
  (Run.done (hookStore s (Reg.dmaCntH (channelOf ch)) (w &&& writeMask (Reg.dmaCntH (channelOf ch))))).finish

/-- `TMR_START` in `HOOK` form (R352). -/
def execHookTmrStart (ch : BitVec 2) (w : Half) (s : State) : Host.Outcome State Fault Refusal :=
  (Run.done (hookStart s (channelOf ch) (w &&& writeMask (Reg.tmrCntH (channelOf ch))))).finish

/-- `TMR_STOP` in `HOOK` form: the merged word is stored, its running bit clear (R212, R352). -/
def execHookTmrStop (ch : BitVec 2) (w : Half) (s : State) : Host.Outcome State Fault Refusal :=
  (Run.done (hookStore s (Reg.tmrCntH (channelOf ch))
    (withBit (w &&& writeMask (Reg.tmrCntH (channelOf ch))) 7 false))).finish

/-- `IRQ_SETEN` in `HOOK` form (R106, R353). -/
def execHookIrqSeten (w : Half) (s : State) : Host.Outcome State Fault Refusal :=
  (Run.done (writeIe s (s.x Reg.ie) (w &&& writeMask Reg.ie))).finish

/-- `IRQ_ACK` in `HOOK` form (R107, R354). -/
def execHookIrqAck (w : Half) (s : State) : Host.Outcome State Fault Refusal := (Run.done (writeIf s w)).finish

/-- `IRQ_SETIME` in `HOOK` form (R355). -/
def execHookIrqSetime (w : Half) (s : State) : Host.Outcome State Fault Refusal :=
  (Run.done (irqSetMaster s ((w &&& writeMask Reg.ime).getLsbD 0))).finish

/-- `BG_REF_RELOAD`: a half of a reference-point register is stored and the latch reloaded (R350). -/
def execBgRefReload (r : BgRef) (hi : Bool) (w : Half) (s : State) : Host.Outcome State Fault Refusal :=
  let o := Reg.bgref r + (if hi then 2 else 0)
  (Run.done (reloadRef (s.setReg o (w &&& writeMask o)) r)).finish

end Sys2Proof.Machine
end

