-- ==== Sys2Proof/Machine/Bus.lean ====
section
/-! DEFINITION. The host bus: `RD8`, `RD16`, `RD32`, `WR8`, `WR16`, `WR32` (`47_register_access.md`). -/

set_option Elab.async false

namespace Sys2Proof.Machine

/-- A host read of `n` bytes: alignment, then the window (R340, R343 to R345). -/
def hostRead (s : State) (addr : Word) (n : Nat) : Except Fault Nat :=
  if addr.toNat % n ≠ 0 then .error (raiseFault .hostMisaligned addr s)
  else
    match s.cfg.route addr with
    | .ext => .error (raiseFault .busError addr s)
    | .reg off => .ok (regReadLE s n off)
    | .pal off => .ok (readLE s.palByte n off)
    | .vram off => .ok (readLE s.vramByte n off)
    | .oam off => .ok (readLE s.oamByte n off)

/-- A host read whose value becomes the result; nothing else changes (R76). -/
def readResult (s : State) (addr : Word) (n : Nat) (mk : Nat → Result) : Run :=
  match hostRead s addr n with
  | .error e => .fault e
  | .ok v => .done (s.setResult (mk v))

/-- A halfword with one of its bytes replaced (R342). -/
def mergeByte (old : Half) (high : Bool) (b : Byte) : Half :=
  if high then b ++ old.setWidth 8 else old.extractLsb' 8 8 ++ b

/-- `RegWrite(off, 1, data)` (R342, R346). -/
def regWrite8 (s : State) (off : Nat) (data : Byte) : Run :=
  let o := off - off % 2
  let high := decide (off % 2 = 1)
  let old := storedHalf s o
  regWrite16 s o old (mergeByte old high data &&& writeMask o) (mergeByte 0 high data)

/-- `RegWrite(off, 2, data)` (R342, R347). -/
def regWriteHalf (s : State) (off : Nat) (data : Half) : Run :=
  regWrite16 s off (storedHalf s off) (data &&& writeMask off) data

/-- `RegWrite(off, 4, data)`: the low halfword's register first (R342, R348). -/
def regWriteWord (s : State) (off : Nat) (data : Word) : Run :=
  let hi : Half := (data >>> 16).setWidth 16
  (regWriteHalf s off (data.setWidth 16)).andThen (.writeHigh (off + 2) hi)
    (fun s1 => regWriteHalf s1 (off + 2) hi)

/-- A host write of `n` bytes: alignment, then the window; `reg` is the write to the register file
(R340, R346 to R348). -/
def hostWrite (s : State) (addr : Word) (n v : Nat) (reg : Nat → Run) : Run :=
  if addr.toNat % n ≠ 0 then .fault (raiseFault .hostMisaligned addr s)
  else
    match s.cfg.route addr with
    | .ext => .fault (raiseFault .busError addr s)
    | .reg off => reg off
    | .pal off => .done (s.writePal n off v)
    | .vram off => .done (s.writeVram n off v)
    | .oam off => .done (s.writeOam n off v)

/-- `RD8 addr` (R343). -/
def execRd8 (addr : Word) (s : State) : Host.Outcome State Fault Refusal :=
  (readResult s addr 1 (fun v => .byte (BitVec.ofNat 8 v))).finish
/-- `RD16 addr` (R344). -/
def execRd16 (addr : Word) (s : State) : Host.Outcome State Fault Refusal :=
  (readResult s addr 2 (fun v => .half (BitVec.ofNat 16 v))).finish
/-- `RD32 addr` (R345). -/
def execRd32 (addr : Word) (s : State) : Host.Outcome State Fault Refusal :=
  (readResult s addr 4 (fun v => .word (BitVec.ofNat 32 v))).finish
/-- `WR8 addr, data` (R346). -/
def execWr8 (addr : Word) (data : Byte) (s : State) : Host.Outcome State Fault Refusal :=
  (hostWrite s addr 1 data.toNat (fun off => regWrite8 s off data)).finish
/-- `WR16 addr, data` (R347). -/
def execWr16 (addr : Word) (data : Half) (s : State) : Host.Outcome State Fault Refusal :=
  (hostWrite s addr 2 data.toNat (fun off => regWriteHalf s off data)).finish
/-- `WR32 addr, data` (R348). -/
def execWr32 (addr : Word) (data : Word) (s : State) : Host.Outcome State Fault Refusal :=
  (hostWrite s addr 4 data.toNat (fun off => regWriteWord s off data)).finish

end Sys2Proof.Machine
end

