-- ==== Sys2Proof/Machine/Backgrounds.lean ====
section
/-! DEFINITION. The compositor, stage 1: the background layers (`44_ppu_backgrounds.md`). -/

set_option Elab.async false

namespace Sys2Proof.Machine

/-- The rendering kinds (R242). -/
inductive LayerKind where
  | text
  | affine
  | bitmap3
  | bitmap4
  | bitmap5
  | none
  deriving DecidableEq, Repr

/-- `Kind(mode, n)` (R242, R243). -/
def kindOf (mode : Nat) (n : Fin 4) : LayerKind :=
  match mode, n with
  | 0, _ => .text
  | 1, 0 => .text
  | 1, 1 => .text
  | 1, 2 => .affine
  | 2, 2 => .affine
  | 2, 3 => .affine
  | 3, 2 => .bitmap3
  | 4, 2 => .bitmap4
  | 5, 2 => .bitmap5
  | _, _ => .none

/-- DISPCNT. -/
def State.dispcnt (s : State) : Half := s.x Reg.dispcnt

/-- The background mode that selects the kinds: the register's at every line, or the one sampled at the frame's
start (R242 `MODE_LATCH`; log 15). -/
def State.bgMode (s : State) : Nat :=
  match s.cfg.modeLatch with
  | .perLine => DispCnt.mode s.dispcnt
  | .perFrame => s.frameMode.toNat

/-- The kind of layer `n` now. -/
def State.kind (s : State) (n : Fin 4) : LayerKind := kindOf s.bgMode n

/-- `MosX(px)` (R245). -/
def State.mosX (s : State) (px : Nat) : Nat := px - px % (Mosaic.bgH (s.x Reg.mosaic) + 1)

/-- `MosY(y)` (R245). -/
def State.mosY (s : State) (y : Nat) : Nat := y - y % (Mosaic.bgV (s.x Reg.mosaic) + 1)

/-- The column a background layer samples for screen column `px` (R245). -/
def State.sampleX (s : State) (mosaic : Bool) (px : Nat) : Nat := if mosaic then s.mosX px else px

/-- The line a background layer samples for screen line `y` (R245). -/
def State.sampleY (s : State) (mosaic : Bool) (y : Nat) : Nat := if mosaic then s.mosY y else y

/-- `BgPal(i)` (R246). -/
def State.bgPal (s : State) (i : Nat) : Colour := s.pal16 (2 * i)

/-- A nibble of a 4-bit tile byte: the left pixel is the low one (R253). -/
def tileNibble (b u : Nat) : Nat := if u % 2 = 0 then b % 16 else b / 16

/-- `TilePixel(base, t, bpp8, u, v)` (R253). -/
def State.tilePixel (s : State) (base t : Nat) (bpp8 : Bool) (u v : Nat) : Nat :=
  if bpp8 then s.vram8 ((base + t * 64 + v * 8 + u) % 0x10000)
  else tileNibble (s.vram8 ((base + t * 32 + v * 4 + u / 2) % 0x10000)) u

/-- Width or height of a text map from its size bit (R251). -/
def textExtent (big : Bool) : Nat := if big then 512 else 256

/-- The VRAM address of the screen entry of map pixel (sx, sy) (R250, R251). -/
def screenEntryAddr (screenBase w sx sy : Nat) : Nat :=
  let sb := sx / 256 + (sy / 256) * (w / 256)
  (screenBase * 0x800 + sb * 0x800 + ((sy % 256 / 8) * 32 + sx % 256 / 8) * 2) % 0x10000

/-- One pixel of a text layer (R250 to R252). -/
def State.textPixel (s : State) (n : Fin 4) (y px : Nat) : Option Colour :=
  let c := s.x (Reg.bgcnt n)
  let w := textExtent (c.getLsbD 14)
  let h := textExtent (c.getLsbD 15)
  let sy := (s.sampleY (BgCnt.mosaic c) y + fieldOf (s.x (Reg.bgvofs n)) 0 9) % h
  let sx := (s.sampleX (BgCnt.mosaic c) px + fieldOf (s.x (Reg.bghofs n)) 0 9) % w
  let se : Half := BitVec.ofNat 16 (s.vram16 (screenEntryAddr (BgCnt.screenBase c) w sx sy))
  let u := if se.getLsbD 10 then 7 - sx % 8 else sx % 8
  let v := if se.getLsbD 11 then 7 - sy % 8 else sy % 8
  let i := s.tilePixel (BgCnt.charBase c * 0x4000) (fieldOf se 0 10) (BgCnt.bpp8 c) u v
  if i = 0 then none
  else if BgCnt.bpp8 c then some (s.bgPal i)
  else some (s.bgPal (fieldOf se 12 4 * 16 + i))

/-- The reference point of affine layer BG3 (`k3`) or BG2, signed (R53, R260). -/
def State.refPoint (s : State) (k3 : Bool) : Int × Int :=
  if k3 then (s.refs.bgx3.toInt, s.refs.bgy3.toInt) else (s.refs.bgx2.toInt, s.refs.bgy2.toInt)

/-- The layer number of the affine layer. -/
def affineLayer (k3 : Bool) : Fin 4 := if k3 then 3 else 2

/-- A texture coordinate brought into the canvas: wrapped, or clipped to `none` (R260). -/
def canvasCoord (wrap : Bool) (n : Nat) (t : Int) : Option Nat :=
  if wrap then some (t % (n : Int)).toNat
  else if 0 ≤ t ∧ t < n then some t.toNat
  else none

/-- One pixel of an affine layer (R260, R261). -/
def State.affinePixel (s : State) (k3 : Bool) (y px : Nat) : Option Colour :=
  let c := s.x (Reg.bgcnt (affineLayer k3))
  let n := 128 * 2 ^ BgCnt.size c
  let pa := (s.x (Reg.bgpa k3)).toInt
  let pb := (s.x (Reg.bgpb k3)).toInt
  let pc := (s.x (Reg.bgpc k3)).toInt
  let pd := (s.x (Reg.bgpd k3)).toInt
  let m : Int := if BgCnt.mosaic c then ((y % (Mosaic.bgV (s.x Reg.mosaic) + 1) : Nat) : Int) else 0
  let rx := (s.refPoint k3).1 - m * pb
  let ry := (s.refPoint k3).2 - m * pd
  let xs : Int := (s.sampleX (BgCnt.mosaic c) px : Nat)
  match canvasCoord (BgCnt.wrap c) n ((rx + pa * xs) / 256), canvasCoord (BgCnt.wrap c) n ((ry + pc * xs) / 256) with
  | some tx, some ty =>
    let e := s.vram8 ((BgCnt.screenBase c * 0x800 + (ty / 8) * (n / 8) + tx / 8) % 0x10000)
    let i := s.tilePixel (BgCnt.charBase c * 0x4000) e true (tx % 8) (ty % 8)
    if i = 0 then none else some (s.bgPal i)
  | _, _ => none

/-- Whether BG2's mosaic is on: the bitmap layer is always BG2. -/
def State.bg2Mosaic (s : State) : Bool := BgCnt.mosaic (s.x (Reg.bgcnt 2))

/-- The VRAM offset of the active bitmap frame (R271, R272). -/
def State.bitmapBase (s : State) : Nat := if DispCnt.frame s.dispcnt then 0xA000 else 0

/-- One pixel of the mode 3 bitmap (R270). -/
def State.bitmap3Pixel (s : State) (y px : Nat) : Option Colour :=
  let ys := s.sampleY s.bg2Mosaic y
  let xs := s.sampleX s.bg2Mosaic px
  some (BitVec.ofNat 15 (s.vram16 ((ys * 240 + xs) * 2)))

/-- One pixel of the mode 4 bitmap (R271). -/
def State.bitmap4Pixel (s : State) (y px : Nat) : Option Colour :=
  let ys := s.sampleY s.bg2Mosaic y
  let xs := s.sampleX s.bg2Mosaic px
  let i := s.vram8 (s.bitmapBase + ys * 240 + xs)
  if i = 0 then none else some (s.bgPal i)

/-- One pixel of the mode 5 bitmap (R272). -/
def State.bitmap5Pixel (s : State) (y px : Nat) : Option Colour :=
  let ys := s.sampleY s.bg2Mosaic y
  let xs := s.sampleX s.bg2Mosaic px
  if xs < 160 ∧ ys < 128 then some (BitVec.ofNat 15 (s.vram16 (s.bitmapBase + (ys * 160 + xs) * 2))) else none

/-- Layer `n`'s line buffer filled, column by column. -/
def State.fillBg (s : State) (n : Fin 4) (pixel : Nat → Option Colour) : State :=
  s.setLb { s.lb with bgpix := s.lb.bgpix.set n ((List.range screenW).map pixel) }

/-- A free pixel of a background layer. -/
def freePixel (v : BitVec 32) : Option Colour := if v.getLsbD 31 then none else some (v.setWidth 15)

/-- Layer `n`'s line buffer where its rule states no pixel: each one free (log 27). -/
def State.fillFree (s : State) (n : Fin 4) : State := (s.fillBg n (fun px => freePixel (s.freeAt px n.val))).useFree

/-- `PPU_BG_TEXT(n, y)` (R250). DESIGN CHOICE (log 27): from line 160 the rule states no pixel. -/
def bgText (s : State) (n : Fin 4) (y : Nat) : State :=
  if y < screenH then s.fillBg n (s.textPixel n y) else s.fillFree n
/-- `PPU_BG_AFFINE(n, y)` (R260). DESIGN CHOICE (log 27): for layers 0 and 1, and from line 160, the rule states no pixel. -/
def bgAffine (s : State) (n : Fin 4) (y : Nat) : State :=
  if 2 ≤ n.val ∧ y < screenH then s.fillBg n (s.affinePixel (decide (n = 3)) y) else s.fillFree n
/-- `PPU_BG_BITMAP3(y)` (R270), whose formula reads VRAM at every `y` (`20_memory.md` R74; log 27). -/
def bgBitmap3 (s : State) (y : Nat) : State := s.fillBg 2 (s.bitmap3Pixel y)
/-- `PPU_BG_BITMAP4(y)` (R271). -/
def bgBitmap4 (s : State) (y : Nat) : State := s.fillBg 2 (s.bitmap4Pixel y)
/-- `PPU_BG_BITMAP5(y)` (R272). -/
def bgBitmap5 (s : State) (y : Nat) : State := s.fillBg 2 (s.bitmap5Pixel y)

/-- `PPU_FRAMESTART` (R244): the latches from the registers; and the mode sampled for `MODE_LATCH` = per_frame
(R242; log 15). -/
def frameStart (s : State) : State :=
  let s1 := s.setRefs
    { bgx2 := (s.x32 (Reg.bgref .bg2x)).setWidth 28
      bgy2 := (s.x32 (Reg.bgref .bg2y)).setWidth 28
      bgx3 := (s.x32 (Reg.bgref .bg3x)).setWidth 28
      bgy3 := (s.x32 (Reg.bgref .bg3y)).setWidth 28 }
  { s1 with frameMode := BitVec.ofNat 3 (DispCnt.mode s.dispcnt) }

/-- `AffineLineStep()` (R262). -/
def affineLineStep (s : State) : State :=
  s.setRefs
    { bgx2 := s.refs.bgx2 + (s.x (Reg.bgpb false)).signExtend 28
      bgy2 := s.refs.bgy2 + (s.x (Reg.bgpd false)).signExtend 28
      bgx3 := s.refs.bgx3 + (s.x (Reg.bgpb true)).signExtend 28
      bgy3 := s.refs.bgy3 + (s.x (Reg.bgpd true)).signExtend 28 }

/-- `PPU_FRAMESTART` (R244). -/
def execPpuFramestart (s : State) : Host.Outcome State Fault Refusal := .next (frameStart s)
/-- `PPU_BG_TEXT n, y` (R250). -/
def execPpuBgText (n : BitVec 2) (y : Byte) (s : State) : Host.Outcome State Fault Refusal :=
  .next (bgText s (channelOf n) y.toNat)
/-- `PPU_BG_AFFINE k, y` (R260). -/
def execPpuBgAffine (k : BitVec 2) (y : Byte) (s : State) : Host.Outcome State Fault Refusal :=
  .next (bgAffine s (channelOf k) y.toNat)
/-- `PPU_BG_BITMAP3 y` (R270). -/
def execPpuBgBitmap3 (y : Byte) (s : State) : Host.Outcome State Fault Refusal := .next (bgBitmap3 s y.toNat)
/-- `PPU_BG_BITMAP4 y` (R271). -/
def execPpuBgBitmap4 (y : Byte) (s : State) : Host.Outcome State Fault Refusal := .next (bgBitmap4 s y.toNat)
/-- `PPU_BG_BITMAP5 y` (R272). -/
def execPpuBgBitmap5 (y : Byte) (s : State) : Host.Outcome State Fault Refusal := .next (bgBitmap5 s y.toNat)

end Sys2Proof.Machine
end

