-- ==== Sys2Proof/Machine/Sprites.lean ====
section
/-! DEFINITION. The compositor, stage 2: the sprite layer (`45_ppu_sprites.md`). -/

set_option Elab.async false

namespace Sys2Proof.Machine

/-- `Drawn(a0)` (R281). -/
def objDrawn (a0 : Half) : Bool :=
  (ObjAttr.affine a0 || !ObjAttr.dblOrDis a0) && decide (ObjAttr.objmode a0 ≠ 3) && decide (ObjAttr.shape a0 ≠ 3)

/-- The x of `Position(a0, a1)` (R282). -/
def objX (a1 : Half) : Int := if 240 ≤ ObjAttr.x a1 then (ObjAttr.x a1 : Int) - 512 else ObjAttr.x a1

/-- The y of `Position(a0, a1)` (R282). -/
def objY (a0 : Half) : Int := if 160 ≤ ObjAttr.y a0 then (ObjAttr.y a0 : Int) - 256 else ObjAttr.y a0

/-- The canvas of a sprite of size `wh` (R283). -/
def objCanvas (a0 : Half) (wh : Nat × Nat) : Nat × Nat :=
  if ObjAttr.affine a0 && ObjAttr.dblOrDis a0 then (2 * wh.1, 2 * wh.2) else wh

/-- `SampleCol` and `SampleRow`: the canvas coordinate sampled for screen coordinate `p` of a canvas that starts at
`o`, in blocks of `size` when mosaic is on (R289). -/
def objSample (mosaic : Bool) (size p : Nat) (o : Int) : Int :=
  if mosaic then max 0 (((p - p % size : Nat) : Int) - o) else (p : Int) - o

/-- `RegularTex` (R284). -/
def regularTex (a1 : Half) (lx ly : Int) (w h : Nat) : Int × Int :=
  (if ObjAttr.hflip a1 then (w : Int) - 1 - lx else lx, if ObjAttr.vflip a1 then (h : Int) - 1 - ly else ly)

/-- `AffineTex`, without its test against the texture (R285); `cw`, `chh` is the canvas. -/
def State.affineTex (s : State) (a1 : Half) (lx ly : Int) (w h cw chh : Nat) : Int × Int :=
  let m := ObjAttr.matrix a1
  let pa := (s.oam16 (32 * m + 6)).toInt
  let pb := (s.oam16 (32 * m + 14)).toInt
  let pc := (s.oam16 (32 * m + 22)).toInt
  let pd := (s.oam16 (32 * m + 30)).toInt
  let cx := lx - (cw / 2 : Nat)
  let cy := ly - (chh / 2 : Nat)
  ((pa * cx + pb * cy) / 256 + (w / 2 : Nat), (pc * cx + pd * cy) / 256 + (h / 2 : Nat))

/-- The texel a canvas coordinate shows, or `none` for `Outside` (R284, R285). -/
def State.objTex (s : State) (a0 a1 : Half) (lx ly : Int) (w h cw chh : Nat) : Option (Nat × Nat) :=
  if ObjAttr.affine a0 then
    let t := s.affineTex a1 lx ly w h cw chh
    if t.1 < 0 ∨ (w : Int) ≤ t.1 ∨ t.2 < 0 ∨ (h : Int) ≤ t.2 then none else some (t.1.toNat, t.2.toNat)
  else
    let t := regularTex a1 lx ly w h
    some (t.1.toNat, t.2.toNat)

/-- The slot number of the tile that holds texel (tx, ty) (R286). -/
def State.objSlot (s : State) (a0 a2 : Half) (tx ty w : Nat) : Nat :=
  let k := if ObjAttr.bpp8 a0 then 2 else 1
  (if DispCnt.obj1d s.dispcnt then ObjAttr.tile a2 + (ty / 8) * (w / 8) * k + (tx / 8) * k
    else ObjAttr.tile a2 + (ty / 8) * 32 + (tx / 8) * k) % 1024

/-- `ObjIndex(a0, t, u, v)` (R287). -/
def State.objIndex (s : State) (a0 : Half) (t u v : Nat) : Nat :=
  if ObjAttr.bpp8 a0 then s.vram8 (0x10000 + (t * 32 + v * 8 + u) % 0x8000)
  else tileNibble (s.vram8 (0x10000 + (t * 32 + v * 4 + u / 2) % 0x8000)) u

/-- `ObjTexel(a0, a2, tx, ty, w)` (R286, R288). -/
def State.objTexel (s : State) (a0 a2 : Half) (tx ty w : Nat) : Option Colour :=
  let t := s.objSlot a0 a2 tx ty w
  if 3 ≤ DispCnt.mode s.dispcnt ∧ t < 512 then none
  else
    let i := s.objIndex a0 t (tx % 8) (ty % 8)
    if i = 0 then none
    else if ObjAttr.bpp8 a0 then some (s.pal16 (0x200 + 2 * i))
    else some (s.pal16 (0x200 + 2 * (ObjAttr.palette a2 * 16 + i)))

/-- What the entry with these attributes shows at screen pixel (px, y): its colour, or `none` where it draws nothing
(R280). -/
def State.objPixelAt (s : State) (a0 a1 a2 : Half) (y px : Nat) : Option Colour :=
  let wh := ObjAttr.sizeOf (ObjAttr.shape a0) (ObjAttr.size a1)
  let cv := objCanvas a0 wh
  let ox := objX a1
  let oy := objY a0
  let m := s.x Reg.mosaic
  if objDrawn a0 = false ∨ (y : Int) < oy ∨ oy + cv.2 ≤ y ∨ (px : Int) < ox ∨ ox + cv.1 ≤ px then none
  else
    let lx := objSample (ObjAttr.mosaic a0) (Mosaic.objH m + 1) px ox
    let ly := objSample (ObjAttr.mosaic a0) (Mosaic.objV m + 1) y oy
    match s.objTex a0 a1 lx ly wh.1 wh.2 cv.1 cv.2 with
    | none => none
    | some t => s.objTexel a0 a2 t.1 t.2 wh.1

/-- Whether the entry with this `attr0` and this `attr1` is drawn and crosses line `y` (R280, R281). -/
def objOnLine (a0 a1 : Half) (y : Nat) : Bool :=
  let cv := objCanvas a0 (ObjAttr.sizeOf (ObjAttr.shape a0) (ObjAttr.size a1))
  objDrawn a0 && decide (objY a0 ≤ (y : Int)) && decide ((y : Int) < objY a0 + cv.2)

/-- A pixel of a bucket after an entry of it shows `c` there: the lower index keeps the pixel (R290). -/
def bucketKeep (old : Option ObjPixel) (c : Option Colour) (semi : Bool) : Option ObjPixel :=
  match old, c with
  | some p, _ => some p
  | none, some c => some { colour := c, semi := semi }
  | none, none => none

/-- `l`, whose first pixel is at column `px`, with `f` applied at `n` columns from the `skip`-th on: the loop over the columns
of a canvas (R280). -/
def mapSpan {α : Type} (f : Nat → α → α) : Nat → Nat → Nat → List α → List α
  | _, _, _, [] => []
  | px, skip + 1, n, a :: l => a :: mapSpan f (px + 1) skip n l
  | px, 0, n + 1, a :: l => f px a :: mapSpan f (px + 1) 0 n l
  | _, 0, 0, l => l

/-- OAM entry `i` drawn into the line buffers (R280, R290, R291). -/
def State.objEntry (s : State) (y : Nat) (b : LineBuffers) (i : Nat) : LineBuffers :=
  let a0 := s.oam16 (8 * i)
  let a1 := s.oam16 (8 * i + 2)
  let a2 := s.oam16 (8 * i + 4)
  if objOnLine a0 a1 y then
    let left := (objX a1).toNat
    let cols := (objX a1 + (objCanvas a0 (ObjAttr.sizeOf (ObjAttr.shape a0) (ObjAttr.size a1))).1).toNat - left
    if ObjAttr.objmode a0 = 2 then
      { b with objwin := mapSpan (fun px w => w || (s.objPixelAt a0 a1 a2 y px).isSome) 0 left cols b.objwin }
    else
      let p := ObjAttr.priority a2
      { b with objpix := b.objpix.set p (mapSpan
          (fun px o => bucketKeep o (s.objPixelAt a0 a1 a2 y px) (decide (ObjAttr.objmode a0 = 1))) 0 left cols
          (b.objpix.get p)) }
  else b

/-- Some OAM entry that is drawn (R281) is one of `want`, by its `attr0` and `attr2`. -/
def State.objDrawnAny (s : State) (want : Half → Half → Bool) : Bool :=
  (List.range 128).any (fun i => objDrawn (s.oam16 (8 * i)) && want (s.oam16 (8 * i)) (s.oam16 (8 * i + 4)))

/-- A free pixel of a sprite bucket. -/
def freeObjPixel (v : BitVec 32) : Option ObjPixel :=
  if v.getLsbD 31 then none else some { colour := v.setWidth 15, semi := v.getLsbD 30 }

/-- Bucket `p` where R280 states no pixel: one already there stays (R290); the others are free if any entry of the bucket is
drawn (R281; log 27). -/
def State.bucketFree (s : State) (p : Fin 4) : List (Option ObjPixel) :=
  if s.objDrawnAny (fun a0 a2 => decide (ObjAttr.objmode a0 ≠ 2) && decide (ObjAttr.priority a2 = p)) then
    mapSpan (fun px o => o.or (freeObjPixel (s.freeAt px (4 + p.val)))) 0 0 screenW (s.lb.objpix.get p)
  else s.lb.objpix.get p

/-- The object window where R280 states no mark: one already there stays; the others are free if any window sprite is drawn
(R281, R291; log 27). -/
def State.objwinFree (s : State) : List Bool :=
  if s.objDrawnAny (fun a0 _ => decide (ObjAttr.objmode a0 = 2)) then
    mapSpan (fun px w => w || (s.freeAt px 8).getLsbD 0) 0 0 screenW s.lb.objwin
  else s.lb.objwin

/-- The sprites of a line the rule states nothing of (log 27). -/
def objFree (s : State) : State :=
  (s.setLb { s.lb with
    objpix := ⟨s.bucketFree 0, s.bucketFree 1, s.bucketFree 2, s.bucketFree 3⟩
    objwin := s.objwinFree }).useFree

/-- `PPU_OBJ(y)`: the 128 entries in index order (R280). DESIGN CHOICE (log 27): from line 160 the rule states no pixel. -/
def objLine (s : State) (y : Nat) : State :=
  if y < screenH then s.setLb ((List.range 128).foldl (s.objEntry y) s.lb) else objFree s

/-- `PPU_OBJ y` (R280). -/
def execPpuObj (y : Byte) (s : State) : Host.Outcome State Fault Refusal := .next (objLine s y.toNat)

end Sys2Proof.Machine
end

