-- ==== Sys2Proof/Machine/Compose.lean ====
section
/-! DEFINITION. The compositor, stages 3 to 7 and the line pipeline: draw order, windows, colour effects, channel swap,
commit, frame buffers (`46_ppu_compose.md`), and `PPU_RENDERLINE` (`44_ppu_backgrounds.md` R240, R241). -/

set_option Elab.async false

namespace Sys2Proof.Machine

/-! ### Colours (`00_scope.md` section 6) -/

def red (c : Colour) : Nat := fieldOf c 0 5
def green (c : Colour) : Nat := fieldOf c 5 5
def blue (c : Colour) : Nat := fieldOf c 10 5
/-- `RGB(r, g, b)`. -/
def rgb (r g b : Nat) : Colour := BitVec.ofNat 15 (r % 32 + 32 * (g % 32) + 1024 * (b % 32))

/-! ### Draw order (R300, R301) -/

/-- The layers of priority `p`: the sprite bucket, then the active backgrounds in ascending number (R300). -/
def State.layersOf (s : State) (p : Fin 4) : List Layer :=
  .obj p :: (([0, 1, 2, 3] : List (Fin 4)).filter (fun n =>
    DispCnt.bgEn s.dispcnt n && decide (s.kind n ≠ .none) &&
      decide (BgCnt.priority (s.x (Reg.bgcnt n)) = p.val))).map .bg

/-- `PPU_SORT()`: the layers of the line, front first (R300). -/
def State.sortLayers (s : State) : List Layer :=
  ([0, 1, 2, 3] : List (Fin 4)).flatMap s.layersOf ++ [.backdrop]

/-! ### Windows (R305, R307) -/

/-- A bound of the inside test: past the screen or below the start, it is the screen's edge (R307). -/
def windowEnd (v1 v2 limit : Nat) : Nat := if limit < v2 ∨ v2 < v1 then limit else v2

/-- `Inside(w, px, y)` (R307); `w1` says window 1. -/
def State.insideWindow (s : State) (w1 : Bool) (px y : Nat) : Bool :=
  let h := s.x (Reg.winh w1)
  let v := s.x (Reg.winv w1)
  let x1 := fieldOf h 8 8
  let y1 := fieldOf v 8 8
  decide (x1 ≤ px) && decide (px < windowEnd x1 (fieldOf h 0 8) screenW) &&
    decide (y1 ≤ y) && decide (y < windowEnd y1 (fieldOf v 0 8) screenH)

/-- A column or a line past the screen: R305 states no mask there. -/
def offScreen (px y : Nat) : Bool := decide (screenW ≤ px) || decide (screenH ≤ y)

/-- `PPU_WINDOW(px, y)`: the visibility mask of a pixel (R305). DESIGN CHOICE (log 27): past the screen a mask that depends on
the pixel is free. -/
def State.windowMask (s : State) (px y : Nat) : BitVec 6 :=
  let d := s.dispcnt
  if !DispCnt.winEn d false && !DispCnt.winEn d true && !DispCnt.objwinEn d then 0b111111
  else if offScreen px y then (s.freeAt px 9).setWidth 6
  else if DispCnt.winEn d false && s.insideWindow false px y then BitVec.ofNat 6 (fieldOf (s.x Reg.winin) 0 6)
  else if DispCnt.winEn d true && s.insideWindow true px y then BitVec.ofNat 6 (fieldOf (s.x Reg.winin) 8 6)
  else if DispCnt.objwinEn d && s.lb.objwin.getD px false then BitVec.ofNat 6 (fieldOf (s.x Reg.winout) 8 6)
  else BitVec.ofNat 6 (fieldOf (s.x Reg.winout) 0 6)

/-! ### Colour effects (R310 to R315) -/

/-- Background pixel `px` of layer `n`. DESIGN CHOICE (log 27): past the line buffer it is free. -/
def State.bgAt (s : State) (n : Fin 4) (px : Nat) : Option Colour :=
  if px < screenW then (s.lb.bgpix.get n).getD px none else freePixel (s.freeAt px n.val)

/-- Sprite pixel `px` of bucket `p`. DESIGN CHOICE (log 27): past the line buffer it is free. -/
def State.objAt (s : State) (p : Fin 4) (px : Nat) : Option ObjPixel :=
  if px < screenW then (s.lb.objpix.get p).getD px none else freeObjPixel (s.freeAt px (4 + p.val))

/-- `Visible(l, px)` under mask `wm` (R311). -/
def State.visible (s : State) (wm : BitVec 6) (px : Nat) : Layer → Bool
  | .bg n => wm.getLsbD n.val && (s.bgAt n px).isSome
  | .obj p => wm.getLsbD 4 && (s.objAt p px).isSome
  | .backdrop => true

/-- `Colour(l, px)` (R311). -/
def State.layerColour (s : State) (px : Nat) : Layer → Colour
  | .bg n => (s.bgAt n px).getD 0
  | .obj p => ((s.objAt p px).map (·.colour)).getD 0
  | .backdrop => s.pal16 0

/-- The pixel of the layer is a sprite pixel marked `semi` (R315). -/
def State.layerSemi (s : State) (px : Nat) : Layer → Bool
  | .obj p => (s.objAt p px).any (·.semi)
  | _ => false

/-- The bit of a layer in the target fields of BLDCNT (`10_state.md` R23). -/
def targetBit : Layer → Nat
  | .bg n => n.val
  | .obj _ => 4
  | .backdrop => 5

/-- `T1(l)` (R310). -/
def target1 (b : Half) (l : Layer) : Bool := b.getLsbD (targetBit l)
/-- `T2(l)` (R310). -/
def target2 (b : Half) (l : Layer) : Bool := b.getLsbD (8 + targetBit l)

/-- One channel of the alpha blend (R312). -/
def alphaChannel (eva evb a b : Nat) : Nat := min 31 ((a * eva + b * evb) / 16)
/-- `Alpha(c1, c2)` (R312). -/
def alphaBlend (eva evb : Nat) (c1 c2 : Colour) : Colour :=
  rgb (alphaChannel eva evb (red c1) (red c2)) (alphaChannel eva evb (green c1) (green c2))
    (alphaChannel eva evb (blue c1) (blue c2))
/-- One channel of the fade to white (R313). -/
def brightChannel (evy a : Nat) : Nat := a + (31 - a) * evy / 16
/-- `Brighten(c)` (R313). -/
def brighten (evy : Nat) (c : Colour) : Colour :=
  rgb (brightChannel evy (red c)) (brightChannel evy (green c)) (brightChannel evy (blue c))
/-- One channel of the fade to black (R314). -/
def darkChannel (evy a : Nat) : Nat := a - a * evy / 16
/-- `Darken(c)` (R314). -/
def darken (evy : Nat) (c : Colour) : Colour :=
  rgb (darkChannel evy (red c)) (darkChannel evy (green c)) (darkChannel evy (blue c))

/-- `eva`, clamped to 16 (`10_state.md` R24, R312). -/
def State.eva (s : State) : Nat := min 16 (fieldOf (s.x Reg.bldalpha) 0 5)
/-- `evb`, clamped to 16 (R24, R312). -/
def State.evb (s : State) : Nat := min 16 (fieldOf (s.x Reg.bldalpha) 8 5)
/-- `evy`, clamped to 16 (R25, R313). -/
def State.evy (s : State) : Nat := min 16 (fieldOf (s.x Reg.bldy) 0 5)

/-- `Alpha` of the top layer's colour with the second layer's, if there is one that is a second target. -/
def State.blendWith (s : State) (px : Nat) (c1 : Colour) (second : Option Layer) : Option Colour :=
  match second with
  | some l => if target2 (s.x Reg.bldcnt) l then some (alphaBlend s.eva s.evb c1 (s.layerColour px l)) else none
  | none => none

/-- The ordinary effect path, by BLDCNT.mode (R310). -/
def State.modeEffect (s : State) (px : Nat) (top : Layer) (second : Option Layer) : Colour :=
  let c1 := s.layerColour px top
  let b := s.x Reg.bldcnt
  match fieldOf b 6 2 with
  | 0 => c1
  | 1 => if target1 b top then (s.blendWith px c1 second).getD c1 else c1
  | 2 => if target1 b top then brighten s.evy c1 else c1
  | _ => if target1 b top then darken s.evy c1 else c1

/-- The effect on the visible layers `ls` of a pixel, front first (R310, R315). -/
def State.effectOf (s : State) (wm : BitVec 6) (px : Nat) (ls : List Layer) : Colour :=
  match ls with
  | [] => s.layerColour px .backdrop
  | top :: rest =>
    let second := if top = .backdrop then none else rest.head?
    match (if s.layerSemi px top then s.blendWith px (s.layerColour px top) second else none) with
    | some c => c
    | none => if wm.getLsbD 5 then s.modeEffect px top second else s.layerColour px top

/-- `PPU_EFFECT(px)` with `order` and `wm` (R310). -/
def State.effectColour (s : State) (order : List Layer) (wm : BitVec 6) (px : Nat) : Colour :=
  s.effectOf wm px (order.filter (s.visible wm px))

/-! ### Channel swap, commit, frame buffers (R316, R317, R320, R322) -/

/-- Neighbouring pixels with their green channels exchanged (R316). -/
def swapGreens : List Colour → List Colour
  | a :: b :: l => rgb (red a) (green b) (blue a) :: rgb (red b) (green a) (blue b) :: swapGreens l
  | l => l

/-- `PPU_GREENSWAP()` (R316). -/
def greenSwap (s : State) : State :=
  if (s.x Reg.greenswap).getLsbD 0 then s.setLb { s.lb with line := swapGreens s.lb.line } else s

/-- `PPU_COMMIT(y)`: row `y` of the active buffer, if it has one, and no other (R317; log 27). -/
def commit (s : State) (y : Nat) : State :=
  if s.active = 0 then { s with fb0 := s.fb0.set y s.lb.line } else { s with fb1 := s.fb1.set y s.lb.line }

/-- `PPU_SWAP()` (R320). -/
def swapBuffers (s : State) : State := { s with active := ~~~s.active }

/-- A frame buffer by index (R55). -/
def State.fb (s : State) (i : BitVec 1) : List (List Colour) := if i = 0 then s.fb0 else s.fb1

/-! ### The line pipeline (`44_ppu_backgrounds.md` R240) -/

/-- The buffers as `PPU_RENDERLINE` clears them (R240). -/
def clearBuffers (s : State) : State :=
  s.setLb { s.lb with
    bgpix := Four.all (List.replicate screenW none)
    objpix := Four.all (List.replicate screenW none)
    objwin := List.replicate screenW false }

/-- Stage 1 for layer `n` (R240). -/
def renderLayer (y : Nat) (s : State) (n : Fin 4) : State :=
  if DispCnt.bgEn s.dispcnt n then
    match s.kind n with
    | .text => bgText s n y
    | .affine => bgAffine s n y
    | .bitmap3 => bgBitmap3 s y
    | .bitmap4 => bgBitmap4 s y
    | .bitmap5 => bgBitmap5 s y
    | .none => s
  else s

/-- Stages 1 and 2 (R240). -/
def renderLayers (s : State) (y : Nat) : State :=
  let s1 := ([0, 1, 2, 3] : List (Fin 4)).foldl (renderLayer y) (clearBuffers s)
  if DispCnt.objEn s.dispcnt then objLine s1 y else s1

/-- The state after free values, if the pixel is past the screen. -/
def State.useFreeOff (s : State) (px y : Nat) : State := if offScreen px y then s.useFree else s

/-- Stages 3 to 5: the order, then every pixel's window mask and effect (R240). -/
def composeLine (s : State) (y : Nat) : State :=
  let order := s.sortLayers
  (s.setLb { s.lb with
    order := order
    wm := s.windowMask (screenW - 1) y
    line := (List.range screenW).map (fun px => s.effectColour order (s.windowMask px y) px) }).useFreeOff 0 y

/-- The output line of `y`, forced blank included (R240, R241). -/
def outputLine (s : State) (y : Nat) : State :=
  if DispCnt.forcedBlank s.dispcnt then s.setLb { s.lb with line := List.replicate screenW 0x7FFF }
  else greenSwap (composeLine (renderLayers s y) y)

/-- `PPU_RENDERLINE(y)` (R240). -/
def renderLine (s : State) (y : Nat) : State := affineLineStep (commit (outputLine s y) y)

/-- `PPU_RENDERLINE y` (R240). -/
def execPpuRenderline (y : Byte) (s : State) : Host.Outcome State Fault Refusal := .next (renderLine s y.toNat)
/-- `PPU_SORT` (R300): the order, as the result and for `PPU_EFFECT` (log 10). -/
def execPpuSort (s : State) : Host.Outcome State Fault Refusal :=
  .next ((s.setLb { s.lb with order := s.sortLayers }).setResult (.order s.sortLayers))
/-- `PPU_WINDOW px, y` (R305): the mask, as the result and for `PPU_EFFECT` (log 10). -/
def execPpuWindow (x y : Byte) (s : State) : Host.Outcome State Fault Refusal :=
  .next (((s.setLb { s.lb with wm := s.windowMask x.toNat y.toNat }).setResult
    (.mask (s.windowMask x.toNat y.toNat))).useFreeOff x.toNat y.toNat)
/-- `PPU_EFFECT px` (R310): the colour, from the latest `order` and `wm` (log 10; log 27 past the line). -/
def execPpuEffect (x : Byte) (s : State) : Host.Outcome State Fault Refusal :=
  .next ((s.setResult (.colour (s.effectColour s.lb.order s.lb.wm x.toNat))).useFreeOff x.toNat 0)
/-- `PPU_GREENSWAP` (R316). -/
def execPpuGreenswap (s : State) : Host.Outcome State Fault Refusal := .next (greenSwap s)
/-- `PPU_COMMIT y` (R317). -/
def execPpuCommit (y : Byte) (s : State) : Host.Outcome State Fault Refusal := .next (commit s y.toNat)
/-- `PPU_SWAP` (R320). -/
def execPpuSwap (s : State) : Host.Outcome State Fault Refusal := .next (swapBuffers s)
/-- `PPU_GETFRAME` (R322): a reference to the completed frame. -/
def execPpuGetframe (s : State) : Host.Outcome State Fault Refusal := .next (s.setResult (.frame (~~~s.active)))

end Sys2Proof.Machine
end

