-- ==== Sys2Proof/Machine/Scheduler.lean ====
section
/-! DEFINITION. The scanline scheduler (`40_scheduler.md`). -/

set_option Elab.async false

namespace Sys2Proof.Machine

/-- Lines 1 to 7 of `ADVANCE` for line `L`: the clock, VCOUNT, the flags, the frame start and the compositor (R131). -/
def advanceBegin (s : State) : State :=
  let l := s.frameClock
  let s1 := { s with frameClock := BitVec.ofNat 8 ((l.toNat + 1) % nLines) }
  let s2 := s1.setReg Reg.vcount (l.setWidth 16)
  let s3 := (s2.setHblankFlag false).setVblankFlag (decide (nVisible ≤ l.toNat))
  let s4 := if l = 0 then frameStart s3 else s3
  if l.toNat < nVisible then renderLine s4 l.toNat else s4

/-- `ADVANCE` of line `l` from line 16 (R131). -/
def advanceTimers (s : State) : Run := tmrTickline s

/-- `ADVANCE` of line `l` from line 15 (R131). -/
def advanceHblankRaise (l : BitVec 8) (s : State) : Run :=
  (raise s 1).andThen (.advance l .timerTicks) advanceTimers

/-- `ADVANCE` of line `l` from line 14: the outer line is compared with the live register (R131, R132). -/
def advanceVcount (l : BitVec 8) (s : State) : Run :=
  (if l.toNat = s.vcountMatch then raise s 2 else .done s).andThen (.advance l .hblankRaise) (advanceHblankRaise l)

/-- `ADVANCE` of line `l` from line 12 (R131). -/
def advanceHblankPoint (l : BitVec 8) (s : State) : Run :=
  let s1 := s.setHblankFlag true
  (if l.toNat < nVisible then fireHblank s1 else .done s1).andThen (.advance l .vcountCompare) (advanceVcount l)

/-- `ADVANCE` of line `l` from line 11 (R131). -/
def advanceVblankRaise (l : BitVec 8) (s : State) : Run :=
  (raise s 0).andThen (.advance l .hblankPoint) (advanceHblankPoint l)

/-- `ADVANCE()`: one scanline's worth of work (R131). -/
def advance (s : State) : Run :=
  let l := s.frameClock
  let s1 := advanceBegin s
  if l.toNat = nVisible then
    (fireVblank (swapBuffers s1)).andThen (.advance l .vblankRaise) (advanceVblankRaise l)
  else advanceHblankPoint l s1

/-- The test at the end of the loop of `HALTUNTIL`: the innermost wait frame has seen a source of its mask, and is
popped; or the loop goes on (R133). -/
def haltTest (s : State) : Run :=
  match s.waits with
  | [] => .done s
  | w :: ws => if w.seen &&& w.mask = 0 then .susp s [.haltLoop] else .done (s.setWaits ws)

/-- The loop of `HALTUNTIL` from the poll (R133). -/
def haltPoll (s : State) : Run := (irqDispatch s).andThen .haltTest haltTest

/-- The loop of `HALTUNTIL` from the call of `ADVANCE` (R133). -/
def haltAdvance (s : State) : Run := (advance s).andThen .haltPoll haltPoll

/-- One round of the loop of `HALTUNTIL`. Before the scanline, the external raise port is looked at once
(`41_interrupts.md` R153; log 20). DESIGN CHOICE (log 20): R4 and R153 name sources 7, 12 and 13 on that port; a raise of any
other is taken like the operand of `IRQ_RAISE`, one that is no source with its fault. -/
def haltLoop (s : State) : Run :=
  match s.extRaises with
  | [] => haltAdvance s
  | none :: rest => haltAdvance { s with extRaises := rest }
  | some i :: rest =>
    (withSource i { s with extRaises := rest } (fun j => raise { s with extRaises := rest } j)).andThen
      .haltAdvance haltAdvance

/-- `HALTUNTIL(mask)`: push the wait frame and stand at the head of the loop; the rounds are the next steps
(R133; log 1). -/
def haltUntil (s : State) (mask : Half) : Run :=
  let m : BitVec 14 := mask.setWidth 14
  if m = 0 then .fault (raiseFault .zeroWaitMask (mask.setWidth 32) s)
  else .susp (s.setWaits ({ mask := m, seen := 0 } :: s.waits)) [.haltLoop]

/-- `ADVANCE` (R131). -/
def execAdvance (s : State) : Host.Outcome State Fault Refusal := (advance s).finish

/-- `HALTUNTIL mask` (R133). -/
def execHaltuntil (mask : Half) (s : State) : Host.Outcome State Fault Refusal := (haltUntil s mask).finish

/-- `HALTVBL`: `HALTUNTIL 0x0001` (R134). -/
def execHaltvbl (s : State) : Host.Outcome State Fault Refusal := (haltUntil s 0x0001).finish

/-- `HALT`: `HALTUNTIL` of IE, read once at the start (R135). -/
def execHalt (s : State) : Host.Outcome State Fault Refusal := (haltUntil s (s.x Reg.ie)).finish

end Sys2Proof.Machine
end

