-- ==== Sys2Proof/Machine/Resume.lean ====
section
/-! DEFINITION. Going on with a suspended operation (`40_scheduler.md` R132, `60_exceptions.md` R378, R388), the reset
event (`70_reset_and_hazards.md` R410), and fetching the host's next event. -/

set_option Elab.async false

namespace Sys2Proof.Machine

/-- What the operation suspended at position `k` still has to do. -/
def resume (k : Kont) (s : State) : Run :=
  match k with
  | .handlerReturn => .done (deliverReturn s)
  | .handlerProgram _ => .done (deliverReturn s)
  | .advance l .vblankRaise => advanceVblankRaise l s
  | .advance l .hblankPoint => advanceHblankPoint l s
  | .advance l .vcountCompare => advanceVcount l s
  | .advance l .hblankRaise => advanceHblankRaise l s
  | .advance _ .timerTicks => advanceTimers s
  | .fire timing n => fireFrom timing n s
  | .dispatch => irqDispatch s
  | .tickCascade ch => tickCascade s ch
  | .tickLine n => tickSlots n s
  | .writeHigh off data => regWriteHalf s off data
  | .haltLoop => haltLoop s
  | .haltAdvance => haltAdvance s
  | .haltPoll => haltPoll s
  | .haltTest => haltTest s

/-- Whether the host's list is looked at: no operation is in progress, or the innermost one is inside an interactive
`HostHandler(s)` (`00_scope.md` R7). -/
def State.hostTurn (s : State) : Bool :=
  match s.kont with
  | [] => true
  | .handlerReturn :: _ => true
  | _ => false

/-- System reset: every piece of the block's state at its reset value. The parameters, the external memory and what is
pending on the ports are not the block's and stay (R410; log 21); free values go on (log 27). -/
def applyReset (s : State) : State :=
  { State.resetWith s.cfg with ext := s.ext, host := s.host, extRaises := s.extRaises, freeCount := s.freeCount }

/-- The reset event: only when no operation is in progress (R410). -/
def resetEvent (s : State) : Host.Outcome State Fault Refusal :=
  match s.kont with
  | [] => .next (applyReset s)
  | _ :: _ => .refused .resetInsideOperation

/-- The return event: the running interactive handler returns to `IRQ_DELIVER` (R378). -/
def returnEvent (s : State) : Host.Outcome State Fault Refusal :=
  match s.kont with
  | .handlerReturn :: ks => .next (deliverReturn (s.setKont ks))
  | _ => .refused .returnOutsideHandler

/-- `raw` as what is issued next: by the handler program that runs, or else by the host. -/
def State.pushRaw (s : State) (raw : RawOp) : State :=
  match s.kont with
  | .handlerProgram ops :: ks => s.setKont (.handlerProgram (raw :: ops) :: ks)
  | _ => s.setHost (.op raw :: s.host)

end Sys2Proof.Machine
end

