-- ==== Sys2Proof/Machine/Dispatch.lean ====
section
/-! DEFINITION. One meaning for every operation. -/

namespace Sys2Proof.Machine

def exec (i : Instr) (s : State) : Host.Outcome State Fault Refusal :=
  match i with
  | .advance => Sys2Proof.Machine.execAdvance s
  | .haltuntil mask => Sys2Proof.Machine.execHaltuntil mask s
  | .haltvbl => Sys2Proof.Machine.execHaltvbl s
  | .halt => Sys2Proof.Machine.execHalt s
  | .irqSeten src b => Sys2Proof.Machine.execIrqSeten src b s
  | .irqRaise src => Sys2Proof.Machine.execIrqRaise src s
  | .irqAck src => Sys2Proof.Machine.execIrqAck src s
  | .irqSetime b => Sys2Proof.Machine.execIrqSetime b s
  | .irqDeliver src => Sys2Proof.Machine.execIrqDeliver src s
  | .irqDispatch => Sys2Proof.Machine.execIrqDispatch s
  | .dmaConfigure ch src dst count flags => Sys2Proof.Machine.execDmaConfigure ch src dst count flags s
  | .dmaStop ch => Sys2Proof.Machine.execDmaStop ch s
  | .dmaFireHblank => Sys2Proof.Machine.execDmaFireHblank s
  | .dmaFireVblank => Sys2Proof.Machine.execDmaFireVblank s
  | .dmaXfer ch => Sys2Proof.Machine.execDmaXfer ch s
  | .tmrStart ch reload prescaler cascade irq => Sys2Proof.Machine.execTmrStart ch reload prescaler cascade irq s
  | .tmrStop ch => Sys2Proof.Machine.execTmrStop ch s
  | .tmrTickline => Sys2Proof.Machine.execTmrTickline s
  | .tmrTick ch => Sys2Proof.Machine.execTmrTick ch s
  | .tmrMscfg ms => Sys2Proof.Machine.execTmrMscfg ms s
  | .ppuRenderline y => Sys2Proof.Machine.execPpuRenderline y s
  | .ppuFramestart => Sys2Proof.Machine.execPpuFramestart s
  | .ppuBgText n y => Sys2Proof.Machine.execPpuBgText n y s
  | .ppuBgAffine k y => Sys2Proof.Machine.execPpuBgAffine k y s
  | .ppuBgBitmap3 y => Sys2Proof.Machine.execPpuBgBitmap3 y s
  | .ppuBgBitmap4 y => Sys2Proof.Machine.execPpuBgBitmap4 y s
  | .ppuBgBitmap5 y => Sys2Proof.Machine.execPpuBgBitmap5 y s
  | .ppuObj y => Sys2Proof.Machine.execPpuObj y s
  | .ppuSort => Sys2Proof.Machine.execPpuSort s
  | .ppuWindow x y => Sys2Proof.Machine.execPpuWindow x y s
  | .ppuEffect x => Sys2Proof.Machine.execPpuEffect x s
  | .ppuGreenswap => Sys2Proof.Machine.execPpuGreenswap s
  | .ppuCommit y => Sys2Proof.Machine.execPpuCommit y s
  | .ppuSwap => Sys2Proof.Machine.execPpuSwap s
  | .ppuGetframe => Sys2Proof.Machine.execPpuGetframe s
  | .rd8 addr => Sys2Proof.Machine.execRd8 addr s
  | .rd16 addr => Sys2Proof.Machine.execRd16 addr s
  | .rd32 addr => Sys2Proof.Machine.execRd32 addr s
  | .wr8 addr data => Sys2Proof.Machine.execWr8 addr data s
  | .wr16 addr data => Sys2Proof.Machine.execWr16 addr data s
  | .wr32 addr data => Sys2Proof.Machine.execWr32 addr data s
  | .hookDmaConfigure ch w => Sys2Proof.Machine.execHookDmaConfigure ch w s
  | .hookDmaStop ch w => Sys2Proof.Machine.execHookDmaStop ch w s
  | .hookTmrStart ch w => Sys2Proof.Machine.execHookTmrStart ch w s
  | .hookTmrStop ch w => Sys2Proof.Machine.execHookTmrStop ch w s
  | .hookIrqSeten w => Sys2Proof.Machine.execHookIrqSeten w s
  | .hookIrqAck w => Sys2Proof.Machine.execHookIrqAck w s
  | .hookIrqSetime w => Sys2Proof.Machine.execHookIrqSetime w s
  | .bgRefReload r hi w => Sys2Proof.Machine.execBgRefReload r hi w s

end Sys2Proof.Machine
end

