-- ==== Sys2Proof/Machine/Step.lean ====
section
/-! DEFINITION. One step of the machine: the block goes on with a suspended operation, or the next operation of the
handler program that runs, or the host's next event, is taken (log 1, 2). -/

set_option Elab.async false

namespace Sys2Proof.Machine

/-- A raw operation issued in state `s`: decoded and run, or refused (`30_encoding.md` R112). -/
def issue (raw : RawOp) (s : State) : Host.Outcome State Fault Refusal :=
  match decode raw with
  | .ok i => exec i s
  | .error e => .refused (.noOperation e)

/-- The host's next event, when the host has control. With none pending nothing happens: the block waits
(`70_reset_and_hazards.md` R410; log 3). DESIGN CHOICE (log 25): `PPU_GETFRAME`, which the display backend issues on its own
frame port, is one of these events, so it is taken when the host has control and at no other time. -/
def hostStep (s : State) : Host.Outcome State Fault Refusal :=
  match s.host with
  | [] => .next s
  | .op raw :: rest => issue raw (s.setHost rest)
  | .handlerReturn :: rest => returnEvent (s.setHost rest)
  | .reset :: rest => resetEvent (s.setHost rest)

/-- A state with `faulted` set takes no further step but reset (`60_exceptions.md` R372 (4)). -/
def stuckStep (code : FaultCode) (s : State) : Host.Outcome State Fault Refusal :=
  match s.host with
  | .reset :: rest => resetEvent (s.setHost rest)
  | _ => .fault (.stuck code)

/-- One step with something in progress: the handler program that runs issues its next operation, or the suspended
operation goes on; a handler program that has issued all of its operations returns (R156, R378). -/
def innerStep (s : State) : Host.Outcome State Fault Refusal :=
  match s.kont with
  | [] => .next s
  | .handlerProgram (raw :: ops) :: ks => issue raw (s.setKont (.handlerProgram ops :: ks))
  | k :: ks => (resume k (s.setKont ks)).finish

/-- One step. -/
def step (s : State) : Host.Outcome State Fault Refusal :=
  match s.faulted with
  | some code => stuckStep code s
  | none => if s.hostTurn then hostStep s else innerStep s

/-- `s` with the operation of the `nbits` low bits of `w` as the next one issued; the bits above are 0. -/
def State.withFetchWord (s : State) (nbits w : Nat) : State := s.pushRaw (.port (w % 2 ^ nbits))

end Sys2Proof.Machine
end

