-- ==== Sys2Proof/Safety.lean ====
section
/-! DEFINITION. The terms claims are stated in: how a step ends, and the properties of a state that every step keeps. -/

set_option Elab.async false

namespace Sys2Proof.Machine

/-- `v[hi:lo]` by shifting and masking. -/
def bitsOf {w : Nat} (v : BitVec w) (hi lo : Nat) : Nat := (v.toNat >>> lo) % 2 ^ (hi + 1 - lo)

/-- The halfword `old` with the byte at offset `off` of the register file replaced by `b` (`47_register_access.md` R342). -/
def byteMerged (old : Half) (off : Nat) (b : Byte) : Half :=
  if off % 2 = 0 then (old >>> 8).setWidth 8 ++ b else b ++ old.setWidth 8

/-! ### Outcomes -/

/-- The state a fault leaves; a stuck step has none (`60_exceptions.md` R372). -/
def Fault.left : Fault → Option State
  | .invalidChannel _ s | .dmaMisaligned _ s | .dmaRomSource _ s | .zeroWaitMask _ s | .dmaStepMode _ s
  | .dmaIntoControl _ s | .busError _ s | .hostMisaligned _ s | .invalidSource _ s => some s
  | .stuck _ => none

/-- The operation runs and leaves state `t`. -/
def RunsTo (i : Instr) (s t : State) : Prop := exec i s = .next t

/-- The operation runs. -/
def Runs (i : Instr) (s : State) : Prop := ∃ t, exec i s = .next t

/-- The operation raises the fault `code` with `info`, from state `s` (`60_exceptions.md` R370, R372). -/
def Faults (i : Instr) (s : State) (code : FaultCode) (info : Word) : Prop :=
  exec i s = .fault (raiseFault code info s)

/-! ### Frames -/

/-- Every byte of the four memories reads as before. -/
structure SameBytes (s t : State) : Prop where
  pal : ∀ a, t.palByte a = s.palByte a
  vram : ∀ a, t.vramByte a = s.vramByte a
  oam : ∀ a, t.oamByte a = s.oamByte a
  ext : ∀ a, t.extByte a = s.extByte a

/-- Every register but those at the offsets `os` reads as before. -/
def SameRegsBut (os : List Nat) (s t : State) : Prop := ∀ o, o ∉ os → t.x o = s.x o

/-- The registers may differ, at the offsets `os`; nothing else does. -/
structure OnlyRegs (os : List Nat) (s t : State) : Prop where
  regs : SameRegsBut os s t
  bytes : SameBytes s t
  rest : t = { s with regs := t.regs }

/-- The line buffers may differ; nothing else does. -/
structure OnlyLineBuffers (s t : State) : Prop where
  bytes : SameBytes s t
  rest : t = { s with lb := t.lb }

/-- The line buffers may differ, and the count of the operations that have taken free values (log 27); nothing else does. -/
structure OnlyLineBuffersOrFree (s t : State) : Prop where
  bytes : SameBytes s t
  rest : t = { s with lb := t.lb, freeCount := t.freeCount }

/-- The result port may differ; nothing else does. -/
structure OnlyResult (s t : State) : Prop where
  bytes : SameBytes s t
  rest : t = { s with result := t.result }

/-- The wait frames after an acknowledge event of every source of `m` (`41_interrupts.md` R155). -/
def recordAck (m : BitVec 14) (ws : List WaitFrame) : List WaitFrame := ws.map (fun w => { w with seen := w.seen ||| m })

/-! ### DMA walks (`42_dma.md` R185, R186) -/

/-- The address of unit `k` of a transfer that starts at `a`. -/
def walk (a : Word) (mode unit : Nat) : Nat → Word
  | 0 => a
  | k + 1 => stepAddr (walk a mode unit k) mode unit

/-- Something answers a bus read of `unit` bytes at `a` (`20_memory.md` R72). -/
def readAnswered (cfg : Config) (unit : Nat) (a : Word) : Prop :=
  cfg.route (busAddr a unit) = .ext → ∀ i < unit, (cfg.rangeOf ((busAddr a unit).toNat + i)).isSome = true

/-- A DMA write of `unit` bytes at `a` may happen (R72, R84). -/
def writeAnswered (cfg : Config) (unit : Nat) (a : Word) : Prop :=
  (∀ off, cfg.route (busAddr a unit) = .reg off →
      dmaForbidden off = false ∧ (unit = 4 → dmaForbidden (off + 2) = false)) ∧
    (cfg.route (busAddr a unit) = .ext →
      ∀ i < unit, ∃ r, cfg.rangeOf ((busAddr a unit).toNat + i) = some r ∧ r.writable = true)

/-- Unit `k` of a transfer may move. -/
structure UnitAllowed (cfg : Config) (ch : Fin 4) (c : Half) (l : DmaLatch) (k : Nat) : Prop where
  rom : ch.val ≤ 2 → cfg.inRom (walk l.srcCur (DmaCtl.srcMode c) (DmaCtl.unit c) k) = false
  read : readAnswered cfg (DmaCtl.unit c) (walk l.srcCur (DmaCtl.srcMode c) (DmaCtl.unit c) k)
  write : writeAnswered cfg (DmaCtl.unit c) (walk l.dstCur (DmaCtl.dstMode c) (DmaCtl.unit c) k)

/-- The latches after `n` units. -/
def latchAfter (c : Half) (l : DmaLatch) (n : Nat) : DmaLatch :=
  { srcCur := walk l.srcCur (DmaCtl.srcMode c) (DmaCtl.unit c) n
    dstCur := walk l.dstCur (DmaCtl.dstMode c) (DmaCtl.unit c) n
    cntCur := l.cntCur }

/-- The address of unit `k`'s destination on the bus. -/
def unitDst (c : Half) (l : DmaLatch) (k : Nat) : Word :=
  busAddr (walk l.dstCur (DmaCtl.dstMode c) (DmaCtl.unit c) k) (DmaCtl.unit c)

/-- The same state with `n` units to move on channel `ch`. -/
def State.withCount (s : State) (ch : Fin 4) (n : Nat) : State :=
  s.setDma ch { s.dma.get ch with cntCur := BitVec.ofNat 17 n }

/-- `v` is the unit read at `a`: the stored bytes, little-endian, or, of the register file, what the host reads there
(`20_memory.md` R70, R72, `47_register_access.md` R357). -/
structure UnitRead (s : State) (unit : Nat) (a : Word) (v : Nat) : Prop where
  size : v < 256 ^ unit
  pal : ∀ p, s.cfg.route (busAddr a unit) = .pal p → ∀ i < unit, (s.palByte (p + i)).toNat = v / 256 ^ i % 256
  vram : ∀ p, s.cfg.route (busAddr a unit) = .vram p → ∀ i < unit, (s.vramByte (p + i)).toNat = v / 256 ^ i % 256
  oam : ∀ p, s.cfg.route (busAddr a unit) = .oam p → ∀ i < unit, (s.oamByte (p + i)).toNat = v / 256 ^ i % 256
  ext : s.cfg.route (busAddr a unit) = .ext →
    ∀ i < unit, (s.extByte ((busAddr a unit).toNat + i)).toNat = v / 256 ^ i % 256
  reg16 : ∀ p, s.cfg.route (busAddr a unit) = .reg p → unit = 2 →
    exec (.rd16 (busAddr a unit)) s = .next (s.setResult (.half (BitVec.ofNat 16 v)))
  reg32 : ∀ p, s.cfg.route (busAddr a unit) = .reg p → unit = 4 →
    exec (.rd32 (busAddr a unit)) s = .next (s.setResult (.word (BitVec.ofNat 32 v)))

/-- Byte `i` of a memory of old bytes `old` after `n` bytes of `v` are stored from `p`. -/
def storedByte (old : Nat → Byte) (p n v i : Nat) : Byte :=
  if p ≤ i ∧ i < p + n then BitVec.ofNat 8 (v / 256 ^ (i - p)) else old i

/-- The halfword that a unit `v` stored at offset `p` of the register file gives the register half at `o`, if it touches it. -/
def unitHalf (unit p v o : Nat) : Option Half :=
  if o = p then some (BitVec.ofNat 16 v)
  else if unit = 4 ∧ o = p + 2 then some (BitVec.ofNat 16 (v / 65536))
  else none

/-- What a register half `old` at `o` holds after a DMA unit gives it `new`: VCOUNT and TMchCNT_L keep their stored half,
DISPSTAT its flags, reserved bits stay 0 (`20_memory.md` R84, `47_register_access.md` R342, R357, R358). -/
def halfAfterDma (o : Nat) (old new : Half) : Half :=
  if o ∈ [0x006, 0x100, 0x104, 0x108, 0x10C] then old
  else if o = 0x004 then (new &&& 0xFF38) ||| (old &&& 0x0007)
  else new &&& writeMask o

/-- What one DMA unit `v` written at `a` leaves in the four memories, the register file, the reference latches and the
reload values (R72, R84, `47_register_access.md` R350, R356, R357). -/
structure UnitWritten (s : State) (unit : Nat) (a : Word) (v : Nat) (t : State) : Prop where
  pal : ∀ p, s.cfg.route (busAddr a unit) = .pal p → ∀ i, t.palByte i = storedByte s.palByte p unit v i
  palElse : (∀ p, s.cfg.route (busAddr a unit) ≠ .pal p) → ∀ i, t.palByte i = s.palByte i
  vram : ∀ p, s.cfg.route (busAddr a unit) = .vram p → ∀ i, t.vramByte i = storedByte s.vramByte p unit v i
  vramElse : (∀ p, s.cfg.route (busAddr a unit) ≠ .vram p) → ∀ i, t.vramByte i = s.vramByte i
  oam : ∀ p, s.cfg.route (busAddr a unit) = .oam p → ∀ i, t.oamByte i = storedByte s.oamByte p unit v i
  oamElse : (∀ p, s.cfg.route (busAddr a unit) ≠ .oam p) → ∀ i, t.oamByte i = s.oamByte i
  ext : s.cfg.route (busAddr a unit) = .ext →
    ∀ i, t.extByte i = storedByte s.extByte (busAddr a unit).toNat unit v i
  extElse : s.cfg.route (busAddr a unit) ≠ .ext → ∀ i, t.extByte i = s.extByte i
  reg : ∀ p, s.cfg.route (busAddr a unit) = .reg p →
    ∀ o, t.x o = (match unitHalf unit p v o with
      | some h => halfAfterDma o (s.x o) h
      | none => s.x o)
  reload : ∀ p, s.cfg.route (busAddr a unit) = .reg p →
    ∀ ch : Fin 4, t.tmr.get ch = { s.tmr.get ch with
      reload := (unitHalf unit p v (0x100 + 4 * ch.val)).getD (s.tmr.get ch).reload }
  refs : ∀ p, s.cfg.route (busAddr a unit) = .reg p →
    let latch := fun (o : Nat) (old : BitVec 28) =>
      if (unitHalf unit p v o).isSome ∨ (unitHalf unit p v (o + 2)).isSome then (t.x32 o).setWidth 28 else old
    t.refs = ⟨latch 0x028 s.refs.bgx2, latch 0x02C s.refs.bgy2, latch 0x038 s.refs.bgx3, latch 0x03C s.refs.bgy3⟩
  regElse : (∀ p, s.cfg.route (busAddr a unit) ≠ .reg p) → (∀ o, t.x o = s.x o) ∧ t.tmr = s.tmr ∧ t.refs = s.refs

/-- No destination of the `n` units of a transfer covers the register half at `o`. -/
def HalfUncovered (cfg : Config) (c : Half) (l : DmaLatch) (n o : Nat) : Prop :=
  ∀ k < n, ∀ p, cfg.route (unitDst c l k) = .reg p → o ≠ p ∧ (DmaCtl.unit c = 4 → o ≠ p + 2)

/-- Nothing outside the destinations of the `n` units of a transfer is written: no byte, no register half, no reference
latch neither half of whose register is covered, and no timer whose TMchCNT_L is not. -/
structure OnlyUnits (c : Half) (l : DmaLatch) (n : Nat) (s t : State) : Prop where
  pal : ∀ i, (∀ k < n, ∀ p, s.cfg.route (unitDst c l k) = .pal p → i < p ∨ p + DmaCtl.unit c ≤ i) →
    t.palByte i = s.palByte i
  vram : ∀ i, (∀ k < n, ∀ p, s.cfg.route (unitDst c l k) = .vram p → i < p ∨ p + DmaCtl.unit c ≤ i) →
    t.vramByte i = s.vramByte i
  oam : ∀ i, (∀ k < n, ∀ p, s.cfg.route (unitDst c l k) = .oam p → i < p ∨ p + DmaCtl.unit c ≤ i) →
    t.oamByte i = s.oamByte i
  ext : ∀ i, (∀ k < n, s.cfg.route (unitDst c l k) = .ext →
      i < (unitDst c l k).toNat ∨ (unitDst c l k).toNat + DmaCtl.unit c ≤ i) → t.extByte i = s.extByte i
  reg : ∀ o, HalfUncovered s.cfg c l n o → t.x o = s.x o
  reload : ∀ ch : Fin 4, HalfUncovered s.cfg c l n (0x100 + 4 * ch.val) → t.tmr.get ch = s.tmr.get ch
  bgx2 : HalfUncovered s.cfg c l n 0x028 → HalfUncovered s.cfg c l n 0x02A → t.refs.bgx2 = s.refs.bgx2
  bgy2 : HalfUncovered s.cfg c l n 0x02C → HalfUncovered s.cfg c l n 0x02E → t.refs.bgy2 = s.refs.bgy2
  bgx3 : HalfUncovered s.cfg c l n 0x038 → HalfUncovered s.cfg c l n 0x03A → t.refs.bgx3 = s.refs.bgx3
  bgy3 : HalfUncovered s.cfg c l n 0x03C → HalfUncovered s.cfg c l n 0x03E → t.refs.bgy3 = s.refs.bgy3

/-- What a transfer may write beside its own latches: registers, memories, reference latches, timer reloads. -/
def OnlyTransferred (ch : Fin 4) (s t : State) : Prop :=
  (∀ c, c ≠ ch → t.dma.get c = s.dma.get c) ∧
    (∀ c, (t.tmr.get c).counter = (s.tmr.get c).counter ∧ (t.tmr.get c).prescAcc = (s.tmr.get c).prescAcc) ∧
    (∀ o, dmaForbidden o = true → t.x o = s.x o) ∧
    t = { s with
      regs := t.regs, pal := t.pal, vram := t.vram, oam := t.oam, ext := t.ext, refs := t.refs, tmr := t.tmr, dma := t.dma }

/-- What a channel's turn in a fire operation leaves where its completion delivers nothing (`42_dma.md` R187 to R192). -/
def FiredOne (timing : Nat) (ch : Fin 4) (s t : State) : Prop :=
  let c := s.dmaCtl ch
  if c.getLsbD 15 = true ∧ bitsOf c 13 12 = timing then
    ∃ v, exec (.dmaXfer (BitVec.ofNat 8 ch.val)) s = .next v ∧
      let u := if c.getLsbD 9 = true then
          v.setDma ch { v.dma.get ch with
            cntCur := v.cfg.countOf ch (v.x (Reg.dmaCntL ch))
            dstCur := if bitsOf c 6 5 = 3 then v.x32 (Reg.dmaDad ch) else (v.dma.get ch).dstCur }
        else v.setRegBit (Reg.dmaCntH ch) 15 false
      t = if c.getLsbD 14 = true then u.setRegBit Reg.irf (8 + ch.val) true else u
  else t = s

/-- Channels 0 to `n - 1` have had their turns, in ascending order (`70_reset_and_hazards.md` R423). -/
def FiredUpTo (timing : Nat) : Nat → State → State → Prop
  | 0, s, t => t = s
  | n + 1, s, t => ∃ u, FiredUpTo timing n s u ∧ FiredOne timing (Fin.ofNat 4 n) u t

/-! ### Timers without deliveries (`43_timers.md` R214, R215) -/

/-- Channel `ch + d` takes a count in a `TMR_TICK` of channel `ch`: every channel from `ch` up to it overflows into the
next, which is running with cascade set. -/
def State.tickReaches (s : State) (ch : Nat) : Nat → Prop
  | 0 => True
  | d + 1 => s.tickReaches ch d ∧ (s.tmr.get (Fin.ofNat 4 (ch + d))).counter = 0xFFFF ∧
      s.cascades (Fin.ofNat 4 (ch + d + 1)) = true

/-- How often a counter at `c` with reload `r` overflows in `n` counts (R215). -/
def overflowsIn (c r n : Nat) : Nat := if n < 65536 - c then 0 else 1 + (n - (65536 - c)) / (65536 - r)

/-- Where a counter at `c` with reload `r` stands after `n` counts (R215). -/
def counterAfter (c r n : Nat) : Nat := if n < 65536 - c then c + n else r + (n - (65536 - c)) % (65536 - r)

/-- A channel that takes its own prescaled ticks (R213). -/
def State.ownTicks (s : State) (ch : Fin 4) : Bool :=
  TmrCtl.running (s.tmrCtl ch) && (decide (ch.val = 0) || !TmrCtl.cascade (s.tmrCtl ch))

/-- The accumulator of a channel that takes its own ticks is below its divisor (`43_timers.md` R213, `10_state.md` R52). -/
def State.AccInRange (s : State) : Prop :=
  ∀ ch, s.ownTicks ch = true → (s.tmr.get ch).prescAcc.toNat < TmrCtl.div (TmrCtl.prescaler (s.tmrCtl ch))

/-- The counts channel `ch` receives in a line (R215). -/
def State.lineCounts (s : State) : Nat → Nat
  | 0 => if s.ownTicks 0 then ((s.tmr.get 0).prescAcc.toNat + s.cfg.cyclesPerLine) / TmrCtl.div (TmrCtl.prescaler (s.tmrCtl 0)) else 0
  | ch + 1 =>
    let c : Fin 4 := Fin.ofNat 4 (ch + 1)
    let b : Fin 4 := Fin.ofNat 4 ch
    if s.ownTicks c then
      ((s.tmr.get c).prescAcc.toNat + s.cfg.cyclesPerLine) / TmrCtl.div (TmrCtl.prescaler (s.tmrCtl c))
    else if s.cascades c then
      overflowsIn (s.tmr.get b).counter.toNat (s.tmr.get b).reload.toNat (s.lineCounts ch)
    else 0

/-! ### The compositor's formulas, in the spec's arithmetic on numbers -/

/-- `MosX`, `MosY` of `44_ppu_backgrounds.md` R245 for block size `m + 1`, if mosaic is on. -/
def quantised (on : Bool) (m p : Nat) : Nat := if on then p - p % (m + 1) else p

/-- R250, one pixel. -/
def State.specText (s : State) (n : Fin 4) (y px : Nat) : Option Colour :=
  let c := s.x (0x008 + 2 * n.val)
  let m := s.x 0x04C
  let w := if bitsOf c 14 14 = 1 then 512 else 256
  let h := if bitsOf c 15 15 = 1 then 512 else 256
  let sy := (quantised (bitsOf c 6 6 = 1) (bitsOf m 7 4) y + bitsOf (s.x (0x012 + 4 * n.val)) 8 0) % h
  let sx := (quantised (bitsOf c 6 6 = 1) (bitsOf m 3 0) px + bitsOf (s.x (0x010 + 4 * n.val)) 8 0) % w
  let sb := sx / 256 + (sy / 256) * (w / 256)
  let a := bitsOf c 12 8 * 0x800 + sb * 0x800 + (((sy % 256) / 8) * 32 + ((sx % 256) / 8)) * 2
  let se := s.vram16 (a % 0x10000)
  let u := if se / 2 ^ 10 % 2 = 1 then 7 - sx % 8 else sx % 8
  let v := if se / 2 ^ 11 % 2 = 1 then 7 - sy % 8 else sy % 8
  let base := bitsOf c 3 2 * 0x4000
  let t := se % 1024
  let i := if bitsOf c 7 7 = 1 then s.vram8 ((base + t * 64 + v * 8 + u) % 0x10000)
    else if u % 2 = 0 then s.vram8 ((base + t * 32 + v * 4 + u / 2) % 0x10000) % 16
    else s.vram8 ((base + t * 32 + v * 4 + u / 2) % 0x10000) / 16
  if i = 0 then none
  else if bitsOf c 7 7 = 1 then some (s.pal16 (2 * i))
  else some (s.pal16 (2 * (se / 2 ^ 12 % 16 * 16 + i)))

/-- R260, one pixel of layer 2, or of layer 3 if `k3`. -/
def State.specAffine (s : State) (k3 : Bool) (y px : Nat) : Option Colour :=
  let c := s.x (if k3 then 0x00E else 0x00C)
  let o := if k3 then 0x030 else 0x020
  let m := s.x 0x04C
  let n : Int := 128 <<< bitsOf c 15 14
  let mos := decide (bitsOf c 6 6 = 1)
  let lines : Int := if mos then ((y % (bitsOf m 7 4 + 1) : Nat) : Int) else 0
  let rx := (if k3 then s.refs.bgx3 else s.refs.bgx2).toInt - lines * (s.x (o + 2)).toInt
  let ry := (if k3 then s.refs.bgy3 else s.refs.bgy2).toInt - lines * (s.x (o + 6)).toInt
  let xs : Int := (quantised mos (bitsOf m 3 0) px : Nat)
  let tx := (rx + (s.x o).toInt * xs) >>> 8
  let ty := (ry + (s.x (o + 4)).toInt * xs) >>> 8
  if bitsOf c 13 13 = 0 ∧ (tx < 0 ∨ tx ≥ n ∨ ty < 0 ∨ ty ≥ n) then none
  else
    let ux := (tx % n).toNat
    let uy := (ty % n).toNat
    let e := s.vram8 ((bitsOf c 12 8 * 0x800 + (uy / 8) * (n.toNat / 8) + ux / 8) % 0x10000)
    let i := s.vram8 ((bitsOf c 3 2 * 0x4000 + e * 64 + (uy % 8) * 8 + ux % 8) % 0x10000)
    if i = 0 then none else some (s.pal16 (2 * i))

/-- The column or line a bitmap layer samples (R270 to R272). -/
def State.specBitmapX (s : State) (px : Nat) : Nat := quantised (bitsOf (s.x 0x00C) 6 6 = 1) (bitsOf (s.x 0x04C) 3 0) px
def State.specBitmapY (s : State) (y : Nat) : Nat := quantised (bitsOf (s.x 0x00C) 6 6 = 1) (bitsOf (s.x 0x04C) 7 4) y

/-- Width and height of a shape and size class (`10_state.md` R46). -/
def specObjSize (shape size : Nat) : Nat × Nat :=
  (([[(8, 8), (16, 16), (32, 32), (64, 64)], [(16, 8), (32, 8), (32, 16), (64, 32)],
    [(8, 16), (8, 32), (16, 32), (32, 64)]].getD shape []).getD size (0, 0))

/-- R280 to R289, one pixel of the sprite with these attributes: its colour, or `none` where it draws nothing. -/
def State.specObj (s : State) (a0 a1 a2 : Half) (y px : Nat) : Option Colour :=
  let affine := decide (bitsOf a0 8 8 = 1)
  let flag := decide (bitsOf a0 9 9 = 1)
  let w := (specObjSize (bitsOf a0 15 14) (bitsOf a1 15 14)).1
  let h := (specObjSize (bitsOf a0 15 14) (bitsOf a1 15 14)).2
  let cw := if affine && flag then 2 * w else w
  let chh := if affine && flag then 2 * h else h
  let oy : Int := if bitsOf a0 7 0 ≥ 160 then (bitsOf a0 7 0 : Int) - 256 else bitsOf a0 7 0
  let ox : Int := if bitsOf a1 8 0 ≥ 240 then (bitsOf a1 8 0 : Int) - 512 else bitsOf a1 8 0
  let mosaic := decide (bitsOf a0 12 12 = 1)
  let lx : Int := if mosaic then max 0 ((quantised true (bitsOf (s.x 0x04C) 11 8) px : Int) - ox) else px - ox
  let ly : Int := if mosaic then max 0 ((quantised true (bitsOf (s.x 0x04C) 15 12) y : Int) - oy) else y - oy
  let m := 32 * bitsOf a1 13 9
  let cx := lx - (cw / 2 : Nat)
  let cy := ly - (chh / 2 : Nat)
  let tx : Int := if affine then
      (((s.oam16 (m + 6)).toInt * cx + (s.oam16 (m + 14)).toInt * cy) >>> 8) + (w / 2 : Nat)
    else if bitsOf a1 12 12 = 1 then w - 1 - lx else lx
  let ty : Int := if affine then
      (((s.oam16 (m + 22)).toInt * cx + (s.oam16 (m + 30)).toInt * cy) >>> 8) + (h / 2 : Nat)
    else if bitsOf a1 13 13 = 1 then h - 1 - ly else ly
  let k := if bitsOf a0 13 13 = 1 then 2 else 1
  let row := if bitsOf (s.x 0x000) 6 6 = 1 then w / 8 * k else 32
  let t := (bitsOf a2 9 0 + ty.toNat / 8 * row + tx.toNat / 8 * k) % 1024
  let u := tx.toNat % 8
  let v := ty.toNat % 8
  let i := if k = 2 then s.vram8 (0x10000 + (t * 32 + v * 8 + u) % 0x8000)
    else if u % 2 = 0 then s.vram8 (0x10000 + (t * 32 + v * 4 + u / 2) % 0x8000) % 16
    else s.vram8 (0x10000 + (t * 32 + v * 4 + u / 2) % 0x8000) / 16
  if (affine = false ∧ flag = true) ∨ bitsOf a0 11 10 = 3 ∨ bitsOf a0 15 14 = 3 then none
  else if (y : Int) < oy ∨ (y : Int) ≥ oy + chh ∨ (px : Int) < ox ∨ (px : Int) ≥ ox + cw then none
  else if affine = true ∧ (tx < 0 ∨ tx ≥ w ∨ ty < 0 ∨ ty ≥ h) then none
  else if bitsOf (s.x 0x000) 2 0 ≥ 3 ∧ t < 512 then none
  else if i = 0 then none
  else if k = 2 then some (s.pal16 (0x200 + 2 * i))
  else some (s.pal16 (0x200 + 2 * (bitsOf a2 15 12 * 16 + i)))

/-- How far in front a layer is in the order of `46_ppu_compose.md` R301: by priority, at one priority the sprite bucket
and then the backgrounds by number, the backdrop last. -/
def State.layerRank (s : State) : Layer → Nat
  | .obj p => 8 * p.val
  | .bg n => 8 * bitsOf (s.x (0x008 + 2 * n.val)) 1 0 + 1 + n.val
  | .backdrop => 32

/-- `Inside` of a window with registers `h`, `v` (R307). -/
def insideOf (h v : Half) (px y : Nat) : Prop :=
  let x1 := bitsOf h 15 8
  let x2 := bitsOf h 7 0
  let y1 := bitsOf v 15 8
  let y2 := bitsOf v 7 0
  x1 ≤ px ∧ px < (if x2 > 240 ∨ x1 > x2 then 240 else x2) ∧ y1 ≤ y ∧ y < (if y2 > 160 ∨ y1 > y2 then 160 else y2)

/-- The first visible layer of the order after `top`; none after the backdrop (R310). -/
def State.secondAfter (s : State) (order : List Layer) (wm : BitVec 6) (px : Nat) (top : Layer) : Option Layer :=
  if top = .backdrop then none else ((order.dropWhile (fun l => decide (l ≠ top))).drop 1).find? (s.visible wm px)

/-- R310, with the first visible layer `top` and the one below it `second`. -/
def State.specEffect (s : State) (wm : BitVec 6) (px : Nat) (top : Layer) (second : Option Layer) : Colour :=
  let c1 := s.layerColour px top
  let mode := bitsOf (s.x 0x050) 7 6
  let t1 := (s.x 0x050).getLsbD (targetBit top) = true
  let alpha := match second with
    | some l => if (s.x 0x050).getLsbD (8 + targetBit l) = true then
        some (alphaBlend (min 16 (bitsOf (s.x 0x052) 4 0)) (min 16 (bitsOf (s.x 0x052) 12 8)) c1 (s.layerColour px l))
      else none
    | none => none
  let evy := min 16 (bitsOf (s.x 0x054) 4 0)
  if s.layerSemi px top = true ∧ alpha.isSome = true then alpha.getD 0
  else if wm.getLsbD 5 = false then c1
  else if mode = 1 then (if t1 ∧ alpha.isSome = true then alpha.getD 0 else c1)
  else if mode = 2 then (if t1 then brighten evy c1 else c1)
  else if mode = 3 then (if t1 then darken evy c1 else c1)
  else c1

/-! ### The line pipeline and the scanline as chains of operations -/

/-- Stage 1 of `PPU_RENDERLINE` for layer `n`: the operation of its kind, if it is enabled (`44_ppu_backgrounds.md` R240). -/
def LayerDrawn (y : Byte) (n : Fin 4) (s t : State) : Prop :=
  if (s.x 0x000).getLsbD (8 + n.val) = true then
    match s.kind n with
    | .text => exec (.ppuBgText (BitVec.ofNat 2 n.val) y) s = .next t
    | .affine => exec (.ppuBgAffine (BitVec.ofNat 2 n.val) y) s = .next t
    | .bitmap3 => exec (.ppuBgBitmap3 y) s = .next t
    | .bitmap4 => exec (.ppuBgBitmap4 y) s = .next t
    | .bitmap5 => exec (.ppuBgBitmap5 y) s = .next t
    | .none => t = s
  else t = s

/-- Stages 1 to 3 of `PPU_RENDERLINE`, from cleared buffers: the layers, the sprites if they are enabled, the order (R240). -/
def LayersSorted (y : Byte) (s t : State) : Prop :=
  ∃ b0 b1 b2 b3 o, LayerDrawn y 0 (s.setLb { s.lb with
      bgpix := Four.all (List.replicate 240 none)
      objpix := Four.all (List.replicate 240 none)
      objwin := List.replicate 240 false }) b0 ∧
    LayerDrawn y 1 b0 b1 ∧ LayerDrawn y 2 b1 b2 ∧ LayerDrawn y 3 b2 b3 ∧
    (if (s.x 0x000).getLsbD 12 = true then exec (.ppuObj y) b3 = .next o else o = b3) ∧ exec .ppuSort o = .next t

/-- Stages 4 and 5 at a pixel: the window's mask, then the effect under it (R240). -/
def PixelComposed (px y : Byte) (s : State) (c : Colour) : Prop :=
  ∃ w r, exec (.ppuWindow px y) s = .next w ∧ exec (.ppuEffect px) w = .next r ∧ r.result = .colour c

/-- `ADVANCE` up to line 7: the clock, VCOUNT, the flags, the frame start and the compositor's line (R131). -/
def AdvanceBegun (s b : State) : Prop :=
  let l := s.frameClock
  let begin_ := ((({ s with frameClock := BitVec.ofNat 8 ((l.toNat + 1) % 228) } : State).setReg 0x006
    (l.setWidth 16)).setHblankFlag false).setVblankFlag (decide (160 ≤ l.toNat))
  ∃ a, (if l.toNat = 0 then exec .ppuFramestart begin_ = .next a else a = begin_) ∧
    if l.toNat < 160 then exec (.ppuRenderline l) a = .next b else b = a

/-- Lines 1 to 15 of `ADVANCE`, one operation after the other, where none of them is suspended (`40_scheduler.md` R131). -/
def AdvanceChain (s t : State) : Prop :=
  let l := s.frameClock
  ∃ b c d e f, AdvanceBegun s b ∧
    (if l.toNat = 160 then exec .ppuSwap b = .next c ∧ exec .dmaFireVblank c = .next d ∧ exec (.irqRaise 0) d = .next e
      else e = b) ∧
    (if l.toNat < 160 then exec .dmaFireHblank (e.setHblankFlag true) = .next f else f = e.setHblankFlag true) ∧
    ∃ g, (if l.toNat = bitsOf (f.x 0x004) 15 8 then exec (.irqRaise 2) f = .next g else g = f) ∧
      exec (.irqRaise 1) g = .next t

/-! ### Operations that a handler stops, and where they go on (`40_scheduler.md` R132, `60_exceptions.md` R388; log 1) -/

/-- `first`, then `rest`. Where `first` stops for a handler, the positions it leaves stand above those of `s`, and below them
`k`, where `rest` goes on. -/
def thenAt (first : State → Host.Outcome State Fault Refusal) (k : Kont) (rest : State → Host.Outcome State Fault Refusal)
    (s : State) : Host.Outcome State Fault Refusal :=
  match first s with
  | .next t =>
    if t.kont = s.kont then rest t
    else .next (t.setKont (t.kont.take (t.kont.length - s.kont.length) ++ k :: s.kont))
  | .fault e => .fault e
  | .refused r => .refused r

/-- `first` if `c`, else nothing. -/
def onlyIf (c : Prop) [Decidable c] (first : State → Host.Outcome State Fault Refusal) (s : State) :
    Host.Outcome State Fault Refusal :=
  if c then first s else .next s

/-- `ADVANCE` of line `l` from line 15 (R131). -/
def advanceFrom15 (l : Byte) : State → Host.Outcome State Fault Refusal :=
  thenAt (exec (.irqRaise 1)) (.advance l .timerTicks) (exec .tmrTickline)

/-- From line 14: the step's own line against the live register (R132 (c)). -/
def advanceFrom14 (l : Byte) (s : State) : Host.Outcome State Fault Refusal :=
  thenAt (onlyIf (l.toNat = bitsOf (s.x 0x004) 15 8) (exec (.irqRaise 2))) (.advance l .hblankRaise) (advanceFrom15 l) s

/-- From line 12. -/
def advanceFrom12 (l : Byte) (s : State) : Host.Outcome State Fault Refusal :=
  thenAt (onlyIf (l.toNat < 160) (exec .dmaFireHblank)) (.advance l .vcountCompare) (advanceFrom14 l) (s.setHblankFlag true)

/-- From line 11. -/
def advanceFrom11 (l : Byte) : State → Host.Outcome State Fault Refusal :=
  thenAt (exec (.irqRaise 0)) (.advance l .hblankPoint) (advanceFrom12 l)

/-- The bookkeeping of channel `ch` after its transfer, and its completion interrupt (`42_dma.md` R189, R190, R192). -/
def completeTurn (ch : Fin 4) (v : State) : Host.Outcome State Fault Refusal :=
  let c := v.dmaCtl ch
  let u := if c.getLsbD 9 = true ∧ bitsOf c 13 12 ≠ 0 then
      v.setDma ch { v.dma.get ch with
        cntCur := v.cfg.countOf ch (v.x (Reg.dmaCntL ch))
        dstCur := if bitsOf c 6 5 = 3 then v.x32 (Reg.dmaDad ch) else (v.dma.get ch).dstCur }
    else v.setRegBit (Reg.dmaCntH ch) 15 false
  onlyIf (c.getLsbD 14 = true) (exec (.irqRaise (BitVec.ofNat 8 (8 + ch.val)))) u

/-- The turn of channel `ch` in a fire operation: its control word as it is now, the transfer, the bookkeeping
(R187, R188). -/
def fireTurn (timing : BitVec 2) (ch : Fin 4) (s : State) : Host.Outcome State Fault Refusal :=
  if (s.dmaCtl ch).getLsbD 15 = true ∧ bitsOf (s.dmaCtl ch) 13 12 = timing.toNat then
    match exec (.dmaXfer (BitVec.ofNat 8 ch.val)) s with
    | .next v => completeTurn ch v
    | .fault e => .fault e
    | .refused r => .refused r
  else .next s

/-- A fire operation with the channels from `4 - n` up still to look at, ascending. -/
def fireLast (timing : BitVec 2) : Nat → State → Host.Outcome State Fault Refusal
  | 0, s => .next s
  | n + 1, s => thenAt (fireTurn timing (Fin.ofNat 4 (3 - n))) (.fire timing n) (fireLast timing n) s

/-- The turn of channel `ch` in a base-clock cycle: its control word as it is now (`43_timers.md` R213). -/
def timerTurn (ch : Fin 4) (s : State) : Host.Outcome State Fault Refusal :=
  let t := s.tmr.get ch
  if s.ownTicks ch = true then
    if TmrCtl.div (bitsOf (s.tmrCtl ch) 1 0) ≤ t.prescAcc.toNat + 1 then
      exec (.tmrTick (BitVec.ofNat 8 ch.val)) (s.setTmr ch { t with prescAcc := 0 })
    else .next (s.setTmr ch { t with prescAcc := t.prescAcc + 1 })
  else .next s

/-- The last `n` turns of a line, channels 0 to 3 in every cycle (R213). -/
def timerLast : Nat → State → Host.Outcome State Fault Refusal
  | 0, s => .next s
  | n + 1, s => thenAt (timerTurn (Fin.ofNat 4 (3 - n % 4))) (.tickLine n) (timerLast n) s

/-- The cascade of an overflow of channel `ch`: the control word of the channel above is read now (R214). -/
def cascadeRest (ch : Fin 4) (s : State) : Host.Outcome State Fault Refusal :=
  onlyIf (ch.val < 3 ∧ (s.tmrCtl (Fin.ofNat 4 (ch.val + 1))).getLsbD 7 = true ∧
      (s.tmrCtl (Fin.ofNat 4 (ch.val + 1))).getLsbD 2 = true)
    (exec (.tmrTick (BitVec.ofNat 8 (ch.val + 1)))) s

/-- The test at the end of a round of a wait: the wait ends, or its next round is due (R133; log 1). -/
def waitTest (s : State) : Host.Outcome State Fault Refusal :=
  match s.waits with
  | [] => .next s
  | w :: ws => if w.seen &&& w.mask = 0 then .next (s.setKont (.haltLoop :: s.kont)) else .next (s.setWaits ws)

/-- A round of a wait from its poll. -/
def waitPoll : State → Host.Outcome State Fault Refusal := thenAt (exec .irqDispatch) .haltTest waitTest

/-- A round of a wait from its scanline. -/
def waitAdvance : State → Host.Outcome State Fault Refusal := thenAt (exec .advance) .haltPoll waitPoll

/-- A round of a wait, with what stands on the external raise port before it (log 20). -/
def waitRound (s : State) : Host.Outcome State Fault Refusal :=
  match s.extRaises with
  | [] => waitAdvance s
  | none :: rest => waitAdvance { s with extRaises := rest }
  | some i :: rest => thenAt (exec (.irqRaise i)) .haltAdvance waitAdvance { s with extRaises := rest }

/-- `o` is how the operation that was stopped at position `k` goes on in `s`: the rest of its pseudocode, with its own line
`l` (R132), from a new search (`41_interrupts.md` R158), at the next channel (R187), the next turn (R213), the cascade (R214),
the second halfword (`47_register_access.md` R348), or the rest of a wait's round (R133). A handler's position is left by its
return, another event. -/
def GoesOn (k : Kont) (s : State) (o : Host.Outcome State Fault Refusal) : Prop :=
  match k with
  | .advance l .vblankRaise => o = advanceFrom11 l s
  | .advance l .hblankPoint => o = advanceFrom12 l s
  | .advance l .vcountCompare => o = advanceFrom14 l s
  | .advance l .hblankRaise => o = advanceFrom15 l s
  | .advance _ .timerTicks => o = exec .tmrTickline s
  | .fire timing n => o = fireLast timing n s
  | .dispatch => o = exec .irqDispatch s
  | .tickCascade ch => o = cascadeRest ch s
  | .tickLine n => o = timerLast n s
  | .writeHigh off v => ∀ a : Word, s.cfg.route a = .reg off → a.toNat % 2 = 0 → o = exec (.wr16 a v) s
  | .haltLoop => o = waitRound s
  | .haltAdvance => o = waitAdvance s
  | .haltPoll => o = waitPoll s
  | .haltTest => o = waitTest s
  | .handlerReturn | .handlerProgram _ => True

/-! ### Invariants -/

/-- Every store of the state is in its canonical form. -/
structure State.Canonical (s : State) : Prop where
  regs : Store.wf (fun _ => 0) s.regs
  pal : Memory.wf s.palInit s.pal
  vram : Memory.wf s.vramInit s.vram
  oam : Memory.wf s.oamInit s.oam
  ext : Memory.wf s.extInit s.ext

/-- `FrameClock` and VCOUNT hold a line number (`40_scheduler.md` R136 (a), `10_state.md` R15). -/
structure State.ClockInRange (s : State) : Prop where
  clock : s.frameClock.toNat < nLines
  vcount : (s.x Reg.vcount).toNat < nLines

/-- The bits of a stored halfword that can be 1: the writable ones (`47_register_access.md` R358), the two flags of
DISPSTAT (`10_state.md` R14) and the line of VCOUNT (R15). -/
def storedMask (o : Nat) : Half :=
  if o = Reg.dispstat then 0xFF3B
  else if o = Reg.vcount then 0x00FF
  else writeMask o

/-- No reserved bit of a register is 1 (R358). -/
def State.ReservedZero (s : State) : Prop := ∀ o, s.x o &&& ~~~storedMask o = 0

/-- A frame buffer is 160 rows of 240 colours (`10_state.md` R55). -/
def frameShape (f : List (List Colour)) : Prop := f.length = screenH ∧ ∀ row ∈ f, row.length = screenW

/-- Both frame buffers and the output line have their sizes (R54, R55). -/
structure State.FramesShaped (s : State) : Prop where
  fb0 : frameShape s.fb0
  fb1 : frameShape s.fb1
  line : s.lb.line.length = screenW

/-- The suspended operation is a `HALTUNTIL`. -/
def Kont.isHalt : Kont → Bool
  | .haltLoop | .haltAdvance | .haltPoll | .haltTest => true
  | .handlerReturn | .handlerProgram _ | .advance _ _ | .fire _ _ | .dispatch | .tickCascade _ | .tickLine _
  | .writeHigh _ _ => false

/-- The suspended operation is an `IRQ_DELIVER` inside its handler. -/
def Kont.isHandler : Kont → Bool
  | .handlerReturn | .handlerProgram _ => true
  | .advance _ _ | .fire _ _ | .dispatch | .tickCascade _ | .tickLine _ | .writeHigh _ _ | .haltLoop | .haltAdvance
  | .haltPoll | .haltTest => false

/-- How many handlers run in a list of suspended operations. -/
def handlerCount (ks : List Kont) : Nat := ks.countP Kont.isHandler

/-- How many waits stand in a list of suspended operations. -/
def haltCount (ks : List Kont) : Nat := ks.countP Kont.isHalt

/-- One dispatch frame for each running handler, one wait frame for each running `HALTUNTIL`
(`10_state.md` R58, R59, `60_exceptions.md` R388). -/
structure State.StacksMatch (s : State) : Prop where
  dispatch : s.dispatch.length = handlerCount s.kont
  waits : s.waits.length = haltCount s.kont

end Sys2Proof.Machine
end

