-- ==== Sys2Proof/Certificates/Slice0/Obligations.lean ====
section
/-! DEFINITION. The statements for the provers. Each docstring names the rules of spec/ it formalises, or the log entry
it rests on. -/

set_option Elab.async false

section

open Sys2Proof Sys2Proof.Machine

/-! ### Encoding and stepping -/

/-- R120, R101, R103: words written out from the operation map and the hook table, each operand in its own width (log 4),
decode to their operations. -/
def Obligations.WrittenOutWordsDecode : Prop :=
  decode (.port 0x01) = .ok .advance ∧
    decode (.port 0x000102) = .ok (.haltuntil 0x0001) ∧
    decode (.port 0x010310) = .ok (.irqSeten 3 true) ∧
    decode (.port 0x840000040600000002000000_0320) = .ok (.dmaConfigure 3 0x02000000 0x06000000 4 0x8400) ∧
    decode (.port 0x9FFFE0230) = .ok (.tmrStart 2 0xFFFE 1 false true) ∧
    decode (.port 0x27F42) = .ok (.ppuBgText 3 159) ∧
    decode (.port 0x0400000051) = .ok (.rd16 0x04000000) ∧
    decode (.port 0x00C0FF000400010056) = .ok (.wr32 0x04000100 0x00C0FF00) ∧
    decode (.hook 0x0DE 0x8400) = .ok (.hookDmaConfigure 3 0x8400) ∧
    decode (.hook 0x03A 0x0FFF) = .ok (.bgRefReload .bg3x true 0x0FFF)

/-- Every well-formed operation is what its encoding decodes to, at every operand value (R101, R102, R103, R120). -/
def Obligations.DecodeInvertsEncode : Prop := ∀ i : Instr, i.wellFormed = true → decode (encode i) = .ok i

/-- Each raw operation has one meaning: what decodes is well formed and is exactly the encoding of what it decodes to,
so no bit of it is dropped (R100 to R103; log 4, 5). -/
def Obligations.EncodeInvertsDecode : Prop :=
  ∀ (raw : RawOp) (i : Instr), decode raw = .ok i → i.wellFormed = true ∧ encode i = raw

/-- When the host has control and its next event is an operation that decodes to `i`, the step is `exec` of `i` on the
state without that event. When the handler that runs is a program whose next operation decodes to `i`, the step is `exec` of
`i` with the rest of the program still to issue, and the host's events wait. While an operation is in progress and no
handler runs on top of it, the step goes on with the innermost suspended operation (R3, R7, R100, R156, R388; log 1, 2); what
is left to run at each position is stated in `AdvanceWithoutDeliveries`. -/
def Obligations.StepRunsTheDecodedOperation : Prop :=
  (∀ (s : State) (raw : RawOp) (rest : List HostEvent) (i : Instr),
    s.faulted = none → (s.kont = [] ∨ ∃ ks, s.kont = .handlerReturn :: ks) → s.host = .op raw :: rest →
    decode raw = .ok i → step s = exec i (s.setHost rest)) ∧
  (∀ (s : State) (raw : RawOp) (ops : List RawOp) (ks : List Kont) (i : Instr),
    s.faulted = none → s.kont = .handlerProgram (raw :: ops) :: ks → decode raw = .ok i →
    step s = exec i (s.setKont (.handlerProgram ops :: ks))) ∧
  ∀ (s : State) (k : Kont) (ks : List Kont), s.faulted = none → s.kont = k :: ks → k.isHandler = false →
    step s = (resume k (s.setKont ks)).finish

/-! ### Reset and faults -/

/-- R62, R410, R2: what reset leaves, for the decided parameters, of which `N_IRQ` is 14; it meets every invariant below. -/
def Obligations.ResetState : Prop :=
  ((∀ o, State.reset.x o = 0) ∧ State.reset.frameClock = 0 ∧
    (∀ ch : Fin 4, State.reset.dma.get ch = ⟨0, 0, if ch = 3 then 0x10000 else 0x4000⟩) ∧
    (∀ ch : Fin 4, State.reset.tmr.get ch = ⟨0, 0, 0⟩) ∧
    State.reset.refs = ⟨0, 0, 0, 0⟩ ∧
    State.reset.fb0 = List.replicate 160 (List.replicate 240 0) ∧
    State.reset.fb1 = List.replicate 160 (List.replicate 240 0) ∧
    State.reset.active = 0 ∧ State.reset.faulted = none ∧ State.reset.dispatch = [] ∧ State.reset.waits = [] ∧
    State.reset.kont = [] ∧ State.reset.cfg.irqCount.val = 14 ∧
    (∀ a, State.reset.palByte a = 0 ∧ State.reset.vramByte a = 0 ∧ State.reset.oamByte a = 0)) ∧
  State.reset.Canonical ∧ State.reset.ReservedZero ∧ State.reset.ClockInRange ∧ State.reset.AccInRange ∧
    State.reset.FramesShaped ∧ State.reset.StacksMatch

/-- R372 (4), R410, R426: with `faulted` set no step but the one of a reset event gives a next state; a reset event with no
operation in progress puts every piece of the block's state at its reset value, after a fault or not. The parameters,
external memory and the ports' inputs are not the block's, and the count of free values is the model's own (log 21, 27). -/
def Obligations.OnlyResetLeavesAFault : Prop :=
  (∀ (s : State) (c : FaultCode), s.faulted = some c →
    ((∀ rest, s.host ≠ .reset :: rest) → step s = .fault (.stuck c)) ∧
      ∀ t, step s = .next t → ∃ rest, s.host = .reset :: rest ∧ t.faulted = none) ∧
  ∀ (s : State) (rest : List HostEvent), s.kont = [] → s.host = .reset :: rest →
    ∃ t, step s = .next t ∧ t.faulted = none ∧ t.host = rest ∧ (∀ a, t.extByte a = s.extByte a) ∧
      t = { State.resetWith s.cfg with ext := s.ext, host := rest, extRaises := s.extRaises, freeCount := s.freeCount }

/-- R372 (1) to (3): a fault leaves the state as it was made, with `faulted` set to the first fault's code and every
enclosing operation and handler ended, with what a handler program had still to issue (log 13). R370 code 1, R108: a channel
operand above 3 is `InvalidChannel`, and a source operand of `IRQ_DELIVER` from `N_IRQ` up (decided 14: above 13)
`InvalidSource` (log 12 for `DMA_XFER`, `TMR_TICK` and `IRQ_DELIVER`; log 14). -/
def Obligations.FaultsLeaveTheState : Prop :=
  (∀ (code : FaultCode) (info : Word) (s : State),
    (raiseFault code info s).left =
      some { s with faulted := (match s.faulted with | none => some code | some c => some c), kont := [] }) ∧
  (∀ (s : State) (ch : Byte) (src dst : Word) (count flags : Half) (p : BitVec 2) (c q : Bool), 3 < ch.toNat →
    ∀ op ∈ [Instr.dmaConfigure ch src dst count flags, .dmaStop ch, .dmaXfer ch, .tmrStart ch count p c q, .tmrStop ch,
      .tmrTick ch], Faults op s .invalidChannel (ch.setWidth 32)) ∧
  ∀ (s : State) (i : Byte), s.cfg.irqCount.val ≤ i.toNat → Faults (.irqDeliver i) s .invalidSource (i.setWidth 32)

/-! ### Interrupts -/

/-- R152: `IRQ_SETEN` writes one bit of IE and nothing else; a source from `N_IRQ` up (decided 14: above 13; log 14 for fewer) is
`InvalidSource`. -/
def Obligations.SetenWritesOneEnableBit : Prop :=
  ∀ (s : State) (i : Byte) (b : Bool),
    (s.cfg.irqCount.val ≤ i.toNat → Faults (.irqSeten i b) s .invalidSource (i.setWidth 32)) ∧
    (i.toNat < s.cfg.irqCount.val → ∃ t, exec (.irqSeten i b) s = .next t ∧ OnlyRegs [Reg.ie] s t ∧
      ∀ j, (t.x Reg.ie).getLsbD j = if j = i.toNat then b else (s.x Reg.ie).getLsbD j)

/-- R154, R155: acknowledging a pending source clears its bit and records the event in every wait frame; acknowledging
one that is not pending does nothing; a source from `N_IRQ` up (decided 14: above 13; log 14 for fewer) is
`InvalidSource`. -/
def Obligations.AckClearsAndRecords : Prop :=
  (∀ (s : State) (i : Byte), s.cfg.irqCount.val ≤ i.toNat → Faults (.irqAck i) s .invalidSource (i.setWidth 32)) ∧
  ∀ (s : State) (i : Fin nIrq), i.val < s.cfg.irqCount.val →
    (s.pending i = true → ∃ t, exec (.irqAck (BitVec.ofNat 8 i.val)) s = .next t ∧
      (∀ j, (t.x Reg.irf).getLsbD j = if j = i.val then false else (s.x Reg.irf).getLsbD j) ∧
      SameRegsBut [Reg.irf] s t ∧ SameBytes s t ∧
      t = { s with regs := t.regs, waits := recordAck (1#14 <<< i.val) s.waits }) ∧
    (s.pending i = false → exec (.irqAck (BitVec.ofNat 8 i.val)) s = .next s)

/-- R157, R355: `IRQ_SETIME`, and a write of IME by the hook, write the master enable and mark the innermost dispatch
frame, whatever the value. -/
def Obligations.SetimeWritesAndMarks : Prop :=
  ∀ (s : State) (b : Bool) (w : Half),
    ∀ op ∈ [Instr.irqSetime b, .hookIrqSetime w], ∃ t, exec op s = .next t ∧
      t.ime = (match op with | .irqSetime b => b | _ => w.getLsbD 0) ∧
      (∀ j, 0 < j → (t.x Reg.ime).getLsbD j = (s.x Reg.ime).getLsbD j) ∧
      SameRegsBut [Reg.ime] s t ∧ SameBytes s t ∧
      t = { s with regs := t.regs, dispatch := (match s.dispatch with
        | [] => []
        | f :: fs => { f with touched := true } :: fs) }

/-- R151, R153: a raise always sets the pending bit; if the source is not deliverable nothing else happens, and if it is
the source is delivered. What makes a source deliverable; a source from `N_IRQ` up (decided 14: above 13; log 14
for fewer) is `InvalidSource`. -/
def Obligations.RaiseAlwaysSetsThePendingBit : Prop :=
  (∀ (s : State) (i : Byte), s.cfg.irqCount.val ≤ i.toNat → Faults (.irqRaise i) s .invalidSource (i.setWidth 32)) ∧
  ∀ (s : State) (i : Fin nIrq),
    (s.deliverable i = true ↔ (s.x Reg.ime).getLsbD 0 = true ∧ (s.x Reg.ie).getLsbD i.val = true ∧
      (i.val ≠ 0 ∨ (s.x Reg.dispstat).getLsbD 3 = true) ∧ (i.val ≠ 1 ∨ (s.x Reg.dispstat).getLsbD 4 = true) ∧
      (i.val ≠ 2 ∨ (s.x Reg.dispstat).getLsbD 5 = true)) ∧
    (i.val < s.cfg.irqCount.val → s.deliverable i = false →
      ∃ t, exec (.irqRaise (BitVec.ofNat 8 i.val)) s = .next t ∧ OnlyRegs [Reg.irf] s t ∧
        ∀ j, (t.x Reg.irf).getLsbD j = if j = i.val then true else (s.x Reg.irf).getLsbD j) ∧
    (i.val < s.cfg.irqCount.val → s.deliverable i = true →
      exec (.irqRaise (BitVec.ofNat 8 i.val)) s =
        exec (.irqDeliver (BitVec.ofNat 8 i.val)) (s.setRegBit Reg.irf i.val true))

/-- R156, R377: delivery. The pending bit is cleared and every wait frame records the event. With a handler, a frame with
the master enable is pushed, the master enable is cleared under `IME_ENTRY_CLEAR`, and control goes to that handler: a
program has its own operations to issue, an interactive one the host's next events, and the host's list is as before
(log 2; log 12 for a source that is not deliverable); with none the delivery is complete and the master enable is as before.
Nothing else changes. -/
def Obligations.DeliveryEntersTheHandler : Prop :=
  ∀ (s : State) (i : Fin nIrq), i.val < s.cfg.irqCount.val →
    ∃ t, exec (.irqDeliver (BitVec.ofNat 8 i.val)) s = .next t ∧
    (∀ j, (t.x Reg.irf).getLsbD j = if j = i.val then false else (s.x Reg.irf).getLsbD j) ∧ SameBytes s t ∧
    (s.cfg.handlerOf i = .absent → SameRegsBut [Reg.irf] s t ∧
      t = { s with regs := t.regs, waits := recordAck (1#14 <<< i.val) s.waits }) ∧
    (s.cfg.handlerOf i ≠ .absent → SameRegsBut [Reg.irf, Reg.ime] s t ∧
      (∀ j, (t.x Reg.ime).getLsbD j = if j = 0 ∧ s.cfg.imeEntryClear = true then false else (s.x Reg.ime).getLsbD j) ∧
      t = { s with
        regs := t.regs
        waits := recordAck (1#14 <<< i.val) s.waits
        dispatch := { source := i, savedIme := s.ime, touched := false } :: s.dispatch
        kont := (match s.cfg.handlerOf i with
          | .program ops => .handlerProgram ops
          | _ => .handlerReturn) :: s.kont })

/-- R378: when the handler returns, its frame is popped and the master enable restored unless the handler wrote it; nothing
else is restored, and the raising operation is next. That a return is the host's event, or a step of its own after a program's
last operation, is the model's choice (log 1, 2). -/
def Obligations.HandlerReturnRestoresTheMasterEnable : Prop :=
  ∀ (s : State) (ks : List Kont) (rest : List HostEvent) (f : DispatchFrame) (fs : List DispatchFrame),
    s.faulted = none → s.dispatch = f :: fs →
    (s.kont = .handlerReturn :: ks ∧ s.host = .handlerReturn :: rest ∨ s.kont = .handlerProgram [] :: ks ∧ s.host = rest) →
    ∃ t, step s = .next t ∧ t.ime = (if f.touched = true then s.ime else f.savedIme) ∧
      (∀ j, 0 < j → (t.x Reg.ime).getLsbD j = (s.x Reg.ime).getLsbD j) ∧
      SameRegsBut [Reg.ime] s t ∧ SameBytes s t ∧
      t = { s with regs := t.regs, kont := ks, host := rest, dispatch := fs }

/-- R158: the poll delivers the source with a handler that stands first in the order 1, 2, 0, 3, ..., 13 among those pending
and deliverable, and searches again after its handler. Before it come exactly the pending and deliverable sources without a
handler that stand before it in the order, each acknowledged and recorded in every wait frame. -/
def Obligations.DispatchTakesTheFirstInOrder : Prop :=
  ∀ (s : State) (before after : List (Fin nIrq)) (i : Fin nIrq),
    ([1, 2, 0, 3, 4, 5, 6, 7, 8, 9, 10, 11, 12, 13] : List (Fin nIrq)) = before ++ i :: after →
    (∀ j ∈ before, s.pending j = true → s.deliverable j = true → s.cfg.handlerOf j = .absent) →
    s.pending i = true → s.deliverable i = true → s.cfg.handlerOf i ≠ .absent →
    ∃ t, exec .irqDispatch s = .next t ∧
      (∀ j, t.pending j = (s.pending j && !(s.deliverable j && decide (j ∈ before ∨ j = i)))) ∧
      (∀ m : BitVec 14, (∀ j : Fin nIrq, m.getLsbD j.val =
          (s.pending j && s.deliverable j && decide (j ∈ before ∨ j = i))) → t.waits = recordAck m s.waits) ∧
      t.ime = !s.cfg.imeEntryClear ∧ SameRegsBut [Reg.irf, Reg.ime] s t ∧ SameBytes s t ∧
      t = { s with
        regs := t.regs
        waits := t.waits
        dispatch := { source := i, savedIme := true, touched := false } :: s.dispatch
        kont := (match s.cfg.handlerOf i with
          | .program ops => .handlerProgram ops
          | _ => .handlerReturn) :: .dispatch :: s.kont }

/-- R158: where no source that is pending and deliverable has a handler (none at all is, for one, with the master enable
clear), the poll ends with exactly the deliverable sources gone from the pending ones,
each recorded in every wait frame, and nothing else changed. -/
def Obligations.DispatchLeavesNothingDeliverable : Prop :=
  ∀ s : State, (∀ i, s.pending i = true → s.deliverable i = true → s.cfg.handlerOf i = .absent) →
    ∃ t, exec .irqDispatch s = .next t ∧ (∀ i, t.pending i = (s.pending i && !s.deliverable i)) ∧
      SameRegsBut [Reg.irf] s t ∧ SameBytes s t ∧
      (∀ m : BitVec 14, (∀ j : Fin nIrq, m.getLsbD j.val = (s.pending j && s.deliverable j)) →
        t.waits = recordAck m s.waits) ∧
      t = { s with regs := t.regs, waits := t.waits }

/-- R160, R415: a write of IE, of IME or of DISPSTAT delivers nothing, whatever it makes deliverable. -/
def Obligations.EnablingDeliversNothing : Prop :=
  ∀ (s t : State) (i : Byte) (b : Bool) (w : Half) (v : Byte) (a : Word) (o : Nat),
    s.cfg.route a = .reg o → o - o % 2 ∈ [Reg.dispstat, Reg.ie, Reg.ime] →
    ∀ op ∈ [Instr.irqSeten i b, .irqSetime b, .hookIrqSeten w, .hookIrqSetime w, .wr16 a w, .wr8 a v],
      exec op s = .next t →
      t.kont = s.kont ∧ t.dispatch.length = s.dispatch.length ∧ t.x Reg.irf = s.x Reg.irf ∧ t.waits = s.waits

/-! ### DMA -/

/-- R181 lines 1 to 7, R386: a configure tests the source's alignment, the destination's, the ROM rule and the step
modes in this order, and reports the first that fails, with nothing stored. -/
def Obligations.ConfigureRejectsInOrder : Prop :=
  ∀ (s : State) (ch : Fin 4) (src dst : Word) (count flags : Half),
    let f := (flags &&& (if ch = 3 then 0xFFE0 else 0xF7E0)) ||| 0x8000
    let unit := if flags.getLsbD 10 = true then 4 else 2
    let rom := ch.val ≤ 2 ∧ s.cfg.romLo ≤ src.toNat ∧ src.toNat ≤ s.cfg.romHi
    let op := Instr.dmaConfigure (BitVec.ofNat 8 ch.val) src dst count flags
    (src.toNat % unit ≠ 0 → Faults op s .dmaMisaligned src) ∧
    (src.toNat % unit = 0 → dst.toNat % unit ≠ 0 → Faults op s .dmaMisaligned dst) ∧
    (src.toNat % unit = 0 → dst.toNat % unit = 0 → rom → Faults op s .dmaRomSource src) ∧
    (src.toNat % unit = 0 → dst.toNat % unit = 0 → ¬rom →
      (bitsOf flags 8 7 = 3 ∨ bitsOf flags 6 5 = 3 ∧ ch ≠ 1 ∧ ch ≠ 2) → Faults op s .dmaStepMode (f.setWidth 32))

/-- R181 lines 8 to 14, R183, R195: a configure that no test rejects and that is not immediate stores the four registers
and the three latches and moves nothing. -/
def Obligations.ConfigureArmsTheChannel : Prop :=
  ∀ (s : State) (ch : Fin 4) (src dst : Word) (count flags : Half),
    let unit := if flags.getLsbD 10 = true then 4 else 2
    let cnt := if ch = 3 then count else count &&& 0x3FFF
    src.toNat % unit = 0 → dst.toNat % unit = 0 → (ch.val ≤ 2 → src.toNat < s.cfg.romLo ∨ s.cfg.romHi < src.toNat) →
    bitsOf flags 8 7 ≠ 3 → (bitsOf flags 6 5 = 3 → ch = 1 ∨ ch = 2) → bitsOf flags 13 12 ≠ 0 →
    ∃ t, exec (.dmaConfigure (BitVec.ofNat 8 ch.val) src dst count flags) s = .next t ∧
      t.x32 (Reg.dmaSad ch) = src ∧ t.x32 (Reg.dmaDad ch) = dst ∧ t.x (Reg.dmaCntL ch) = cnt ∧
      t.x (Reg.dmaCntH ch) = (flags &&& (if ch = 3 then 0xFFE0 else 0xF7E0)) ||| 0x8000 ∧
      t.dma.get ch = ⟨src, dst, if cnt = 0 then BitVec.ofNat 17 (s.cfg.dmaCountMax.get ch) else cnt.setWidth 17⟩ ∧
      (∀ c, c ≠ ch → t.dma.get c = s.dma.get c) ∧
      SameRegsBut [Reg.dmaSad ch, Reg.dmaSad ch + 2, Reg.dmaDad ch, Reg.dmaDad ch + 2, Reg.dmaCntL ch, Reg.dmaCntH ch] s t ∧
      SameBytes s t ∧ t = { s with regs := t.regs, dma := t.dma }

/-- R182: after an immediate configure the channel is disabled, whatever its repeat flag, which stays as written. -/
def Obligations.ImmediateTransferNeverRepeats : Prop :=
  ∀ (s t : State) (ch : Fin 4) (src dst : Word) (count flags : Half), bitsOf flags 13 12 = 0 →
    exec (.dmaConfigure (BitVec.ofNat 8 ch.val) src dst count flags) s = .next t →
    (t.x (Reg.dmaCntH ch)).getLsbD 15 = false ∧ (t.x (Reg.dmaCntH ch)).getLsbD 9 = flags.getLsbD 9

/-- R181 lines 8 to 17, R197 (1): an immediate configure that no test rejects and each of whose units may move stores the
registers and the latches, moves all the units (the four memories, the registers, the reference latches and the timers are
those the transfer leaves, from the state with the configuration stored), and disables the channel. -/
def Obligations.ImmediateConfigureMovesEveryUnit : Prop :=
  ∀ (s : State) (ch : Fin 4) (src dst : Word) (count flags : Half),
    let unit := if flags.getLsbD 10 = true then 4 else 2
    let cnt := if ch = 3 then count else count &&& 0x3FFF
    let l : DmaLatch := ⟨src, dst, if cnt = 0 then BitVec.ofNat 17 (s.cfg.dmaCountMax.get ch) else cnt.setWidth 17⟩
    src.toNat % unit = 0 → dst.toNat % unit = 0 → bitsOf flags 8 7 ≠ 3 → (bitsOf flags 6 5 = 3 → ch = 1 ∨ ch = 2) →
    bitsOf flags 13 12 = 0 → (ch.val ≤ 2 → src.toNat < s.cfg.romLo ∨ s.cfg.romHi < src.toNat) →
    (∀ k < l.cntCur.toNat, UnitAllowed s.cfg ch flags l k) →
    ∃ t, exec (.dmaConfigure (BitVec.ofNat 8 ch.val) src dst count flags) s = .next t ∧
      (∃ u v, u.x32 (Reg.dmaSad ch) = src ∧ u.x32 (Reg.dmaDad ch) = dst ∧ u.x (Reg.dmaCntL ch) = cnt ∧
        u.x (Reg.dmaCntH ch) = (flags &&& (if ch = 3 then 0xFFE0 else 0xF7E0)) ||| 0x8000 ∧ u.dma.get ch = l ∧
        (∀ c, c ≠ ch → u.dma.get c = s.dma.get c) ∧
        SameRegsBut [Reg.dmaSad ch, Reg.dmaSad ch + 2, Reg.dmaDad ch, Reg.dmaDad ch + 2, Reg.dmaCntL ch, Reg.dmaCntH ch]
          s u ∧
        u = { s with regs := u.regs, dma := u.dma } ∧ exec (.dmaXfer (BitVec.ofNat 8 ch.val)) u = .next v ∧
        SameBytes v t ∧ SameRegsBut [Reg.dmaCntH ch, Reg.irf, Reg.ime] v t ∧ t.refs = v.refs ∧ t.tmr = v.tmr) ∧
      t.dma.get ch = latchAfter flags l l.cntCur.toNat ∧ (t.x (Reg.dmaCntH ch)).getLsbD 15 = false ∧
      ((∀ k < l.cntCur.toNat, ∀ off, s.cfg.route (walk dst (DmaCtl.dstMode flags) unit k) ≠ .reg off) →
        t.x (Reg.dmaCntL ch) = cnt ∧ t.x32 (Reg.dmaSad ch) = src ∧ t.x32 (Reg.dmaDad ch) = dst) ∧
      (s.ime = false → ∀ i, t.pending i = (s.pending i || (decide (i.val = 8 + ch.val) && flags.getLsbD 14)))

/-- R186, R185: a transfer each of whose units may move completes, steps both addresses once for each unit, keeps the count,
and touches no other channel, no control register, no timer's count and no other unit; no byte, no register, no reference
latch and no reload value outside the units' destinations changes. A transfer of `m + n` units is one of `m` and then one of
`n` (the units move one at a time, in order). -/
def Obligations.TransferCompletes : Prop :=
  (∀ (s : State) (ch : Fin 4),
    let c := s.dmaCtl ch
    let l := s.dma.get ch
    (∀ k < l.cntCur.toNat, UnitAllowed s.cfg ch c l k) →
    ∃ t, exec (.dmaXfer (BitVec.ofNat 8 ch.val)) s = .next t ∧ t.dma.get ch = latchAfter c l l.cntCur.toNat ∧
      OnlyTransferred ch s t ∧ OnlyUnits c l l.cntCur.toNat s t) ∧
  ∀ (s : State) (ch : Fin 4) (m n : Nat), m + n < 2 ^ 17 →
    (∀ k < m + n, UnitAllowed s.cfg ch (s.dmaCtl ch) (s.dma.get ch) k) →
    ∃ u t, exec (.dmaXfer (BitVec.ofNat 8 ch.val)) (s.withCount ch m) = .next u ∧
      exec (.dmaXfer (BitVec.ofNat 8 ch.val)) (u.withCount ch n) = .next t ∧
      exec (.dmaXfer (BitVec.ofNat 8 ch.val)) (s.withCount ch (m + n)) = .next (t.withCount ch (m + n))

/-- R186, R72, R84, R386, R372: a transfer whose first `k` units may move stops at unit `k` with those units moved (as the
transfer of `k` units leaves them), where a channel below 3 would read cartridge ROM (`DmaRomSource`); else where nothing
answers at the source (`BusError`); else where the unit touches DMAchCNT_H, TMchCNT_H, IF or IME (`DmaIntoControl`), or
where its destination is outside the four windows and one of its bytes is unmapped or not writable (`BusError`). -/
def Obligations.TransferStopsAtTheFirstForbiddenUnit : Prop :=
  ∀ (s : State) (ch : Fin 4) (k : Nat),
    let c := s.dmaCtl ch
    let l := s.dma.get ch
    let unit := DmaCtl.unit c
    let src := walk l.srcCur (DmaCtl.srcMode c) unit k
    let dst := walk l.dstCur (DmaCtl.dstMode c) unit k
    let rom := ch.val ≤ 2 ∧ s.cfg.inRom src = true
    let op := Instr.dmaXfer (BitVec.ofNat 8 ch.val)
    k < l.cntCur.toNat → (∀ j < k, UnitAllowed s.cfg ch c l j) →
    ∃ v, exec op (s.withCount ch k) = .next v ∧
      let u := v.withCount ch l.cntCur.toNat
      OnlyTransferred ch s u ∧ u.dma.get ch = latchAfter c l k ∧
      (rom → exec op s = .fault (raiseFault .dmaRomSource src u)) ∧
      (¬rom → ¬readAnswered s.cfg unit src → exec op s = .fault (raiseFault .busError src u)) ∧
      (¬rom → readAnswered s.cfg unit src →
        (∃ off, s.cfg.route (unitDst c l k) = .reg off ∧
          ∃ o ∈ [0x0BA, 0x0C6, 0x0D2, 0x0DE, 0x102, 0x106, 0x10A, 0x10E, 0x202, 0x208],
            o = off ∨ (c.getLsbD 10 = true ∧ o = off + 2)) →
        exec op s = .fault (raiseFault .dmaIntoControl dst u)) ∧
      (¬rom → readAnswered s.cfg unit src → s.cfg.route (unitDst c l k) = .ext →
        (∃ i < unit, ∀ r, s.cfg.rangeOf ((unitDst c l k).toNat + i) = some r → r.writable = false) →
        exec op s = .fault (raiseFault .busError dst u))

/-- R186, R70, R72, R84, R357: a transfer of one unit reads it at the source and leaves it at the destination: in palette,
VRAM, OAM and external memory as its bytes, little-endian; in the register file through the masks of the registers it
touches, with the flags of DISPSTAT kept, VCOUNT left alone, TMchCNT_L's reload value written and the reference latch of a
touched reference register reloaded; and in nothing else. A transfer into VRAM with a rising destination stores every unit it
reads outside VRAM (palette, OAM, external memory or the register file, as they were before the transfer), and writes no other
byte of any memory and no register (log 26 for addresses that are not multiples of the unit). -/
def Obligations.TransferStoresWhatItReads : Prop :=
  (∀ (s : State) (ch : Fin 4),
    let c := s.dmaCtl ch
    let l := s.dma.get ch
    l.cntCur = 1 → UnitAllowed s.cfg ch c l 0 →
    ∃ t v, exec (.dmaXfer (BitVec.ofNat 8 ch.val)) s = .next t ∧ UnitRead s (DmaCtl.unit c) l.srcCur v ∧
      UnitWritten s (DmaCtl.unit c) l.dstCur v t ∧ t.dma.get ch = latchAfter c l 1) ∧
  ∀ (s : State) (ch : Fin 4) (off : Nat),
    let c := s.dmaCtl ch
    let l := s.dma.get ch
    let n := l.cntCur.toNat
    let unit := DmaCtl.unit c
    let src := fun k => walk l.srcCur (DmaCtl.srcMode c) unit k
    (∀ k < n, UnitAllowed s.cfg ch c l k) → (DmaCtl.dstMode c = 0 ∨ DmaCtl.dstMode c = 3) →
    (∀ k < n, s.cfg.route (unitDst c l k) = .vram (off + k * unit)) →
    ∃ t, exec (.dmaXfer (BitVec.ofNat 8 ch.val)) s = .next t ∧
      (∀ k < n, (∀ p, s.cfg.route (busAddr (src k) unit) ≠ .vram p) →
        ∃ v, UnitRead s unit (src k) v ∧ ∀ i < unit, (t.vramByte (off + k * unit + i)).toNat = v / 256 ^ i % 256) ∧
      (∀ a, (a < off ∨ off + n * unit ≤ a) → t.vramByte a = s.vramByte a) ∧
      (∀ a, t.palByte a = s.palByte a ∧ t.oamByte a = s.oamByte a ∧ t.extByte a = s.extByte a) ∧
      (∀ o, t.x o = s.x o) ∧ t = { s with vram := t.vram, dma := t.dma }

/-- R187 to R190, R192, R195, R423: with no channel armed for its trigger a fire operation does nothing (a channel with the
special timing is armed for neither). It runs the armed channel's transfer, whose bytes, registers, reference latches and
timers are those it leaves; a one-shot channel is then disabled, a repeating one re-armed with its count and, in destination
mode 3, its destination reloaded; the completion interrupt is raised if the channel asks for it. Where nothing is delivered,
the channels take their turns in ascending order, each one's transfer and completion before the next is looked at, and the
first transfer that faults ends the operation. -/
def Obligations.FireRunsTheArmedChannel : Prop :=
  (∀ s : State,
    ((∀ ch : Fin 4, (s.dmaCtl ch).getLsbD 15 = false ∨ bitsOf (s.dmaCtl ch) 13 12 ≠ 2) → exec .dmaFireHblank s = .next s) ∧
    ((∀ ch : Fin 4, (s.dmaCtl ch).getLsbD 15 = false ∨ bitsOf (s.dmaCtl ch) 13 12 ≠ 1) → exec .dmaFireVblank s = .next s)) ∧
  (∀ (s : State) (ch : Fin 4) (timing : Nat) (op : Instr),
    let c := s.dmaCtl ch
    let l := s.dma.get ch
    (op = .dmaFireHblank ∧ timing = 2 ∨ op = .dmaFireVblank ∧ timing = 1) →
    c.getLsbD 15 = true → bitsOf c 13 12 = timing →
    (∀ d, d ≠ ch → (s.dmaCtl d).getLsbD 15 = false ∨ bitsOf (s.dmaCtl d) 13 12 ≠ timing) →
    (∀ k < l.cntCur.toNat, UnitAllowed s.cfg ch c l k) →
    ∃ t, exec op s = .next t ∧
      (∃ v, exec (.dmaXfer (BitVec.ofNat 8 ch.val)) s = .next v ∧ SameBytes v t ∧
        SameRegsBut [Reg.dmaCntH ch, Reg.irf, Reg.ime] v t ∧ t.refs = v.refs ∧ t.tmr = v.tmr) ∧
      (t.dma.get ch).srcCur = (latchAfter c l l.cntCur.toNat).srcCur ∧
      (c.getLsbD 9 = false → t.dma.get ch = latchAfter c l l.cntCur.toNat ∧
        ∀ j, (t.dmaCtl ch).getLsbD j = (decide (j ≠ 15) && c.getLsbD j)) ∧
      (c.getLsbD 9 = true → t.dmaCtl ch = c ∧ (t.dma.get ch).cntCur = t.cfg.countOf ch (t.x (Reg.dmaCntL ch)) ∧
        (t.dma.get ch).dstCur = if bitsOf c 6 5 = 3 then t.x32 (Reg.dmaDad ch) else (latchAfter c l l.cntCur.toNat).dstCur) ∧
      (s.ime = false → ∀ i, t.pending i = (s.pending i || (decide (i.val = 8 + ch.val) && c.getLsbD 14)))) ∧
  ∀ (s : State) (timing : Nat) (op : Instr), s.ime = false →
    (op = .dmaFireHblank ∧ timing = 2 ∨ op = .dmaFireVblank ∧ timing = 1) →
    (∀ t, FiredUpTo timing 4 s t → exec op s = .next t) ∧
      ∀ (ch : Fin 4) (u : State) (f : Fault), FiredUpTo timing ch.val s u →
        (u.dmaCtl ch).getLsbD 15 = true → bitsOf (u.dmaCtl ch) 13 12 = timing →
        exec (.dmaXfer (BitVec.ofNat 8 ch.val)) u = .fault f → exec op s = .fault f

/-- R191, R351: `DMA_STOP` clears the enable bit and nothing else; the write of DMAchCNT_H that stops a channel stores
the masked word. -/
def Obligations.StopDisablesTheChannel : Prop :=
  (∀ (s : State) (ch : Fin 4), ∃ t, exec (.dmaStop (BitVec.ofNat 8 ch.val)) s = .next t ∧
    OnlyRegs [Reg.dmaCntH ch] s t ∧
    ∀ j, (t.x (Reg.dmaCntH ch)).getLsbD j = (decide (j ≠ 15) && (s.x (Reg.dmaCntH ch)).getLsbD j)) ∧
  ∀ (s : State) (ch : BitVec 2) (w : Half), w.getLsbD 15 = false → ∃ t, exec (.hookDmaStop ch w) s = .next t ∧
    OnlyRegs [0x0BA + 12 * ch.toNat] s t ∧ t.x (0x0BA + 12 * ch.toNat) = w &&& (if ch = 3 then 0xFFE0 else 0xF7E0)

/-! ### Timers -/

/-- R211, R105, R352: a start stops the timer, loads the reload value, clears the accumulator, stores the control fields
(channel 0 cannot cascade) and runs it; the write of TMchCNT_H that starts a timer is that start with the stored reload
value and the written fields. -/
def Obligations.StartLoadsTheTimer : Prop :=
  (∀ (s : State) (ch : Fin 4) (reload : Half) (p : BitVec 2) (c q : Bool),
    ∃ t, exec (.tmrStart (BitVec.ofNat 8 ch.val) reload p c q) s = .next t ∧ t.tmr.get ch = ⟨reload, reload, 0⟩ ∧
      (∀ d, d ≠ ch → t.tmr.get d = s.tmr.get d) ∧
      (∀ j, (t.x (Reg.tmrCntH ch)).getLsbD j =
        if j = 0 ∨ j = 1 then p.getLsbD j else if j = 2 then (c && decide (ch ≠ 0)) else if j = 6 then q
        else if j = 7 then true else (s.x (Reg.tmrCntH ch)).getLsbD j) ∧
      SameRegsBut [Reg.tmrCntH ch] s t ∧ SameBytes s t ∧ t = { s with regs := t.regs, tmr := t.tmr }) ∧
  ∀ (s : State) (ch : BitVec 2) (w : Half), w.getLsbD 7 = true →
    ∃ t, exec (.hookTmrStart ch w) s = .next t ∧
      exec (.tmrStart (ch.setWidth 8) (s.tmr.get (channelOf ch)).reload (w.setWidth 2) (w.getLsbD 2) (w.getLsbD 6)) s =
        .next t

/-- R212, R352: `TMR_STOP` clears the running bit and keeps the timer's state; in the hook form the masked word is
stored. -/
def Obligations.StopKeepsTheTimer : Prop :=
  (∀ (s : State) (ch : Fin 4), ∃ t, exec (.tmrStop (BitVec.ofNat 8 ch.val)) s = .next t ∧
    OnlyRegs [Reg.tmrCntH ch] s t ∧ t.tmr = s.tmr ∧
    ∀ j, (t.x (Reg.tmrCntH ch)).getLsbD j = (decide (j ≠ 7) && (s.x (Reg.tmrCntH ch)).getLsbD j)) ∧
  ∀ (s : State) (ch : BitVec 2) (w : Half), w.getLsbD 7 = false → ∃ t, exec (.hookTmrStop ch w) s = .next t ∧
    OnlyRegs [0x102 + 4 * ch.toNat] s t ∧ t.tmr = s.tmr ∧
    t.x (0x102 + 4 * ch.toNat) = w &&& (if ch = 0 then 0x00C3 else 0x00C7)

/-- R214, R219 (2): one count of a timer where no interrupt of a timer has a handler, or with the master enable clear. Every
channel the cascade reaches counts by exactly one or, at 0xFFFF, reloads and has its interrupt raised if it asks for it: the
source is pending, or, where it is deliverable, delivered, acknowledged and recorded in every wait frame. No other channel
moves. In every state a count below 0xFFFF is one more and nothing else; at 0xFFFF the channel reloads, its interrupt is
raised, and the cascade is looked at after the handler has returned: it is the position a delivery leaves. A line's ticks
always run. (N_IRQ is decided 14; log 14 for fewer sources.) -/
def Obligations.TickMovesTheCascadeChain : Prop :=
  (∀ (s : State) (ch : Fin 4), Runs (.tmrTick (BitVec.ofNat 8 ch.val)) s ∧ Runs .tmrTickline s) ∧
  (∀ (s : State) (ch : Fin 4), 6 < s.cfg.irqCount.val →
    let l := s.tmr.get ch
    (l.counter ≠ 0xFFFF →
      exec (.tmrTick (BitVec.ofNat 8 ch.val)) s = .next (s.setTmr ch { l with counter := l.counter + 1 })) ∧
    (l.counter = 0xFFFF → exec (.tmrTick (BitVec.ofNat 8 ch.val)) s =
      thenAt (onlyIf ((s.tmrCtl ch).getLsbD 6 = true) (exec (.irqRaise (BitVec.ofNat 8 (3 + ch.val))))) (.tickCascade ch)
        (cascadeRest ch) (s.setTmr ch { l with counter := l.reload }))) ∧
  ∀ (s : State) (ch : Fin 4), s.ime = false ∨ (∀ c : Fin 4, s.cfg.handlerOf (timerSource c) = .absent) →
    let raised := fun d : Nat => s.tickReaches ch.val d ∧ (s.tmr.get (Fin.ofNat 4 (ch.val + d))).counter = 0xFFFF ∧
      (s.tmrCtl (Fin.ofNat 4 (ch.val + d))).getLsbD 6 = true
    ∃ t, exec (.tmrTick (BitVec.ofNat 8 ch.val)) s = .next t ∧
      (∀ c : Fin 4, c.val < ch.val → t.tmr.get c = s.tmr.get c) ∧
      (∀ (d : Nat) (h : ch.val + d < 4), (s.tickReaches ch.val d → t.tmr.get ⟨ch.val + d, h⟩ =
          { s.tmr.get ⟨ch.val + d, h⟩ with counter :=
              if (s.tmr.get ⟨ch.val + d, h⟩).counter = 0xFFFF then (s.tmr.get ⟨ch.val + d, h⟩).reload
              else (s.tmr.get ⟨ch.val + d, h⟩).counter + 1 }) ∧
        (¬s.tickReaches ch.val d → t.tmr.get ⟨ch.val + d, h⟩ = s.tmr.get ⟨ch.val + d, h⟩) ∧
        (raised d → t.pending (timerSource ⟨ch.val + d, h⟩) = !s.deliverable (timerSource ⟨ch.val + d, h⟩)) ∧
        (¬raised d → t.pending (timerSource ⟨ch.val + d, h⟩) = s.pending (timerSource ⟨ch.val + d, h⟩))) ∧
      (∀ i : Fin nIrq, i.val < 3 + ch.val ∨ 7 ≤ i.val → t.pending i = s.pending i) ∧
      (∀ m : BitVec 14, (∀ j : Fin nIrq, m.getLsbD j.val = true ↔
          s.deliverable j = true ∧ ∃ d, ch.val + d < 4 ∧ j.val = 3 + ch.val + d ∧ raised d) →
        t.waits = recordAck m s.waits) ∧
      SameRegsBut [Reg.irf] s t ∧ SameBytes s t ∧ t = { s with regs := t.regs, tmr := t.tmr, waits := t.waits }

/-- R215: the closed form of a line in which no handler can be delivered: the counts each channel receives, where its
counter and its accumulator end, and which sources become pending. Its premise `AccInRange`, that the accumulator of a channel
with its own ticks is below its divisor, is an invariant: reset has it (`ResetState`) and every step keeps it
(`StepKeepsRegistersClockTimersAndFrames`). -/
def Obligations.LineOfTicksInClosedForm : Prop :=
  ∀ s : State, s.ime = false → s.AccInRange →
    ∃ t, exec .tmrTickline s = .next t ∧
      (∀ ch : Fin 4,
        (t.tmr.get ch).reload = (s.tmr.get ch).reload ∧
        (t.tmr.get ch).counter.toNat =
          counterAfter (s.tmr.get ch).counter.toNat (s.tmr.get ch).reload.toNat (s.lineCounts ch.val) ∧
        (t.tmr.get ch).prescAcc.toNat = (if s.ownTicks ch = true then
          ((s.tmr.get ch).prescAcc.toNat + s.cfg.cyclesPerLine) % TmrCtl.div (TmrCtl.prescaler (s.tmrCtl ch))
          else (s.tmr.get ch).prescAcc.toNat) ∧
        (t.pending (timerSource ch) = true ↔ s.pending (timerSource ch) = true ∨
          (0 < overflowsIn (s.tmr.get ch).counter.toNat (s.tmr.get ch).reload.toNat (s.lineCounts ch.val) ∧
            (s.tmrCtl ch).getLsbD 6 = true))) ∧
      (∀ i : Fin nIrq, i.val < 3 ∨ 7 ≤ i.val → t.pending i = s.pending i) ∧
      SameRegsBut [Reg.irf] s t ∧ SameBytes s t ∧ t = { s with regs := t.regs, tmr := t.tmr }

/-- R217: the conversion of a period takes the finest prescaler whose ticks are 1 to 65536, rounding down, and reports
the error if there is none; nothing else changes. -/
def Obligations.MillisecondsTakeTheFinestPrescaler : Prop :=
  ∀ (s : State) (ms : Word), ∃ t, exec (.tmrMscfg ms) s = .next t ∧ OnlyResult s t ∧
    (∀ (k : Fin 4) (d : Nat), [1, 64, 256, 1024][k.val]? = some d →
      1 ≤ ms.toNat * s.cfg.clockHz / (1000 * d) → ms.toNat * s.cfg.clockHz / (1000 * d) ≤ 65536 →
      (∀ (j : Fin 4) (e : Nat), j.val < k.val → [1, 64, 256, 1024][j.val]? = some e →
        65536 < ms.toNat * s.cfg.clockHz / (1000 * e)) →
      ∃ r : Half, t.result = .timerPeriod (BitVec.ofNat 2 k.val) r ∧
        (r.toNat + ms.toNat * s.cfg.clockHz / (1000 * d)) % 65536 = 0) ∧
    ((ms.toNat * s.cfg.clockHz / 1000 = 0 ∨ 65536 < ms.toNat * s.cfg.clockHz / (1000 * 1024)) →
      t.result = .timerPeriodUnrepresentable ms)

/-! ### The compositor -/

/-- R244: the frame start loads the four reference latches from bits 27:0 of their registers (log 15 for the sampled
mode). -/
def Obligations.FrameStartLoadsTheReferencePoints : Prop :=
  ∀ s : State, ∃ t, exec .ppuFramestart s = .next t ∧
    t.refs = ⟨(s.x32 0x028).setWidth 28, (s.x32 0x02C).setWidth 28, (s.x32 0x038).setWidth 28,
      (s.x32 0x03C).setWidth 28⟩ ∧
    SameRegsBut [] s t ∧ SameBytes s t ∧ t = { s with refs := t.refs, frameMode := (s.x 0x000).setWidth 3 }

/-- R250 to R253: a text line is the screen entries' tiles, with scroll, wrap, flips, palettes and mosaic. From line 160,
where the rule states no pixel, the layer's 240 pixels are free values and everything else is as on a line (log 27). -/
def Obligations.TextLineFollowsTheScreenEntries : Prop :=
  ∀ (s : State) (n : BitVec 2) (y : Byte),
    ∃ t, exec (.ppuBgText n y) s = .next t ∧ OnlyLineBuffersOrFree s t ∧
      t.lb = { s.lb with bgpix := t.lb.bgpix } ∧ (∀ m, m ≠ channelOf n → t.lb.bgpix.get m = s.lb.bgpix.get m) ∧
      (t.lb.bgpix.get (channelOf n)).length = 240 ∧
      (y.toNat < 160 → OnlyLineBuffers s t ∧
        ∀ px < 240, (t.lb.bgpix.get (channelOf n))[px]? = some (s.specText (channelOf n) y.toNat px))

/-- R260, R261: an affine line samples its texture by the matrix and the reference point, wrapped or clipped. Of layers 0
and 1, and from line 160, where the rule states no pixel, the layer's 240 pixels are free values and everything else is as
on a line (log 27). -/
def Obligations.AffineLineFollowsTheMatrix : Prop :=
  ∀ (s : State) (k : BitVec 2) (y : Byte),
    ∃ t, exec (.ppuBgAffine k y) s = .next t ∧ OnlyLineBuffersOrFree s t ∧
      t.lb = { s.lb with bgpix := t.lb.bgpix } ∧ (∀ m, m ≠ channelOf k → t.lb.bgpix.get m = s.lb.bgpix.get m) ∧
      (t.lb.bgpix.get (channelOf k)).length = 240 ∧
      (2 ≤ k.toNat → y.toNat < 160 → OnlyLineBuffers s t ∧
        ∀ px < 240, (t.lb.bgpix.get (channelOf k))[px]? = some (s.specAffine (decide (k = 3)) y.toNat px))

/-- R270 to R272, R74: the three bitmap lines, each of layer 2 only; the formulas at every line the operand can name. -/
def Obligations.BitmapLinesReadTheirFrames : Prop :=
  ∀ (s : State) (y : Byte),
    let base := if (s.x 0x000).getLsbD 4 = true then 0xA000 else 0
    let ys := s.specBitmapY y.toNat
    ∀ op ∈ [Instr.ppuBgBitmap3 y, .ppuBgBitmap4 y, .ppuBgBitmap5 y], ∃ t, exec op s = .next t ∧ OnlyLineBuffers s t ∧
      t.lb = { s.lb with bgpix := t.lb.bgpix } ∧ (∀ m, m ≠ 2 → t.lb.bgpix.get m = s.lb.bgpix.get m) ∧
      (t.lb.bgpix.get 2).length = 240 ∧
      ∀ px < 240,
        let xs := s.specBitmapX px
        (op = .ppuBgBitmap3 y →
          (t.lb.bgpix.get 2)[px]? = some (some (BitVec.ofNat 15 (s.vram16 ((ys * 240 + xs) * 2) % 0x8000)))) ∧
        (op = .ppuBgBitmap4 y →
          (t.lb.bgpix.get 2)[px]? = some (if s.vram8 (base + ys * 240 + xs) = 0 then none
            else some (s.pal16 (2 * s.vram8 (base + ys * 240 + xs))))) ∧
        (op = .ppuBgBitmap5 y →
          (t.lb.bgpix.get 2)[px]? = some (if xs < 160 ∧ ys < 128 then
            some (BitVec.ofNat 15 (s.vram16 (base + (ys * 160 + xs) * 2) % 0x8000)) else none))

/-- R280 to R291: in a sprite bucket the entry with the lowest index keeps the pixel, with its semi mark, and a pixel
already there stays; a window sprite marks the object window and draws nothing. What an entry shows at a pixel, by its
position, canvas, mosaic, flips or matrix, tile slot, depth and palette (R281 to R289), is `specObj`. From line 160, where
the rule states no pixel, what the line adds is free, but for nothing at all where no entry is drawn (log 27). -/
def Obligations.LowestSpriteKeepsThePixel : Prop :=
  ∀ (s : State) (y : Byte),
    let a0 := fun i => s.oam16 (8 * i)
    let a1 := fun i => s.oam16 (8 * i + 2)
    let a2 := fun i => s.oam16 (8 * i + 4)
    let pixel := fun px i => s.specObj (a0 i) (a1 i) (a2 i) y.toNat px
    let undrawn := fun i => bitsOf (a0 i) 9 8 = 2 ∨ bitsOf (a0 i) 11 10 = 3 ∨ bitsOf (a0 i) 15 14 = 3
    ∃ t, exec (.ppuObj y) s = .next t ∧ OnlyLineBuffersOrFree s t ∧
      t.lb = { s.lb with objpix := t.lb.objpix, objwin := t.lb.objwin } ∧
      (∀ p : Fin 4, (t.lb.objpix.get p).length = (s.lb.objpix.get p).length) ∧ t.lb.objwin.length = s.lb.objwin.length ∧
      (∀ (p : Fin 4) (px : Nat) (o : ObjPixel), (s.lb.objpix.get p)[px]? = some (some o) →
        (t.lb.objpix.get p)[px]? = some (some o)) ∧
      (∀ px : Nat, s.lb.objwin[px]? = some true → t.lb.objwin[px]? = some true) ∧
      ((∀ i < 128, undrawn i) → t.lb = s.lb) ∧
      (y.toNat < 160 → OnlyLineBuffers s t ∧
        (∀ (p : Fin 4) (px : Nat) (old : Option ObjPixel), (s.lb.objpix.get p)[px]? = some old →
          (t.lb.objpix.get p)[px]? = some (match old with
            | some o => some o
            | none => (List.range 128).findSome? (fun i =>
                if bitsOf (a2 i) 11 10 = p.val ∧ bitsOf (a0 i) 11 10 ≠ 2 then
                  (pixel px i).map (fun c => { colour := c, semi := decide (bitsOf (a0 i) 11 10 = 1) })
                else none))) ∧
        (∀ (px : Nat) (old : Bool), s.lb.objwin[px]? = some old →
          t.lb.objwin[px]? = some (old || (List.range 128).any (fun i =>
            decide (bitsOf (a0 i) 11 10 = 2) && (pixel px i).isSome))))

/-- R300, R301, R242, R243: the order lists, each once, the four sprite buckets, the enabled backgrounds of the mode and
the backdrop, front first by priority, sprites before backgrounds, lower numbers first; and which layers are drawn how in
the eight modes, with the mode looked up at every line. -/
def Obligations.SortOrdersTheLayers : Prop :=
  (∀ s : State, ∃ t ls, exec .ppuSort s = .next t ∧ t.result = .order ls ∧
    ls.Pairwise (fun a b => s.layerRank a < s.layerRank b) ∧
    (∀ l, l ∈ ls ↔ match l with
      | .obj _ => True
      | .bg n => (s.x 0x000).getLsbD (8 + n.val) = true ∧ s.kind n ≠ .none
      | .backdrop => True) ∧
    SameRegsBut [] s t ∧ SameBytes s t ∧ t = { s with lb := { s.lb with order := ls }, result := .order ls }) ∧
  ∀ (s : State) (n : Fin 4), s.cfg.modeLatch = .perLine →
    s.kind n = match bitsOf (s.x 0x000) 2 0 with
      | 0 => .text
      | 1 => if n.val ≤ 1 then .text else if n = 2 then .affine else .none
      | 2 => if 2 ≤ n.val then .affine else .none
      | 3 => if n = 2 then .bitmap3 else .none
      | 4 => if n = 2 then .bitmap4 else .none
      | 5 => if n = 2 then .bitmap5 else .none
      | _ => .none

/-- R305, R307, R308: the mask of a pixel: everything with no window enabled, else window 0, window 1, the object window, or
outside, in this precedence. Past the screen, where the rule states no mask, one that depends on the pixel is a free value
(log 27). -/
def Obligations.WindowMaskByPrecedence : Prop :=
  ∀ (s : State) (x y : Byte),
    let d := s.x 0x000
    let in0 := d.getLsbD 13 = true ∧ insideOf (s.x 0x040) (s.x 0x044) x.toNat y.toNat
    let in1 := d.getLsbD 14 = true ∧ insideOf (s.x 0x042) (s.x 0x046) x.toNat y.toNat
    let inObj := d.getLsbD 15 = true ∧ s.lb.objwin[x.toNat]? = some true
    ∃ t wm, exec (.ppuWindow x y) s = .next t ∧ t.result = .mask wm ∧ t.lb = { s.lb with wm := wm } ∧
      (bitsOf d 15 13 = 0 → wm = 0x3F) ∧
      (x.toNat < 240 → y.toNat < 160 →
        (in0 → wm.toNat = bitsOf (s.x 0x048) 5 0) ∧
        (¬in0 → in1 → wm.toNat = bitsOf (s.x 0x048) 13 8) ∧
        (¬in0 → ¬in1 → inObj → wm.toNat = bitsOf (s.x 0x04A) 13 8) ∧
        (bitsOf d 15 13 ≠ 0 → ¬in0 → ¬in1 → ¬inObj → wm.toNat = bitsOf (s.x 0x04A) 5 0) ∧
        t.freeCount = s.freeCount) ∧
      SameRegsBut [] s t ∧ SameBytes s t ∧ t = { s with lb := t.lb, result := t.result, freeCount := t.freeCount }

/-- R310, R311, R315: the colour of a pixel from the two front visible layers of the order: semi-transparent sprites
first, then the window's gate, then the mode of BLDCNT (log 10 for the order and mask of a lone `PPU_EFFECT`). On the line a
background is visible exactly where its mask bit is 1 and its line-buffer pixel is opaque, a sprite bucket where mask bit 4
is 1 and its pixel is opaque, with the buffer's colour (and the sprite pixel's semi mark); the backdrop always, with the
palette's colour 0. Past the line, where no rule states a layer's pixel, these are free values and the effect is computed from
them (log 27). -/
def Obligations.EffectOnTheTopTwoLayers : Prop :=
  (∀ (s : State) (x : Byte) (top : Layer), s.lb.order.find? (s.visible s.lb.wm x.toNat) = some top →
    ∃ t, exec (.ppuEffect x) s = .next t ∧ SameBytes s t ∧ t = { s with result := t.result, freeCount := t.freeCount } ∧
      (x.toNat < 240 → OnlyResult s t) ∧
      t.result = .colour (s.specEffect s.lb.wm x.toNat top (s.secondAfter s.lb.order s.lb.wm x.toNat top))) ∧
  (∀ (s : State) (wm : BitVec 6) (px : Nat), s.visible wm px .backdrop = true ∧ s.layerColour px .backdrop = s.pal16 0 ∧
    s.layerSemi px .backdrop = false) ∧
  ∀ (s : State) (wm : BitVec 6) (px : Nat), px < 240 →
    (∀ n : Fin 4,
      (s.visible wm px (.bg n) = true ↔ wm.getLsbD n.val = true ∧ ∃ c, (s.lb.bgpix.get n)[px]? = some (some c)) ∧
      (∀ c, (s.lb.bgpix.get n)[px]? = some (some c) → s.layerColour px (.bg n) = c) ∧ s.layerSemi px (.bg n) = false) ∧
    ∀ p : Fin 4,
      (s.visible wm px (.obj p) = true ↔ wm.getLsbD 4 = true ∧ ∃ o, (s.lb.objpix.get p)[px]? = some (some o)) ∧
      ∀ o, (s.lb.objpix.get p)[px]? = some (some o) →
        s.layerColour px (.obj p) = o.colour ∧ s.layerSemi px (.obj p) = o.semi

/-- R312 to R314: the arithmetic of the three effects, channel by channel, with the coefficients of BLDALPHA and BLDY
clamped to 16, and the end points of the fades. -/
def Obligations.EffectArithmetic : Prop :=
  (∀ s : State, s.eva = min 16 (bitsOf (s.x 0x052) 4 0) ∧ s.evb = min 16 (bitsOf (s.x 0x052) 12 8) ∧
    s.evy = min 16 (bitsOf (s.x 0x054) 4 0)) ∧
  ∀ (a b : Colour) (eva evb evy : Nat), eva ≤ 16 → evb ≤ 16 → evy ≤ 16 →
    (∀ ch ∈ [(4, 0), (9, 5), (14, 10)],
      bitsOf (alphaBlend eva evb a b) ch.1 ch.2 = min 31 ((bitsOf a ch.1 ch.2 * eva + bitsOf b ch.1 ch.2 * evb) >>> 4) ∧
      bitsOf (brighten evy a) ch.1 ch.2 = bitsOf a ch.1 ch.2 + ((31 - bitsOf a ch.1 ch.2) * evy) >>> 4 ∧
      bitsOf (darken evy a) ch.1 ch.2 = bitsOf a ch.1 ch.2 - (bitsOf a ch.1 ch.2 * evy) >>> 4) ∧
    brighten 0 a = a ∧ brighten 16 a = 0x7FFF ∧ darken 0 a = a ∧ darken 16 a = 0

/-- R316: with the swap on, each pair of neighbouring pixels exchanges its green channels; with it off nothing changes. -/
def Obligations.GreenSwapExchangesGreens : Prop :=
  ∀ s : State, s.lb.line.length = 240 →
    ∃ t, exec .ppuGreenswap s = .next t ∧ OnlyLineBuffers s t ∧ t.lb = { s.lb with line := t.lb.line } ∧
      ((s.x 0x002).getLsbD 0 = false → t = s) ∧
      ((s.x 0x002).getLsbD 0 = true → t.lb.line.length = 240 ∧ ∀ j < 120, ∀ a b,
        s.lb.line[2 * j]? = some a → s.lb.line[2 * j + 1]? = some b →
        t.lb.line[2 * j]? = some (rgb (red a) (green b) (blue a)) ∧
          t.lb.line[2 * j + 1]? = some (rgb (red b) (green a) (blue b)))

/-- R317, R320, and the result of R322: a commit stores the output line as one row of the active frame buffer and changes
no other row; a swap exchanges the buffers' parts and copies nothing; the completed frame is the buffer that is not
active, given as a reference. A commit of a row from 160 up, which no buffer has, changes nothing (log 27). -/
def Obligations.CommitSwapAndGetFrame : Prop :=
  (∀ (s : State) (y : Byte), y.toNat < 160 → (s.fb s.active).length = 160 →
    ∃ t, exec (.ppuCommit y) s = .next t ∧ (t.fb s.active)[y.toNat]? = some s.lb.line ∧
      (∀ r, r ≠ y.toNat → (t.fb s.active)[r]? = (s.fb s.active)[r]?) ∧ t.fb (~~~s.active) = s.fb (~~~s.active) ∧
      SameRegsBut [] s t ∧ SameBytes s t ∧ t = { s with fb0 := t.fb0, fb1 := t.fb1 }) ∧
  (∀ (s : State) (y : Byte), 160 ≤ y.toNat → (s.fb s.active).length = 160 → exec (.ppuCommit y) s = .next s) ∧
  ∀ s : State,
    (∃ t, exec .ppuSwap s = .next t ∧ t.active.toNat = 1 - s.active.toNat ∧
      SameBytes s t ∧ t = { s with active := t.active }) ∧
    (∃ t which, exec .ppuGetframe s = .next t ∧ OnlyResult s t ∧ t.result = .frame which ∧
      which.toNat = 1 - s.active.toNat)

/-- R240, R241, R262: rendering a line writes the line buffers, one row of the active buffer and the reference latches,
each stepped by its matrix column, and nothing else; the row is the output line. Outside forced blank that line is the
pipeline's: the enabled layers of the mode drawn into cleared buffers, the sprites if they are enabled, the order sorted, at
every pixel the effect under that pixel's window mask, and the channel swap. A forced-blank line is white; a line with no
layer enabled, no window and no effect on the backdrop is the backdrop's colour. A line from 160 up goes through the same
pipeline, whose operations take free values there, and no buffer has its row (log 27). -/
def Obligations.RenderLineWritesOneRow : Prop :=
  (∀ (s : State) (y : Byte), (s.fb s.active).length = 160 →
    ∃ t, exec (.ppuRenderline y) s = .next t ∧
      t.refs = ⟨s.refs.bgx2 + (s.x 0x022).signExtend 28, s.refs.bgy2 + (s.x 0x026).signExtend 28,
        s.refs.bgx3 + (s.x 0x032).signExtend 28, s.refs.bgy3 + (s.x 0x036).signExtend 28⟩ ∧
      (y.toNat < 160 → (t.fb s.active)[y.toNat]? = some t.lb.line ∧ t.freeCount = s.freeCount) ∧
      (∀ r, r ≠ y.toNat → (t.fb s.active)[r]? = (s.fb s.active)[r]?) ∧ (t.fb s.active).length = 160 ∧
      t.fb (~~~s.active) = s.fb (~~~s.active) ∧ SameRegsBut [] s t ∧ SameBytes s t ∧
      t = { s with lb := t.lb, fb0 := t.fb0, fb1 := t.fb1, refs := t.refs, freeCount := t.freeCount }) ∧
  (∀ (s : State) (y : Byte), (s.x 0x000).getLsbD 7 = false →
    ∃ t u out g, exec (.ppuRenderline y) s = .next t ∧ LayersSorted y s u ∧ out.length = 240 ∧
      (∀ px : Byte, px.toNat < 240 → ∃ c, out[px.toNat]? = some c ∧ PixelComposed px y u c) ∧
      exec .ppuGreenswap (u.setLb { u.lb with line := out }) = .next g ∧ t.lb.line = g.lb.line) ∧
  ∀ (s : State) (y : Byte),
    ((s.x 0x000).getLsbD 7 = true → ∃ t, exec (.ppuRenderline y) s = .next t ∧ t.lb.line = List.replicate 240 0x7FFF) ∧
    ((s.x 0x000).getLsbD 7 = false → bitsOf (s.x 0x000) 15 8 = 0 → (s.x 0x050).getLsbD 5 = false →
      ∃ t, exec (.ppuRenderline y) s = .next t ∧ t.lb.line = List.replicate 240 (s.pal16 0))

/-- R240, R76: no operation of the compositor writes a register or a memory, or moves the clock, a timer or a channel,
whatever its operands. -/
def Obligations.CompositorWritesNoRegisterOrMemory : Prop :=
  ∀ (s t : State) (y x : Byte) (n : BitVec 2),
    ∀ op ∈ [Instr.ppuRenderline y, .ppuFramestart, .ppuBgText n y, .ppuBgAffine n y, .ppuBgBitmap3 y, .ppuBgBitmap4 y,
      .ppuBgBitmap5 y, .ppuObj y, .ppuSort, .ppuWindow x y, .ppuEffect x, .ppuGreenswap, .ppuCommit y, .ppuSwap,
      .ppuGetframe], exec op s = .next t →
      SameRegsBut [] s t ∧ SameBytes s t ∧
      t = { s with
        lb := t.lb, fb0 := t.fb0, fb1 := t.fb1, refs := t.refs, active := t.active, frameMode := t.frameMode
        result := t.result, freeCount := t.freeCount }

/-! ### The host bus -/

/-- R340, R386: a host access that is misaligned faults; one that is aligned and in none of the four windows is
`BusError`; neither reads or writes. -/
def Obligations.HostAccessFaults : Prop :=
  ∀ (s : State) (a : Word) (b : Byte) (h : Half) (w : Word),
    (∀ p ∈ [(Instr.rd8 a, 1), (.rd16 a, 2), (.rd32 a, 4), (.wr8 a b, 1), (.wr16 a h, 2), (.wr32 a w, 4)],
      (a.toNat % p.2 ≠ 0 → Faults p.1 s .hostMisaligned a) ∧
        (a.toNat % p.2 = 0 → s.cfg.route a = .ext → Faults p.1 s .busError a))

/-- R341, R343 to R345, R70, R76: a host read changes nothing but the result. Of palette, VRAM or OAM it gives the stored
bytes, little-endian; of the register file the read view: DISPSTAT with the live match flag, TMchCNT_L the counter, every
other register its stored halfword. -/
def Obligations.ReadsChangeNothing : Prop :=
  (∀ (s : State) (a : Word) (off : Nat) (byte : Nat → Byte),
    (s.cfg.route a = .pal off ∧ byte = s.palByte ∨ s.cfg.route a = .vram off ∧ byte = s.vramByte ∨
      s.cfg.route a = .oam off ∧ byte = s.oamByte) →
    (∃ t, exec (.rd8 a) s = .next t ∧ OnlyResult s t ∧ t.result = .byte (byte off)) ∧
    (a.toNat % 2 = 0 → ∃ t, exec (.rd16 a) s = .next t ∧ OnlyResult s t ∧
      t.result = .half (byte (off + 1) ++ byte off)) ∧
    (a.toNat % 4 = 0 → ∃ t, exec (.rd32 a) s = .next t ∧ OnlyResult s t ∧
      t.result = .word (byte (off + 3) ++ byte (off + 2) ++ byte (off + 1) ++ byte off))) ∧
  ∀ (s : State) (a : Word) (off : Nat) (view : Nat → Half), s.cfg.route a = .reg off →
    (∀ j, (view 0x004).getLsbD j = if j = 2 then decide (bitsOf (s.x 0x006) 7 0 = bitsOf (s.x 0x004) 15 8)
      else (s.x 0x004).getLsbD j) →
    (∀ ch : Fin 4, view (0x100 + 4 * ch.val) = (s.tmr.get ch).counter) →
    (∀ o, o ∉ [0x004, 0x100, 0x104, 0x108, 0x10C] → view o = s.x o) →
    (∃ t b, exec (.rd8 a) s = .next t ∧ OnlyResult s t ∧ t.result = .byte b ∧
      b = (if off % 2 = 0 then (view off).setWidth 8 else ((view (off - 1)) >>> 8).setWidth 8)) ∧
    (a.toNat % 2 = 0 → ∃ t, exec (.rd16 a) s = .next t ∧ OnlyResult s t ∧ t.result = .half (view off)) ∧
    (a.toNat % 4 = 0 → ∃ t, exec (.rd32 a) s = .next t ∧ OnlyResult s t ∧
      t.result = .word (view (off + 2) ++ view off))

/-- R346 to R348, R70: a host write of palette, VRAM or OAM stores its bytes at the offset the address has in the window,
little-endian, and changes nothing else. -/
def Obligations.WritesStoreTheirBytes : Prop :=
  ∀ (s : State) (a : Word) (off : Nat) (b : Byte) (h : Half) (w : Word) (byte : State → Nat → Byte),
    (s.cfg.route a = .pal off ∧ byte = State.palByte ∨ s.cfg.route a = .vram off ∧ byte = State.vramByte ∨
      s.cfg.route a = .oam off ∧ byte = State.oamByte) →
    ∀ p ∈ [(Instr.wr8 a b, 1, b.toNat), (.wr16 a h, 2, h.toNat), (.wr32 a w, 4, w.toNat)], a.toNat % p.2.1 = 0 →
      ∃ t, exec p.1 s = .next t ∧ (∀ i < p.2.1, (byte t (off + i)).toNat = p.2.2 / 256 ^ i % 256) ∧
        (∀ i, (i < off ∨ off + p.2.1 ≤ i) → byte t i = byte s i) ∧
        ((∀ o, s.cfg.route a ≠ .pal o) → ∀ i, t.palByte i = s.palByte i) ∧
        ((∀ o, s.cfg.route a ≠ .vram o) → ∀ i, t.vramByte i = s.vramByte i) ∧
        ((∀ o, s.cfg.route a ≠ .oam o) → ∀ i, t.oamByte i = s.oamByte i) ∧ (∀ i, t.extByte i = s.extByte i) ∧
        (∀ o, t.x o = s.x o) ∧ t = { s with pal := t.pal, vram := t.vram, oam := t.oam }

/-- R342, R358, R356, R34, R196: a halfword write of a register without a hook, or of an offset that no register has, stores
the writable bits and nothing else (no DMA latch), and a byte write keeps the other byte; the writable bits of every
register. A write of VCOUNT is ignored, and one of DISPSTAT keeps the flags. A write of TMchCNT_L stores the reload value
and leaves the counter; a byte write of it merges with the stored reload value. -/
def Obligations.PlainRegisterWritesAreMasked : Prop :=
  (∀ (s : State) (a : Word) (off : Nat) (d : Half) (b : Byte), s.cfg.route a = .reg off → off % 2 = a.toNat % 2 →
    (∀ o, o = off - off % 2 → o ∉ [0x004, 0x006, 0x028, 0x02A, 0x02C, 0x02E, 0x038, 0x03A, 0x03C, 0x03E, 0x0BA, 0x0C6, 0x0D2,
        0x0DE, 0x100, 0x102, 0x104, 0x106, 0x108, 0x10A, 0x10C, 0x10E, 0x200, 0x202, 0x208] →
      (a.toNat % 2 = 0 → ∃ t, exec (.wr16 a d) s = .next t ∧ OnlyRegs [o] s t ∧ t.x o = d &&& writeMask o) ∧
      (∃ t, exec (.wr8 a b) s = .next t ∧ OnlyRegs [o] s t ∧ t.x o = byteMerged (s.x o) off b &&& writeMask o)) ∧
    (off - off % 2 = 0x006 → (a.toNat % 2 = 0 → exec (.wr16 a d) s = .next s) ∧ exec (.wr8 a b) s = .next s) ∧
    (off - off % 2 = 0x004 →
      ∀ p ∈ [(Instr.wr16 a d, d, a.toNat % 2), (.wr8 a b, byteMerged (s.x 0x004) off b, 0)], p.2.2 = 0 →
        ∃ t, exec p.1 s = .next t ∧ OnlyRegs [0x004] s t ∧
          ∀ j, (t.x 0x004).getLsbD j = if j < 3 then (s.x 0x004).getLsbD j else (p.2.1 &&& 0xFF38).getLsbD j)) ∧
  (∀ (s : State) (a : Word) (off : Nat) (ch : Fin 4) (w : Half) (b : Byte), s.cfg.route a = .reg off →
    off % 2 = a.toNat % 2 → off - off % 2 = 0x100 + 4 * ch.val →
    ∀ p ∈ [(Instr.wr16 a w, w, a.toNat % 2), (.wr8 a b, byteMerged (s.tmr.get ch).reload off b, 0)], p.2.2 = 0 →
      ∃ t, exec p.1 s = .next t ∧ t.tmr.get ch = { s.tmr.get ch with reload := p.2.1 } ∧
        (∀ c, c ≠ ch → t.tmr.get c = s.tmr.get c) ∧ SameRegsBut [] s t ∧ SameBytes s t ∧ t = { s with tmr := t.tmr }) ∧
  (∀ p ∈ [(0x000, 0xFFF7), (0x002, 0x0001), (0x004, 0xFF38), (0x006, 0x0000), (0x050, 0x3FFF), (0x052, 0x1F1F), (0x054, 0x001F),
      (0x048, 0x3F3F), (0x04A, 0x3F3F), (0x02A, 0x0FFF), (0x02E, 0x0FFF), (0x03A, 0x0FFF), (0x03E, 0x0FFF), (0x0B8, 0x3FFF),
      (0x0C4, 0x3FFF), (0x0D0, 0x3FFF), (0x0BA, 0xF7E0), (0x0C6, 0xF7E0), (0x0D2, 0xF7E0), (0x0DE, 0xFFE0), (0x102, 0x00C3),
      (0x106, 0x00C7), (0x10A, 0x00C7), (0x10E, 0x00C7), (0x200, 0x3FFF), (0x202, 0x3FFF), (0x208, 0x0001)],
    writeMask p.1 = p.2) ∧
  (∀ n : Fin 4, writeMask (0x008 + 2 * n.val) = 0xFFCF ∧ writeMask (0x010 + 4 * n.val) = 0x01FF ∧
    writeMask (0x012 + 4 * n.val) = 0x01FF) ∧
  ∀ o, o ∉ [0x000, 0x002, 0x004, 0x006, 0x008, 0x00A, 0x00C, 0x00E, 0x010, 0x012, 0x014, 0x016, 0x018, 0x01A, 0x01C, 0x01E,
    0x02A, 0x02E, 0x03A, 0x03E, 0x048, 0x04A, 0x050, 0x052, 0x054, 0x0B8, 0x0C4, 0x0D0, 0x0BA, 0x0C6, 0x0D2, 0x0DE, 0x102,
    0x106, 0x10A, 0x10E, 0x200, 0x202, 0x208] → writeMask o = 0xFFFF

/-- R350: a write of a half of a reference-point register, by the host or as `BG_REF_RELOAD`, stores it and reloads the
latch from both halves; a byte write is the write of the half it is merged into. -/
def Obligations.ReferenceWritesReloadTheLatch : Prop :=
  ∀ (r : BgRef) (hi : Bool),
    let base := match r with | .bg2x => 0x028 | .bg2y => 0x02C | .bg3x => 0x038 | .bg3y => 0x03C
    let o := base + (if hi = true then 2 else 0)
    (∀ (s : State) (a : Word) (w : Half), s.cfg.route a = .reg o → a.toNat % 2 = 0 →
      ∃ t, exec (.bgRefReload r hi w) s = .next t ∧ exec (.wr16 a w) s = .next t ∧
        t.x o = (if hi = true then w &&& 0x0FFF else w) ∧
        (match r with
          | .bg2x => t.refs = { s.refs with bgx2 := (t.x32 base).setWidth 28 }
          | .bg2y => t.refs = { s.refs with bgy2 := (t.x32 base).setWidth 28 }
          | .bg3x => t.refs = { s.refs with bgx3 := (t.x32 base).setWidth 28 }
          | .bg3y => t.refs = { s.refs with bgy3 := (t.x32 base).setWidth 28 }) ∧
        SameRegsBut [o] s t ∧ SameBytes s t ∧ t = { s with regs := t.regs, refs := t.refs }) ∧
    ∀ (s : State) (a : Word) (off : Nat) (b : Byte), s.cfg.route a = .reg off → off - off % 2 = o →
      exec (.wr8 a b) s = exec (.bgRefReload r hi (byteMerged (s.x o) off b)) s

/-- R353, R354, R106, R107: a write of IE makes every enable bit as written and nothing else; a write of IF acknowledges
exactly the sources whose written bit is 1, and no bit is set by it. A byte write of either touches the sources of its own
byte only. -/
def Obligations.InterruptRegisterWrites : Prop :=
  (∀ (s : State) (a : Word) (w : Half), s.cfg.route a = .reg 0x200 → a.toNat % 2 = 0 →
    ∃ t, exec (.hookIrqSeten w) s = .next t ∧ exec (.wr16 a w) s = .next t ∧ OnlyRegs [0x200] s t ∧
      ∀ j, (t.x 0x200).getLsbD j = if j < 14 then w.getLsbD j else (s.x 0x200).getLsbD j) ∧
  (∀ (s : State) (a : Word) (off : Nat) (b : Byte), s.cfg.route a = .reg off → off - off % 2 = 0x200 →
    ∃ t, exec (.wr8 a b) s = .next t ∧ OnlyRegs [0x200] s t ∧
      ∀ j, (t.x 0x200).getLsbD j = if j < 14 ∧ j / 8 = off % 2 then b.getLsbD (j % 8) else (s.x 0x200).getLsbD j) ∧
  ∀ (s : State) (a : Word) (off : Nat) (w : Half) (b : Byte), s.cfg.route a = .reg off → off - off % 2 = 0x202 →
    ∀ p ∈ [(Instr.hookIrqAck w, w, 0), (.wr16 a w, w, a.toNat % 2 + off % 2), (.wr8 a b, byteMerged 0 off b, 0)], p.2.2 = 0 →
      ∃ t, exec p.1 s = .next t ∧
        (∀ i, t.pending i = (s.pending i && !p.2.1.getLsbD i.val)) ∧
        (∀ m : BitVec 14, (∀ j : Fin nIrq, m.getLsbD j.val = (s.pending j && p.2.1.getLsbD j.val)) →
          t.waits = recordAck m s.waits) ∧
        SameRegsBut [0x202] s t ∧ SameBytes s t ∧ t = { s with regs := t.regs, waits := t.waits }

/-- R351, R352, R355, R104, R193: a halfword write of a control register is the operation it starts, in `HOOK` form, and a
byte write that of the merged word (of the upper byte of IME, a write of IME with bit 0 as it is); a configure by a write is
the `OP` form with the address and count registers as operands, and of a triggered channel, with operands that no test
rejects, it arms the channel. -/
def Obligations.ControlWritesAreTheirHooks : Prop :=
  (∀ (s : State) (a : Word) (ch : BitVec 2) (w : Half), a.toNat % 2 = 0 →
    (s.cfg.route a = .reg (0x0BA + 12 * ch.toNat) → w.getLsbD 15 = true →
      exec (.wr16 a w) s = exec (.hookDmaConfigure ch w) s ∧
        exec (.hookDmaConfigure ch w) s = exec (.dmaConfigure (ch.setWidth 8) (s.x32 (0x0B0 + 12 * ch.toNat))
          (s.x32 (0x0B4 + 12 * ch.toNat)) (s.x (0x0B8 + 12 * ch.toNat)) (w &&& (if ch = 3 then 0xFFE0 else 0xF7E0))) s) ∧
    (s.cfg.route a = .reg (0x0BA + 12 * ch.toNat) → w.getLsbD 15 = false →
      exec (.wr16 a w) s = exec (.hookDmaStop ch w) s) ∧
    (s.cfg.route a = .reg (0x102 + 4 * ch.toNat) → w.getLsbD 7 = true →
      exec (.wr16 a w) s = exec (.hookTmrStart ch w) s) ∧
    (s.cfg.route a = .reg (0x102 + 4 * ch.toNat) → w.getLsbD 7 = false →
      exec (.wr16 a w) s = exec (.hookTmrStop ch w) s) ∧
    (s.cfg.route a = .reg 0x208 → exec (.wr16 a w) s = exec (.hookIrqSetime w) s)) ∧
  (∀ (s : State) (a : Word) (off : Nat) (ch : BitVec 2) (b : Byte), s.cfg.route a = .reg off →
    let w := byteMerged (s.x (off - off % 2)) off b
    (off - off % 2 = 0x0BA + 12 * ch.toNat → w.getLsbD 15 = true → exec (.wr8 a b) s = exec (.hookDmaConfigure ch w) s) ∧
    (off - off % 2 = 0x0BA + 12 * ch.toNat → w.getLsbD 15 = false → exec (.wr8 a b) s = exec (.hookDmaStop ch w) s) ∧
    (off - off % 2 = 0x102 + 4 * ch.toNat → w.getLsbD 7 = true → exec (.wr8 a b) s = exec (.hookTmrStart ch w) s) ∧
    (off - off % 2 = 0x102 + 4 * ch.toNat → w.getLsbD 7 = false → exec (.wr8 a b) s = exec (.hookTmrStop ch w) s) ∧
    (off = 0x208 → exec (.wr8 a b) s = exec (.irqSetime (b.getLsbD 0)) s) ∧
    (off = 0x209 → exec (.wr8 a b) s = exec (.irqSetime s.ime) s)) ∧
  ∀ (s : State) (ch : BitVec 2) (w : Half),
    let src := s.x32 (0x0B0 + 12 * ch.toNat)
    let dst := s.x32 (0x0B4 + 12 * ch.toNat)
    let unit := if w.getLsbD 10 = true then 4 else 2
    w.getLsbD 15 = true → src.toNat % unit = 0 → dst.toNat % unit = 0 →
    (ch.toNat ≤ 2 → src.toNat < s.cfg.romLo ∨ s.cfg.romHi < src.toNat) →
    bitsOf w 8 7 ≠ 3 → (bitsOf w 6 5 = 3 → ch = 1 ∨ ch = 2) → bitsOf w 13 12 ≠ 0 →
    ∃ t, exec (.hookDmaConfigure ch w) s = .next t ∧
      t.x (0x0BA + 12 * ch.toNat) = w &&& (if ch = 3 then 0xFFE0 else 0xF7E0) ∧
      (t.dma.get (channelOf ch)).srcCur = src ∧ (t.dma.get (channelOf ch)).dstCur = dst ∧ SameBytes s t ∧
      t = { s with regs := t.regs, dma := t.dma }

/-- R348: a word write of the register file is the write of its low halfword and then that of its high halfword. -/
def Obligations.WordWriteIsTwoHalfwordWrites : Prop :=
  ∀ (s : State) (a : Word) (off : Nat) (w : Word), s.cfg.regBase % 4 = 0 → a.toNat % 4 = 0 → s.cfg.route a = .reg off →
    s.cfg.route (a + 2) = .reg (off + 2) →
    ∃ u, exec (.wr16 a (w.setWidth 16)) s = .next u ∧
      exec (.wr32 a w) s = exec (.wr16 (a + 2) ((w >>> 16).setWidth 16)) u

/-! ### The scheduler -/

/-- R131, R132 (a), R136 (a): a step of the scheduler with no channel armed for the line's trigger runs, moves the clock
by one line modulo 228 and leaves the line it processed in VCOUNT, wherever a handler stops it. -/
def Obligations.AdvanceMovesOneLine : Prop :=
  ∀ s : State, s.frameClock.toNat < 228 →
    (∀ ch : Fin 4, (s.dmaCtl ch).getLsbD 15 = true → (s.frameClock.toNat < 160 → bitsOf (s.dmaCtl ch) 13 12 ≠ 2) ∧
      (s.frameClock.toNat = 160 → bitsOf (s.dmaCtl ch) 13 12 ≠ 1)) →
    ∃ t, exec .advance s = .next t ∧ t.frameClock.toNat = (s.frameClock.toNat + 1) % 228 ∧
      (t.x 0x006).toNat = s.frameClock.toNat

/-- R131: with the master enable clear and no channel armed a step renders the line or, at line 160, swaps the buffers;
it sets the flags of DISPSTAT, raises VBLANK at line 160 only, VCOUNT at the match only and HBLANK always, and writes no
other register and no memory. R131 lines 1 to 16, R136 (d): where no operation of it is suspended, a step is the chain of its
operations, the frame start on line 0, the compositor's line, at line 160 the swap, the VBlank-armed channels and the VBlank
raise, then the HBlank flag, the HBlank-armed channels, the VCOUNT raise at the match and the HBlank raise, and last one
credit of the timers' line. R132, R388, with deliveries: in every state a step is that chain, the fire operations are their
channels' turns and the timers' line is its turns, and where a handler stops one of these it leaves the position the rest goes
on from (log 1). R132, R133, R158, R187, R188, R213, R214, R348: from such a position a step runs exactly that rest, an outer
`ADVANCE` with its own line. (N_IRQ is decided 14; log 14 for fewer sources.) -/
def Obligations.AdvanceWithoutDeliveries : Prop :=
  (∀ s : State, s.ime = false → s.frameClock.toNat < 228 →
    (∀ ch : Fin 4, (s.dmaCtl ch).getLsbD 15 = true → (s.frameClock.toNat < 160 → bitsOf (s.dmaCtl ch) 13 12 ≠ 2) ∧
      (s.frameClock.toNat = 160 → bitsOf (s.dmaCtl ch) 13 12 ≠ 1)) →
    ∃ t, exec .advance s = .next t ∧
      (∀ j, (t.x 0x004).getLsbD j = if j = 0 then decide (160 ≤ s.frameClock.toNat) else if j = 1 then true
        else (s.x 0x004).getLsbD j) ∧
      t.pending 0 = (s.pending 0 || decide (s.frameClock.toNat = 160)) ∧ t.pending 1 = true ∧
      t.pending 2 = (s.pending 2 || decide (s.frameClock.toNat = bitsOf (s.x 0x004) 15 8)) ∧
      (∀ i : Fin nIrq, 7 ≤ i.val → t.pending i = s.pending i) ∧
      (t.active.toNat = if s.frameClock.toNat = 160 then 1 - s.active.toNat else s.active.toNat) ∧
      (s.frameClock.toNat < 160 → (s.fb s.active).length = 160 →
        (t.fb s.active)[s.frameClock.toNat]? = some t.lb.line) ∧
      (160 ≤ s.frameClock.toNat → t.fb0 = s.fb0 ∧ t.fb1 = s.fb1 ∧ t.refs = s.refs ∧ t.lb = s.lb) ∧
      SameRegsBut [0x004, 0x006, 0x202] s t ∧ SameBytes s t ∧ t.dma = s.dma ∧ t.dispatch = s.dispatch ∧
      t.waits = s.waits ∧ t.kont = s.kont ∧ (2 < s.cfg.irqCount.val → ∃ u, AdvanceChain s u)) ∧
  (∀ s u : State, s.ime = false ∨ (∀ i, s.cfg.handlerOf i = .absent) → s.frameClock.toNat < 228 →
    2 < s.cfg.irqCount.val → AdvanceChain s u → exec .advance s = exec .tmrTickline u) ∧
  (∀ s : State, 11 < s.cfg.irqCount.val →
    (s.frameClock.toNat < 228 → ∃ b, AdvanceBegun s b ∧
      (s.frameClock.toNat ≠ 160 → exec .advance s = advanceFrom12 s.frameClock b) ∧
      (s.frameClock.toNat = 160 → ∃ c, exec .ppuSwap b = .next c ∧
        exec .advance s =
          thenAt (exec .dmaFireVblank) (.advance s.frameClock .vblankRaise) (advanceFrom11 s.frameClock) c)) ∧
    exec .dmaFireHblank s = fireLast 2 4 s ∧ exec .dmaFireVblank s = fireLast 1 4 s ∧
    exec .tmrTickline s = timerLast (4 * s.cfg.cyclesPerLine) s) ∧
  ∀ (s : State) (k : Kont) (ks : List Kont), s.faulted = none → s.kont = k :: ks → k.isHandler = false →
    11 < s.cfg.irqCount.val → GoesOn k (s.setKont ks) (step s)

/-- R50, R5, R130, as the model cuts a wait into steps (log 1): no operation but `ADVANCE` moves the clock or VCOUNT. The
operation of `HALTUNTIL`, `HALTVBL` and `HALT` only pushes the wait; its rounds, which call `ADVANCE`, are the next steps,
where R5 has time move inside the halting primitives. -/
def Obligations.OnlyAdvanceMovesTheClock : Prop :=
  ∀ (i : Instr) (s t : State), i ≠ .advance → exec i s = .next t →
    t.frameClock = s.frameClock ∧ t.x 0x006 = s.x 0x006

/-- R133, R134, R135, R370 code 4: a wait starts by pushing a frame with the mask's sources and nothing seen: of the
operand, of VBLANK alone, or of the enabled sources; its rounds are the next steps (log 1). A wait for no source faults
before any step, with the mask, and changes nothing. -/
def Obligations.WaitsPushTheirFrame : Prop :=
  (∀ (s : State) (mask : Half),
    ∀ p ∈ [(Instr.haltuntil mask, mask), (.haltvbl, 0x0001), (.halt, s.x 0x200)], p.2.setWidth 14 ≠ (0 : BitVec 14) →
      exec p.1 s = .next { s with waits := { mask := p.2.setWidth 14, seen := 0 } :: s.waits, kont := .haltLoop :: s.kont }) ∧
  ∀ (s : State) (mask : Half),
    (mask.setWidth 14 = (0 : BitVec 14) → Faults (.haltuntil mask) s .zeroWaitMask (mask.setWidth 32)) ∧
    ((s.x 0x200).setWidth 14 = (0 : BitVec 14) → Faults .halt s .zeroWaitMask ((s.x 0x200).setWidth 32))

/-- R133: a wait for HBLANK with HBLANK deliverable and no handlers ends with the step of the next line, its frame popped
and the master enable as before (log 1: the issue and the round are two steps). -/
def Obligations.WaitForHblankEnds : Prop :=
  ∀ (s : State) (mask : Half), s.faulted = none → s.extRaises = [] → (∀ i, s.cfg.handlerOf i = .absent) →
    s.frameClock.toNat < 228 → (∀ ch : Fin 4, (s.dmaCtl ch).getLsbD 15 = false) → s.deliverable 1 = true →
    mask.getLsbD 1 = true →
    ∃ t u, exec (.haltuntil mask) s = .next t ∧ step t = .next u ∧ u.kont = s.kont ∧ u.waits.length = s.waits.length ∧
      u.frameClock.toNat = (s.frameClock.toNat + 1) % 228 ∧ u.ime = true ∧ u.pending 1 = false ∧
      u.dispatch = s.dispatch

/-- R133 (b), R413: with the master enable clear a round of a wait that has seen no source of its mask ends where it began,
one line later; so the wait never ends. -/
def Obligations.WaitWithoutMasterEnableGoesOn : Prop :=
  ∀ (s : State) (ks : List Kont) (w : WaitFrame) (ws : List WaitFrame), s.faulted = none → s.kont = .haltLoop :: ks →
    s.waits = w :: ws → w.seen &&& w.mask = 0 → s.extRaises = [] → s.ime = false → s.frameClock.toNat < 228 →
    (∀ ch : Fin 4, (s.dmaCtl ch).getLsbD 15 = false) →
    ∃ t, step s = .next t ∧ t.kont = s.kont ∧ t.waits = s.waits ∧ t.extRaises = [] ∧ t.ime = false ∧
      t.faulted = none ∧ t.frameClock.toNat = (s.frameClock.toNat + 1) % 228 ∧
      ∀ ch : Fin 4, (t.dmaCtl ch).getLsbD 15 = false

/-! ### Invariants -/

/-- Every step keeps every store in its canonical form and the parameters as they are (R2), and so does every fault; a
step that gives a next state leaves `faulted` empty (R57, R372). -/
def Obligations.StepKeepsTheStoresCanonical : Prop :=
  (∀ s : State, s.Canonical → (∀ t, step s = .next t → t.Canonical) ∧
    ∀ f t, step s = .fault f → f.left = some t → t.Canonical) ∧
  ∀ s t : State, step s = .next t → t.cfg = s.cfg ∧ t.faulted = none

/-- R358, R136 (a), R15, R52, R213, R54, R55: every step keeps every reserved bit of every register 0, `FrameClock` and VCOUNT in
0 to 227, the accumulator of a timer with its own ticks below its divisor, both frame buffers 160 rows of 240 colours and
the output line 240 colours. -/
def Obligations.StepKeepsRegistersClockTimersAndFrames : Prop :=
  (∀ s t : State, s.ReservedZero → step s = .next t → t.ReservedZero) ∧
    (∀ s t : State, s.ClockInRange → step s = .next t → t.ClockInRange) ∧
    (∀ s t : State, s.AccInRange → step s = .next t → t.AccInRange) ∧
    ∀ s t : State, s.FramesShaped → step s = .next t → t.FramesShaped

/-- R58, R59, R388: every step keeps one dispatch frame for each running handler and one wait frame for each running wait
(log 1). -/
def Obligations.StepKeepsTheStacksMatched : Prop :=
  ∀ s t : State, s.StacksMatch → step s = .next t → t.StacksMatch

end
end

