-- ==== Sys2Proof/Laws/Store.lean ====
section
/-! SUPPORT. The laws of the sparse stores: a read after a write, and the canonical form. -/

set_option Elab.async false

namespace Sys2Proof

theorem Store.get_insert_same {α : Type} (d : Nat → α) (m : Store α) (a : Nat) (v : α) :
    Store.get d (Store.insert m a v) a = v := by
  induction m with
  | nil => simp [Store.insert, Store.get]
  | cons c m ih =>
    obtain ⟨k, w⟩ := c
    simp only [Store.insert]
    split
    · simp [Store.get]
    · split
      · simp [Store.get]
      · simp only [Store.get]
        split
        · omega
        · exact ih

theorem Store.get_insert_other {α : Type} (d : Nat → α) (m : Store α) {a b : Nat} (v : α) (h : b ≠ a) :
    Store.get d (Store.insert m a v) b = Store.get d m b := by
  induction m with
  | nil => simp [Store.insert, Store.get, Ne.symm h]
  | cons c m ih =>
    obtain ⟨k, w⟩ := c
    simp only [Store.insert]
    split
    · simp [Store.get, Ne.symm h]
    · split
      · subst a; simp [Store.get, Ne.symm h]
      · simp only [Store.get, ih]

theorem Store.get_erase_same {α : Type} (d : Nat → α) (m : Store α) (a : Nat) :
    Store.get d (Store.erase m a) a = d a := by
  induction m with
  | nil => rfl
  | cons c m ih =>
    obtain ⟨k, w⟩ := c
    by_cases h : k = a
    · simp only [Store.erase, List.filter_cons, bne_iff_ne, ne_eq, h, not_true_eq_false, if_false] at ih ⊢; exact ih
    · simp only [Store.erase, List.filter_cons, bne_iff_ne, ne_eq, h, not_false_eq_true, if_true, Store.get, if_false] at ih ⊢
      exact ih

theorem Store.get_erase_other {α : Type} (d : Nat → α) (m : Store α) {a b : Nat} (h : b ≠ a) :
    Store.get d (Store.erase m a) b = Store.get d m b := by
  induction m with
  | nil => rfl
  | cons c m ih =>
    obtain ⟨k, w⟩ := c
    by_cases hk : k = a
    · have : ¬ k = b := by omega
      simp only [Store.erase, List.filter_cons, bne_iff_ne, ne_eq, hk, not_true_eq_false, if_false, Store.get] at ih ⊢
      subst hk; simp only [this, if_false]; exact ih
    · simp only [Store.erase, List.filter_cons, bne_iff_ne, ne_eq, hk, not_false_eq_true, if_true, Store.get] at ih ⊢
      split
      · rfl
      · exact ih

/-- A read after a write of the same key gives the value written. -/
@[simp] theorem Store.get_set_same {α : Type} [DecidableEq α] (d : Nat → α) (m : Store α) (a : Nat) (v : α) :
    Store.get d (Store.set d m a v) a = v := by
  unfold Store.set
  split
  · next h => rw [Store.get_erase_same, h]
  · exact Store.get_insert_same d m a v

/-- A write leaves every other key alone. -/
theorem Store.get_set_other {α : Type} [DecidableEq α] (d : Nat → α) (m : Store α) {a b : Nat} (v : α) (h : b ≠ a) :
    Store.get d (Store.set d m a v) b = Store.get d m b := by
  unfold Store.set
  split
  · exact Store.get_erase_other d m h
  · exact Store.get_insert_other d m v h

/-- Both laws in one. -/
theorem Store.get_set {α : Type} [DecidableEq α] (d : Nat → α) (m : Store α) (a b : Nat) (v : α) :
    Store.get d (Store.set d m a v) b = if b = a then v else Store.get d m b := by
  split
  · next h => subst h; exact Store.get_set_same d m b v
  · next h => exact Store.get_set_other d m v h

theorem Store.wf_erase {α : Type} [DecidableEq α] {d : Nat → α} {m : Store α} (h : Store.wf d m) (a : Nat) :
    Store.wf d (Store.erase m a) :=
  ⟨h.1.filter _, fun c hc => h.2 c (List.mem_of_mem_filter hc)⟩

theorem Store.mem_insert {α : Type} {m : Store α} {a : Nat} {v : α} {c : Nat × α} (h : c ∈ Store.insert m a v) :
    c = (a, v) ∨ c ∈ m := by
  induction m with
  | nil => simpa [Store.insert] using h
  | cons e m ih =>
    obtain ⟨k, w⟩ := e
    simp only [Store.insert] at h
    split at h
    · simpa using h
    · split at h
      · rcases List.mem_cons.mp h with h | h
        · exact .inl h
        · exact .inr (List.mem_cons_of_mem _ h)
      · rcases List.mem_cons.mp h with h | h
        · exact .inr (h ▸ List.mem_cons_self)
        · exact (ih h).imp id (List.mem_cons_of_mem _)

theorem Store.pairwise_insert {α : Type} {m : Store α} (h : m.Pairwise (fun x y => x.1 < y.1)) (a : Nat) (v : α) :
    (Store.insert m a v).Pairwise (fun x y => x.1 < y.1) := by
  induction m with
  | nil => simp [Store.insert]
  | cons e m ih =>
    obtain ⟨k, w⟩ := e
    have hm := List.pairwise_cons.mp h
    simp only [Store.insert]
    split
    · next hlt =>
      refine List.pairwise_cons.mpr ⟨fun c hc => ?_, h⟩
      rcases List.mem_cons.mp hc with rfl | hc
      · exact hlt
      · exact Nat.lt_trans hlt (hm.1 c hc)
    · split
      · next heq => exact List.pairwise_cons.mpr ⟨fun c hc => heq ▸ hm.1 c hc, hm.2⟩
      · next h1 h2 =>
        refine List.pairwise_cons.mpr ⟨fun c hc => ?_, ih hm.2⟩
        rcases Store.mem_insert hc with rfl | hc
        · simp only; omega
        · exact hm.1 c hc

/-- A write keeps the canonical form. -/
theorem Store.wf_set {α : Type} [DecidableEq α] {d : Nat → α} {m : Store α} (h : Store.wf d m) (a : Nat) (v : α) :
    Store.wf d (Store.set d m a v) := by
  unfold Store.set
  split
  · exact Store.wf_erase h a
  · next hv =>
    refine ⟨Store.pairwise_insert h.1 a v, fun c hc => ?_⟩
    rcases Store.mem_insert hc with rfl | hc
    · exact hv
    · exact h.2 c hc

/-- A key below every listed key is not listed. -/
theorem Store.get_of_lt {α : Type} (d : Nat → α) {m : Store α} {a : Nat} (h : ∀ c ∈ m, a < c.1) :
    Store.get d m a = d a := by
  induction m with
  | nil => rfl
  | cons c m ih =>
    have := h c List.mem_cons_self
    simp only [Store.get, show ¬ c.1 = a by omega, if_false]
    exact ih (fun e he => h e (List.mem_cons_of_mem _ he))

/-- A listed key reads as its entry, in a canonical store. -/
theorem Store.get_of_mem {α : Type} (d : Nat → α) {m : Store α} (h : m.Pairwise (fun x y => x.1 < y.1))
    {c : Nat × α} (hc : c ∈ m) : Store.get d m c.1 = c.2 := by
  induction m with
  | nil => simp at hc
  | cons e m ih =>
    have hm := List.pairwise_cons.mp h
    rcases List.mem_cons.mp hc with rfl | hc
    · simp [Store.get]
    · have := hm.1 c hc
      simp only [Store.get, show ¬ e.1 = c.1 by omega, if_false]
      exact ih hm.2 hc

/-- Two canonical stores that read alike are equal: equal memories are equal data. -/
theorem Store.ext_get {α : Type} [DecidableEq α] {d : Nat → α} {m n : Store α} (hm : Store.wf d m) (hn : Store.wf d n)
    (h : ∀ a, Store.get d m a = Store.get d n a) : m = n := by
  induction m generalizing n with
  | nil =>
    cases n with
    | nil => rfl
    | cons c n =>
      exact absurd ((Store.get_of_mem d hn.1 List.mem_cons_self).symm.trans (h c.1).symm) (hn.2 c List.mem_cons_self)
  | cons c m ih =>
    have pm := List.pairwise_cons.mp hm.1
    cases n with
    | nil =>
      exact absurd ((Store.get_of_mem d hm.1 List.mem_cons_self).symm.trans (h c.1)) (hm.2 c List.mem_cons_self)
    | cons e n =>
      have pn := List.pairwise_cons.mp hn.1
      have hk : c.1 = e.1 := by
        rcases Nat.lt_trichotomy c.1 e.1 with hlt | heq | hgt
        · have h1 : Store.get d (e :: n) c.1 = d c.1 := Store.get_of_lt d (fun x hx => by
            rcases List.mem_cons.mp hx with rfl | hx
            · exact hlt
            · exact Nat.lt_trans hlt (pn.1 x hx))
          exact absurd ((Store.get_of_mem d hm.1 List.mem_cons_self).symm.trans ((h c.1).trans h1))
            (hm.2 c List.mem_cons_self)
        · exact heq
        · have h1 : Store.get d (c :: m) e.1 = d e.1 := Store.get_of_lt d (fun x hx => by
            rcases List.mem_cons.mp hx with rfl | hx
            · exact hgt
            · exact Nat.lt_trans hgt (pm.1 x hx))
          exact absurd ((Store.get_of_mem d hn.1 List.mem_cons_self).symm.trans ((h e.1).symm.trans h1))
            (hn.2 e List.mem_cons_self)
      have hce : c = e := Prod.ext hk (by
        have h1 := Store.get_of_mem d hm.1 (c := c) List.mem_cons_self
        have h2 := Store.get_of_mem d hn.1 (c := e) List.mem_cons_self
        rw [← h1, ← h2, hk]; exact h e.1)
      subst hce
      congr 1
      refine ih ⟨pm.2, fun x hx => hm.2 x (List.mem_cons_of_mem _ hx)⟩
        ⟨pn.2, fun x hx => hn.2 x (List.mem_cons_of_mem _ hx)⟩ (fun a => ?_)
      by_cases ha : c.1 = a
      · subst ha; rw [Store.get_of_lt d pm.1, Store.get_of_lt d pn.1]
      · have := h a
        rw [show c = (c.1, c.2) from rfl] at this
        simpa only [Store.get, ha, if_false] using this

/-! ### Runs of bytes -/

/-- A write of `n` bytes keeps the canonical form. -/
theorem writeLE_wf {d : Nat → Byte} {m : Memory} (h : Memory.wf d m) (n a v : Nat) : Memory.wf d (writeLE d n m a v) := by
  induction n generalizing m a v with
  | zero => exact h
  | succ n ih => exact ih (Store.wf_set h a _) _ _

/-- A write of `n` bytes leaves every byte outside them alone. -/
theorem get_writeLE_outside (d : Nat → Byte) (n : Nat) (m : Memory) (a v b : Nat) (h : b < a ∨ a + n ≤ b) :
    Store.get d (writeLE d n m a v) b = Store.get d m b := by
  induction n generalizing m a v with
  | zero => rfl
  | succ n ih =>
    rw [writeLE, ih _ _ _ (by omega)]
    exact Store.get_set_other d m _ (by omega)

/-- The byte at offset `i` of a write of `n` bytes. -/
theorem get_writeLE_inside (d : Nat → Byte) (n : Nat) (m : Memory) (a v i : Nat) (h : i < n) :
    Store.get d (writeLE d n m a v) (a + i) = BitVec.ofNat 8 (v / 256 ^ i) := by
  induction n generalizing m a v i with
  | zero => omega
  | succ n ih =>
    rw [writeLE]
    cases i with
    | zero =>
      rw [get_writeLE_outside _ _ _ _ _ _ (by omega)]
      simp
    | succ i =>
      rw [show a + (i + 1) = (a + 1) + i by omega, ih _ _ _ _ (by omega)]
      rw [Nat.div_div_eq_div_mul, Nat.pow_succ, Nat.mul_comm]

/-- A little-endian read depends on its bytes only. -/
theorem readLE_congr {f g : Nat → Byte} (n a : Nat) (h : ∀ i < n, f (a + i) = g (a + i)) : readLE f n a = readLE g n a := by
  induction n generalizing a with
  | zero => rfl
  | succ n ih =>
    have h0 : f a = g a := by simpa using h 0 (by omega)
    rw [readLE, readLE, h0, ih (a + 1) (fun i hi => by
      have := h (i + 1) (by omega)
      rwa [show a + (i + 1) = a + 1 + i by omega] at this)]

theorem readLE_lt (f : Nat → Byte) (n a : Nat) : readLE f n a < 256 ^ n := by
  induction n generalizing a with
  | zero => simp [readLE]
  | succ n ih =>
    have h1 := ih (a + 1)
    have h2 := (f a).isLt
    rw [readLE, Nat.pow_succ]
    omega

/-- A read of `n` bytes after a write of them gives the value's low `n` bytes. -/
theorem readLE_writeLE (d : Nat → Byte) (n : Nat) (m : Memory) (a v : Nat) :
    readLE (Store.get d (writeLE d n m a v)) n a = v % 256 ^ n := by
  induction n generalizing m a v with
  | zero => simp [readLE, Nat.mod_one]
  | succ n ih =>
    rw [readLE, writeLE, ih, get_writeLE_outside _ _ _ _ _ _ (by omega)]
    simp only [Store.get_set_same, BitVec.toNat_ofNat]
    exact (show 256 ^ (n + 1) = 256 * 256 ^ n by rw [Nat.pow_succ, Nat.mul_comm]) ▸ Nat.mod_mul.symm

end Sys2Proof
end

