-- ==== Sys2Proof/Laws/State.lean ====
section
/-! SUPPORT. What each reader of the state gives after each named update, so that no proof unfolds a record update.
(The field lemmas themselves are generated beside the updates, in Machine/Ops.lean.) -/

set_option Elab.async false

namespace Sys2Proof

@[simp] theorem Four.get_set_same {α : Type} (f : Four α) (i : Fin 4) (v : α) : (f.set i v).get i = v := by
  fin_cases i <;> rfl

theorem Four.get_set_other {α : Type} (f : Four α) {i j : Fin 4} (v : α) (h : j ≠ i) : (f.set i v).get j = f.get j := by
  fin_cases i <;> fin_cases j <;> first | rfl | exact absurd rfl h

theorem Four.get_set {α : Type} (f : Four α) (i j : Fin 4) (v : α) :
    (f.set i v).get j = if j = i then v else f.get j := by
  split
  · next h => subst h; exact Four.get_set_same f j v
  · next h => exact Four.get_set_other f v h

/-- Four things are equal when they agree on every channel. -/
theorem Four.ext_get {α : Type} {f g : Four α} (h : ∀ i, f.get i = g.get i) : f = g := by
  cases f; cases g
  have h0 := h 0; have h1 := h 1; have h2 := h 2; have h3 := h 3
  simp only [Four.get] at h0 h1 h2 h3
  simp [h0, h1, h2, h3]

/-- The bits of a word with one bit set. -/
theorem withBit_getLsbD {w : Nat} (v : BitVec w) (i j : Nat) (b : Bool) :
    (withBit v i b).getLsbD j = if j = i ∧ j < w then b else v.getLsbD j := by
  have hbit : ∀ k, k < w → ((1#w) <<< i).getLsbD k = decide (k = i) := by
    intro k hk
    rw [BitVec.getLsbD_shiftLeft, BitVec.getLsbD_one]
    by_cases h : k = i
    · subst h; simp [hk]; omega
    · by_cases h2 : k < i
      · simp [hk, h2, h]
      · have : k - i ≠ 0 := by omega
        simp [hk, h, this]
  by_cases hw : j < w
  · unfold withBit
    cases b <;>
      simp only [if_true, if_false, Bool.false_eq_true, BitVec.getLsbD_or, BitVec.getLsbD_and, BitVec.getLsbD_not,
        hbit j hw, hw, and_true, decide_true, Bool.true_and] <;>
      by_cases h : j = i <;> simp [h]
  · simp only [hw, and_false, if_false]
    rw [BitVec.getLsbD_of_ge _ _ (Nat.le_of_not_lt hw), BitVec.getLsbD_of_ge _ _ (Nat.le_of_not_lt hw)]

/-- The same for a bit inside the word. -/
theorem withBit_getLsbD_lt {w : Nat} {v : BitVec w} {i j : Nat} {b : Bool} (hi : i < w) :
    (withBit v i b).getLsbD j = if j = i then b else v.getLsbD j := by
  rw [withBit_getLsbD]
  by_cases h : j = i
  · subst h; simp [hi]
  · simp [h]

namespace Machine

variable (s : State)

/-! ### The registers -/

@[simp] theorem State.x_setReg_same (o : Nat) (v : Half) : (s.setReg o v).x o = v := by
  simp [State.x, Store.get_set_same]

theorem State.x_setReg_other {o p : Nat} (v : Half) (h : p ≠ o) : (s.setReg o v).x p = s.x p := by
  simp [State.x, Store.get_set_other _ _ _ h]

theorem State.x_setReg (o p : Nat) (v : Half) : (s.setReg o v).x p = if p = o then v else s.x p := by
  simp [State.x, Store.get_set]

theorem State.x_setRegBit (o i p : Nat) (b : Bool) :
    (s.setRegBit o i b).x p = if p = o then withBit (s.x o) i b else s.x p := by
  simp only [State.setRegBit, State.x_setReg]

theorem State.x_setIme (b : Bool) (p : Nat) :
    (s.setIme b).x p = if p = Reg.ime then withBit (s.x Reg.ime) 0 b else s.x p := by
  simp only [State.setIme, State.x_setRegBit]

theorem State.x_setReg32 (o p : Nat) (v : Word) :
    (s.setReg32 o v).x p = if p = o + 2 then (v >>> 16).setWidth 16 else if p = o then v.setWidth 16 else s.x p := by
  simp only [State.setReg32, State.x_setReg]

/-- A 32-bit register reads as it was written. -/
theorem State.x32_setReg32_same (o : Nat) (v : Word) : (s.setReg32 o v).x32 o = v := by
  simp only [State.x32, State.x_setReg32, if_pos, show ¬ o = o + 2 by omega, if_false]
  apply BitVec.eq_of_getLsbD_eq
  intro i hi
  simp only [BitVec.getLsbD_append, BitVec.getLsbD_setWidth, BitVec.getLsbD_ushiftRight]
  by_cases h : i < 16
  · simp [h]
  · simp [h, show i - 16 < 16 by omega, show 16 + (i - 16) = i by omega]

/-- The master enable as it was written. -/
@[simp] theorem State.ime_setIme (b : Bool) : (s.setIme b).ime = b := by
  simp only [State.ime, State.x_setIme, if_true, withBit_getLsbD]
  exact if_pos (by decide)

/-- The pending bits after one of them is written. -/
theorem State.pending_setRegBit (i j : Fin nIrq) (b : Bool) :
    (s.setRegBit Reg.irf i.val b).pending j = if j = i then b else s.pending j := by
  have hj : j.val < 16 := by have := j.isLt; simp only [nIrq] at this; omega
  simp only [State.pending, State.x_setRegBit, if_true, withBit_getLsbD, hj, and_true, Fin.ext_iff]

@[simp] theorem State.x_writePal (n off v : Nat) (p : Nat) : (s.writePal n off v).x p = s.x p := rfl
@[simp] theorem State.x_writeVram (n off v : Nat) (p : Nat) : (s.writeVram n off v).x p = s.x p := rfl
@[simp] theorem State.x_writeOam (n off v : Nat) (p : Nat) : (s.writeOam n off v).x p = s.x p := rfl
@[simp] theorem State.x_writeExt (n a v : Nat) (p : Nat) : (s.writeExt n a v).x p = s.x p := rfl
@[simp] theorem State.x_setDma (ch : Fin 4) (v : DmaLatch) (p : Nat) : (s.setDma ch v).x p = s.x p := rfl
@[simp] theorem State.x_setTmr (ch : Fin 4) (v : Timer) (p : Nat) : (s.setTmr ch v).x p = s.x p := rfl
@[simp] theorem State.x_setRefs (v : RefLatches) (p : Nat) : (s.setRefs v).x p = s.x p := rfl
@[simp] theorem State.x_setLb (v : LineBuffers) (p : Nat) : (s.setLb v).x p = s.x p := rfl
@[simp] theorem State.x_setResult (v : Result) (p : Nat) : (s.setResult v).x p = s.x p := rfl
@[simp] theorem State.x_setDispatch (v : List DispatchFrame) (p : Nat) : (s.setDispatch v).x p = s.x p := rfl
@[simp] theorem State.x_setWaits (v : List WaitFrame) (p : Nat) : (s.setWaits v).x p = s.x p := rfl
@[simp] theorem State.x_setHost (v : List HostEvent) (p : Nat) : (s.setHost v).x p = s.x p := rfl
@[simp] theorem State.x_setKont (v : List Kont) (p : Nat) : (s.setKont v).x p = s.x p := rfl
@[simp] theorem State.x_afterFault (v : FaultCode) (p : Nat) : (s.afterFault v).x p = s.x p := rfl
@[simp] theorem State.x_useFree (p : Nat) : s.useFree.x p = s.x p := rfl

/-! ### The palette -/

@[simp] theorem State.palByte_setReg (o : Nat) (v : Half) (p : Nat) : (s.setReg o v).palByte p = s.palByte p := rfl
@[simp] theorem State.palByte_writeVram (n off v : Nat) (p : Nat) : (s.writeVram n off v).palByte p = s.palByte p := rfl
@[simp] theorem State.palByte_writeOam (n off v : Nat) (p : Nat) : (s.writeOam n off v).palByte p = s.palByte p := rfl
@[simp] theorem State.palByte_writeExt (n a v : Nat) (p : Nat) : (s.writeExt n a v).palByte p = s.palByte p := rfl
@[simp] theorem State.palByte_setDma (ch : Fin 4) (v : DmaLatch) (p : Nat) : (s.setDma ch v).palByte p = s.palByte p := rfl
@[simp] theorem State.palByte_setTmr (ch : Fin 4) (v : Timer) (p : Nat) : (s.setTmr ch v).palByte p = s.palByte p := rfl
@[simp] theorem State.palByte_setRefs (v : RefLatches) (p : Nat) : (s.setRefs v).palByte p = s.palByte p := rfl
@[simp] theorem State.palByte_setLb (v : LineBuffers) (p : Nat) : (s.setLb v).palByte p = s.palByte p := rfl
@[simp] theorem State.palByte_setResult (v : Result) (p : Nat) : (s.setResult v).palByte p = s.palByte p := rfl
@[simp] theorem State.palByte_setDispatch (v : List DispatchFrame) (p : Nat) : (s.setDispatch v).palByte p = s.palByte p := rfl
@[simp] theorem State.palByte_setWaits (v : List WaitFrame) (p : Nat) : (s.setWaits v).palByte p = s.palByte p := rfl
@[simp] theorem State.palByte_setHost (v : List HostEvent) (p : Nat) : (s.setHost v).palByte p = s.palByte p := rfl
@[simp] theorem State.palByte_setKont (v : List Kont) (p : Nat) : (s.setKont v).palByte p = s.palByte p := rfl
@[simp] theorem State.palByte_afterFault (v : FaultCode) (p : Nat) : (s.afterFault v).palByte p = s.palByte p := rfl
@[simp] theorem State.palByte_useFree (p : Nat) : s.useFree.palByte p = s.palByte p := rfl
@[simp] theorem State.palByte_setRegBit (o i : Nat) (b : Bool) (p : Nat) : (s.setRegBit o i b).palByte p = s.palByte p := rfl
@[simp] theorem State.palByte_setReg32 (o : Nat) (v : Word) (p : Nat) : (s.setReg32 o v).palByte p = s.palByte p := rfl
@[simp] theorem State.palByte_setIme (b : Bool) (p : Nat) : (s.setIme b).palByte p = s.palByte p := rfl

theorem State.palByte_writePal_outside (n off v p : Nat) (h : p < off ∨ off + n ≤ p) :
    (s.writePal n off v).palByte p = s.palByte p :=
  get_writeLE_outside s.palInit n s.pal off v p h

theorem State.palByte_writePal_inside (n off v i : Nat) (h : i < n) :
    (s.writePal n off v).palByte (off + i) = BitVec.ofNat 8 (v / 256 ^ i) :=
  get_writeLE_inside s.palInit n s.pal off v i h

/-! ### Video memory -/

@[simp] theorem State.vramByte_setReg (o : Nat) (v : Half) (p : Nat) : (s.setReg o v).vramByte p = s.vramByte p := rfl
@[simp] theorem State.vramByte_writePal (n off v : Nat) (p : Nat) : (s.writePal n off v).vramByte p = s.vramByte p := rfl
@[simp] theorem State.vramByte_writeOam (n off v : Nat) (p : Nat) : (s.writeOam n off v).vramByte p = s.vramByte p := rfl
@[simp] theorem State.vramByte_writeExt (n a v : Nat) (p : Nat) : (s.writeExt n a v).vramByte p = s.vramByte p := rfl
@[simp] theorem State.vramByte_setDma (ch : Fin 4) (v : DmaLatch) (p : Nat) : (s.setDma ch v).vramByte p = s.vramByte p := rfl
@[simp] theorem State.vramByte_setTmr (ch : Fin 4) (v : Timer) (p : Nat) : (s.setTmr ch v).vramByte p = s.vramByte p := rfl
@[simp] theorem State.vramByte_setRefs (v : RefLatches) (p : Nat) : (s.setRefs v).vramByte p = s.vramByte p := rfl
@[simp] theorem State.vramByte_setLb (v : LineBuffers) (p : Nat) : (s.setLb v).vramByte p = s.vramByte p := rfl
@[simp] theorem State.vramByte_setResult (v : Result) (p : Nat) : (s.setResult v).vramByte p = s.vramByte p := rfl
@[simp] theorem State.vramByte_setDispatch (v : List DispatchFrame) (p : Nat) : (s.setDispatch v).vramByte p = s.vramByte p := rfl
@[simp] theorem State.vramByte_setWaits (v : List WaitFrame) (p : Nat) : (s.setWaits v).vramByte p = s.vramByte p := rfl
@[simp] theorem State.vramByte_setHost (v : List HostEvent) (p : Nat) : (s.setHost v).vramByte p = s.vramByte p := rfl
@[simp] theorem State.vramByte_setKont (v : List Kont) (p : Nat) : (s.setKont v).vramByte p = s.vramByte p := rfl
@[simp] theorem State.vramByte_afterFault (v : FaultCode) (p : Nat) : (s.afterFault v).vramByte p = s.vramByte p := rfl
@[simp] theorem State.vramByte_useFree (p : Nat) : s.useFree.vramByte p = s.vramByte p := rfl
@[simp] theorem State.vramByte_setRegBit (o i : Nat) (b : Bool) (p : Nat) : (s.setRegBit o i b).vramByte p = s.vramByte p := rfl
@[simp] theorem State.vramByte_setReg32 (o : Nat) (v : Word) (p : Nat) : (s.setReg32 o v).vramByte p = s.vramByte p := rfl
@[simp] theorem State.vramByte_setIme (b : Bool) (p : Nat) : (s.setIme b).vramByte p = s.vramByte p := rfl

theorem State.vramByte_writeVram_outside (n off v p : Nat) (h : p < off ∨ off + n ≤ p) :
    (s.writeVram n off v).vramByte p = s.vramByte p :=
  get_writeLE_outside s.vramInit n s.vram off v p h

theorem State.vramByte_writeVram_inside (n off v i : Nat) (h : i < n) :
    (s.writeVram n off v).vramByte (off + i) = BitVec.ofNat 8 (v / 256 ^ i) :=
  get_writeLE_inside s.vramInit n s.vram off v i h

/-! ### Object attribute memory -/

@[simp] theorem State.oamByte_setReg (o : Nat) (v : Half) (p : Nat) : (s.setReg o v).oamByte p = s.oamByte p := rfl
@[simp] theorem State.oamByte_writePal (n off v : Nat) (p : Nat) : (s.writePal n off v).oamByte p = s.oamByte p := rfl
@[simp] theorem State.oamByte_writeVram (n off v : Nat) (p : Nat) : (s.writeVram n off v).oamByte p = s.oamByte p := rfl
@[simp] theorem State.oamByte_writeExt (n a v : Nat) (p : Nat) : (s.writeExt n a v).oamByte p = s.oamByte p := rfl
@[simp] theorem State.oamByte_setDma (ch : Fin 4) (v : DmaLatch) (p : Nat) : (s.setDma ch v).oamByte p = s.oamByte p := rfl
@[simp] theorem State.oamByte_setTmr (ch : Fin 4) (v : Timer) (p : Nat) : (s.setTmr ch v).oamByte p = s.oamByte p := rfl
@[simp] theorem State.oamByte_setRefs (v : RefLatches) (p : Nat) : (s.setRefs v).oamByte p = s.oamByte p := rfl
@[simp] theorem State.oamByte_setLb (v : LineBuffers) (p : Nat) : (s.setLb v).oamByte p = s.oamByte p := rfl
@[simp] theorem State.oamByte_setResult (v : Result) (p : Nat) : (s.setResult v).oamByte p = s.oamByte p := rfl
@[simp] theorem State.oamByte_setDispatch (v : List DispatchFrame) (p : Nat) : (s.setDispatch v).oamByte p = s.oamByte p := rfl
@[simp] theorem State.oamByte_setWaits (v : List WaitFrame) (p : Nat) : (s.setWaits v).oamByte p = s.oamByte p := rfl
@[simp] theorem State.oamByte_setHost (v : List HostEvent) (p : Nat) : (s.setHost v).oamByte p = s.oamByte p := rfl
@[simp] theorem State.oamByte_setKont (v : List Kont) (p : Nat) : (s.setKont v).oamByte p = s.oamByte p := rfl
@[simp] theorem State.oamByte_afterFault (v : FaultCode) (p : Nat) : (s.afterFault v).oamByte p = s.oamByte p := rfl
@[simp] theorem State.oamByte_useFree (p : Nat) : s.useFree.oamByte p = s.oamByte p := rfl
@[simp] theorem State.oamByte_setRegBit (o i : Nat) (b : Bool) (p : Nat) : (s.setRegBit o i b).oamByte p = s.oamByte p := rfl
@[simp] theorem State.oamByte_setReg32 (o : Nat) (v : Word) (p : Nat) : (s.setReg32 o v).oamByte p = s.oamByte p := rfl
@[simp] theorem State.oamByte_setIme (b : Bool) (p : Nat) : (s.setIme b).oamByte p = s.oamByte p := rfl

theorem State.oamByte_writeOam_outside (n off v p : Nat) (h : p < off ∨ off + n ≤ p) :
    (s.writeOam n off v).oamByte p = s.oamByte p :=
  get_writeLE_outside s.oamInit n s.oam off v p h

theorem State.oamByte_writeOam_inside (n off v i : Nat) (h : i < n) :
    (s.writeOam n off v).oamByte (off + i) = BitVec.ofNat 8 (v / 256 ^ i) :=
  get_writeLE_inside s.oamInit n s.oam off v i h

/-! ### External memory -/

@[simp] theorem State.extByte_setReg (o : Nat) (v : Half) (p : Nat) : (s.setReg o v).extByte p = s.extByte p := rfl
@[simp] theorem State.extByte_writePal (n off v : Nat) (p : Nat) : (s.writePal n off v).extByte p = s.extByte p := rfl
@[simp] theorem State.extByte_writeVram (n off v : Nat) (p : Nat) : (s.writeVram n off v).extByte p = s.extByte p := rfl
@[simp] theorem State.extByte_writeOam (n off v : Nat) (p : Nat) : (s.writeOam n off v).extByte p = s.extByte p := rfl
@[simp] theorem State.extByte_setDma (ch : Fin 4) (v : DmaLatch) (p : Nat) : (s.setDma ch v).extByte p = s.extByte p := rfl
@[simp] theorem State.extByte_setTmr (ch : Fin 4) (v : Timer) (p : Nat) : (s.setTmr ch v).extByte p = s.extByte p := rfl
@[simp] theorem State.extByte_setRefs (v : RefLatches) (p : Nat) : (s.setRefs v).extByte p = s.extByte p := rfl
@[simp] theorem State.extByte_setLb (v : LineBuffers) (p : Nat) : (s.setLb v).extByte p = s.extByte p := rfl
@[simp] theorem State.extByte_setResult (v : Result) (p : Nat) : (s.setResult v).extByte p = s.extByte p := rfl
@[simp] theorem State.extByte_setDispatch (v : List DispatchFrame) (p : Nat) : (s.setDispatch v).extByte p = s.extByte p := rfl
@[simp] theorem State.extByte_setWaits (v : List WaitFrame) (p : Nat) : (s.setWaits v).extByte p = s.extByte p := rfl
@[simp] theorem State.extByte_setHost (v : List HostEvent) (p : Nat) : (s.setHost v).extByte p = s.extByte p := rfl
@[simp] theorem State.extByte_setKont (v : List Kont) (p : Nat) : (s.setKont v).extByte p = s.extByte p := rfl
@[simp] theorem State.extByte_afterFault (v : FaultCode) (p : Nat) : (s.afterFault v).extByte p = s.extByte p := rfl
@[simp] theorem State.extByte_useFree (p : Nat) : s.useFree.extByte p = s.extByte p := rfl
@[simp] theorem State.extByte_setRegBit (o i : Nat) (b : Bool) (p : Nat) : (s.setRegBit o i b).extByte p = s.extByte p := rfl
@[simp] theorem State.extByte_setReg32 (o : Nat) (v : Word) (p : Nat) : (s.setReg32 o v).extByte p = s.extByte p := rfl
@[simp] theorem State.extByte_setIme (b : Bool) (p : Nat) : (s.setIme b).extByte p = s.extByte p := rfl

theorem State.extByte_writeExt_outside (n off v p : Nat) (h : p < off ∨ off + n ≤ p) :
    (s.writeExt n off v).extByte p = s.extByte p :=
  get_writeLE_outside s.extInit n s.ext off v p h

theorem State.extByte_writeExt_inside (n off v i : Nat) (h : i < n) :
    (s.writeExt n off v).extByte (off + i) = BitVec.ofNat 8 (v / 256 ^ i) :=
  get_writeLE_inside s.extInit n s.ext off v i h

end Machine

end Sys2Proof
end

