-- ==== Sys2Proof/Laws/Registers.lean ====
section
/-! SUPPORT. The register kinds by offset, the write masks, and what may stand in a register's stored halfword. -/

set_option Elab.async false

/-- Every divisor is positive (`43_timers.md` R216). -/
theorem Sys2Proof.TmrCtl.div_pos (sel : Nat) : 0 < TmrCtl.div sel := by unfold TmrCtl.div; split <;> decide

namespace Sys2Proof.Machine

theorem regKind_dispstat {o : Nat} (h : regKind o = .dispstat) : o = Reg.dispstat := by
  unfold regKind at h; split at h <;> first | rfl | cases h

theorem regKind_vcount {o : Nat} (h : regKind o = .vcount) : o = Reg.vcount := by
  unfold regKind at h; split at h <;> first | rfl | cases h

theorem regKind_dmaCntH {o : Nat} {ch : Fin 4} (h : regKind o = .dmaCntH ch) : o = Reg.dmaCntH ch := by
  unfold regKind at h; split at h <;> first | (cases h; rfl) | cases h

theorem regKind_tmrCntH {o : Nat} {ch : Fin 4} (h : regKind o = .tmrCntH ch) : o = Reg.tmrCntH ch := by
  unfold regKind at h; split at h <;> first | (cases h; rfl) | cases h

theorem regKind_tmrCntL {o : Nat} {ch : Fin 4} (h : regKind o = .tmrCntL ch) : o = Reg.tmrCntL ch := by
  unfold regKind at h; split at h <;> first | (cases h; rfl) | cases h

theorem regKind_ie {o : Nat} (h : regKind o = .ie) : o = Reg.ie := by
  unfold regKind at h; split at h <;> first | rfl | cases h

theorem regKind_irf {o : Nat} (h : regKind o = .irf) : o = Reg.irf := by
  unfold regKind at h; split at h <;> first | rfl | cases h

theorem regKind_ime {o : Nat} (h : regKind o = .ime) : o = Reg.ime := by
  unfold regKind at h; split at h <;> first | rfl | cases h

theorem regKind_bgRef {o : Nat} {r : BgRef} (h : regKind o = .bgRef r) : o = Reg.bgref r ∨ o = Reg.bgref r + 2 := by
  unfold regKind at h; split at h <;> first | (cases h; first | exact .inl rfl | exact .inr rfl) | cases h

@[simp] theorem regKind_of_dmaCntH (ch : Fin 4) : regKind (Reg.dmaCntH ch) = .dmaCntH ch := by fin_cases ch <;> rfl
@[simp] theorem regKind_of_tmrCntH (ch : Fin 4) : regKind (Reg.tmrCntH ch) = .tmrCntH ch := by fin_cases ch <;> rfl
@[simp] theorem regKind_of_tmrCntL (ch : Fin 4) : regKind (Reg.tmrCntL ch) = .tmrCntL ch := by fin_cases ch <;> rfl

/-- A halfword with no reserved bit of the register at `o`. -/
abbrev Conforms (o : Nat) (v : Half) : Prop := v &&& ~~~storedMask o = 0

theorem conforms_iff {o : Nat} {v : Half} :
    Conforms o v ↔ ∀ i < 16, v.getLsbD i = true → (storedMask o).getLsbD i = true := by
  constructor
  · intro h i hi hv
    have := congrArg (fun x : Half => x.getLsbD i) h
    simpa [hi, hv, BitVec.getLsbD_eq_getElem] using this
  · intro h
    refine BitVec.eq_of_getLsbD_eq fun i hi => ?_
    cases hv : v.getLsbD i with
    | false => simp [hv]
    | true => simp [hi, h i hi hv]

/-- A masked halfword conforms. -/
theorem conforms_masked {o : Nat} (v : Half) {m : Half} (hm : m &&& ~~~storedMask o = 0) : Conforms o (v &&& m) := by
  rw [Conforms, BitVec.and_assoc, hm]; exact BitVec.and_zero

theorem conforms_or {o : Nat} {a b : Half} (ha : Conforms o a) (hb : Conforms o b) : Conforms o (a ||| b) := by
  rw [conforms_iff] at *
  intro i hi h
  rw [BitVec.getLsbD_or, Bool.or_eq_true] at h
  exact h.elim (ha i hi) (hb i hi)

/-- Setting a bit that is not reserved, or clearing any, keeps a halfword conforming. -/
theorem conforms_withBit {o i : Nat} {v : Half} {b : Bool} (h : Conforms o v)
    (hb : b = true → (storedMask o).getLsbD i = true) : Conforms o (withBit v i b) := by
  rw [conforms_iff] at *
  intro j hj hv
  rw [withBit_getLsbD] at hv
  split at hv
  · next hji => exact hji.1 ▸ hb hv
  · exact h j hj hv

/-- Outside DISPSTAT and VCOUNT what can be stored is what can be written. -/
theorem storedMask_eq {o : Nat} (h1 : o ≠ Reg.dispstat) (h2 : o ≠ Reg.vcount) : storedMask o = writeMask o := by
  simp [storedMask, h1, h2]

/-- A register that is neither VCOUNT nor a timer's control word. -/
abbrev OrdinaryReg (o : Nat) : Prop := o ≠ Reg.vcount ∧ ∀ ch : Fin 4, o ≠ Reg.tmrCntH ch

theorem dma_ordinary (ch : Fin 4) : OrdinaryReg (Reg.dmaSad ch) ∧ OrdinaryReg (Reg.dmaSad ch + 2) ∧
    OrdinaryReg (Reg.dmaDad ch) ∧ OrdinaryReg (Reg.dmaDad ch + 2) ∧ OrdinaryReg (Reg.dmaCntL ch) ∧
    OrdinaryReg (Reg.dmaCntH ch) := by
  revert ch; decide

theorem cntL_mask (ch : Fin 4) : writeMask (Reg.dmaCntL ch) &&& ~~~storedMask (Reg.dmaCntL ch) = 0 := by
  revert ch; decide

theorem storedMask_dmaSad (ch : Fin 4) : storedMask (Reg.dmaSad ch) = 0xFFFF ∧ storedMask (Reg.dmaSad ch + 2) = 0xFFFF := by
  fin_cases ch <;> decide

theorem storedMask_dmaDad (ch : Fin 4) : storedMask (Reg.dmaDad ch) = 0xFFFF ∧ storedMask (Reg.dmaDad ch + 2) = 0xFFFF := by
  fin_cases ch <;> decide

theorem conforms_full {o : Nat} (h : storedMask o = 0xFFFF) (v : Half) : Conforms o v := by
  rw [Conforms, h]; exact BitVec.and_zero

theorem irf_bit (i : Fin nIrq) : (storedMask Reg.irf).getLsbD i.val = true := by revert i; decide
theorem ie_bit (i : Fin nIrq) : (storedMask Reg.ie).getLsbD i.val = true := by revert i; decide
theorem dmaCntH_bit15 (ch : Fin 4) : (storedMask (Reg.dmaCntH ch)).getLsbD 15 = true := by revert ch; decide
theorem tmrCntH_bit7 (ch : Fin 4) : (storedMask (Reg.tmrCntH ch)).getLsbD 7 = true := by revert ch; decide

/-- The control word of a configure conforms. -/
theorem conforms_dmaFlags (ch : Fin 4) (flags : Half) : Conforms (Reg.dmaCntH ch) (dmaFlags ch flags) := by
  refine conforms_or (conforms_masked flags ?_) ?_ <;> revert ch <;> decide

/-- The control word of a start conforms. -/
theorem conforms_withFields {ch : Fin 4} {c : Half} (h : Conforms (Reg.tmrCntH ch) c) (p : BitVec 2) (k q r : Bool) :
    Conforms (Reg.tmrCntH ch) (TmrCtl.withFields c p (k && decide (0 < ch.val)) q r) := by
  refine conforms_withBit (conforms_withBit (conforms_withBit (conforms_withBit (conforms_withBit h ?_) ?_) ?_) ?_) ?_
  · intro _; clear h; revert ch; decide
  · intro _; clear h; revert ch; decide
  · intro hk
    have : 0 < ch.val := by simp at hk; exact hk.2
    clear h hk; revert ch; decide
  · intro _; clear h; revert ch; decide
  · intro _; clear h; revert ch; decide

end Sys2Proof.Machine
end

