-- ==== Sys2Proof/Laws/Dma.lean ====
section
/-! SUPPORT. What one unit, a whole transfer and its bookkeeping can do. -/

set_option Elab.async false

namespace Sys2Proof.Machine

/-- What a DMA write may change. -/
def OnlyWritten (s t : State) : Prop :=
  (∀ c, (t.tmr.get c).counter = (s.tmr.get c).counter ∧ (t.tmr.get c).prescAcc = (s.tmr.get c).prescAcc) ∧
    (∀ o, dmaForbidden o = true → t.x o = s.x o) ∧
    t = { s with
      regs := t.regs, pal := t.pal, vram := t.vram, oam := t.oam, ext := t.ext, refs := t.refs, tmr := t.tmr }

theorem OnlyWritten.refl (s : State) : OnlyWritten s s := ⟨fun _ => ⟨rfl, rfl⟩, fun _ _ => rfl, rfl⟩

theorem OnlyWritten.trans {s t u : State} (h : OnlyWritten s t) (h' : OnlyWritten t u) : OnlyWritten s u := by
  refine ⟨fun c => ⟨(h'.1 c).1.trans (h.1 c).1, (h'.1 c).2.trans (h.1 c).2⟩, fun o ho => (h'.2.1 o ho).trans (h.2.1 o ho), ?_⟩
  rw [h'.2.2, h.2.2]

theorem OnlyWritten.cfg {s t : State} (h : OnlyWritten s t) : t.cfg = s.cfg := by rw [h.2.2]
theorem OnlyWritten.dma {s t : State} (h : OnlyWritten s t) : t.dma = s.dma := by rw [h.2.2]

/-- Plain storage of a halfword that no control register holds. -/
theorem onlyWritten_setReg {s : State} {o : Nat} {v : Half} (h : dmaForbidden o = false) : OnlyWritten s (s.setReg o v) := by
  refine ⟨fun _ => ⟨rfl, rfl⟩, fun p hp => State.x_setReg_other s v (fun e => ?_), rfl⟩
  rw [e, h] at hp; cases hp

theorem onlyWritten_setRefs (s : State) (v : RefLatches) : OnlyWritten s (s.setRefs v) :=
  ⟨fun _ => ⟨rfl, rfl⟩, fun _ _ => rfl, rfl⟩

theorem onlyWritten_storeReg {s : State} {o : Nat} {v : Half} (h : dmaForbidden o = false) :
    OnlyWritten s (storeReg s o v) := by
  unfold storeReg
  split
  · exact .refl s
  · exact onlyWritten_setReg h
  · next r _ =>
    have hr : OnlyWritten (s.setReg o v) (reloadRef (s.setReg o v) r) := by
      simp only [reloadRef]
      cases r <;> exact onlyWritten_setRefs _ _
    exact (onlyWritten_setReg (v := v) h).trans hr
  · next ch _ =>
    refine ⟨fun c => ?_, fun _ _ => rfl, rfl⟩
    rw [State.setTmr_tmr, Four.get_set]
    split
    · next e => subst e; exact ⟨rfl, rfl⟩
    · exact ⟨rfl, rfl⟩
  · exact onlyWritten_setReg h

/-- A unit that may be written is written. -/
theorem dmaWrite_answered (s : State) {a : Word} {unit : Nat} (v : Nat) (h : writeAnswered s.cfg unit a) :
    ∃ t, dmaWrite s a unit v = .ok t ∧ OnlyWritten s t := by
  simp only [dmaWrite]
  split
  · next off hr =>
    obtain ⟨h1, h2⟩ := h.1 off hr
    have hf : (dmaForbidden off || (decide (unit = 4) && dmaForbidden (off + 2))) = false := by
      rw [h1, Bool.false_or]
      by_cases hu : unit = 4
      · simp [h2 hu]
      · simp [hu]
    rw [hf]
    refine ⟨_, rfl, ?_⟩
    simp only [dmaRegWrite]
    split
    · next hu => exact (onlyWritten_storeReg h1).trans (onlyWritten_storeReg (h2 hu))
    · exact onlyWritten_storeReg h1
  · exact ⟨_, rfl, fun _ => ⟨rfl, rfl⟩, fun _ _ => rfl, rfl⟩
  · exact ⟨_, rfl, fun _ => ⟨rfl, rfl⟩, fun _ _ => rfl, rfl⟩
  · exact ⟨_, rfl, fun _ => ⟨rfl, rfl⟩, fun _ _ => rfl, rfl⟩
  · next hr =>
    have : s.extWritable unit (busAddr a unit).toNat = true := by
      simp only [State.extWritable, List.all_eq_true, List.mem_range]
      intro i hi
      obtain ⟨r, hr1, hr2⟩ := h.2 hr i hi
      simp [hr1, hr2]
    rw [if_pos this]
    exact ⟨_, rfl, fun _ => ⟨rfl, rfl⟩, fun _ _ => rfl, rfl⟩

/-- A unit that may be read is read. -/
theorem memRead_answered (s : State) {a : Word} {unit : Nat} (h : readAnswered s.cfg unit a) :
    ∃ v, memRead s a unit = some v := by
  simp only [memRead]
  split
  · exact ⟨_, rfl⟩
  · exact ⟨_, rfl⟩
  · exact ⟨_, rfl⟩
  · exact ⟨_, rfl⟩
  · next hr =>
    have : s.extMapped unit (busAddr a unit).toNat = true := by
      simp only [State.extMapped, List.all_eq_true, List.mem_range]
      exact fun i hi => h hr i hi
    rw [if_pos this]
    exact ⟨_, rfl⟩

/-- The walk from the next address. -/
theorem walk_succ (a : Word) (mode unit k : Nat) : walk (stepAddr a mode unit) mode unit k = walk a mode unit (k + 1) := by
  induction k with
  | zero => rfl
  | succ k ih => rw [walk, ih]; rfl

theorem latchAfter_zero (c : Half) (l : DmaLatch) : latchAfter c l 0 = l := rfl

theorem latchAfter_succ (c : Half) (l : DmaLatch) (n : Nat) :
    latchAfter c (latchAfter c l 1) n = latchAfter c l (n + 1) := by
  simp only [latchAfter, walk, walk_succ]

theorem UnitAllowed.next {cfg : Config} {ch : Fin 4} {c : Half} {l : DmaLatch} {k : Nat}
    (h : UnitAllowed cfg ch c l (k + 1)) : UnitAllowed cfg ch c (latchAfter c l 1) k := by
  obtain ⟨h1, h2, h3⟩ := h
  simp only [← walk_succ] at h1 h2 h3
  exact ⟨h1, h2, h3⟩

/-- A unit that may move is one read, one write and one step of both addresses. -/
theorem dmaUnit_allowed {s : State} {ch : Fin 4} {c : Half} (h : UnitAllowed s.cfg ch c (s.dma.get ch) 0) :
    ∃ v t, memRead s (s.dma.get ch).srcCur (DmaCtl.unit c) = some v ∧
      dmaWrite s (s.dma.get ch).dstCur (DmaCtl.unit c) v = .ok t ∧ OnlyWritten s t ∧
      dmaUnit ch c s = .ok (t.setDma ch (latchAfter c (s.dma.get ch) 1)) := by
  obtain ⟨h1, h2, h3⟩ := h
  obtain ⟨v, hv⟩ := memRead_answered s h2
  obtain ⟨t, ht, hw⟩ := dmaWrite_answered s v h3
  refine ⟨v, t, hv, ht, hw, ?_⟩
  have hrom : (decide (ch.val ≤ 2) && s.cfg.inRom (s.dma.get ch).srcCur) = false := by
    by_cases hc : ch.val ≤ 2
    · have := h1 hc; simp only [walk] at this; simp [this]
    · simp [hc]
  have ht' : dmaWrite s (s.dma.get ch).dstCur (DmaCtl.unit c) v = .ok t := ht
  have hv' : memRead s (s.dma.get ch).srcCur (DmaCtl.unit c) = some v := hv
  simp only [dmaUnit, hrom, hv', ht', Bool.false_eq_true, if_false]
  rfl

/-- What a channel's transfer may change beside its own latches. -/
theorem OnlyWritten.transferred {s t : State} {ch : Fin 4} (h : OnlyWritten s t) (l : DmaLatch) :
    OnlyTransferred ch s (t.setDma ch l) := by
  refine ⟨fun c hc => ?_, h.1, h.2.1, ?_⟩
  · rw [State.setDma_dma, Four.get_set_other _ _ hc, h.dma]
  · exact congrArg (fun u : State => { u with dma := t.dma.set ch l }) h.2.2

theorem OnlyTransferred.refl (ch : Fin 4) (s : State) : OnlyTransferred ch s s :=
  ⟨fun _ _ => rfl, fun _ => ⟨rfl, rfl⟩, fun _ _ => rfl, rfl⟩

theorem OnlyTransferred.trans {ch : Fin 4} {s t u : State} (h : OnlyTransferred ch s t) (h' : OnlyTransferred ch t u) :
    OnlyTransferred ch s u := by
  obtain ⟨h1, h2, h3, h4⟩ := h
  obtain ⟨g1, g2, g3, g4⟩ := h'
  refine ⟨fun c hc => (g1 c hc).trans (h1 c hc), fun c => ⟨(g2 c).1.trans (h2 c).1, (g2 c).2.trans (h2 c).2⟩,
    fun o ho => (g3 o ho).trans (h3 o ho), ?_⟩
  rw [g4, h4]

/-- A run of units that may all move: it completes, with both addresses stepped once for each. -/
theorem dmaUnits_allowed (n : Nat) {s : State} {ch : Fin 4} {c : Half}
    (h : ∀ k < n, UnitAllowed s.cfg ch c (s.dma.get ch) k) :
    ∃ t, dmaUnits ch c n s = .ok t ∧ t.dma.get ch = latchAfter c (s.dma.get ch) n ∧ OnlyTransferred ch s t := by
  induction n generalizing s with
  | zero => exact ⟨s, rfl, rfl, .refl ch s⟩
  | succ n ih =>
    obtain ⟨v, t, _, _, hw, hu⟩ := dmaUnit_allowed (h 0 (by omega))
    have hcfg : (t.setDma ch (latchAfter c (s.dma.get ch) 1)).cfg = s.cfg := hw.cfg
    have hl : (t.setDma ch (latchAfter c (s.dma.get ch) 1)).dma.get ch = latchAfter c (s.dma.get ch) 1 := by simp
    obtain ⟨u, hu1, hu2, hu3⟩ := ih (s := t.setDma ch (latchAfter c (s.dma.get ch) 1)) (fun k hk => by
      rw [hcfg, hl]; exact (h (k + 1) (by omega)).next)
    refine ⟨u, ?_, ?_, (hw.transferred _).trans hu3⟩
    · simp only [dmaUnits, hu, hu1]
    · rw [hu2, hl, latchAfter_succ]

/-- A run of units that may move, and then more. -/
theorem dmaUnits_add (k n : Nat) {s t : State} {ch : Fin 4} {c : Half} (h : dmaUnits ch c k s = .ok t) :
    dmaUnits ch c (k + n) s = dmaUnits ch c n t := by
  induction k generalizing s with
  | zero => cases h; rw [Nat.zero_add]
  | succ k ih =>
    rw [Nat.succ_add]
    rw [dmaUnits] at h ⊢
    split at h
    · cases h
    · exact ih h

/-- A computed test that a unit may move. -/
def unitChecked (cfg : Config) (ch : Fin 4) (c : Half) (l : DmaLatch) (k : Nat) : Bool :=
  let src := busAddr (walk l.srcCur (DmaCtl.srcMode c) (DmaCtl.unit c) k) (DmaCtl.unit c)
  let dst := busAddr (walk l.dstCur (DmaCtl.dstMode c) (DmaCtl.unit c) k) (DmaCtl.unit c)
  !(decide (ch.val ≤ 2) && cfg.inRom (walk l.srcCur (DmaCtl.srcMode c) (DmaCtl.unit c) k)) &&
    (match cfg.route src with
      | .ext => (List.range (DmaCtl.unit c)).all (fun i => (cfg.rangeOf (src.toNat + i)).isSome)
      | _ => true) &&
    match cfg.route dst with
    | .reg off => !dmaForbidden off && !(decide (DmaCtl.unit c = 4) && dmaForbidden (off + 2))
    | .ext => (List.range (DmaCtl.unit c)).all (fun i => (cfg.rangeOf (dst.toNat + i)).any (fun r => r.writable))
    | _ => true

theorem unitAllowed_of_checked {cfg : Config} {ch : Fin 4} {c : Half} {l : DmaLatch} {k : Nat}
    (h : unitChecked cfg ch c l k = true) : UnitAllowed cfg ch c l k := by
  simp only [unitChecked, Bool.and_eq_true, Bool.not_eq_true', Bool.and_eq_false_imp, decide_eq_true_eq] at h
  obtain ⟨⟨h1, h2⟩, h3⟩ := h
  refine ⟨h1, fun he i hi => ?_, fun off ho => ?_, fun he i hi => ?_⟩
  · rw [he] at h2
    exact List.all_eq_true.mp h2 i (List.mem_range.mpr hi)
  · rw [ho] at h3
    simp only [Bool.and_eq_true, Bool.not_eq_true', Bool.and_eq_false_imp, decide_eq_true_eq] at h3
    exact h3
  · rw [he] at h3
    have := List.all_eq_true.mp h3 i (List.mem_range.mpr hi)
    rwa [Option.any_eq_true] at this

end Sys2Proof.Machine
end

