-- ==== Sys2Proof/Laws/Fields.lean ====
section
/-! SUPPORT. A bit field by shifting is the same field by dividing. -/

set_option Elab.async false

namespace Sys2Proof.Machine

theorem bitsOf_eq_fieldOf {w : Nat} (v : BitVec w) (hi lo : Nat) : bitsOf v hi lo = fieldOf v lo (hi + 1 - lo) := by
  rw [bitsOf, fieldOf, Nat.shiftRight_eq_div_pow]

theorem bitsOf_lt {w : Nat} (v : BitVec w) (hi lo : Nat) : bitsOf v hi lo < 2 ^ (hi + 1 - lo) :=
  Nat.mod_lt _ (Nat.two_pow_pos _)

end Sys2Proof.Machine
end

