-- ==== Sys2Proof/Laws/Interrupts.lean ====
section
/-! SUPPORT. What a delivery, a raise and the poll can do: one lemma for each way they end. -/

set_option Elab.async false

namespace Sys2Proof.Machine

variable (s : State)

theorem withBit_restore {w : Nat} (v : BitVec w) (i : Nat) (b : Bool) :
    withBit (withBit v i b) i (v.getLsbD i) = v := by
  apply BitVec.eq_of_getLsbD_eq
  intro j hj
  rw [withBit_getLsbD, withBit_getLsbD]
  by_cases h : j = i
  · subst h; simp [hj]
  · simp [h]

theorem withBit_same {w : Nat} (v : BitVec w) (i : Nat) : withBit v i (v.getLsbD i) = v := by
  apply BitVec.eq_of_getLsbD_eq
  intro j hj
  rw [withBit_getLsbD]
  by_cases h : j = i
  · subst h; simp [hj]
  · simp [h]

/-- Raising or clearing a pending bit does not change what may be delivered. -/
@[simp] theorem deliverable_setRegBit_irf (i j : Fin nIrq) (b : Bool) :
    (s.setRegBit Reg.irf i.val b).deliverable j = s.deliverable j := by
  simp only [State.deliverable, State.ime, State.subEnabled, State.x_setRegBit, Reg.ime, Reg.ie, Reg.irf, Reg.dispstat]
  rfl

/-- Nothing is deliverable with the master enable clear. -/
theorem deliverable_of_ime {i : Fin nIrq} (h : s.ime = false) : s.deliverable i = false := by
  simp [State.deliverable, h]

/-- Everything the entry of a delivery does (`41_interrupts.md` R156). -/
theorem deliverEntry_spec (i : Fin nIrq) :
    (∀ o, (deliverEntry s i).x o = if o = Reg.irf then withBit (s.x Reg.irf) i.val false
      else if o = Reg.ime ∧ s.cfg.imeEntryClear = true then withBit (s.x Reg.ime) 0 false else s.x o) ∧
    deliverEntry s i = { s with
      regs := (deliverEntry s i).regs
      waits := recordAck (1#14 <<< i.val) s.waits
      dispatch := { source := i, savedIme := s.ime, touched := false } :: s.dispatch } := by
  have hime : (ackEvent (s.setRegBit Reg.irf i.val false) i).ime = s.ime := by
    show ((s.setRegBit Reg.irf i.val false).x Reg.ime).getLsbD 0 = _
    rw [State.x_setRegBit]; rfl
  have hcfg : ∀ f : DispatchFrame, ((ackEvent (s.setRegBit Reg.irf i.val false) i).setDispatch
      (f :: (ackEvent (s.setRegBit Reg.irf i.val false) i).dispatch)).cfg = s.cfg := fun _ => rfl
  unfold deliverEntry
  simp only [hime, hcfg]
  split
  · next hc =>
    refine ⟨fun o => ?_, rfl⟩
    rw [State.x_setIme]
    show (if o = Reg.ime then withBit ((s.setRegBit Reg.irf i.val false).x Reg.ime) 0 false
      else (s.setRegBit Reg.irf i.val false).x o) = _
    rw [State.x_setRegBit, State.x_setRegBit]
    by_cases h1 : o = Reg.irf
    · subst h1; rfl
    · by_cases h2 : o = Reg.ime
      · subst h2; simp [hc, Reg.ime, Reg.irf]
      · simp [h1, h2]
  · next hc =>
    refine ⟨fun o => ?_, rfl⟩
    show (s.setRegBit Reg.irf i.val false).x o = _
    rw [State.x_setRegBit]
    simp [hc]

/-- A delivery with no handler is complete at once (R156). -/
theorem deliver_absent {i : Fin nIrq} (h : s.cfg.handlerOf i = .absent) :
    ∃ t, deliver s i = .done t ∧ (∀ o, t.x o = if o = Reg.irf then withBit (s.x Reg.irf) i.val false else s.x o) ∧
      t = { s with regs := t.regs, waits := recordAck (1#14 <<< i.val) s.waits } := by
  obtain ⟨hx, he⟩ := deliverEntry_spec s i
  have hcfg : (deliverEntry s i).cfg = s.cfg := by rw [he]
  have hd : (deliverEntry s i).dispatch = { source := i, savedIme := s.ime, touched := false } :: s.dispatch := by rw [he]
  refine ⟨deliverReturn (deliverEntry s i), ?_, ?_, ?_⟩
  · simp only [deliver, hcfg, h]
  · intro o
    simp only [deliverReturn, hd, Bool.false_eq_true, if_false]
    rw [State.x_setIme]
    show (if o = Reg.ime then withBit ((deliverEntry s i).x Reg.ime) 0 s.ime else (deliverEntry s i).x o) = _
    rw [hx, hx]
    by_cases h2 : o = Reg.ime
    · subst h2
      by_cases hc : s.cfg.imeEntryClear = true
      · simp only [if_true, hc, and_self]
        rw [if_neg (by decide), if_neg (by decide)]
        exact withBit_restore (s.x Reg.ime) 0 false
      · rw [if_pos rfl]
        simp only [hc]
        rw [if_neg (by decide), if_neg (by decide)]
        exact withBit_same (s.x Reg.ime) 0
    · simp [h2]
  · have : deliverReturn (deliverEntry s i) =
        { deliverEntry s i with regs := (deliverReturn (deliverEntry s i)).regs, dispatch := s.dispatch } := by
      simp only [deliverReturn, hd]; rfl
    rw [this]; rw [he]

/-- A delivery with a handler stops at the handler's entry (R156). -/
theorem deliver_handler {i : Fin nIrq} (h : s.cfg.handlerOf i ≠ .absent) :
    deliver s i = .susp (deliverEntry s i) [match s.cfg.handlerOf i with
      | .program ops => .handlerProgram ops
      | _ => .handlerReturn] := by
  have hcfg : (deliverEntry s i).cfg = s.cfg := by rw [(deliverEntry_spec s i).2]
  cases hc : s.cfg.handlerOf i with
  | absent => exact absurd hc h
  | program ops => simp only [deliver, hcfg, hc]
  | interactive => simp only [deliver, hcfg, hc]

/-- A raise of a source that is not deliverable sets its pending bit, and that is all (R153). -/
theorem raise_quiet {i : Fin nIrq} (h : s.deliverable i = false) : raise s i = .done (s.setRegBit Reg.irf i.val true) := by
  simp only [raise, deliverable_setRegBit_irf, h]; rfl

/-- A raise of a deliverable source delivers it (R153). -/
theorem raise_deliverable {i : Fin nIrq} (h : s.deliverable i = true) :
    raise s i = deliver (s.setRegBit Reg.irf i.val true) i := by
  simp only [raise, deliverable_setRegBit_irf, h, if_true]

/-- A raise of a source that has no handler always completes: IF and the wait frames may change, nothing else does. -/
theorem raise_absent {i : Fin nIrq} (h : s.cfg.handlerOf i = .absent) :
    ∃ t, raise s i = .done t ∧
      (∀ o, t.x o = if o = Reg.irf then withBit (s.x Reg.irf) i.val (!s.deliverable i) else s.x o) ∧
      t = { s with
        regs := t.regs
        waits := if s.deliverable i = true then recordAck (1#14 <<< i.val) s.waits else s.waits } := by
  cases hd : s.deliverable i with
  | false =>
    refine ⟨_, raise_quiet s hd, fun o => ?_, rfl⟩
    rw [State.x_setRegBit]; rfl
  | true =>
    obtain ⟨t, h1, h2, h3⟩ := deliver_absent (s.setRegBit Reg.irf i.val true) (i := i) h
    refine ⟨t, by rw [raise_deliverable s hd, h1], fun o => ?_, ?_⟩
    · rw [h2, State.x_setRegBit, State.x_setRegBit]
      by_cases ho : o = Reg.irf
      · simp only [ho, if_true, Bool.not_true]
        apply BitVec.eq_of_getLsbD_eq
        intro j hj
        rw [withBit_getLsbD, withBit_getLsbD, withBit_getLsbD]
        by_cases hji : j = i.val
        · obtain rfl := hji; simp [hj]
        · simp [hji]
      · simp [ho]
    · simp only [if_true]
      exact h3.trans rfl

/-! ### The poll -/

/-- What the poll looks for (R158). -/
theorem nextSource_none : s.nextSource = none ↔ ∀ i, ¬(s.pending i = true ∧ s.deliverable i = true) := by
  have hall : ∀ i : Fin nIrq, i ∈ dispatchOrder := by decide
  simp only [State.nextSource, List.find?_eq_none, Bool.and_eq_true]
  exact ⟨fun h i => h i (hall i), fun h i _ => h i⟩

theorem nextSource_some {i : Fin nIrq} (h : s.nextSource = some i) : s.pending i = true ∧ s.deliverable i = true := by
  have := List.find?_some h
  simpa using this

theorem dispatchLoop_none (n : Nat) (h : s.nextSource = none) : dispatchLoop n s = .done s := by
  cases n with
  | zero => rfl
  | succ n => simp only [dispatchLoop, h]

theorem recordAck_zero (ws : List WaitFrame) : recordAck 0 ws = ws := by simp [recordAck]

/-- A source operand from `N_IRQ` up is the fault `InvalidSource` (`30_encoding.md` R108). -/
theorem withSource_fault {i : Byte} {f : Fin nIrq → Run} (h : s.cfg.irqCount.val ≤ i.toNat) :
    withSource i s f = .fault (raiseFault .invalidSource (i.setWidth 32) s) := by
  simp only [withSource, Nat.not_lt_of_le h, dif_neg, not_false_eq_true]

/-- A source operand below `N_IRQ` is that source. -/
theorem withSource_lt {i : Byte} {j : Fin nIrq} {f : Fin nIrq → Run} (h : i.toNat < s.cfg.irqCount.val)
    (hj : i.toNat = j.val) : withSource i s f = f j := by
  unfold withSource
  rw [dif_pos h]
  exact congrArg f (Fin.ext hj)

theorem withSource_ofNat {i : Fin nIrq} {f : Fin nIrq → Run} (hi : i.val < s.cfg.irqCount.val) :
    withSource (BitVec.ofNat 8 i.val) s f = f i := by
  have h := i.isLt
  have e : nIrq = 14 := rfl
  have h2 : (BitVec.ofNat 8 i.val).toNat = i.val := by rw [BitVec.toNat_ofNat]; exact Nat.mod_eq_of_lt (by omega)
  exact withSource_lt s (by omega) h2

/-- How many sources the poll has to deliver. -/
def pollCount (s : State) : Nat := ((List.finRange nIrq).filter (fun i => s.pending i && s.deliverable i)).length

/-- The bits of the mask of one source. -/
theorem getLsbD_one_shift (i : Fin nIrq) (j : Nat) : (1#14 <<< i.val).getLsbD j = decide (j = i.val) := by
  have hi := i.isLt; simp only [nIrq] at hi
  rw [BitVec.getLsbD_shiftLeft, BitVec.getLsbD_one]
  by_cases h : j = i.val
  · subst h; simp [hi]
  · by_cases hl : j < i.val
    · simp [hl, h]
    · have : j - i.val ≠ 0 := by omega
      simp [this, h]

/-- Recording one event and then the others of `m` records `m`. -/
theorem recordAck_rest (m : BitVec 14) (i : Fin nIrq) (ws : List WaitFrame) (hm : m.getLsbD i.val = true) :
    recordAck (m &&& ~~~(1#14 <<< i.val)) (recordAck (1#14 <<< i.val) ws) = recordAck m ws := by
  simp only [recordAck, List.map_map]
  apply List.map_congr_left; intro w _
  simp only [Function.comp, WaitFrame.mk.injEq, true_and]
  apply BitVec.eq_of_getLsbD_eq; intro j hj
  simp only [BitVec.getLsbD_or, BitVec.getLsbD_and, BitVec.getLsbD_not, hj, decide_true, Bool.true_and,
    getLsbD_one_shift]
  by_cases h : j = i.val
  · subst h; simp [hm]
  · simp [h]

/-- One turn of the poll that finds a source without a handler: that source is gone from the pending ones and recorded. -/
theorem poll_turn {i : Fin nIrq} (hp : s.pending i = true) (hd : s.deliverable i = true)
    (ha : s.cfg.handlerOf i = .absent) :
    ∃ u, deliver s i = .done u ∧ (∀ j, u.pending j = if j = i then false else s.pending j) ∧
      (∀ j, u.deliverable j = s.deliverable j) ∧ pollCount u < pollCount s ∧
      SameRegsBut [Reg.irf] s u ∧ u = { s with regs := u.regs, waits := recordAck (1#14 <<< i.val) s.waits } := by
  obtain ⟨u, hu1, hu2, hu3⟩ := deliver_absent s ha
  have hi : i.val < 16 := by have h14 := i.isLt; have e14 : nIrq = 14 := rfl; omega
  have hdel : ∀ j, u.deliverable j = s.deliverable j := by
    intro j; simp only [State.deliverable, State.ime, State.subEnabled, hu2]; rfl
  have hpen : ∀ j, u.pending j = if j = i then false else s.pending j := by
    intro j; simp only [State.pending, hu2, if_true]; rw [withBit_getLsbD_lt hi]; simp [Fin.ext_iff]
  refine ⟨u, hu1, hpen, hdel, ?_, fun o ho => by rw [hu2, if_neg (by simpa using ho)], hu3⟩
  unfold pollCount
  have hf : (List.finRange nIrq).filter (fun j => u.pending j && u.deliverable j) =
      ((List.finRange nIrq).filter (fun j => s.pending j && s.deliverable j)).filter (fun j => j ≠ i) := by
    rw [List.filter_filter]; apply List.filter_congr; intro j _; rw [hpen, hdel]; by_cases h : j = i <;> simp [h]
  rw [hf]
  exact List.length_filter_lt_length_iff_exists.mpr ⟨i, by simp [hp, hd], by simp⟩

/-- What the poll leaves where no source that is pending and deliverable has a handler: exactly the deliverable sources are
gone from the pending ones, each recorded in every wait frame. -/
def Polled (s t : State) : Prop :=
  (∀ i, t.pending i = (s.pending i && !s.deliverable i)) ∧ SameRegsBut [Reg.irf] s t ∧
  (∀ m : BitVec 14, (∀ j : Fin nIrq, m.getLsbD j.val = (s.pending j && s.deliverable j)) → t.waits = recordAck m s.waits) ∧
  t = { s with regs := t.regs, waits := t.waits }

theorem polled_none (hn : s.nextSource = none) : Polled s s := by
  have hn := (nextSource_none s).mp hn
  refine ⟨fun i => ?_, fun _ _ => rfl, fun m hm => ?_, rfl⟩
  · have := hn i; revert this; cases s.pending i <;> cases s.deliverable i <;> simp
  · have : m = 0 := by
      apply BitVec.eq_of_getLsbD_eq; intro j hj
      have h2 := hn ⟨j, hj⟩
      rw [hm ⟨j, hj⟩]; revert h2; cases s.pending ⟨j, hj⟩ <;> cases s.deliverable ⟨j, hj⟩ <;> simp
    rw [this, recordAck_zero]

/-- The poll where no source that is pending and deliverable has a handler completes. -/
theorem dispatchLoop_absent (n : Nat) : ∀ s : State,
    (∀ i, s.pending i = true → s.deliverable i = true → s.cfg.handlerOf i = .absent) → pollCount s ≤ n →
    ∃ t, dispatchLoop n s = .done t ∧ Polled s t := by
  induction n with
  | zero =>
    intro s _ hc
    refine ⟨s, rfl, polled_none s ((nextSource_none s).mpr fun i ⟨hp, hd⟩ => ?_)⟩
    have : (List.finRange nIrq).filter (fun i => s.pending i && s.deliverable i) = [] :=
      List.length_eq_zero_iff.mp (by unfold pollCount at hc; omega)
    rw [List.filter_eq_nil_iff] at this
    exact this i (List.mem_finRange i) (by rw [hp, hd]; rfl)
  | succ n ih =>
    intro s ha hc
    cases hn : s.nextSource with
    | none => exact ⟨s, dispatchLoop_none s _ hn, polled_none s hn⟩
    | some i =>
      obtain ⟨hp, hd⟩ := nextSource_some s hn
      obtain ⟨u, hu, hpen, hdel, hlt, hreg, he⟩ := poll_turn s hp hd (ha i hp hd)
      have hcfg : u.cfg = s.cfg := by rw [he]
      obtain ⟨t, t1, t2, t3, t4, t5⟩ := ih u (fun j h1 h2 => by
        rw [hcfg]; rw [hdel] at h2; rw [hpen] at h1
        by_cases h : j = i
        · simp [h] at h1
        · exact ha j (by simpa [h] using h1) h2) (by omega)
      refine ⟨t, by simp only [dispatchLoop, hn, hu, Run.andThen]; exact t1, fun j => ?_,
        fun o ho => by rw [t3 o ho, hreg o ho], fun m hm => ?_, by rw [t5, he]⟩
      · rw [t2, hpen, hdel]; by_cases h : j = i
        · subst h; simp [hp, hd]
        · simp [h]
      · rw [t4 (m &&& ~~~(1#14 <<< i.val)) (fun j => by
          rw [hpen, hdel, BitVec.getLsbD_and, hm j, BitVec.getLsbD_not, getLsbD_one_shift]
          by_cases h : j = i
          · subst h; simp
          · simp [h, Fin.ext_iff.not.mp h, show j.val < 14 from j.isLt]),
          show u.waits = recordAck (1#14 <<< i.val) s.waits by rw [he], recordAck_rest m i _ (by rw [hm i, hp, hd]; rfl)]

/-- The poll that comes to a source `i`, where the pending and deliverable ones before it in the order have no handler: these
are acknowledged and recorded (`u`), then `i` is delivered, with the poll's own position below its handler's. -/
theorem dispatchLoop_first {before after : List (Fin nIrq)} {i : Fin nIrq} (hl : dispatchOrder = before ++ i :: after)
    (n : Nat) : ∀ s : State,
    (∀ j ∈ before, s.pending j = true → s.deliverable j = true → s.cfg.handlerOf j = .absent) →
    s.pending i = true → s.deliverable i = true → pollCount s ≤ n →
    ∃ u n', dispatchLoop n s = (deliver u i).andThen .dispatch (dispatchLoop n') ∧
      (∀ j, u.pending j = (s.pending j && !(s.deliverable j && decide (j ∈ before)))) ∧
      (∀ j, u.deliverable j = s.deliverable j) ∧ SameRegsBut [Reg.irf] s u ∧
      (∀ m : BitVec 14, (∀ j : Fin nIrq, m.getLsbD j.val = (s.pending j && s.deliverable j && decide (j ∈ before))) →
        u.waits = recordAck m s.waits) ∧
      u = { s with regs := u.regs, waits := u.waits } := by
  have hib : i ∉ before := by
    have : dispatchOrder.Nodup := by decide
    rw [hl] at this
    exact fun h => (List.nodup_append.mp this).2.2 i h i (by simp) rfl
  induction n with
  | zero =>
    intro s _ hp hd hc
    have : (List.finRange nIrq).filter (fun i => s.pending i && s.deliverable i) = [] :=
      List.length_eq_zero_iff.mp (by unfold pollCount at hc; omega)
    rw [List.filter_eq_nil_iff] at this
    exact absurd (by rw [hp, hd]; rfl) (this i (List.mem_finRange i))
  | succ n ih =>
    intro s ha hpi hdi hc
    by_cases hb : ∃ j ∈ before, s.pending j = true ∧ s.deliverable j = true
    · obtain ⟨j, hn, hj⟩ : ∃ j, s.nextSource = some j ∧ j ∈ before := by
        unfold State.nextSource
        rw [hl, List.find?_append]
        cases hf : before.find? (fun i => s.pending i && s.deliverable i) with
        | none =>
          obtain ⟨j, hj, h1, h2⟩ := hb
          exact absurd (by rw [h1, h2]; rfl) (List.find?_eq_none.mp hf j hj)
        | some j => exact ⟨j, rfl, List.mem_of_find?_eq_some hf⟩
      obtain ⟨hp, hd⟩ := nextSource_some s hn
      obtain ⟨v, hv, hpen, hdel, hlt, hreg, he⟩ := poll_turn s hp hd (ha j hj hp hd)
      have hij : i ≠ j := fun h => hib (h ▸ hj)
      obtain ⟨u, n', u1, u2, u3, u4, u5, u6⟩ := ih v (fun k hk h1 h2 => by
        rw [show v.cfg = s.cfg by rw [he]]; rw [hdel] at h2; rw [hpen] at h1
        by_cases h : k = j
        · simp [h] at h1
        · exact ha k hk (by simpa [h] using h1) h2) (by rw [hpen, if_neg hij, hpi]) (by rw [hdel, hdi]) (by omega)
      refine ⟨u, n', by simp only [dispatchLoop, hn, hv, Run.andThen]; exact u1, fun k => ?_, fun k => by rw [u3, hdel],
        fun o ho => by rw [u4 o ho, hreg o ho], fun m hm => ?_, by rw [u6, he]⟩
      · rw [u2, hpen, hdel]; by_cases h : k = j
        · subst h; simp [hp, hd, hj]
        · simp [h]
      · rw [u5 (m &&& ~~~(1#14 <<< j.val)) (fun k => by
          rw [hpen, hdel, BitVec.getLsbD_and, hm k, BitVec.getLsbD_not, getLsbD_one_shift]
          by_cases h : k = j
          · subst h; simp
          · simp [h, Fin.ext_iff.not.mp h, show k.val < 14 from k.isLt]),
          show v.waits = recordAck (1#14 <<< j.val) s.waits by rw [he], recordAck_rest m j _ (by rw [hm j, hp, hd]; simpa using hj)]
    · have hn : s.nextSource = some i := by
        unfold State.nextSource
        rw [hl, List.find?_append, List.find?_eq_none.mpr (fun j hj h => hb ⟨j, hj, by simpa using h⟩)]
        simp [hpi, hdi]
      have h0 : ∀ j, (s.pending j && s.deliverable j && decide (j ∈ before)) = false := fun j => by
        cases h1 : s.pending j <;> cases h2 : s.deliverable j <;> simp
        exact fun h => hb ⟨j, h, h1, h2⟩
      refine ⟨s, n, by simp only [dispatchLoop, hn], fun j => ?_, fun _ => rfl, fun _ _ => rfl, fun m hm => ?_, rfl⟩
      · have := h0 j; revert this
        cases s.pending j <;> cases s.deliverable j <;> simp
      · have : m = 0 := by
          apply BitVec.eq_of_getLsbD_eq; intro j hj
          rw [hm ⟨j, hj⟩, h0]; simp
        rw [this, recordAck_zero]

end Sys2Proof.Machine
end

