-- ==== Sys2Proof/Laws/Lines.lean ====
section
/-! SUPPORT. Reading a line buffer at a column: after a background fill, and after a sprite's columns; and what the operations
that may take free values change. -/

set_option Elab.async false

namespace Sys2Proof.Machine

variable (s : State)

/-- A filled background line at a column of the screen. -/
theorem get_fillBg (n : Fin 4) (pixel : Nat → Option Colour) (px : Nat) (h : px < screenW) :
    ((s.fillBg n pixel).lb.bgpix.get n)[px]? = some (pixel px) := by
  show ((s.lb.bgpix.set n ((List.range screenW).map pixel)).get n)[px]? = _
  rw [Four.get_set_same, List.getElem?_map, List.getElem?_range h]; rfl

/-- A fill leaves the other layers. -/
theorem get_fillBg_other (n m : Fin 4) (pixel : Nat → Option Colour) (h : m ≠ n) :
    (s.fillBg n pixel).lb.bgpix.get m = s.lb.bgpix.get m := by
  show (s.lb.bgpix.set n ((List.range screenW).map pixel)).get m = _
  rw [Four.get_set, if_neg h]

/-- `mapSpan` at a column: `f` there if the column is in the span, else the pixel as it was. -/
theorem getElem?_mapSpan {α : Type} (f : Nat → α → α) : ∀ (l : List α) (px skip n i : Nat),
    (mapSpan f px skip n l)[i]? =
      (l[i]?).map (fun a => if skip ≤ i ∧ i < skip + n then f (px + i) a else a)
  | [], px, skip, n, i => by simp [mapSpan]
  | a :: l, px, skip + 1, n, 0 => by simp [mapSpan]
  | a :: l, px, skip + 1, n, i + 1 => by
    have e : px + 1 + i = px + (i + 1) := by omega
    simp only [mapSpan, List.getElem?_cons_succ, getElem?_mapSpan f l, e]
    congr 1; funext b
    by_cases h : skip ≤ i ∧ i < skip + n
    · rw [if_pos h, if_pos (by omega)]
    · rw [if_neg h, if_neg (by omega)]
  | a :: l, px, 0, n + 1, 0 => by simp [mapSpan]
  | a :: l, px, 0, n + 1, i + 1 => by
    have e : px + 1 + i = px + (i + 1) := by omega
    simp only [mapSpan, List.getElem?_cons_succ, getElem?_mapSpan f l, e]
    congr 1; funext b
    by_cases h : 0 ≤ i ∧ i < 0 + n
    · rw [if_pos h, if_pos (by omega)]
    · rw [if_neg h, if_neg (by omega)]
  | a :: l, px, 0, 0, i => by
    simp only [mapSpan]
    rw [show (fun b : α => if 0 ≤ i ∧ i < 0 + 0 then f (px + i) b else b) = id from by
      funext b; rw [if_neg (by omega)]; rfl, Option.map_id, id]

@[simp] theorem length_mapSpan {α : Type} (f : Nat → α → α) : ∀ (l : List α) (px skip n : Nat),
    (mapSpan f px skip n l).length = l.length
  | [], _, _, _ => by simp [mapSpan]
  | a :: l, px, skip + 1, n => by simp [mapSpan, length_mapSpan f l]
  | a :: l, px, 0, n + 1 => by simp [mapSpan, length_mapSpan f l]
  | a :: l, px, 0, 0 => by simp [mapSpan]

/-! ### Operations that may take free values (log 27) -/

theorem bgText_only (n : Fin 4) (y : Nat) : OnlyLineBuffersOrFree s (bgText s n y) := by
  unfold bgText; split <;> exact ⟨⟨fun _ => rfl, fun _ => rfl, fun _ => rfl, fun _ => rfl⟩, rfl⟩

theorem bgAffine_only (n : Fin 4) (y : Nat) : OnlyLineBuffersOrFree s (bgAffine s n y) := by
  unfold bgAffine; split <;> exact ⟨⟨fun _ => rfl, fun _ => rfl, fun _ => rfl, fun _ => rfl⟩, rfl⟩

theorem objLine_only (y : Nat) : OnlyLineBuffersOrFree s (objLine s y) := by
  unfold objLine; split <;> exact ⟨⟨fun _ => rfl, fun _ => rfl, fun _ => rfl, fun _ => rfl⟩, rfl⟩

theorem offScreen_iff (px y : Nat) : offScreen px y = true ↔ screenW ≤ px ∨ screenH ≤ y := by simp [offScreen]

/-- On the screen nothing is free. -/
theorem useFreeOff_on {px y : Nat} (hx : px < screenW) (hy : y < screenH) : s.useFreeOff px y = s := by
  rw [State.useFreeOff, if_neg (by rw [offScreen_iff]; omega)]

/-- Past the screen or not, only the count of free values may differ. -/
theorem useFreeOff_only (px y : Nat) :
    s.useFreeOff px y = { s with freeCount := (s.useFreeOff px y).freeCount } := by
  unfold State.useFreeOff; split <;> rfl

@[simp] theorem useFreeOff_lb (px y : Nat) : (s.useFreeOff px y).lb = s.lb := by
  unfold State.useFreeOff; split <;> rfl

@[simp] theorem useFreeOff_result (px y : Nat) : (s.useFreeOff px y).result = s.result := by
  unfold State.useFreeOff; split <;> rfl

@[simp] theorem useFreeOff_x (px y o : Nat) : (s.useFreeOff px y).x o = s.x o := by
  unfold State.useFreeOff; split <;> rfl

@[simp] theorem useFreeOff_pal16 (px y i : Nat) : (s.useFreeOff px y).pal16 i = s.pal16 i := by
  unfold State.useFreeOff; split <;> rfl

theorem bgAt_on (n : Fin 4) {px : Nat} (h : px < screenW) : s.bgAt n px = (s.lb.bgpix.get n).getD px none := if_pos h

theorem objAt_on (p : Fin 4) {px : Nat} (h : px < screenW) : s.objAt p px = (s.lb.objpix.get p).getD px none := if_pos h

/-- On the screen the effect depends on the line buffers' layers, the registers and the palette only. -/
theorem effectColour_congr {s t : State} (wm : BitVec 6) (order : List Layer) {px : Nat} (hp : px < screenW)
    (hb : t.lb.bgpix = s.lb.bgpix) (ho : t.lb.objpix = s.lb.objpix) (hx : ∀ o, t.x o = s.x o)
    (hc : ∀ i, t.pal16 i = s.pal16 i) : t.effectColour order wm px = s.effectColour order wm px := by
  have ev : t.visible wm px = s.visible wm px := by
    funext l; cases l <;> simp only [State.visible, bgAt_on _ _ hp, objAt_on _ _ hp, hb, ho]
  have el : t.layerColour px = s.layerColour px := by
    funext l; cases l <;> simp only [State.layerColour, bgAt_on _ _ hp, objAt_on _ _ hp, hb, ho, hc]
  have es : t.layerSemi px = s.layerSemi px := by
    funext l; cases l <;> simp only [State.layerSemi, objAt_on _ _ hp, ho]
  simp only [State.effectColour, State.effectOf, State.blendWith, State.modeEffect, State.eva, State.evb, State.evy, ev, el,
    es, hx]

/-- A pixel of a sprite bucket on a line the rule states nothing of: one already there stays. -/
theorem bucketFree_stays {p : Fin 4} {px : Nat} {o : ObjPixel} (h : (s.lb.objpix.get p)[px]? = some (some o)) :
    (s.bucketFree p)[px]? = some (some o) := by
  unfold State.bucketFree
  split
  · rw [getElem?_mapSpan, h]; simp
  · exact h

/-- A mark of the object window there: one already there stays. -/
theorem objwinFree_stays {px : Nat} (h : s.lb.objwin[px]? = some true) : s.objwinFree[px]? = some true := by
  unfold State.objwinFree
  split
  · rw [getElem?_mapSpan, h]; simp
  · exact h

end Sys2Proof.Machine
end

