-- ==== Sys2Proof/Laws/PerInstr.lean ====
section
/-! SUPPORT. The instruction family `RoundTrip`: decoding the encoding of a well-formed operation gives it back, with
every operand at every value the encoding admits. One lemma for each constructor. -/

set_option Elab.async false

namespace Sys2Proof

/-! ### The fields of an operand stream -/

@[simp] theorem fieldLow_cons {n : Nat} (v : BitVec n) (r : Nat) : fieldLow n (fieldCons v r) = v := by
  refine BitVec.eq_of_toNat_eq ?_
  rw [fieldLow, fieldCons, BitVec.toNat_ofNat, Nat.add_mul_mod_self_left, Nat.mod_eq_of_lt v.isLt]

@[simp] theorem fieldRest_cons {n : Nat} (v : BitVec n) (r : Nat) : fieldRest n (fieldCons v r) = r := by
  rw [fieldRest, fieldCons, Nat.add_mul_div_left _ _ (Nat.two_pow_pos n), Nat.div_eq_of_lt v.isLt, Nat.zero_add]

theorem fieldCons_mod (v : Byte) (r : Nat) : fieldCons v r % 256 = v.toNat := by
  rw [fieldCons, show (2 : Nat) ^ 8 = 256 by decide, Nat.add_mul_mod_self_left]
  exact Nat.mod_eq_of_lt v.isLt

@[simp] theorem fieldFlag_cons (b : Bool) (r : Nat) : fieldFlag (fieldCons (flagBit b) r) = b := by
  rw [fieldFlag, fieldLow_cons]
  cases b <;> rfl

theorem fieldEnd_zero (i : Instr) : fieldEnd 0 i = .ok i := if_pos rfl

/-- Decoding an encoded port operation is looking its number up in the operation map. -/
theorem decode_encodePort (op : Byte) (r : Nat) : decode (encodePort op r) = decodePort op.toNat r := by
  have h1 := fieldCons_mod op r
  have h2 : fieldCons op r / 256 = r := by
    have := fieldRest_cons op r
    rwa [fieldRest, show (2 : Nat) ^ 8 = 256 by decide] at this
  rw [encodePort, decode, h1, h2]

namespace Laws.RoundTrip

/-- Decoding the encoding gives the operation back. -/
def Statement (i : Instr) : Prop := i.wellFormed = true → decode (encode i) = .ok i

theorem hook_dma (ch : BitVec 2) (w : Half) : decode (.hook (encodeDmaCntH ch) w) = .ok (decodeDmaHook ch w) := by
  have : ∀ ch : BitVec 2, ch = 0 ∨ ch = 1 ∨ ch = 2 ∨ ch = 3 := by decide
  rcases this ch with rfl | rfl | rfl | rfl <;> rfl

theorem hook_tmr (ch : BitVec 2) (w : Half) : decode (.hook (encodeTmrCntH ch) w) = .ok (decodeTmrHook ch w) := by
  have : ∀ ch : BitVec 2, ch = 0 ∨ ch = 1 ∨ ch = 2 ∨ ch = 3 := by decide
  rcases this ch with rfl | rfl | rfl | rfl <;> rfl

theorem advance : Statement (.advance) := fun _ => by
  rw [encode, decode_encodePort]
  exact fieldEnd_zero _

theorem haltuntil (m : Half) : Statement (.haltuntil m) := fun _ => by
  rw [encode, decode_encodePort]
  show fieldEnd _ (.haltuntil _) = _
  rw [fieldLow_cons, fieldRest_cons]
  exact fieldEnd_zero _

theorem haltvbl : Statement (.haltvbl) := fun _ => by
  rw [encode, decode_encodePort]
  exact fieldEnd_zero _

theorem halt : Statement (.halt) := fun _ => by
  rw [encode, decode_encodePort]
  exact fieldEnd_zero _

theorem irqSeten (s : Byte) (b : Bool) : Statement (.irqSeten s b) := fun _ => by
  rw [encode, decode_encodePort]
  show decodeSeten _ = _
  simp only [decodeSeten, fieldLow_cons, fieldRest_cons, fieldFlag_cons]
  exact fieldEnd_zero _

theorem irqRaise (b : Byte) : Statement (.irqRaise b) := fun _ => by
  rw [encode, decode_encodePort]
  show decodeByteOp _ _ = _
  rw [decodeByteOp, fieldLow_cons, fieldRest_cons]
  exact fieldEnd_zero _

theorem irqAck (b : Byte) : Statement (.irqAck b) := fun _ => by
  rw [encode, decode_encodePort]
  show decodeByteOp _ _ = _
  rw [decodeByteOp, fieldLow_cons, fieldRest_cons]
  exact fieldEnd_zero _

theorem irqSetime (b : Bool) : Statement (.irqSetime b) := fun _ => by
  rw [encode, decode_encodePort]
  show decodeSetime _ = _
  simp only [decodeSetime, fieldRest_cons, fieldFlag_cons]
  exact fieldEnd_zero _

theorem irqDeliver (b : Byte) : Statement (.irqDeliver b) := fun _ => by
  rw [encode, decode_encodePort]
  show decodeByteOp _ _ = _
  rw [decodeByteOp, fieldLow_cons, fieldRest_cons]
  exact fieldEnd_zero _

theorem irqDispatch : Statement (.irqDispatch) := fun _ => by
  rw [encode, decode_encodePort]
  exact fieldEnd_zero _

theorem dmaConfigure (ch : Byte) (src dst : Word) (count flags : Half) : Statement (.dmaConfigure ch src dst count flags) := fun _ => by
  rw [encode, decode_encodePort]
  show decodeConfigure _ = _
  simp only [decodeConfigure, fieldLow_cons, fieldRest_cons]
  exact fieldEnd_zero _

theorem dmaStop (b : Byte) : Statement (.dmaStop b) := fun _ => by
  rw [encode, decode_encodePort]
  show decodeByteOp _ _ = _
  rw [decodeByteOp, fieldLow_cons, fieldRest_cons]
  exact fieldEnd_zero _

theorem dmaFireHblank : Statement (.dmaFireHblank) := fun _ => by
  rw [encode, decode_encodePort]
  exact fieldEnd_zero _

theorem dmaFireVblank : Statement (.dmaFireVblank) := fun _ => by
  rw [encode, decode_encodePort]
  exact fieldEnd_zero _

theorem dmaXfer (b : Byte) : Statement (.dmaXfer b) := fun _ => by
  rw [encode, decode_encodePort]
  show decodeByteOp _ _ = _
  rw [decodeByteOp, fieldLow_cons, fieldRest_cons]
  exact fieldEnd_zero _

theorem tmrStart (ch : Byte) (reload : Half) (p : BitVec 2) (c q : Bool) : Statement (.tmrStart ch reload p c q) := fun _ => by
  rw [encode, decode_encodePort]
  show decodeTmrStart _ = _
  simp only [decodeTmrStart, fieldLow_cons, fieldRest_cons, fieldFlag_cons]
  exact fieldEnd_zero _

theorem tmrStop (b : Byte) : Statement (.tmrStop b) := fun _ => by
  rw [encode, decode_encodePort]
  show decodeByteOp _ _ = _
  rw [decodeByteOp, fieldLow_cons, fieldRest_cons]
  exact fieldEnd_zero _

theorem tmrTickline : Statement (.tmrTickline) := fun _ => by
  rw [encode, decode_encodePort]
  exact fieldEnd_zero _

theorem tmrTick (b : Byte) : Statement (.tmrTick b) := fun _ => by
  rw [encode, decode_encodePort]
  show decodeByteOp _ _ = _
  rw [decodeByteOp, fieldLow_cons, fieldRest_cons]
  exact fieldEnd_zero _

theorem tmrMscfg (m : Word) : Statement (.tmrMscfg m) := fun _ => by
  rw [encode, decode_encodePort]
  show fieldEnd _ (.tmrMscfg _) = _
  rw [fieldLow_cons, fieldRest_cons]
  exact fieldEnd_zero _

theorem ppuRenderline (b : Byte) : Statement (.ppuRenderline b) := fun _ => by
  rw [encode, decode_encodePort]
  show decodeByteOp _ _ = _
  rw [decodeByteOp, fieldLow_cons, fieldRest_cons]
  exact fieldEnd_zero _

theorem ppuFramestart : Statement (.ppuFramestart) := fun _ => by
  rw [encode, decode_encodePort]
  exact fieldEnd_zero _

theorem ppuBgText (k : BitVec 2) (y : Byte) : Statement (.ppuBgText k y) := fun _ => by
  rw [encode, decode_encodePort]
  show decodeLayerOp _ _ = _
  rw [decodeLayerOp, fieldRest_cons, fieldLow_cons, fieldLow_cons, fieldRest_cons]
  exact fieldEnd_zero _

theorem ppuBgAffine (k : BitVec 2) (y : Byte) : Statement (.ppuBgAffine k y) := fun _ => by
  rw [encode, decode_encodePort]
  show decodeLayerOp _ _ = _
  rw [decodeLayerOp, fieldRest_cons, fieldLow_cons, fieldLow_cons, fieldRest_cons]
  exact fieldEnd_zero _

theorem ppuBgBitmap3 (b : Byte) : Statement (.ppuBgBitmap3 b) := fun _ => by
  rw [encode, decode_encodePort]
  show decodeByteOp _ _ = _
  rw [decodeByteOp, fieldLow_cons, fieldRest_cons]
  exact fieldEnd_zero _

theorem ppuBgBitmap4 (b : Byte) : Statement (.ppuBgBitmap4 b) := fun _ => by
  rw [encode, decode_encodePort]
  show decodeByteOp _ _ = _
  rw [decodeByteOp, fieldLow_cons, fieldRest_cons]
  exact fieldEnd_zero _

theorem ppuBgBitmap5 (b : Byte) : Statement (.ppuBgBitmap5 b) := fun _ => by
  rw [encode, decode_encodePort]
  show decodeByteOp _ _ = _
  rw [decodeByteOp, fieldLow_cons, fieldRest_cons]
  exact fieldEnd_zero _

theorem ppuObj (b : Byte) : Statement (.ppuObj b) := fun _ => by
  rw [encode, decode_encodePort]
  show decodeByteOp _ _ = _
  rw [decodeByteOp, fieldLow_cons, fieldRest_cons]
  exact fieldEnd_zero _

theorem ppuSort : Statement (.ppuSort) := fun _ => by
  rw [encode, decode_encodePort]
  exact fieldEnd_zero _

theorem ppuWindow (x y : Byte) : Statement (.ppuWindow x y) := fun _ => by
  rw [encode, decode_encodePort]
  show fieldEnd _ (.ppuWindow _ _) = _
  rw [fieldLow_cons, fieldRest_cons, fieldLow_cons, fieldRest_cons]
  exact fieldEnd_zero _

theorem ppuEffect (b : Byte) : Statement (.ppuEffect b) := fun _ => by
  rw [encode, decode_encodePort]
  show decodeByteOp _ _ = _
  rw [decodeByteOp, fieldLow_cons, fieldRest_cons]
  exact fieldEnd_zero _

theorem ppuGreenswap : Statement (.ppuGreenswap) := fun _ => by
  rw [encode, decode_encodePort]
  exact fieldEnd_zero _

theorem ppuCommit (b : Byte) : Statement (.ppuCommit b) := fun _ => by
  rw [encode, decode_encodePort]
  show decodeByteOp _ _ = _
  rw [decodeByteOp, fieldLow_cons, fieldRest_cons]
  exact fieldEnd_zero _

theorem ppuSwap : Statement (.ppuSwap) := fun _ => by
  rw [encode, decode_encodePort]
  exact fieldEnd_zero _

theorem ppuGetframe : Statement (.ppuGetframe) := fun _ => by
  rw [encode, decode_encodePort]
  exact fieldEnd_zero _

theorem rd8 (a : Word) : Statement (.rd8 a) := fun _ => by
  rw [encode, decode_encodePort]
  show decodeReadOp _ _ = _
  rw [decodeReadOp, fieldLow_cons, fieldRest_cons]
  exact fieldEnd_zero _

theorem rd16 (a : Word) : Statement (.rd16 a) := fun _ => by
  rw [encode, decode_encodePort]
  show decodeReadOp _ _ = _
  rw [decodeReadOp, fieldLow_cons, fieldRest_cons]
  exact fieldEnd_zero _

theorem rd32 (a : Word) : Statement (.rd32 a) := fun _ => by
  rw [encode, decode_encodePort]
  show decodeReadOp _ _ = _
  rw [decodeReadOp, fieldLow_cons, fieldRest_cons]
  exact fieldEnd_zero _

theorem wr8 (a : Word) (d : Byte) : Statement (.wr8 a d) := fun _ => by
  rw [encode, decode_encodePort]
  show decodeWriteOp _ _ _ = _
  rw [decodeWriteOp, fieldLow_cons, fieldRest_cons, fieldLow_cons, fieldRest_cons]
  exact fieldEnd_zero _

theorem wr16 (a : Word) (d : Half) : Statement (.wr16 a d) := fun _ => by
  rw [encode, decode_encodePort]
  show decodeWriteOp _ _ _ = _
  rw [decodeWriteOp, fieldLow_cons, fieldRest_cons, fieldLow_cons, fieldRest_cons]
  exact fieldEnd_zero _

theorem wr32 (a : Word) (d : Word) : Statement (.wr32 a d) := fun _ => by
  rw [encode, decode_encodePort]
  show decodeWriteOp _ _ _ = _
  rw [decodeWriteOp, fieldLow_cons, fieldRest_cons, fieldLow_cons, fieldRest_cons]
  exact fieldEnd_zero _

theorem hookDmaConfigure (ch : BitVec 2) (w : Half) : Statement (.hookDmaConfigure ch w) := fun h => by
  have : decode (encode (.hookDmaConfigure ch w)) = .ok (decodeDmaHook ch w) := hook_dma ch w
  rw [this, decodeDmaHook]
  exact congrArg Except.ok (if_pos h)

theorem hookDmaStop (ch : BitVec 2) (w : Half) : Statement (.hookDmaStop ch w) := fun h => by
  have : decode (encode (.hookDmaStop ch w)) = .ok (decodeDmaHook ch w) := hook_dma ch w
  rw [this, decodeDmaHook]
  exact congrArg Except.ok (if_neg (by simpa [Instr.wellFormed] using h))

theorem hookTmrStart (ch : BitVec 2) (w : Half) : Statement (.hookTmrStart ch w) := fun h => by
  have : decode (encode (.hookTmrStart ch w)) = .ok (decodeTmrHook ch w) := hook_tmr ch w
  rw [this, decodeTmrHook]
  exact congrArg Except.ok (if_pos h)

theorem hookTmrStop (ch : BitVec 2) (w : Half) : Statement (.hookTmrStop ch w) := fun h => by
  have : decode (encode (.hookTmrStop ch w)) = .ok (decodeTmrHook ch w) := hook_tmr ch w
  rw [this, decodeTmrHook]
  exact congrArg Except.ok (if_neg (by simpa [Instr.wellFormed] using h))

theorem hookIrqSeten (w : Half) : Statement (.hookIrqSeten w) := fun _ => rfl

theorem hookIrqAck (w : Half) : Statement (.hookIrqAck w) := fun _ => rfl

theorem hookIrqSetime (w : Half) : Statement (.hookIrqSetime w) := fun _ => rfl

theorem bgRefReload (r : BgRef) (hi : Bool) (w : Half) : Statement (.bgRefReload r hi w) := fun _ => by
  cases r <;> cases hi <;> rfl

end Laws.RoundTrip

end Sys2Proof
end

