-- ==== Sys2Proof/Laws/Preserve.lean ====
section
/-! SUPPORT. Everything a step can do to the data of the state, said once: a property that each named update keeps is
kept by every operation, and holds of the state every fault leaves. Each data invariant is then one `Closed` proof. -/

set_option Elab.async false

namespace Sys2Proof.Machine

/-- The line's number and VCOUNT, as `ADVANCE` writes them together (`40_scheduler.md` R131 lines 2 and 3). -/
def tickClock (s : State) : State :=
  { s with frameClock := BitVec.ofNat 8 ((s.frameClock.toNat + 1) % nLines) }.setReg Reg.vcount
    (s.frameClock.setWidth 16)

/-- The updates an operation is made of, but for the clock: `P` of a state is kept, and `Q` holds of what a fault leaves.
VCOUNT is written by `tickClock` only; a timer's control word is written with the running bit clear or with its
accumulator 0; an accumulator stays, or ends below the divisor. -/
structure Closed (P Q : State → Prop) : Prop where
  setReg : ∀ s o v, OrdinaryReg o → (Conforms o (s.x o) → Conforms o v) → P s → P (s.setReg o v)
  setTmrCtl : ∀ s ch v, (Conforms (Reg.tmrCntH ch) (s.x (Reg.tmrCntH ch)) → Conforms (Reg.tmrCntH ch) v) →
    (TmrCtl.running v = false ∨ (s.tmr.get ch).prescAcc = 0) → P s → P (s.setReg (Reg.tmrCntH ch) v)
  writePal : ∀ s n off v, P s → P (s.writePal n off v)
  writeVram : ∀ s n off v, P s → P (s.writeVram n off v)
  writeOam : ∀ s n off v, P s → P (s.writeOam n off v)
  writeExt : ∀ s n a v, P s → P (s.writeExt n a v)
  setDma : ∀ s ch v, P s → P (s.setDma ch v)
  setTmr : ∀ s ch v, (v.prescAcc = (s.tmr.get ch).prescAcc ∨
    v.prescAcc.toNat < TmrCtl.div (TmrCtl.prescaler (s.tmrCtl ch))) → P s → P (s.setTmr ch v)
  setRefs : ∀ s v, P s → P (s.setRefs v)
  frameMode : ∀ s m, P s → P { s with frameMode := m }
  setLb : ∀ s v, (s.lb.line.length = screenW → v.line.length = screenW) → P s → P (s.setLb v)
  useFree : ∀ s, P s → P s.useFree
  commit : ∀ s y, P s → P (commit s y)
  swap : ∀ s, P s → P (swapBuffers s)
  setResult : ∀ s r, P s → P (s.setResult r)
  setDispatch : ∀ s d, P s → P (s.setDispatch d)
  setWaits : ∀ s w, P s → P (s.setWaits w)
  setHost : ∀ s h, P s → P (s.setHost h)
  setKont : ∀ s k, P s → P (s.setKont k)
  extRaises : ∀ s l, P s → P { s with extRaises := l }
  afterFault : ∀ s c, P s → Q (s.afterFault c)

/-- The same with the clock and the reset event. -/
structure ClosedStep (P Q : State → Prop) : Prop extends Closed P Q where
  clock : ∀ s, P s → P (tickClock s)
  reset : ∀ s, P s → P (applyReset s)

/-- `P` of the state a piece of an operation leaves, `Q` if it ends in a fault. -/
def Run.All (P Q : State → Prop) : Run → Prop
  | .done s => P s
  | .susp s _ => P s
  | .fault f => ∀ s, f.left = some s → Q s

/-- The same of a transfer. -/
def AllExcept (P Q : State → Prop) : Except Fault State → Prop
  | .ok s => P s
  | .error f => ∀ s, f.left = some s → Q s

/-- The same of a step. -/
def AllOutcome (P Q : State → Prop) : Host.Outcome State Fault Refusal → Prop
  | .next s => P s
  | .fault f => ∀ s, f.left = some s → Q s
  | .refused _ => True

theorem Run.All.andThen {P Q : State → Prop} {r : Run} {k : Kont} {f : State → Run} (hr : r.All P Q)
    (hf : ∀ t, P t → (f t).All P Q) : (r.andThen k f).All P Q := by
  cases r with
  | done s => exact hf s hr
  | susp s ks => exact hr
  | fault e => exact hr

theorem masked_clear (v m : Half) : v &&& m &&& ~~~m = 0 := by
  rw [BitVec.and_assoc, BitVec.and_not_self]; exact BitVec.and_zero

theorem running_withBit (v : Half) : TmrCtl.running (withBit v 7 false) = false := by
  rw [TmrCtl.running, withBit_getLsbD_lt (by decide), if_pos rfl]

/-- Clearing a bit of a masked word leaves it masked. -/
theorem withBit_masked_clear (v m : Half) {i : Nat} : withBit (v &&& m) i false &&& ~~~m = 0 := by
  rw [withBit, if_neg (by decide), BitVec.and_comm _ (~~~(1#16 <<< i)), BitVec.and_assoc, masked_clear]
  exact BitVec.and_zero

theorem length_swapGreens (l : List Colour) : (swapGreens l).length = l.length := by
  induction l using swapGreens.induct with
  | case1 a b l ih => simp [swapGreens, ih]
  | case2 l hl => rw [swapGreens]; exact fun a b m hm => hl a b m hm

theorem AllExcept.ofExcept {P Q : State → Prop} {r : Except Fault State} (hr : AllExcept P Q r) : (Run.ofExcept r).All P Q := by
  cases r with
  | ok s => exact hr
  | error e => exact hr

namespace Closed

variable {P Q : State → Prop} (h : Closed P Q)
include h

theorem finish {r : Run} (hr : r.All P Q) : AllOutcome P Q r.finish := by
  cases r with
  | done s => exact hr
  | susp s ks => exact h.setKont s _ hr
  | fault e => exact hr

theorem raiseFault {s : State} (hs : P s) (c : FaultCode) (w : Word) :
    ∀ t, (raiseFault c w s).left = some t → Q t := by
  intro t ht
  have : t = s.afterFault c := by cases c <;> exact (Option.some.inj ht).symm
  exact this ▸ h.afterFault s c hs

theorem withChannel {s : State} (hs : P s) {ch : Byte} {f : Fin 4 → Run} (hf : ∀ c, (f c).All P Q) :
    (withChannel ch s f).All P Q := by
  unfold Machine.withChannel
  split
  · exact hf _
  · exact h.raiseFault hs _ _

theorem withSource {s : State} (hs : P s) {i : Byte} {f : Fin nIrq → Run} (hf : ∀ c, (f c).All P Q) :
    (withSource i s f).All P Q := by
  unfold Machine.withSource
  split
  · exact hf _
  · exact h.raiseFault hs _ _

theorem setRegBit {s : State} (hs : P s) {o i : Nat} {b : Bool} (ho : OrdinaryReg o)
    (hb : b = true → (storedMask o).getLsbD i = true) : P (s.setRegBit o i b) :=
  h.setReg s o _ ho (fun hc => conforms_withBit hc hb) hs

theorem setReg32 {s : State} (hs : P s) {o : Nat} (v : Word) (h1 : OrdinaryReg o) (h2 : OrdinaryReg (o + 2))
    (hm : storedMask o = 0xFFFF ∧ storedMask (o + 2) = 0xFFFF) : P (s.setReg32 o v) :=
  h.setReg _ _ _ h2 (fun _ => conforms_full hm.2 _) (h.setReg _ _ _ h1 (fun _ => conforms_full hm.1 _) hs)

theorem setIme {s : State} (hs : P s) (b : Bool) : P (s.setIme b) :=
  h.setRegBit hs (by decide) (fun _ => by decide)

/-! ### Interrupts -/

theorem ackEvent {s : State} (hs : P s) (i : Fin nIrq) : P (ackEvent s i) := h.setWaits _ _ hs

theorem deliverEntry {s : State} (hs : P s) (i : Fin nIrq) : P (deliverEntry s i) := by
  have h1 := h.setDispatch (Machine.ackEvent (s.setRegBit Reg.irf i.val false) i)
    ({ source := i, savedIme := (Machine.ackEvent (s.setRegBit Reg.irf i.val false) i).ime, touched := false } ::
      (Machine.ackEvent (s.setRegBit Reg.irf i.val false) i).dispatch)
    (h.ackEvent (h.setRegBit hs (by decide) (fun hb => by cases hb)) i)
  simp only [Machine.deliverEntry]
  split
  · exact h.setIme h1 _
  · exact h1

theorem deliverReturn {s : State} (hs : P s) : P (deliverReturn s) := by
  unfold Machine.deliverReturn
  split
  · exact hs
  · split
    · exact h.setDispatch _ _ hs
    · exact h.setIme (h.setDispatch _ _ hs) _

theorem deliver {s : State} (hs : P s) (i : Fin nIrq) : (deliver s i).All P Q := by
  have h1 := h.deliverEntry hs i
  simp only [Machine.deliver]
  split
  · exact h.deliverReturn h1
  · exact h1
  · exact h1

theorem raise {s : State} (hs : P s) (i : Fin nIrq) : (raise s i).All P Q := by
  have h1 : P (s.setRegBit Reg.irf i.val true) := h.setRegBit hs (by decide) (fun _ => irf_bit i)
  simp only [Machine.raise]
  split
  · exact h.deliver h1 i
  · exact h1

theorem irqSetEnabled {s : State} (hs : P s) (i : Fin nIrq) (b : Bool) : P (irqSetEnabled s i b) :=
  h.setRegBit hs (by decide) (fun _ => ie_bit i)

theorem irqAcknowledge {s : State} (hs : P s) (i : Fin nIrq) : P (irqAcknowledge s i) := by
  unfold Machine.irqAcknowledge
  split
  · exact h.ackEvent (h.setRegBit hs (by decide) (fun hb => by cases hb)) i
  · exact hs

theorem irqSetMaster {s : State} (hs : P s) (b : Bool) : P (irqSetMaster s b) := by
  simp only [Machine.irqSetMaster]
  split
  · exact h.setIme hs b
  · exact h.setDispatch _ _ (h.setIme hs b)

theorem dispatchLoop (n : Nat) {s : State} (hs : P s) : (dispatchLoop n s).All P Q := by
  induction n generalizing s with
  | zero => exact hs
  | succ n ih =>
    unfold Machine.dispatchLoop
    split
    · exact hs
    · exact (h.deliver hs _).andThen (fun t ht => ih ht)

theorem irqDispatch {s : State} (hs : P s) : (irqDispatch s).All P Q := h.dispatchLoop _ hs

/-! ### Timers -/

theorem tmrStop {s : State} (hs : P s) (ch : Fin 4) : P (tmrStop s ch) := by
  exact h.setTmrCtl s ch _ (fun hc => conforms_withBit hc (fun hb => by cases hb)) (.inl (running_withBit _)) hs

theorem tmrStart {s : State} (hs : P s) (ch : Fin 4) (reload : Half) (p : BitVec 2) (k q : Bool) :
    P (tmrStart s ch reload p k q) := by
  refine h.setTmrCtl _ _ _ (fun hc => conforms_withFields hc p k q true) (.inr ?_)
    (h.setTmr _ _ _ (.inr (TmrCtl.div_pos _)) (h.tmrStop hs ch))
  rw [State.setTmr_tmr, Four.get_set_same]

/-- A timer whose accumulator stays. -/
theorem setCounter {s : State} (hs : P s) (ch : Fin 4) (v : Half) : P (s.setTmr ch { s.tmr.get ch with counter := v }) :=
  h.setTmr s ch _ (.inl rfl) hs

theorem tmrOverflow {s : State} (hs : P s) (ch : Fin 4) : (tmrOverflow s ch).All P Q := by
  have h1 := h.setCounter hs ch (s.tmr.get ch).reload
  simp only [Machine.tmrOverflow]
  split
  · exact h.raise h1 _
  · exact h1

theorem tmrCount {s : State} (hs : P s) (ch : Fin 4) {f : State → Run} (hf : ∀ t, P t → (f t).All P Q) :
    (tmrCount ch f s).All P Q := by
  simp only [Machine.tmrCount]
  split
  · exact (h.tmrOverflow hs ch).andThen hf
  · exact h.setCounter hs ch _

theorem tickUp (n : Nat) {s : State} (hs : P s) : (tickUp n s).All P Q := by
  induction n generalizing s with
  | zero => exact h.tmrCount hs 3 (fun t ht => ht)
  | succ n ih =>
    refine h.tmrCount hs _ (fun t ht => ?_)
    split
    · exact ih ht
    · exact ht

theorem tmrTick {s : State} (hs : P s) (ch : Fin 4) : (tmrTick s ch).All P Q := h.tickUp _ hs

theorem tickCascade {s : State} (hs : P s) (ch : Fin 4) : (tickCascade s ch).All P Q := by
  unfold Machine.tickCascade
  split
  · split
    · exact h.tmrTick hs _
    · exact hs
  · exact hs

theorem tickSlot {s : State} (hs : P s) (ch : Fin 4) : (tickSlot s ch).All P Q := by
  simp only [Machine.tickSlot]
  split
  · split
    · have h0 : P (s.setTmr ch { s.tmr.get ch with prescAcc := 0 }) := h.setTmr s ch _ (.inr (TmrCtl.div_pos _)) hs
      exact h.tmrTick h0 ch
    · next hlt =>
      refine h.setTmr s ch _ (.inr ?_) hs
      show ((s.tmr.get ch).prescAcc + 1).toNat < _
      rw [BitVec.toNat_add]
      exact Nat.lt_of_le_of_lt (Nat.mod_le _ _) (Nat.lt_of_not_le hlt)
  · exact hs

theorem tickSlots (n : Nat) {s : State} (hs : P s) : (tickSlots n s).All P Q := by
  induction n generalizing s with
  | zero => exact hs
  | succ n ih => exact (h.tickSlot hs _).andThen (fun t ht => ih ht)

/-! ### DMA -/

/-- A masked halfword stored without a hook; a timer's control word never is. -/
theorem storeReg {s : State} (hs : P s) {o : Nat} {v : Half} (ht : ∀ ch, regKind o ≠ .tmrCntH ch)
    (hv : v &&& ~~~writeMask o = 0) : P (storeReg s o v) := by
  have hplain : ∀ k, regKind o = k → k ≠ .dispstat → k ≠ .vcount → P (s.setReg o v) := fun k hk h1 h2 => by
    have ho1 : o ≠ Reg.dispstat := fun e => h1 (by rw [← hk, e]; rfl)
    have ho2 : o ≠ Reg.vcount := fun e => h2 (by rw [← hk, e]; rfl)
    exact h.setReg s o v ⟨ho2, fun ch e => ht ch (by rw [e]; exact regKind_of_tmrCntH ch)⟩ (fun _ => by rw [Conforms, storedMask_eq ho1 ho2]; exact hv) hs
  unfold Machine.storeReg
  cases hk : regKind o with
  | vcount => exact hs
  | dispstat =>
    obtain rfl := regKind_dispstat hk
    refine h.setReg s _ _ (by decide) (fun hc => ?_) hs
    have disp : ∀ i < 16, (writeMask Reg.dispstat).getLsbD i = true → (storedMask Reg.dispstat).getLsbD i = true := by
      decide
    have hw : Conforms Reg.dispstat v := by
      rw [conforms_iff]
      intro i hi hb
      have h0 : v.getLsbD i = true → (writeMask Reg.dispstat).getLsbD i = true := by
        intro hvb
        have := congrArg (fun x : Half => x.getLsbD i) hv
        simpa [hi, hvb, BitVec.getLsbD_eq_getElem] using this
      exact disp i hi (h0 hb)
    exact conforms_or (by rw [conforms_iff] at hw ⊢; intro i hi hb; simp at hb; exact hw i hi hb.1)
      (by rw [conforms_iff] at hc ⊢; intro i hi hb; simp at hb; exact hc i hi hb.1)
  | bgRef r =>
    have := hplain _ hk (by simp) (by simp)
    simp only [Machine.reloadRef]
    cases r <;> exact h.setRefs _ _ this
  | tmrCntL ch => exact h.setTmr _ _ _ (.inl rfl) hs
  | dmaCntH ch => exact hplain _ hk (by simp) (by simp)
  | tmrCntH ch => exact absurd hk (ht ch)
  | ie => exact hplain _ hk (by simp) (by simp)
  | irf => exact hplain _ hk (by simp) (by simp)
  | ime => exact hplain _ hk (by simp) (by simp)
  | plain => exact hplain _ hk (by simp) (by simp)

theorem dmaRegWrite {s : State} (hs : P s) (off unit v : Nat) (h1 : dmaForbidden off = false)
    (h2 : unit = 4 → dmaForbidden (off + 2) = false) : P (dmaRegWrite s off unit v) := by
  have hk : ∀ {o}, dmaForbidden o = false → ∀ ch, regKind o ≠ .tmrCntH ch := fun ho ch e => by
    rw [dmaForbidden, e] at ho; cases ho
  simp only [Machine.dmaRegWrite]
  split
  · next hu => exact h.storeReg (h.storeReg hs (hk h1) (masked_clear _ _)) (hk (h2 hu)) (masked_clear _ _)
  · exact h.storeReg hs (hk h1) (masked_clear _ _)

theorem dmaWrite {s : State} (hs : P s) (addr : Word) (unit v : Nat) : AllExcept P Q (dmaWrite s addr unit v) := by
  simp only [Machine.dmaWrite]
  split
  · split
    · exact h.raiseFault hs _ _
    · next hf =>
      simp only [Bool.or_eq_true, Bool.and_eq_true, decide_eq_true_eq, not_or, Bool.not_eq_true, not_and] at hf
      exact h.dmaRegWrite hs _ _ _ hf.1 hf.2
  · exact h.writePal _ _ _ _ hs
  · exact h.writeVram _ _ _ _ hs
  · exact h.writeOam _ _ _ _ hs
  · split
    · exact h.writeExt _ _ _ _ hs
    · exact h.raiseFault hs _ _

theorem dmaUnit {s : State} (hs : P s) (ch : Fin 4) (c : Half) : AllExcept P Q (dmaUnit ch c s) := by
  simp only [Machine.dmaUnit]
  split
  · exact h.raiseFault hs _ _
  · split
    · exact h.raiseFault hs _ _
    · next v _ =>
      have hw := h.dmaWrite hs (s.dma.get ch).dstCur (DmaCtl.unit c) v
      split
      · next e he => rw [he] at hw; exact hw
      · next s1 he => rw [he] at hw; exact h.setDma _ _ _ hw

theorem dmaUnits (ch : Fin 4) (c : Half) (n : Nat) {s : State} (hs : P s) : AllExcept P Q (dmaUnits ch c n s) := by
  induction n generalizing s with
  | zero => exact hs
  | succ n ih =>
    have hu := h.dmaUnit hs ch c
    unfold Machine.dmaUnits
    split
    · next e he => rw [he] at hu; exact hu
    · next s1 he => rw [he] at hu; exact ih hu

theorem dmaXfer {s : State} (hs : P s) (ch : Fin 4) : AllExcept P Q (dmaXfer s ch) := h.dmaUnits _ _ _ hs

theorem dmaStop {s : State} (hs : P s) (ch : Fin 4) : P (dmaStop s ch) :=
  h.setRegBit hs (by revert ch; decide) (fun hb => by cases hb)

theorem dmaComplete {s : State} (hs : P s) (ch : Fin 4) : (dmaComplete s ch).All P Q := by
  have h1 : P (if DmaCtl.timing (s.dmaCtl ch) = 0 ∨ DmaCtl.repeats (s.dmaCtl ch) = false then
      s.setRegBit (Reg.dmaCntH ch) 15 false else dmaReload s ch) := by
    split
    · exact h.dmaStop hs ch
    · exact h.setDma _ _ _ hs
  simp only [Machine.dmaComplete]
  split
  · exact h.raise h1 _
  · exact h1

theorem dmaTransfer {s : State} (hs : P s) (ch : Fin 4) : (dmaTransfer s ch).All P Q := by
  have hx := h.dmaXfer hs ch
  unfold Machine.dmaTransfer
  split
  · next e he => rw [he] at hx; exact hx
  · next s1 he => rw [he] at hx; exact h.dmaComplete hx ch

theorem dmaStore {s : State} (hs : P s) (ch : Fin 4) (src dst : Word) (count flags : Half) :
    P (dmaStore s ch src dst count (dmaFlags ch flags)) := by
  have h1 := h.setReg32 hs (o := Reg.dmaSad ch) src (dma_ordinary ch).1 (dma_ordinary ch).2.1 (storedMask_dmaSad ch)
  have h2 := h.setReg32 h1 (o := Reg.dmaDad ch) dst (dma_ordinary ch).2.2.1
    (dma_ordinary ch).2.2.2.1 (storedMask_dmaDad ch)
  refine h.setDma _ _ _ (h.setReg _ _ _ (dma_ordinary ch).2.2.2.2.2 (fun _ => conforms_dmaFlags ch flags)
    (h.setReg _ _ _ (dma_ordinary ch).2.2.2.2.1 (fun _ => ?_) h2))
  exact conforms_masked _ (cntL_mask ch)

theorem dmaConfigure {s : State} (hs : P s) (ch : Fin 4) (src dst : Word) (count flags : Half) :
    (dmaConfigure s ch src dst count flags).All P Q := by
  have h1 := h.dmaStore hs ch src dst count flags
  simp only [Machine.dmaConfigure]
  split
  · exact h.raiseFault hs _ _
  · split
    · exact h.raiseFault hs _ _
    · split
      · exact h.raiseFault hs _ _
      · split
        · exact h.raiseFault hs _ _
        · split
          · exact h.dmaTransfer h1 ch
          · exact h1

theorem fireFrom (timing : BitVec 2) (n : Nat) {s : State} (hs : P s) : (fireFrom timing n s).All P Q := by
  induction n generalizing s with
  | zero => exact hs
  | succ n ih =>
    refine Run.All.andThen ?_ (fun t ht => ih ht)
    split
    · exact h.dmaTransfer hs _
    · exact hs

/-! ### The compositor -/

/-- A change of the line buffers that leaves the output line alone. -/
theorem setLbLine {s : State} (hs : P s) {v : LineBuffers} (hv : v.line = s.lb.line) : P (s.setLb v) :=
  h.setLb s v (fun hl => hv ▸ hl) hs

theorem fillBg {s : State} (hs : P s) (n : Fin 4) (f : Nat → Option Colour) : P (s.fillBg n f) := h.setLbLine hs rfl

theorem bgText {s : State} (hs : P s) (n : Fin 4) (y : Nat) : P (bgText s n y) := by
  unfold Machine.bgText
  split
  · exact h.fillBg hs _ _
  · exact h.useFree _ (h.fillBg hs _ _)

theorem bgAffine {s : State} (hs : P s) (n : Fin 4) (y : Nat) : P (bgAffine s n y) := by
  unfold Machine.bgAffine
  split
  · exact h.fillBg hs _ _
  · exact h.useFree _ (h.fillBg hs _ _)

theorem useFreeOff {s : State} (hs : P s) (px y : Nat) : P (s.useFreeOff px y) := by
  unfold State.useFreeOff
  split
  · exact h.useFree _ hs
  · exact hs

theorem frameStart {s : State} (hs : P s) : P (frameStart s) := h.frameMode _ _ (h.setRefs _ _ hs)

theorem affineLineStep {s : State} (hs : P s) : P (affineLineStep s) := h.setRefs _ _ hs

theorem objLine {s : State} (hs : P s) (y : Nat) : P (objLine s y) := by
  unfold Machine.objLine
  split
  rotate_left
  · exact h.useFree _ (h.setLbLine hs rfl)
  refine h.setLbLine hs ?_
  have : ∀ (l : List Nat) (b : LineBuffers), (l.foldl (s.objEntry y) b).line = b.line := by
    intro l
    induction l with
    | nil => intro b; rfl
    | cons i l ih =>
      intro b
      rw [List.foldl_cons, ih]
      simp only [State.objEntry]
      split
      · split <;> rfl
      · rfl
  exact this _ _

theorem greenSwap {s : State} (hs : P s) : P (greenSwap s) := by
  unfold Machine.greenSwap
  split
  · exact h.setLb s _ (fun hl => (length_swapGreens _).trans hl) hs
  · exact hs

theorem renderLayers {s : State} (hs : P s) (y : Nat) : P (renderLayers s y) := by
  have hf : ∀ (l : List (Fin 4)) (t : State), P t → P (l.foldl (renderLayer y) t) := by
    intro l
    induction l with
    | nil => exact fun t ht => ht
    | cons n l ih =>
      intro t ht
      rw [List.foldl_cons]
      refine ih _ ?_
      unfold renderLayer
      split
      · split <;> first | exact h.bgText ht _ _ | exact h.bgAffine ht _ _ | exact h.fillBg ht _ _ | exact ht
      · exact ht
  have h1 := hf [0, 1, 2, 3] (clearBuffers s) (h.setLbLine hs rfl)
  simp only [Machine.renderLayers]
  split
  · exact h.objLine h1 y
  · exact h1

theorem composeLine {s : State} (hs : P s) (y : Nat) : P (composeLine s y) :=
  h.useFreeOff (h.setLb s _ (fun _ => by simp) hs) _ _

theorem outputLine {s : State} (hs : P s) (y : Nat) : P (outputLine s y) := by
  unfold Machine.outputLine
  split
  · exact h.setLb s _ (fun _ => by simp) hs
  · exact h.greenSwap (h.composeLine (h.renderLayers hs y) y)

theorem renderLine {s : State} (hs : P s) (y : Nat) : P (renderLine s y) :=
  h.affineLineStep (h.commit _ _ (h.outputLine hs y))

/-! ### The scheduler -/

theorem tmrTickline {s : State} (hs : P s) : (tmrTickline s).All P Q := h.tickSlots _ hs

theorem advanceTimers {s : State} (hs : P s) : (advanceTimers s).All P Q := h.tmrTickline hs

theorem advanceHblankRaise (l : BitVec 8) {s : State} (hs : P s) : (advanceHblankRaise l s).All P Q :=
  (h.raise hs 1).andThen (fun _ ht => h.advanceTimers ht)

theorem advanceVcount (l : BitVec 8) {s : State} (hs : P s) : (advanceVcount l s).All P Q := by
  refine Run.All.andThen ?_ (fun _ ht => h.advanceHblankRaise l ht)
  split
  · exact h.raise hs 2
  · exact hs

theorem advanceHblankPoint (l : BitVec 8) {s : State} (hs : P s) : (advanceHblankPoint l s).All P Q := by
  have h1 : P (s.setHblankFlag true) := h.setRegBit hs (by decide) (fun _ => by decide)
  refine Run.All.andThen ?_ (fun _ ht => h.advanceVcount l ht)
  split
  · exact h.fireFrom _ _ h1
  · exact h1

theorem advanceVblankRaise (l : BitVec 8) {s : State} (hs : P s) : (advanceVblankRaise l s).All P Q :=
  (h.raise hs 0).andThen (fun _ ht => h.advanceHblankPoint l ht)

theorem haltTest {s : State} (hs : P s) : (haltTest s).All P Q := by
  unfold Machine.haltTest
  split
  · exact hs
  · split
    · exact hs
    · exact h.setWaits _ _ hs

theorem haltPoll {s : State} (hs : P s) : (haltPoll s).All P Q := (h.irqDispatch hs).andThen (fun _ ht => h.haltTest ht)

theorem haltUntil {s : State} (hs : P s) (mask : Half) : (haltUntil s mask).All P Q := by
  simp only [Machine.haltUntil]
  split
  · exact h.raiseFault hs _ _
  · exact h.setWaits _ _ hs

/-! ### Register writes and the host bus -/

theorem hookStore {s : State} (hs : P s) {o : Nat} {v : Half} (h1 : o ≠ Reg.dispstat) (h2 : OrdinaryReg o)
    (hv : v &&& ~~~writeMask o = 0) : P (hookStore s o v) :=
  h.setReg s o v h2 (fun _ => by rw [Conforms, storedMask_eq h1 h2.1]; exact hv) hs

/-- A stop of a timer by a write stores a word whose running bit is clear. -/
theorem hookStop {s : State} (hs : P s) (ch : Fin 4) {v : Half} (hr : TmrCtl.running v = false)
    (hv : v &&& ~~~writeMask (Reg.tmrCntH ch) = 0) : P (Machine.hookStore s (Reg.tmrCntH ch) v) :=
  have hm : Reg.tmrCntH ch ≠ Reg.dispstat ∧ Reg.tmrCntH ch ≠ Reg.vcount := by clear hv; revert ch; decide
  h.setTmrCtl s ch v (fun _ => by rw [Conforms, storedMask_eq hm.1 hm.2]; exact hv) (.inl hr) hs

theorem writeDmaCntH {s : State} (hs : P s) (ch : Fin 4) {v : Half} (hv : v &&& ~~~writeMask (Reg.dmaCntH ch) = 0) :
    (writeDmaCntH s ch v).All P Q := by
  unfold Machine.writeDmaCntH
  split
  · exact h.dmaConfigure hs _ _ _ _ _
  · exact h.hookStore hs (by clear hv; revert ch; decide) (by clear hv; revert ch; decide) hv

theorem writeTmrCntH {s : State} (hs : P s) (ch : Fin 4) {v : Half} (hv : v &&& ~~~writeMask (Reg.tmrCntH ch) = 0) :
    P (writeTmrCntH s ch v) := by
  unfold Machine.writeTmrCntH
  split
  · exact h.tmrStart hs _ _ _ _ _
  · next hr => exact h.hookStop hs ch (Bool.eq_false_iff.mpr hr) hv

theorem writeIe {s : State} (hs : P s) (old new : Half) : P (writeIe s old new) := by
  have : ∀ (l : List (Fin nIrq)) (t : State), P t → P (l.foldl (fun t i =>
      if new.getLsbD i.val ≠ old.getLsbD i.val then Machine.irqSetEnabled t i (new.getLsbD i.val) else t) t) := by
    intro l
    induction l with
    | nil => exact fun t ht => ht
    | cons i l ih =>
      intro t ht
      rw [List.foldl_cons]
      refine ih _ ?_
      split
      · exact h.irqSetEnabled ht _ _
      · exact ht
  exact this _ _ hs

theorem writeIf {s : State} (hs : P s) (wr : Half) : P (writeIf s wr) := by
  have : ∀ (l : List (Fin nIrq)) (t : State), P t → P (l.foldl (fun t i =>
      if wr.getLsbD i.val then Machine.irqAcknowledge t i else t) t) := by
    intro l
    induction l with
    | nil => exact fun t ht => ht
    | cons i l ih =>
      intro t ht
      rw [List.foldl_cons]
      refine ih _ ?_
      split
      · exact h.irqAcknowledge ht _
      · exact ht
  exact this _ _ hs

theorem regWrite16 {s : State} (hs : P s) (o : Nat) (old : Half) {new : Half} (wr : Half)
    (hv : new &&& ~~~writeMask o = 0) : (regWrite16 s o old new wr).All P Q := by
  unfold Machine.regWrite16
  split
  · next ch hk => obtain rfl := regKind_dmaCntH hk; exact h.writeDmaCntH hs ch hv
  · next ch hk => obtain rfl := regKind_tmrCntH hk; exact h.writeTmrCntH hs ch hv
  · exact h.writeIe hs _ _
  · exact h.writeIf hs _
  · exact h.irqSetMaster hs _
  · next ht _ _ _ => exact h.storeReg hs ht hv

theorem regWriteHalf {s : State} (hs : P s) (off : Nat) (data : Half) : (regWriteHalf s off data).All P Q :=
  h.regWrite16 hs _ _ _ (masked_clear _ _)

theorem regWrite8 {s : State} (hs : P s) (off : Nat) (data : Byte) : (regWrite8 s off data).All P Q :=
  h.regWrite16 hs _ _ _ (masked_clear _ _)

theorem regWriteWord {s : State} (hs : P s) (off : Nat) (data : Word) : (regWriteWord s off data).All P Q :=
  (h.regWriteHalf hs _ _).andThen (fun _ ht => h.regWriteHalf ht _ _)

theorem hostWrite {s : State} (hs : P s) (addr : Word) (n v : Nat) {reg : Nat → Run} (hr : ∀ off, (reg off).All P Q) :
    (hostWrite s addr n v reg).All P Q := by
  unfold Machine.hostWrite
  split
  · exact h.raiseFault hs _ _
  · split
    · exact h.raiseFault hs _ _
    · exact hr _
    · exact h.writePal _ _ _ _ hs
    · exact h.writeVram _ _ _ _ hs
    · exact h.writeOam _ _ _ _ hs

theorem readResult {s : State} (hs : P s) (addr : Word) (n : Nat) (mk : Nat → Result) :
    (readResult s addr n mk).All P Q := by
  unfold Machine.readResult
  split
  · next e he =>
    unfold hostRead at he
    split at he
    · cases he; exact h.raiseFault hs _ _
    · split at he
      · cases he; exact h.raiseFault hs _ _
      all_goals cases he
  · exact h.setResult _ _ hs

theorem execBgRefReload {s : State} (hs : P s) (r : BgRef) (hi : Bool) (w : Half) :
    AllOutcome P Q (execBgRefReload r hi w s) := by
  have hne : OrdinaryReg (Reg.bgref r + (if hi then 2 else 0)) ∧ Reg.bgref r + (if hi then 2 else 0) ≠ Reg.dispstat := by
    cases r <;> cases hi <;> decide
  have h1 : P (s.setReg (Reg.bgref r + (if hi then 2 else 0)) (w &&& writeMask (Reg.bgref r + (if hi then 2 else 0)))) :=
    h.setReg _ _ _ hne.1 (fun _ => by rw [Conforms, storedMask_eq hne.2 hne.1.1]; exact masked_clear _ _) hs
  refine h.finish (r := .done _) ?_
  simp only [reloadRef]
  cases r <;> exact h.setRefs _ _ h1

/-! ### Every operation but `ADVANCE` -/

/-- A property that each named update but the clock's keeps is kept by every operation but `ADVANCE`, and holds of what
its fault leaves. -/
theorem exec_of_ne {s : State} (hs : P s) (i : Instr) (hne : i ≠ .advance) : AllOutcome P Q (exec i s) := by
  cases i with
  | advance => exact absurd rfl hne
  | haltuntil mask => exact h.finish (h.haltUntil hs mask)
  | haltvbl => exact h.finish (h.haltUntil hs 0x0001)
  | halt => exact h.finish (h.haltUntil hs _)
  | irqSeten i b => exact h.finish (h.withSource hs (fun c => h.irqSetEnabled hs c b))
  | irqRaise i => exact h.finish (h.withSource hs (fun c => h.raise hs c))
  | irqAck i => exact h.finish (h.withSource hs (fun c => h.irqAcknowledge hs c))
  | irqSetime b => exact h.finish (r := .done _) (h.irqSetMaster hs b)
  | irqDeliver i => exact h.finish (h.withSource hs (fun c => h.deliver hs c))
  | irqDispatch => exact h.finish (h.irqDispatch hs)
  | dmaConfigure ch src dst count flags =>
    exact h.finish (h.withChannel hs (fun c => h.dmaConfigure hs c src dst count flags))
  | dmaStop ch => exact h.finish (h.withChannel hs (fun c => h.dmaStop hs c))
  | dmaFireHblank => exact h.finish (h.fireFrom _ _ hs)
  | dmaFireVblank => exact h.finish (h.fireFrom _ _ hs)
  | dmaXfer ch => exact h.finish (h.withChannel hs (fun c => AllExcept.ofExcept (h.dmaXfer hs c)))
  | tmrStart ch reload p k q => exact h.finish (h.withChannel hs (fun c => h.tmrStart hs c reload p k q))
  | tmrStop ch => exact h.finish (h.withChannel hs (fun c => h.tmrStop hs c))
  | tmrTickline => exact h.finish (h.tmrTickline hs)
  | tmrTick ch => exact h.finish (h.withChannel hs (fun c => h.tmrTick hs c))
  | tmrMscfg ms => exact h.finish (r := .done _) (h.setResult _ _ hs)
  | ppuRenderline y => exact h.renderLine hs _
  | ppuFramestart => exact h.frameStart hs
  | ppuBgText n y => exact h.bgText hs _ _
  | ppuBgAffine k y => exact h.bgAffine hs _ _
  | ppuBgBitmap3 y => exact h.fillBg hs _ _
  | ppuBgBitmap4 y => exact h.fillBg hs _ _
  | ppuBgBitmap5 y => exact h.fillBg hs _ _
  | ppuObj y => exact h.objLine hs _
  | ppuSort => exact h.setResult _ _ (h.setLbLine hs rfl)
  | ppuWindow x y =>
    exact h.finish (r := .done _)
      (h.useFreeOff (h.setResult _ _ (h.setLbLine (v := { s.lb with wm := s.windowMask x.toNat y.toNat }) hs rfl)) _ _)
  | ppuEffect x => exact h.useFreeOff (h.setResult _ _ hs) _ _
  | ppuGreenswap => exact h.greenSwap hs
  | ppuCommit y => exact h.commit _ _ hs
  | ppuSwap => exact h.swap _ hs
  | ppuGetframe => exact h.setResult _ _ hs
  | rd8 a => exact h.finish (h.readResult hs _ _ _)
  | rd16 a => exact h.finish (h.readResult hs _ _ _)
  | rd32 a => exact h.finish (h.readResult hs _ _ _)
  | wr8 a d => exact h.finish (h.hostWrite hs _ _ _ (fun off => h.regWrite8 hs off d))
  | wr16 a d => exact h.finish (h.hostWrite hs _ _ _ (fun off => h.regWriteHalf hs off d))
  | wr32 a d => exact h.finish (h.hostWrite hs _ _ _ (fun off => h.regWriteWord hs off d))
  | hookDmaConfigure ch w => exact h.finish (h.dmaConfigure hs _ _ _ _ _)
  | hookDmaStop ch w =>
    exact h.finish (r := .done _) (h.hookStore hs (by generalize channelOf ch = c; revert c; decide)
      (by generalize channelOf ch = c; revert c; decide) (masked_clear _ _))
  | hookTmrStart ch w => exact h.finish (r := .done _) (h.tmrStart hs _ _ _ _ _)
  | hookTmrStop ch w => exact h.finish (r := .done _) (h.hookStop hs _ (running_withBit _) (withBit_masked_clear _ _))
  | hookIrqSeten w => exact h.finish (r := .done _) (h.writeIe hs _ _)
  | hookIrqAck w => exact h.finish (r := .done _) (h.writeIf hs _)
  | hookIrqSetime w => exact h.finish (r := .done _) (h.irqSetMaster hs _)
  | bgRefReload r hi w => exact h.execBgRefReload hs r hi w

end Closed

namespace ClosedStep

variable {P Q : State → Prop} (h : ClosedStep P Q)
include h

theorem advanceBegin {s : State} (hs : P s) : P (advanceBegin s) := by
  have h3 : P (((tickClock s).setHblankFlag false).setVblankFlag (decide (nVisible ≤ s.frameClock.toNat))) :=
    h.setRegBit (h.setRegBit (h.clock s hs) (by decide) (fun hb => by cases hb)) (by decide) (fun _ => by decide)
  have h4 : ∀ t, P t → P (if s.frameClock = 0 then Machine.frameStart t else t) := by
    intro t ht
    split
    · exact h.frameStart ht
    · exact ht
  simp only [Machine.advanceBegin]
  split
  · exact h.renderLine (h4 _ h3) _
  · exact h4 _ h3

theorem advance {s : State} (hs : P s) : (advance s).All P Q := by
  have h1 := h.advanceBegin hs
  simp only [Machine.advance]
  split
  · exact (h.fireFrom _ _ (h.swap _ h1)).andThen (fun _ ht => h.advanceVblankRaise _ ht)
  · exact h.advanceHblankPoint _ h1

theorem haltAdvance {s : State} (hs : P s) : (haltAdvance s).All P Q := (h.advance hs).andThen (fun _ ht => h.haltPoll ht)

theorem haltLoop {s : State} (hs : P s) : (haltLoop s).All P Q := by
  unfold Machine.haltLoop
  split
  · exact h.haltAdvance hs
  · exact h.haltAdvance (h.extRaises _ _ hs)
  · have h1 := fun l => h.extRaises s l hs
    exact (h.withSource (h1 _) (fun j => h.raise (h1 _) j)).andThen (fun _ ht => h.haltAdvance ht)

/-- A property that each named update keeps is kept by every operation, and holds of what its fault leaves. -/
theorem exec {s : State} (hs : P s) (i : Instr) : AllOutcome P Q (exec i s) := by
  by_cases hi : i = .advance
  · subst hi; exact h.finish (h.advance hs)
  · exact h.exec_of_ne hs i hi

theorem resume {s : State} (hs : P s) (k : Kont) : (resume k s).All P Q := by
  cases k with
  | handlerReturn => exact h.deliverReturn hs
  | handlerProgram ops => exact h.deliverReturn hs
  | advance l p =>
    cases p with
    | vblankRaise => exact h.advanceVblankRaise l hs
    | hblankPoint => exact h.advanceHblankPoint l hs
    | vcountCompare => exact h.advanceVcount l hs
    | hblankRaise => exact h.advanceHblankRaise l hs
    | timerTicks => exact h.advanceTimers hs
  | fire t n => exact h.fireFrom t n hs
  | dispatch => exact h.irqDispatch hs
  | tickCascade ch => exact h.tickCascade hs ch
  | tickLine n => exact h.tickSlots n hs
  | writeHigh off d => exact h.regWriteHalf hs off d
  | haltLoop => exact h.haltLoop hs
  | haltAdvance => exact h.haltAdvance hs
  | haltPoll => exact h.haltPoll hs
  | haltTest => exact h.haltTest hs

theorem resetEvent {s : State} (hs : P s) : AllOutcome P Q (resetEvent s) := by
  unfold Machine.resetEvent
  split
  · exact h.reset s hs
  · exact trivial

theorem returnEvent {s : State} (hs : P s) : AllOutcome P Q (returnEvent s) := by
  unfold Machine.returnEvent
  split
  · exact h.deliverReturn (h.setKont _ _ hs)
  · exact trivial

theorem issue {s : State} (hs : P s) (raw : RawOp) : AllOutcome P Q (issue raw s) := by
  unfold Machine.issue
  split
  · exact h.exec hs _
  · exact trivial

theorem hostStep {s : State} (hs : P s) : AllOutcome P Q (hostStep s) := by
  unfold Machine.hostStep
  split
  · exact hs
  · exact h.issue (h.setHost _ _ hs) _
  · exact h.returnEvent (h.setHost _ _ hs)
  · exact h.resetEvent (h.setHost _ _ hs)

theorem innerStep {s : State} (hs : P s) : AllOutcome P Q (innerStep s) := by
  unfold Machine.innerStep
  split
  · exact hs
  · exact h.issue (h.setKont _ _ hs) _
  · exact h.finish (h.resume (h.setKont _ _ hs) _)

/-- A property that each named update keeps is kept by every step, and holds of what its fault leaves. -/
theorem step {s : State} (hs : P s) : AllOutcome P Q (step s) := by
  unfold Machine.step
  split
  · unfold Machine.stuckStep
    split
    · exact h.resetEvent (h.setHost _ _ hs)
    · intro t ht; cases ht
  · split
    · exact h.hostStep hs
    · exact h.innerStep hs

end ClosedStep

end Sys2Proof.Machine
end

