-- ==== Sys2Proof/Laws/Stacks.lean ====
section
/-! SUPPORT. What an operation does to the three stacks of the state: the suspended operations, the dispatch frames and
the wait frames. An operation leaves the suspended operations alone, and every frame it leaves behind belongs to a
position it suspends at. -/

set_option Elab.async false

namespace Sys2Proof.Machine

/-- The suspended operations, and how many dispatch and wait frames there are. -/
structure Shape where
  kont : List Kont
  dispatch : Nat
  waits : Nat

/-- The shape of a state. -/
def State.shape (s : State) : Shape := ⟨s.kont, s.dispatch.length, s.waits.length⟩

/-- The shape with the frames that belong to positions `ks` on top. -/
def Shape.plus (σ : Shape) (ks : List Kont) : Shape := ⟨σ.kont, σ.dispatch + handlerCount ks, σ.waits + haltCount ks⟩

/-- A piece of an operation ends with shape `σ`, but for the frames of the positions it suspends at. -/
def Run.Ends (σ : Shape) : Run → Prop
  | .done t => t.shape = σ
  | .susp t ks => t.shape = σ.plus ks
  | .fault _ => True

theorem handlerCount_append (a b : List Kont) : handlerCount (a ++ b) = handlerCount a + handlerCount b := by
  simp [handlerCount]

theorem haltCount_append (a b : List Kont) : haltCount (a ++ b) = haltCount a + haltCount b := by
  simp [haltCount]

theorem Shape.plus_append (σ : Shape) (a b : List Kont) : (σ.plus a).plus b = σ.plus (a ++ b) := by
  simp [Shape.plus, handlerCount_append, haltCount_append, Nat.add_assoc]

theorem Shape.plus_comm (σ : Shape) (a b : List Kont) : (σ.plus a).plus b = (σ.plus b).plus a := by
  simp [Shape.plus, Nat.add_right_comm]

/-- A first part that ends with the frames of position `k`, then a second that removes them. -/
theorem Run.Ends.andThen {σ : Shape} {r : Run} {k : Kont} {f : State → Run} (hr : r.Ends (σ.plus [k]))
    (hf : ∀ t, t.shape = σ.plus [k] → (f t).Ends σ) : (r.andThen k f).Ends σ := by
  cases r with
  | done s => exact hf s hr
  | susp s ks => rw [Run.andThen, Run.Ends, ← Shape.plus_append, Shape.plus_comm]; exact hr
  | fault e => exact trivial

/-- The same at a position that has no frame. -/
theorem Run.Ends.andThen_plain {σ : Shape} {r : Run} {k : Kont} {f : State → Run} (hk : σ.plus [k] = σ) (hr : r.Ends σ)
    (hf : ∀ t, t.shape = σ → (f t).Ends σ) : (r.andThen k f).Ends σ :=
  Run.Ends.andThen (by rw [hk]; exact hr) (by rw [hk]; exact hf)

theorem plus_none (σ : Shape) {k : Kont} (h1 : k.isHandler = false) (h2 : k.isHalt = false) : σ.plus [k] = σ := by
  simp [Shape.plus, handlerCount, haltCount, h1, h2]

theorem Run.Ends.ite {σ : Shape} {c : Prop} [Decidable c] {a b : Run} (ha : a.Ends σ) (hb : b.Ends σ) :
    (if c then a else b).Ends σ := by split <;> assumption

variable {σ : Shape} {s : State}

theorem withChannel_ends {ch : Byte} {f : Fin 4 → Run} (hf : ∀ c, (f c).Ends σ) : (withChannel ch s f).Ends σ := by
  unfold withChannel; split
  · exact hf _
  · exact trivial

theorem withSource_ends {i : Byte} {f : Fin nIrq → Run} (hf : ∀ c, (f c).Ends σ) : (withSource i s f).Ends σ := by
  unfold withSource; split
  · exact hf _
  · exact trivial

/-! ### Operations that only write data -/

@[simp] theorem shape_setRegBit (o i : Nat) (b : Bool) : (s.setRegBit o i b).shape = s.shape := rfl
@[simp] theorem shape_setIme (b : Bool) : (s.setIme b).shape = s.shape := rfl

theorem shape_ackEvent (i : Fin nIrq) : (ackEvent s i).shape = s.shape := by
  simp [State.shape, ackEvent]

@[simp] theorem shape_irqAcknowledge (i : Fin nIrq) : (irqAcknowledge s i).shape = s.shape := by
  unfold irqAcknowledge; split
  · exact shape_ackEvent i
  · rfl

@[simp] theorem shape_irqSetMaster (b : Bool) : (irqSetMaster s b).shape = s.shape := by
  simp only [irqSetMaster]; split
  · rfl
  · next f fs h =>
    have : s.dispatch = f :: fs := h
    simp [State.shape, this]; exact ⟨rfl, rfl⟩

theorem shape_storeReg (o : Nat) (v : Half) : (storeReg s o v).shape = s.shape := by
  unfold storeReg; split <;> first | rfl | (unfold reloadRef; split <;> rfl)

theorem shape_reloadRef (r : BgRef) : (reloadRef s r).shape = s.shape := by cases r <;> rfl

theorem shape_writeIe (old new : Half) : (writeIe s old new).shape = s.shape := by
  unfold writeIe
  generalize allSources = l
  induction l generalizing s with
  | nil => rfl
  | cons i l ih => rw [List.foldl_cons, ih]; split <;> rfl

theorem shape_writeIf (wr : Half) : (writeIf s wr).shape = s.shape := by
  unfold writeIf
  generalize allSources = l
  induction l generalizing s with
  | nil => rfl
  | cons i l ih =>
    rw [List.foldl_cons, ih]; split
    · exact shape_irqAcknowledge i
    · rfl

theorem shape_dmaRegWrite (off unit v : Nat) : (dmaRegWrite s off unit v).shape = s.shape := by
  simp only [dmaRegWrite]; split
  · rw [shape_storeReg, shape_storeReg]
  · rw [shape_storeReg]

theorem shape_dmaWrite {addr : Word} {unit v : Nat} {t : State} (h : dmaWrite s addr unit v = .ok t) :
    t.shape = s.shape := by
  simp only [dmaWrite] at h
  split at h
  · split at h
    · cases h
    · cases h; exact shape_dmaRegWrite _ _ _
  · cases h; rfl
  · cases h; rfl
  · cases h; rfl
  · split at h
    · cases h; rfl
    · cases h

theorem shape_dmaUnit {ch : Fin 4} {c : Half} {t : State} (h : dmaUnit ch c s = .ok t) : t.shape = s.shape := by
  simp only [dmaUnit] at h
  split at h
  · cases h
  · split at h
    · cases h
    · split at h
      · cases h
      · next s1 he => cases h; exact Eq.trans (b := s1.shape) rfl (shape_dmaWrite he)

theorem shape_dmaUnits {ch : Fin 4} {c : Half} (n : Nat) {t : State} (h : dmaUnits ch c n s = .ok t) :
    t.shape = s.shape := by
  induction n generalizing s with
  | zero => cases h; rfl
  | succ n ih =>
    unfold dmaUnits at h
    split at h
    · cases h
    · next s1 he => rw [ih h, shape_dmaUnit he]

theorem shape_dmaXfer {ch : Fin 4} {t : State} (h : dmaXfer s ch = .ok t) : t.shape = s.shape := shape_dmaUnits _ h

theorem shape_bgText (n : Fin 4) (y : Nat) : (bgText s n y).shape = s.shape := by unfold bgText; split <;> rfl

theorem shape_bgAffine (n : Fin 4) (y : Nat) : (bgAffine s n y).shape = s.shape := by unfold bgAffine; split <;> rfl

theorem shape_objLine (y : Nat) : (objLine s y).shape = s.shape := by unfold objLine; split <;> rfl

theorem shape_useFreeOff (px y : Nat) : (s.useFreeOff px y).shape = s.shape := by
  unfold State.useFreeOff; split <;> rfl

theorem shape_renderLayers (y : Nat) : (renderLayers s y).shape = s.shape := by
  have hf : ∀ (l : List (Fin 4)) (t : State), (l.foldl (renderLayer y) t).shape = t.shape := by
    intro l
    induction l with
    | nil => exact fun t => rfl
    | cons n l ih =>
      intro t
      rw [List.foldl_cons, ih]
      unfold renderLayer
      split
      · split <;> first | exact shape_bgText _ _ | exact shape_bgAffine _ _ | rfl
      · rfl
  simp only [renderLayers]
  split
  · rw [shape_objLine]; exact hf _ _
  · exact hf _ _

theorem shape_greenSwap : (greenSwap s).shape = s.shape := by unfold greenSwap; split <;> rfl

theorem shape_commit (y : Nat) : (commit s y).shape = s.shape := by unfold commit; split <;> rfl

theorem shape_renderLine (y : Nat) : (renderLine s y).shape = s.shape := by
  have : (outputLine s y).shape = s.shape := by
    unfold outputLine; split
    · rfl
    · rw [shape_greenSwap, composeLine, shape_useFreeOff]; exact shape_renderLayers y
  exact Eq.trans rfl ((shape_commit y).trans this)

theorem shape_advanceBegin : (advanceBegin s).shape = s.shape := by
  simp only [advanceBegin]
  split
  · rw [shape_renderLine]; split <;> rfl
  · split <;> rfl

/-! ### Operations that deliver -/

theorem shape_deliverEntry (i : Fin nIrq) :
    (deliverEntry s i).shape = ⟨s.kont, s.dispatch.length + 1, s.waits.length⟩ := by
  have h1 := shape_ackEvent (s := s.setRegBit Reg.irf i.val false) i
  simp only [State.shape, Shape.mk.injEq] at h1
  have h2 : ∀ f : DispatchFrame, ((ackEvent (s.setRegBit Reg.irf i.val false) i).setDispatch
      (f :: (ackEvent (s.setRegBit Reg.irf i.val false) i).dispatch)).shape =
      ⟨s.kont, s.dispatch.length + 1, s.waits.length⟩ := fun f => by
    simp only [State.shape, Shape.mk.injEq]
    exact ⟨h1.1, congrArg (· + 1) h1.2.1, h1.2.2⟩
  simp only [deliverEntry]
  split
  · exact h2 _
  · exact h2 _

theorem shape_deliverReturn {k : List Kont} {d w : Nat} (h : s.shape = ⟨k, d + 1, w⟩) :
    (deliverReturn s).shape = ⟨k, d, w⟩ := by
  simp only [State.shape, Shape.mk.injEq] at h
  obtain ⟨h1, h2, h3⟩ := h
  unfold deliverReturn
  split
  · next hd => simp [hd] at h2
  · next f fs hd =>
    have hl : fs.length = d := by simpa [hd] using h2
    split
    · simp [State.shape, h1, hl, h3]
    · simp only [State.shape, Shape.mk.injEq]; exact ⟨h1, hl, h3⟩

theorem deliver_ends (i : Fin nIrq) (h : s.shape = σ) : (deliver s i).Ends σ := by
  have he := shape_deliverEntry (s := s) i
  obtain rfl := h
  simp only [deliver]
  split
  · exact shape_deliverReturn he
  · exact he
  · exact he

theorem raise_ends (i : Fin nIrq) (h : s.shape = σ) : (raise s i).Ends σ := by
  simp only [raise]
  exact Run.Ends.ite (deliver_ends i h) h

theorem dispatchLoop_ends (n : Nat) (h : s.shape = σ) : (dispatchLoop n s).Ends σ := by
  induction n generalizing s with
  | zero => exact h
  | succ n ih =>
    unfold dispatchLoop
    split
    · exact h
    · exact Run.Ends.andThen_plain (plus_none _ rfl rfl) (deliver_ends _ h) (fun t ht => ih ht)

theorem irqDispatch_ends (h : s.shape = σ) : (irqDispatch s).Ends σ := dispatchLoop_ends _ h

theorem tmrOverflow_ends (ch : Fin 4) (h : s.shape = σ) : (tmrOverflow s ch).Ends σ := by
  simp only [tmrOverflow]
  exact Run.Ends.ite (raise_ends _ h) h

theorem tmrCount_ends (ch : Fin 4) {f : State → Run} (h : s.shape = σ) (hf : ∀ t, t.shape = σ → (f t).Ends σ) :
    (tmrCount ch f s).Ends σ := by
  simp only [tmrCount]
  exact Run.Ends.ite (Run.Ends.andThen_plain (plus_none _ rfl rfl) (tmrOverflow_ends ch h) hf) h

theorem tickUp_ends (n : Nat) (h : s.shape = σ) : (tickUp n s).Ends σ := by
  induction n generalizing s with
  | zero => exact tmrCount_ends 3 h (fun t ht => ht)
  | succ n ih => exact tmrCount_ends _ h (fun t ht => Run.Ends.ite (ih ht) ht)

theorem tmrTick_ends (ch : Fin 4) (h : s.shape = σ) : (tmrTick s ch).Ends σ := tickUp_ends _ h

theorem tickCascade_ends (ch : Fin 4) (h : s.shape = σ) : (tickCascade s ch).Ends σ := by
  unfold tickCascade
  split
  · exact Run.Ends.ite (tmrTick_ends _ h) h
  · exact h

theorem tickSlot_ends (ch : Fin 4) (h : s.shape = σ) : (tickSlot s ch).Ends σ := by
  simp only [tickSlot]
  exact Run.Ends.ite (Run.Ends.ite (tmrTick_ends _ h) h) h

theorem tickSlots_ends (n : Nat) (h : s.shape = σ) : (tickSlots n s).Ends σ := by
  induction n generalizing s with
  | zero => exact h
  | succ n ih => exact Run.Ends.andThen_plain (plus_none _ rfl rfl) (tickSlot_ends _ h) (fun t ht => ih ht)

theorem dmaComplete_ends (ch : Fin 4) (h : s.shape = σ) : (dmaComplete s ch).Ends σ := by
  have h1 : (if DmaCtl.timing (s.dmaCtl ch) = 0 ∨ DmaCtl.repeats (s.dmaCtl ch) = false then
      s.setRegBit (Reg.dmaCntH ch) 15 false else dmaReload s ch).shape = σ := by split <;> exact h
  simp only [dmaComplete]
  exact Run.Ends.ite (raise_ends _ h1) h1

theorem dmaTransfer_ends (ch : Fin 4) (h : s.shape = σ) : (dmaTransfer s ch).Ends σ := by
  unfold dmaTransfer
  split
  · exact trivial
  · next s1 he => exact dmaComplete_ends ch ((shape_dmaXfer he).trans h)

theorem dmaConfigure_ends (ch : Fin 4) (src dst : Word) (count flags : Half) (h : s.shape = σ) :
    (dmaConfigure s ch src dst count flags).Ends σ := by
  simp only [dmaConfigure]
  exact Run.Ends.ite trivial (Run.Ends.ite trivial (Run.Ends.ite trivial (Run.Ends.ite trivial
    (Run.Ends.ite (dmaTransfer_ends ch h) h))))

theorem fireFrom_ends (timing : BitVec 2) (n : Nat) (h : s.shape = σ) : (fireFrom timing n s).Ends σ := by
  induction n generalizing s with
  | zero => exact h
  | succ n ih =>
    exact Run.Ends.andThen_plain (plus_none _ rfl rfl) (Run.Ends.ite (dmaTransfer_ends _ h) h) (fun t ht => ih ht)

/-! ### The scheduler -/

theorem advanceHblankRaise_ends (l : BitVec 8) (h : s.shape = σ) : (advanceHblankRaise l s).Ends σ :=
  Run.Ends.andThen_plain (plus_none _ rfl rfl) (raise_ends _ h) (fun _ ht => tickSlots_ends _ ht)

theorem advanceVcount_ends (l : BitVec 8) (h : s.shape = σ) : (advanceVcount l s).Ends σ :=
  Run.Ends.andThen_plain (plus_none _ rfl rfl) (Run.Ends.ite (raise_ends _ h) h)
    (fun _ ht => advanceHblankRaise_ends l ht)

theorem advanceHblankPoint_ends (l : BitVec 8) (h : s.shape = σ) : (advanceHblankPoint l s).Ends σ :=
  Run.Ends.andThen_plain (plus_none _ rfl rfl) (Run.Ends.ite (fireFrom_ends _ _ h) h)
    (fun _ ht => advanceVcount_ends l ht)

theorem advanceVblankRaise_ends (l : BitVec 8) (h : s.shape = σ) : (advanceVblankRaise l s).Ends σ :=
  Run.Ends.andThen_plain (plus_none _ rfl rfl) (raise_ends _ h) (fun _ ht => advanceHblankPoint_ends l ht)

theorem advance_ends (h : s.shape = σ) : (advance s).Ends σ := by
  have h1 : (advanceBegin s).shape = σ := shape_advanceBegin.trans h
  simp only [advance]
  exact Run.Ends.ite (Run.Ends.andThen_plain (plus_none _ rfl rfl) (fireFrom_ends _ _ h1)
    (fun _ ht => advanceVblankRaise_ends _ ht)) (advanceHblankPoint_ends _ h1)

theorem haltTest_ends (h : s.shape = σ.plus [.haltTest]) : (haltTest s).Ends σ := by
  simp only [State.shape, Shape.plus, handlerCount, haltCount, Shape.mk.injEq] at h
  obtain ⟨h1, h2, h3⟩ := h
  unfold haltTest
  split
  · next hw => simp [hw, Kont.isHalt] at h3
  · next w ws hw =>
    refine Run.Ends.ite ?_ ?_
    · simp [Run.Ends, State.shape, Shape.plus, handlerCount, haltCount, h1, h2, h3, Kont.isHalt, Kont.isHandler]
    · cases σ
      simp only [hw, List.length_cons, List.countP_cons, List.countP_nil, Kont.isHalt] at h3
      simp_all [Run.Ends, State.shape, Kont.isHandler]

theorem haltPoll_ends (h : s.shape = σ.plus [.haltPoll]) : (haltPoll s).Ends σ :=
  Run.Ends.andThen (irqDispatch_ends h) (fun _ ht => haltTest_ends ht)

theorem haltAdvance_ends (h : s.shape = σ.plus [.haltAdvance]) : (haltAdvance s).Ends σ :=
  Run.Ends.andThen (advance_ends h) (fun _ ht => haltPoll_ends ht)

theorem haltLoop_ends (h : s.shape = σ.plus [.haltLoop]) : (haltLoop s).Ends σ := by
  unfold haltLoop
  split
  · exact haltAdvance_ends h
  · exact haltAdvance_ends h
  · exact Run.Ends.andThen (withSource_ends (fun j => raise_ends j h)) (fun _ ht => haltAdvance_ends ht)

theorem haltUntil_ends (mask : Half) (h : s.shape = σ) : (haltUntil s mask).Ends σ := by
  obtain rfl := h
  simp only [haltUntil]
  refine Run.Ends.ite trivial ?_
  simp [Run.Ends, State.shape, Shape.plus, handlerCount, haltCount, Kont.isHalt, Kont.isHandler]

/-! ### Register writes and the host bus -/

theorem regWrite16_ends (o : Nat) (old new wr : Half) (h : s.shape = σ) : (regWrite16 s o old new wr).Ends σ := by
  unfold regWrite16
  split
  · unfold writeDmaCntH; exact Run.Ends.ite (dmaConfigure_ends _ _ _ _ _ h) h
  · show (writeTmrCntH s _ new).shape = σ
    unfold writeTmrCntH; split <;> exact h
  · exact (shape_writeIe _ _).trans h
  · exact (shape_writeIf _).trans h
  · exact (shape_irqSetMaster _).trans h
  · exact (shape_storeReg _ _).trans h

theorem regWriteHalf_ends (off : Nat) (d : Half) (h : s.shape = σ) : (regWriteHalf s off d).Ends σ :=
  regWrite16_ends _ _ _ _ h

theorem regWriteWord_ends (off : Nat) (d : Word) (h : s.shape = σ) : (regWriteWord s off d).Ends σ :=
  Run.Ends.andThen_plain (plus_none _ rfl rfl) (regWriteHalf_ends _ _ h) (fun _ ht => regWriteHalf_ends _ _ ht)

theorem hostWrite_ends (addr : Word) (n v : Nat) {reg : Nat → Run} (h : s.shape = σ) (hr : ∀ off, (reg off).Ends σ) :
    (hostWrite s addr n v reg).Ends σ := by
  unfold hostWrite
  refine Run.Ends.ite trivial ?_
  split
  · exact trivial
  · exact hr _
  · exact h
  · exact h
  · exact h

theorem readResult_ends (addr : Word) (n : Nat) (mk : Nat → Result) (h : s.shape = σ) :
    (readResult s addr n mk).Ends σ := by
  unfold readResult
  split
  · exact trivial
  · exact h

/-- What a suspended position still has to do removes exactly the frames of the position. -/
theorem resume_ends (k : Kont) (h : s.shape = σ.plus [k]) : (resume k s).Ends σ := by
  cases k with
  | handlerReturn => cases σ; exact shape_deliverReturn h
  | handlerProgram ops => cases σ; exact shape_deliverReturn h
  | advance l p =>
    rw [plus_none _ rfl rfl] at h
    cases p with
    | vblankRaise => exact advanceVblankRaise_ends l h
    | hblankPoint => exact advanceHblankPoint_ends l h
    | vcountCompare => exact advanceVcount_ends l h
    | hblankRaise => exact advanceHblankRaise_ends l h
    | timerTicks => exact tickSlots_ends _ h
  | fire t n => rw [plus_none _ rfl rfl] at h; exact fireFrom_ends t n h
  | dispatch => rw [plus_none _ rfl rfl] at h; exact irqDispatch_ends h
  | tickCascade ch => rw [plus_none _ rfl rfl] at h; exact tickCascade_ends ch h
  | tickLine n => rw [plus_none _ rfl rfl] at h; exact tickSlots_ends n h
  | writeHigh off d => rw [plus_none _ rfl rfl] at h; exact regWriteHalf_ends off d h
  | haltLoop => exact haltLoop_ends h
  | haltAdvance => exact haltAdvance_ends h
  | haltPoll => exact haltPoll_ends h
  | haltTest => exact haltTest_ends h

/-- An outcome whose state, if there is one, has the frames of its suspended operations. -/
theorem Run.Ends.finish {k : List Kont} {d w : Nat} {r : Run} (h : r.Ends ⟨k, d, w⟩) (hd : d = handlerCount k)
    (hw : w = haltCount k) {t : State} (ht : r.finish = .next t) : t.StacksMatch := by
  cases r with
  | done s =>
    cases ht
    simp only [Run.Ends, State.shape, Shape.mk.injEq] at h
    exact ⟨by rw [h.1, h.2.1, hd], by rw [h.1, h.2.2, hw]⟩
  | susp s ks =>
    cases ht
    simp only [Run.Ends, State.shape, Shape.plus, Shape.mk.injEq] at h
    refine ⟨?_, ?_⟩
    · show s.dispatch.length = handlerCount (ks ++ s.kont)
      rw [h.1, h.2.1, hd, handlerCount_append, Nat.add_comm]
    · show s.waits.length = haltCount (ks ++ s.kont)
      rw [h.1, h.2.2, hw, haltCount_append, Nat.add_comm]
  | fault e => cases ht

theorem State.StacksMatch.of_shape {t : State} (h : s.StacksMatch) (hs : t.shape = s.shape) : t.StacksMatch := by
  simp only [State.shape, Shape.mk.injEq] at hs
  exact ⟨by rw [hs.1, hs.2.1, h.1], by rw [hs.1, hs.2.2, h.2]⟩

/-- Every operation leaves one frame for each position it suspends at. -/
theorem exec_stacks {i : Instr} {t : State} (hm : s.StacksMatch) (ht : exec i s = .next t) : t.StacksMatch := by
  have run : ∀ {r : Run}, r.Ends s.shape → r.finish = .next t → t.StacksMatch :=
    fun hr h => Run.Ends.finish hr hm.1 hm.2 h
  have pure : ∀ {u : State}, u.shape = s.shape → Host.Outcome.next u = exec i s → t.StacksMatch := fun hu h => by
    rw [ht] at h; cases h; exact hm.of_shape hu
  cases i with
  | advance => exact run (advance_ends rfl) ht
  | haltuntil mask => exact run (haltUntil_ends mask rfl) ht
  | haltvbl => exact run (haltUntil_ends 0x0001 rfl) ht
  | halt => exact run (haltUntil_ends (s.x Reg.ie) rfl) ht
  | irqSeten i b => exact run (withSource_ends (i := i) (f := fun i => .done (irqSetEnabled s i b)) (fun _ => rfl)) ht
  | irqRaise i => exact run (withSource_ends (i := i) (f := fun i => raise s i) (fun c => raise_ends c rfl)) ht
  | irqAck i =>
    exact run (withSource_ends (i := i) (f := fun i => .done (irqAcknowledge s i)) (fun c => shape_irqAcknowledge c)) ht
  | irqSetime b => exact run (r := .done _) (shape_irqSetMaster b) ht
  | irqDeliver i => exact run (withSource_ends (i := i) (f := fun i => deliver s i) (fun c => deliver_ends c rfl)) ht
  | irqDispatch => exact run (irqDispatch_ends rfl) ht
  | dmaConfigure ch src dst count flags =>
    exact run (withChannel_ends (ch := ch) (f := fun c => dmaConfigure s c src dst count flags)
      (fun c => dmaConfigure_ends c src dst count flags rfl)) ht
  | dmaStop ch => exact run (withChannel_ends (ch := ch) (f := fun c => .done (dmaStop s c)) (fun _ => rfl)) ht
  | dmaFireHblank => exact run (fireFrom_ends 2 4 rfl) ht
  | dmaFireVblank => exact run (fireFrom_ends 1 4 rfl) ht
  | dmaXfer ch =>
    refine run (withChannel_ends (ch := ch) (f := fun c => Run.ofExcept (dmaXfer s c)) (fun c => ?_)) ht
    cases hx : dmaXfer s c with
    | ok u => exact shape_dmaXfer hx
    | error e => exact trivial
  | tmrStart ch reload p k q =>
    exact run (withChannel_ends (ch := ch) (f := fun c => .done (tmrStart s c reload p k q)) (fun _ => rfl)) ht
  | tmrStop ch => exact run (withChannel_ends (ch := ch) (f := fun c => .done (tmrStop s c)) (fun _ => rfl)) ht
  | tmrTickline => exact run (tickSlots_ends _ rfl) ht
  | tmrTick ch => exact run (withChannel_ends (ch := ch) (f := fun c => tmrTick s c) (fun c => tmrTick_ends c rfl)) ht
  | tmrMscfg ms => cases ht; exact hm.of_shape rfl
  | ppuRenderline y => exact pure (shape_renderLine y.toNat) rfl
  | ppuFramestart => exact pure (u := frameStart s) rfl rfl
  | ppuBgText n y => exact pure (shape_bgText (channelOf n) y.toNat) rfl
  | ppuBgAffine k y => exact pure (shape_bgAffine (channelOf k) y.toNat) rfl
  | ppuBgBitmap3 y => exact pure (u := bgBitmap3 s y.toNat) rfl rfl
  | ppuBgBitmap4 y => exact pure (u := bgBitmap4 s y.toNat) rfl rfl
  | ppuBgBitmap5 y => exact pure (u := bgBitmap5 s y.toNat) rfl rfl
  | ppuObj y => exact pure (shape_objLine y.toNat) rfl
  | ppuSort => cases ht; exact hm.of_shape rfl
  | ppuWindow x y => cases ht; exact hm.of_shape (shape_useFreeOff x.toNat y.toNat)
  | ppuEffect x => cases ht; exact hm.of_shape (shape_useFreeOff x.toNat 0)
  | ppuGreenswap => exact pure shape_greenSwap rfl
  | ppuCommit y => exact pure (shape_commit y.toNat) rfl
  | ppuSwap => cases ht; exact hm.of_shape rfl
  | ppuGetframe => cases ht; exact hm.of_shape rfl
  | rd8 a => exact run (readResult_ends a 1 _ rfl) ht
  | rd16 a => exact run (readResult_ends a 2 _ rfl) ht
  | rd32 a => exact run (readResult_ends a 4 _ rfl) ht
  | wr8 a d => exact run (hostWrite_ends a 1 _ rfl (fun off => regWrite16_ends _ _ _ _ rfl)) ht
  | wr16 a d => exact run (hostWrite_ends a 2 _ rfl (fun off => regWriteHalf_ends off d rfl)) ht
  | wr32 a d => exact run (hostWrite_ends a 4 _ rfl (fun off => regWriteWord_ends off d rfl)) ht
  | hookDmaConfigure ch w => exact run (dmaConfigure_ends _ _ _ _ _ rfl) ht
  | hookDmaStop ch w => cases ht; exact hm.of_shape rfl
  | hookTmrStart ch w => cases ht; exact hm.of_shape rfl
  | hookTmrStop ch w => cases ht; exact hm.of_shape rfl
  | hookIrqSeten w => exact run (r := .done _) (shape_writeIe _ _) ht
  | hookIrqAck w => exact run (r := .done _) (shape_writeIf w) ht
  | hookIrqSetime w => exact run (r := .done _) (shape_irqSetMaster _) ht
  | bgRefReload r hi w => cases ht; exact hm.of_shape ((shape_reloadRef r).trans rfl)

end Sys2Proof.Machine
end

