-- ==== Sys2Proof/Laws/Sequencing.lean ====
section
/-! SUPPORT. One operation after another, as runs and as outcomes: `thenAt` of what the parts answer is what the run of the
parts one after another answers. -/

set_option Elab.async false

namespace Sys2Proof.Machine

/-- A piece that stops leaves a position. -/
def Run.Stops : Run → Prop
  | .done _ => True
  | .susp _ ks => ks ≠ []
  | .fault _ => True

theorem Run.Stops.andThen (r : Run) (k : Kont) {f : State → Run} (hf : ∀ t, (f t).Stops) : (r.andThen k f).Stops := by
  cases r with
  | done s => exact hf s
  | susp s ks => simp [Run.andThen, Run.Stops]
  | fault e => exact trivial

theorem Run.Stops.ite {c : Prop} [Decidable c] {a b : Run} (ha : a.Stops) (hb : b.Stops) : (if c then a else b).Stops := by
  split <;> assumption

variable (s : State)

theorem deliver_stops (i : Fin nIrq) : (deliver s i).Stops := by
  simp only [deliver]; split <;> simp [Run.Stops]

theorem raise_stops (i : Fin nIrq) : (raise s i).Stops := Run.Stops.ite (deliver_stops _ _) trivial

theorem withSource_stops (i : Byte) {f : Fin nIrq → Run} (hf : ∀ j, (f j).Stops) : (withSource i s f).Stops := by
  unfold withSource; split
  · exact hf _
  · exact trivial

theorem irqDispatch_stops : (irqDispatch s).Stops := by
  unfold irqDispatch
  generalize nIrq = n
  induction n generalizing s with
  | zero => exact trivial
  | succ n ih =>
    unfold dispatchLoop; split
    · exact trivial
    · exact Run.Stops.andThen _ _ ih

theorem tmrCount_stops (ch : Fin 4) {f : State → Run} (hf : ∀ t, (f t).Stops) : (tmrCount ch f s).Stops :=
  Run.Stops.ite (Run.Stops.andThen _ _ hf) trivial

theorem tickUp_stops (n : Nat) : (tickUp n s).Stops := by
  induction n generalizing s with
  | zero => exact tmrCount_stops s 3 (fun _ => trivial)
  | succ n ih => exact tmrCount_stops s _ (fun t => Run.Stops.ite (ih t) trivial)

theorem tmrTick_stops (ch : Fin 4) : (tmrTick s ch).Stops := tickUp_stops s _

theorem tickSlot_stops (ch : Fin 4) : (tickSlot s ch).Stops :=
  Run.Stops.ite (Run.Stops.ite (tmrTick_stops _ _) trivial) trivial

theorem dmaComplete_stops (ch : Fin 4) : (dmaComplete s ch).Stops := Run.Stops.ite (raise_stops _ _) trivial

theorem dmaTransfer_stops (ch : Fin 4) : (dmaTransfer s ch).Stops := by
  unfold dmaTransfer; split
  · exact trivial
  · exact dmaComplete_stops _ _

theorem fireFrom_stops (timing : BitVec 2) (n : Nat) : (fireFrom timing n s).Stops := by
  induction n generalizing s with
  | zero => exact trivial
  | succ n ih => exact Run.Stops.andThen _ _ ih

theorem tickSlots_stops (n : Nat) : (tickSlots n s).Stops := by
  induction n generalizing s with
  | zero => exact trivial
  | succ n ih => exact Run.Stops.andThen _ _ ih

theorem advanceHblankRaise_stops (l : BitVec 8) : (advanceHblankRaise l s).Stops :=
  Run.Stops.andThen _ _ (fun _ => tickSlots_stops _ _)

theorem advanceVcount_stops (l : BitVec 8) : (advanceVcount l s).Stops :=
  Run.Stops.andThen _ _ (fun _ => advanceHblankRaise_stops _ l)

theorem advanceHblankPoint_stops (l : BitVec 8) : (advanceHblankPoint l s).Stops :=
  Run.Stops.andThen _ _ (fun _ => advanceVcount_stops _ l)

theorem advance_stops : (advance s).Stops :=
  Run.Stops.ite (Run.Stops.andThen _ _ (fun _ => Run.Stops.andThen _ _ (fun _ => advanceHblankPoint_stops _ _)))
    (advanceHblankPoint_stops _ _)

/-- `thenAt` of a first part that answers `r` is what `r.andThen` answers, if the rests agree where `r` completes. -/
theorem thenAt_finish {s : State} {first rest : State → Host.Outcome State Fault Refusal} {k : Kont} {r : Run}
    {f : State → Run} (h1 : first s = r.finish) (he : r.Ends s.shape) (hs : r.Stops)
    (hf : ∀ t, r = .done t → rest t = (f t).finish) : thenAt first k rest s = (r.andThen k f).finish := by
  unfold thenAt
  rw [h1]
  cases r with
  | done t =>
    have : t.kont = s.kont := congrArg Shape.kont he
    simp only [Run.finish, Run.andThen, this, if_true]
    exact hf t rfl
  | susp t ks =>
    have hk : t.kont = s.kont := congrArg Shape.kont he
    have hks : ks ≠ [] := hs
    have hne : ks ++ s.kont ≠ s.kont := fun h => hks (List.append_left_eq_self.mp h)
    simp only [Run.finish, Run.andThen, State.setKont_kont, hk, hne, if_false, List.length_append, Nat.add_sub_cancel,
      List.take_left, List.append_assoc, List.singleton_append]
    rfl
  | fault e => rfl

end Sys2Proof.Machine
end

