-- ==== Sys2Proof/Laws/Timers.lean ====
section
/-! SUPPORT. What one count of a timer does when its interrupt, if it raises one, stops at no handler (`43_timers.md` R214). -/

set_option Elab.async false

namespace Sys2Proof.Machine

variable (s : State)

/-- A raise that stops at no handler, because the master enable is clear or the source has none: the source is pending, or,
where it is deliverable, acknowledged and recorded in every wait frame (`41_interrupts.md` R153, R156). -/
theorem raise_completes {i : Fin nIrq} (h : s.ime = false ∨ s.cfg.handlerOf i = .absent) :
    ∃ t, raise s i = .done t ∧
      (∀ o, t.x o = if o = Reg.irf then withBit (s.x Reg.irf) i.val (!s.deliverable i) else s.x o) ∧
      t = { s with
        regs := t.regs
        waits := if s.deliverable i = true then recordAck (1#14 <<< i.val) s.waits else s.waits } := by
  rcases h with h | h
  · have hd := deliverable_of_ime s (i := i) h
    refine ⟨_, raise_quiet s hd, fun o => ?_, ?_⟩
    · rw [State.x_setRegBit, hd]; rfl
    · rw [hd]; rfl
  · exact raise_absent s h

/-- Everything one count of timer `ch` does, and that the cascade goes on from there after an overflow only. -/
theorem tmrCount_completes {ch : Fin 4} (h : s.ime = false ∨ s.cfg.handlerOf (timerSource ch) = .absent) :
    ∃ t, (∀ cascade : State → Run, tmrCount ch cascade s =
        if (s.tmr.get ch).counter = 0xFFFF then cascade t else .done t) ∧
      (∀ o, t.x o = if o = Reg.irf ∧ (s.tmr.get ch).counter = 0xFFFF ∧ TmrCtl.irq (s.tmrCtl ch) = true then
          withBit (s.x Reg.irf) (timerSource ch).val (!s.deliverable (timerSource ch))
        else s.x o) ∧
      (∀ c, t.tmr.get c = if c = ch then { s.tmr.get ch with
          counter := if (s.tmr.get ch).counter = 0xFFFF then (s.tmr.get ch).reload else (s.tmr.get ch).counter + 1 }
        else s.tmr.get c) ∧
      t = { s with
        regs := t.regs
        tmr := t.tmr
        waits := if (s.tmr.get ch).counter = 0xFFFF ∧ TmrCtl.irq (s.tmrCtl ch) = true ∧
            s.deliverable (timerSource ch) = true then recordAck (1#14 <<< (timerSource ch).val) s.waits
          else s.waits } := by
  have key : ∀ (v : Timer) (c : Fin 4), ((s.setTmr ch v).tmr).get c = if c = ch then v else s.tmr.get c :=
    fun v c => Four.get_set s.tmr ch c v
  by_cases hc : (s.tmr.get ch).counter = 0xFFFF
  · simp only [tmrCount, if_pos hc]
    by_cases hi : TmrCtl.irq (s.tmrCtl ch) = true
    · obtain ⟨t, ht, hx, he⟩ := raise_completes
        (s.setTmr ch { s.tmr.get ch with counter := (s.tmr.get ch).reload }) (i := timerSource ch) h
      have ho : tmrOverflow s ch = .done t := (if_pos hi).trans ht
      rw [show (s.setTmr ch { s.tmr.get ch with counter := (s.tmr.get ch).reload }).deliverable (timerSource ch) =
        s.deliverable (timerSource ch) from rfl] at he
      refine ⟨t, fun cascade => by rw [ho]; rfl, fun o => ?_, fun c => by rw [he]; exact key _ c, ?_⟩
      · by_cases hr : o = Reg.irf
        · rw [if_pos ⟨hr, hc, hi⟩, hx, if_pos hr]; rfl
        · rw [if_neg (fun h => hr h.1), hx, if_neg hr]; rfl
      · by_cases hd : s.deliverable (timerSource ch) = true
        · rw [if_pos ⟨hc, hi, hd⟩]; rw [if_pos hd] at he; rw [he]; rfl
        · rw [if_neg (fun h => hd h.2.2)]; rw [if_neg hd] at he; rw [he]; rfl
    · have ho : tmrOverflow s ch = .done (s.setTmr ch { s.tmr.get ch with counter := (s.tmr.get ch).reload }) := if_neg hi
      refine ⟨_, fun cascade => by rw [ho]; rfl, fun o => ?_, fun c => key _ c, ?_⟩
      · rw [if_neg (fun h => hi h.2.2)]; rfl
      · rw [if_neg (fun h => hi h.2.1)]; rfl
  · simp only [tmrCount, if_neg hc]
    refine ⟨_, fun _ => rfl, fun o => ?_, fun c => key _ c, ?_⟩
    · rw [if_neg (fun h => hc h.2.1)]; rfl
    · rw [if_neg (fun h => hc h.1)]; rfl

end Sys2Proof.Machine
end

