-- ==== Sys2Proof/Tests/Slice0.lean ====
section
/-! SUPPORT. The model's own tests: ill-formed operations refused, words written out from the spec's operation map, single
steps with the results of spec/95_test_vectors.md (each named by its id there), and a state for the hypotheses of every
statement. -/

set_option Elab.async false

namespace Sys2Proof.Tests

open Sys2Proof Sys2Proof.Machine

/-! ### Small states -/

/-- The reset state with some registers stored. -/
def withRegs (l : List (Nat × Half)) : State := l.foldl (fun t p => t.setReg p.1 p.2) State.reset

/-- One mapped external range. -/
def withExt (base size : Nat) (bytes : List Host.Cell) (writable : Bool) (s : State) : State :=
  { s with cfg := { s.cfg with extMem := [⟨base, size, bytes, writable⟩] } }

/-- Handlers for the sources, from index 0. -/
def withHandlers (hs : List Handler) (s : State) : State := { s with cfg := { s.cfg with handlers := hs } }

/-- What `f` reads in the state an operation leaves, if it gives one. -/
def after {α : Type} (i : Instr) (s : State) (f : State → α) : Option α :=
  match exec i s with
  | .next t => some (f t)
  | .fault _ => none
  | .refused _ => none

/-- What `f` reads in the state one step leaves, if it gives one. -/
def stepped {α : Type} (s : State) (f : State → α) : Option α :=
  match step s with
  | .next t => some (f t)
  | .fault _ => none
  | .refused _ => none

theorem exists_next {i : Instr} {s : State} (h : (after i s (fun _ => ())).isSome = true) : ∃ t, exec i s = .next t := by
  unfold after at h
  split at h
  · next t ht => exact ⟨t, ht⟩
  · cases h
  · cases h

/-! ### Ill-formed operations -/

/-- Log 27: no operand value is refused. -/
theorem test_lines_and_columns_well_formed : (Instr.ppuRenderline 160).wellFormed = true ∧
    (Instr.ppuBgAffine 1 255).wellFormed = true ∧ (Instr.ppuBgBitmap5 160).wellFormed = true ∧
    (Instr.ppuWindow 240 160).wellFormed = true := by decide
theorem test_hook_enable_bit_refused : (Instr.hookDmaConfigure 0 0x7FFF).wellFormed = false ∧
    (Instr.hookDmaStop 0 0x8000).wellFormed = false ∧ (Instr.hookTmrStart 0 0xFF7F).wellFormed = false ∧
    (Instr.hookTmrStop 0 0x0080).wellFormed = false := by decide

/-! ### Words written out from R101, R102, R103 and R120 -/

theorem test_decode_scheduler : decode (.port 0x01) = .ok .advance ∧ decode (.port 0x800102) = .ok (.haltuntil 0x8001) ∧
    decode (.port 0x03) = .ok .haltvbl ∧ decode (.port 0x04) = .ok .halt := ⟨rfl, rfl, rfl, rfl⟩
theorem test_decode_interrupts : decode (.port 0x010310) = .ok (.irqSeten 3 true) ∧
    decode (.port 0x0D11) = .ok (.irqRaise 13) ∧ decode (.port 0xFF12) = .ok (.irqAck 0xFF) ∧
    decode (.port 0x0113) = .ok (.irqSetime true) ∧ decode (.port 0x0814) = .ok (.irqDeliver 8) ∧
    decode (.port 0x15) = .ok .irqDispatch := ⟨rfl, rfl, rfl, rfl, rfl, rfl⟩
theorem test_decode_dma : decode (.port 0x840000040600000002000000_0320) =
      .ok (.dmaConfigure 3 0x02000000 0x06000000 4 0x8400) ∧
    decode (.port 0x0221) = .ok (.dmaStop 2) ∧ decode (.port 0x22) = .ok .dmaFireHblank ∧
    decode (.port 0x23) = .ok .dmaFireVblank ∧ decode (.port 0x0124) = .ok (.dmaXfer 1) := ⟨rfl, rfl, rfl, rfl, rfl⟩
theorem test_decode_timers : decode (.port 0x7FFFE0130) = .ok (.tmrStart 1 0xFFFE 3 true false) ∧
    decode (.port 0x0331) = .ok (.tmrStop 3) ∧ decode (.port 0x32) = .ok .tmrTickline ∧
    decode (.port 0x0233) = .ok (.tmrTick 2) ∧ decode (.port 0x0000003234) = .ok (.tmrMscfg 50) :=
  ⟨rfl, rfl, rfl, rfl, rfl⟩
theorem test_decode_compositor : decode (.port 0x9F40) = .ok (.ppuRenderline 159) ∧
    decode (.port 0x41) = .ok .ppuFramestart ∧ decode (.port 0x27F42) = .ok (.ppuBgText 3 159) ∧
    decode (.port 0x1643) = .ok (.ppuBgAffine 2 5) ∧ decode (.port 0x0144) = .ok (.ppuBgBitmap3 1) ∧
    decode (.port 0x0245) = .ok (.ppuBgBitmap4 2) ∧ decode (.port 0x0346) = .ok (.ppuBgBitmap5 3) ∧
    decode (.port 0x0447) = .ok (.ppuObj 4) := ⟨rfl, rfl, rfl, rfl, rfl, rfl, rfl, rfl⟩
theorem test_decode_compose : decode (.port 0x48) = .ok .ppuSort ∧ decode (.port 0x9FEF49) = .ok (.ppuWindow 239 159) ∧
    decode (.port 0xEF4A) = .ok (.ppuEffect 239) ∧ decode (.port 0x4B) = .ok .ppuGreenswap ∧
    decode (.port 0x064C) = .ok (.ppuCommit 6) ∧ decode (.port 0x4D) = .ok .ppuSwap ∧
    decode (.port 0x4E) = .ok .ppuGetframe := ⟨rfl, rfl, rfl, rfl, rfl, rfl, rfl⟩
theorem test_decode_bus : decode (.port 0x0400000350) = .ok (.rd8 0x04000003) ∧
    decode (.port 0x0400000051) = .ok (.rd16 0x04000000) ∧ decode (.port 0x0500000452) = .ok (.rd32 0x05000004) ∧
    decode (.port 0xFF0400020354) = .ok (.wr8 0x04000203 0xFF) ∧
    decode (.port 0xBEEF050001FE55) = .ok (.wr16 0x050001FE 0xBEEF) ∧
    decode (.port 0x00C0FF000400010056) = .ok (.wr32 0x04000100 0x00C0FF00) := ⟨rfl, rfl, rfl, rfl, rfl, rfl⟩
theorem test_decode_hooks : decode (.hook 0x0BA 0x8400) = .ok (.hookDmaConfigure 0 0x8400) ∧
    decode (.hook 0x0D2 0x1600) = .ok (.hookDmaStop 2 0x1600) ∧ decode (.hook 0x106 0x0084) = .ok (.hookTmrStart 1 0x0084) ∧
    decode (.hook 0x10E 0x0047) = .ok (.hookTmrStop 3 0x0047) ∧ decode (.hook 0x200 0x3FFF) = .ok (.hookIrqSeten 0x3FFF) ∧
    decode (.hook 0x202 0x0004) = .ok (.hookIrqAck 0x0004) ∧ decode (.hook 0x208 0x0001) = .ok (.hookIrqSetime 0x0001) ∧
    decode (.hook 0x02E 0x0FFF) = .ok (.bgRefReload .bg2y true 0x0FFF) := ⟨rfl, rfl, rfl, rfl, rfl, rfl, rfl, rfl⟩
theorem test_decode_refuses : decode (.port 0x53) = .error (.unknownOpnum 0x53) ∧
    decode (.port 0x0101) = .error .trailingBits ∧ decode (.port 0x020310) = .error .trailingBits ∧
    decode (.hook 0x204 0) = .error (.noHook 0x204) := ⟨rfl, rfl, rfl, rfl⟩
/-- R112, log 5: every value of an operand decodes. -/
theorem test_decode_any_operand : decode (.port 0xFF40) = .ok (.ppuRenderline 0xFF) ∧
    decode (.port 0x3FD43) = .ok (.ppuBgAffine 1 0xFF) := ⟨rfl, rfl⟩
theorem test_decode_bytes : decodeBytes [0x34, 0x32, 0x00, 0x00, 0x00] = .ok (.tmrMscfg 50) := rfl
theorem test_table_word : decodeTableWord 8 0x20 = some (.dmaConfigure 0 0 0 0 0) ∧
    decodeTableWord 8 0x101 = some .advance ∧ decodeTableWord 8 0x43 = some (.ppuBgAffine 0 0) := ⟨rfl, rfl, rfl⟩

/-! ### One step of the machine -/

theorem test_fetch_word_runs : stepped (State.reset.withFetchWord 8 0x4D) (fun t => t.active) = some 1 := by decide +kernel
theorem test_idle_waits : stepped State.reset (fun t => t.frameClock) = some 0 := by decide +kernel
theorem test_reset_clears_fault : stepped (({ State.reset with faulted := some .dmaMisaligned }).setHost [.reset])
    (fun t => t.faulted) = some none := by decide +kernel

theorem test_program_issues_its_own_operation :
    stepped ((State.reset.setKont [.handlerProgram [.port 0x4D]]).setHost [.op (.port 0x15)])
      (fun t => (t.active, t.kont, t.host)) = some (1, [.handlerProgram []], [.op (.port 0x15)]) := by decide +kernel
/-- R159: an interactive handler on top of a halted program handler takes the host's events and leaves the program's. -/
theorem test_interactive_on_program_takes_the_hosts_event :
    stepped ((State.reset.setKont [.handlerReturn, .haltTest, .handlerProgram [.port 0x15]]).setHost [.op (.port 0x4D)])
      (fun t => (t.active, t.kont, t.host)) = some (1, [.handlerReturn, .haltTest, .handlerProgram [.port 0x15]], []) := by
  decide +kernel
theorem test_program_returns_after_its_last_operation :
    stepped (((State.reset.setKont [.handlerProgram [], .dispatch]).setHost [.handlerReturn]).setDispatch [⟨3, true, false⟩])
      (fun t => (t.x 0x208, t.dispatch, t.kont, t.host)) = some (1, [], [.dispatch], [.handlerReturn]) := by decide +kernel
/-- R372 (2): `HALT` with no source enabled, inside a program. -/
theorem test_fault_ends_the_program :
    let s := (State.reset.setKont [.handlerProgram [.port 0x04, .port 0x4D], .haltTest]).setHost [.reset]
    step s = .fault (.zeroWaitMask 0 { s with faulted := some .zeroWaitMask, kont := [] }) := rfl
theorem test_fetch_word_in_a_program :
    stepped ((State.reset.setKont [.handlerProgram [.port 0x15]]).withFetchWord 8 0x4D) (fun t => (t.active, t.kont)) =
      some (1, [.handlerProgram [.port 0x15]]) := by decide +kernel

/-! ### The scheduler: SC1, SC7, SC11 -/

theorem test_advance_line_0 : after .advance State.reset (fun t => (t.frameClock, t.x 0x006, regRead16 t 0x004, t.x 0x202)) =
    some (1, 0, 0x0006, 0x0006) := by decide +kernel
theorem test_advance_line_227 : after .advance { State.reset with frameClock := 227 }
    (fun t => (t.frameClock, t.x 0x006, t.x 0x202)) = some (0, 227, 0x0002) := by decide +kernel
/-- R132: an outer `ADVANCE` of line 5, suspended while the clock went on to 99, compares its own line. -/
theorem test_resumed_advance_has_its_own_line :
    stepped { (withRegs [(0x004, 0x0500)]).setKont [.advance 5 .vcountCompare] with frameClock := 99 }
      (fun t => (t.frameClock, t.x 0x202, t.kont)) = some (99, 0x0006, []) := by decide +kernel
theorem test_haltuntil_zero_mask : Faults (.haltuntil 0xC000) State.reset .zeroWaitMask 0xC000 := rfl
theorem test_halt_zero_mask : Faults .halt State.reset .zeroWaitMask 0 := rfl
theorem test_haltvbl_mask : after .haltvbl State.reset (fun t => t.waits) = some [⟨0x0001, 0⟩] := by decide +kernel

/-! ### Interrupts: IR3, IR5a, IR5b, IR6, IR10, IR11, RA16 -/

theorem test_raise_masked : after (.irqRaise 1) (withRegs [(0x208, 1)]) (fun t => (t.x 0x202, t.kont)) =
    some (0x0002, []) := by decide +kernel
theorem test_raise_enters_handler : after (.irqRaise 3)
    (withHandlers [.absent, .absent, .absent, .interactive] (withRegs [(0x200, 8), (0x208, 1)]))
    (fun t => (t.x 0x208, t.x 0x202, t.dispatch)) = some (0, 0, [⟨3, true, false⟩]) := by decide +kernel
theorem test_raise_source_14 : Faults (.irqRaise 14) State.reset .invalidSource 14 := rfl
theorem test_deliver_clears_pending : after (.irqDeliver 3) (withRegs [(0x202, 8)]) (fun t => t.x 0x202) = some 0 := by
  decide +kernel
theorem test_dispatch_hblank_first : after .irqDispatch
    (withHandlers [.interactive, .interactive] (withRegs [(0x004, 0x0038), (0x200, 0xB), (0x202, 0xB), (0x208, 1)]))
    (fun t => (t.x 0x202, t.dispatch)) = some (0x0009, [⟨1, true, false⟩]) := by decide +kernel
/-- R158: HBLANK has no handler and is acknowledged on the way to TIMER0's; VBLANK, masked, stays. -/
theorem test_dispatch_past_a_source_without_handler : after .irqDispatch
    ((withHandlers [.absent, .absent, .absent, .interactive] (withRegs [(0x004, 0x0010), (0x200, 0xA), (0x202, 0xB),
      (0x208, 1)])).setWaits [⟨0x0002, 0⟩])
    (fun t => (t.x 0x202, t.dispatch, t.waits, t.kont)) =
    some (0x0001, [⟨3, true, false⟩], [⟨0x0002, 0x000A⟩], [.handlerReturn, .dispatch]) := by decide +kernel
theorem test_ack_clears : after (.irqAck 2) ((withRegs [(0x202, 5)]).setWaits [⟨0x0004, 0⟩])
    (fun t => (t.x 0x202, t.waits)) = some (0x0001, [⟨0x0004, 0x0004⟩]) := by decide +kernel
theorem test_ack_not_pending : after (.irqAck 1) ((withRegs [(0x202, 1)]).setWaits [⟨0x0002, 0⟩])
    (fun t => (t.x 0x202, t.waits)) = some (0x0001, [⟨0x0002, 0⟩]) := by decide +kernel
theorem test_seten_on_off : after (.irqSeten 3 true) State.reset (fun t => t.x 0x200) = some 8 ∧
    after (.irqSeten 3 false) (withRegs [(0x200, 0xFFFF)]) (fun t => t.x 0x200) = some 0xFFF7 := by decide +kernel
theorem test_setime_marks : after (.irqSetime false) (State.reset.setDispatch [⟨3, true, false⟩])
    (fun t => (t.x 0x208, t.dispatch)) = some (0, [⟨3, true, true⟩]) := by decide +kernel
theorem test_return_restores_ime :
    stepped ((((State.reset.setDispatch [⟨3, true, false⟩]).setKont [.handlerReturn])).setHost [.handlerReturn])
      (fun t => (t.x 0x208, t.dispatch, t.kont)) = some (1, [], []) := by decide +kernel

/-! ### DMA: DM1, DM3, DM4, DM5, DM5h, DM6, DM15, DM16 -/

/-- DM1's source. -/
def dmaSource4 : State :=
  withExt 0x02000000 16 [(0x02000001, 1), (0x02000002, 2), (0x02000003, 3), (0x0200000F, 15)] true State.reset

theorem test_configure_immediate : after (.dmaConfigure 3 0x02000000 0x06000000 4 0x8600) dmaSource4
    (fun t => (t.vramByte 3, t.vramByte 15, t.x 0x0DE, t.dma.get 3)) =
    some (3, 15, 0x0600, ⟨0x02000010, 0x06000010, 4⟩) := by decide +kernel
theorem test_configure_step_mode : Faults (.dmaConfigure 0 0x02000000 0x06000000 1 0x8180) State.reset .dmaStepMode 0x8180 ∧
    Faults (.dmaConfigure 2 0x0DFFFFFE 0x06000000 1 0x8000) State.reset .dmaRomSource 0x0DFFFFFE := ⟨rfl, rfl⟩
theorem test_xfer_overlap : after (.dmaXfer 3)
    ((withExt 0x02000000 8 [(0x02000000, 1), (0x02000001, 2)] true (withRegs [(0x0DE, 0x8000)])).setDma 3
      ⟨0x02000000, 0x02000002, 3⟩)
    (fun t => (List.range 8).map (fun i => (t.extByte (0x02000000 + i)).toNat)) =
    some [1, 2, 1, 2, 1, 2, 1, 2] := by decide +kernel
theorem test_xfer_decrement : after (.dmaXfer 0)
    ((withExt 0x02000000 6 [(0x02000000, 0x11), (0x02000001, 0x22), (0x02000004, 0x55)] false (withRegs [(0x0BA, 0x80C0)])).setDma 0
      ⟨0x02000004, 0x05000000, 3⟩) (fun t => (t.pal16 0, t.dma.get 0)) =
    some (0x2211, ⟨0x01FFFFFE, 0x05000000, 3⟩) := by decide +kernel
theorem test_fire_vblank_one_shot : after .dmaFireVblank
    ((withRegs [(0x0DE, 0x9000)]).setDma 3 ⟨0x06000010, 0x06000000, 2⟩) (fun t => (t.x 0x0DE, t.dma.get 3)) =
    some (0x1000, ⟨0x06000014, 0x06000004, 2⟩) := by decide +kernel
theorem test_fire_hblank_repeats : after .dmaFireHblank
    ((withRegs [(0x0BA, 0xA240), (0x0B8, 1)]).setDma 0 ⟨0x05000000, 0x04000010, 1⟩) (fun t => (t.x 0x0BA, t.dma.get 0)) =
    some (0xA240, ⟨0x05000002, 0x04000010, 1⟩) := by decide +kernel
theorem test_stop_clears_enable : after (.dmaStop 3) (withRegs [(0x0DE, 0x9200)]) (fun t => t.x 0x0DE) = some 0x1200 := by
  decide +kernel
/-- Log 26: the low bit of an unaligned destination is not carried. -/
theorem test_xfer_unaligned_destination : after (.dmaXfer 1)
    ((withRegs [(0x0C6, 0x8060)]).setDma 1 ⟨0x04000200, 0x06000001, 1⟩ |>.setReg 0x200 0x1234)
    (fun t => (t.vram16 0, (t.dma.get 1).dstCur)) = some (0x1234, 0x06000003) := by decide +kernel
/-- R84, R357: a word into BG2X reloads its latch; its reserved bits stay 0. -/
theorem test_xfer_into_a_reference_register : after (.dmaXfer 3)
    (((withRegs [(0x0DE, 0x8400)]).writeVram 4 0 0xFFFF8001).setDma 3 ⟨0x06000000, 0x04000028, 1⟩)
    (fun t => (t.x 0x028, t.x 0x02A, t.refs.bgx2)) = some (0x8001, 0x0FFF, 0xFFF8001) := by decide +kernel
theorem test_channel_4 : Faults (.dmaConfigure 4 0x02000000 0x06000000 1 0x8000) State.reset .invalidChannel 4 ∧
    Faults (.dmaStop 4) State.reset .invalidChannel 4 := ⟨rfl, rfl⟩

/-! ### Timers: TM1, TM2, TM4, TM5, TM8, TM9, TM10 -/

theorem test_start_drops_cascade_of_0 : after (.tmrStart 0 0xFFFE 0 true true) State.reset
    (fun t => (t.x 0x102, t.tmr.get 0)) = some (0x00C0, ⟨0xFFFE, 0xFFFE, 0⟩) := by decide +kernel
theorem test_start_and_stop : after (.tmrStart 2 0x1234 3 true true) State.reset (fun t => t.x 0x10A) = some 0x00C7 ∧
    after (.tmrStop 2) (withRegs [(0x10A, 0x00C7)]) (fun t => t.x 0x10A) = some 0x0047 := by decide +kernel
theorem test_tick_cascades : after (.tmrTick 0)
    (((withRegs [(0x102, 0x80), (0x106, 0x84)]).setTmr 0 ⟨0xFF00, 0xFFFF, 0⟩).setTmr 1 ⟨0, 9, 0⟩)
    (fun t => ((t.tmr.get 0).counter, (t.tmr.get 1).counter)) = some (0xFF00, 0x000A) := by decide +kernel
/-- R214: TIMER0's handler runs before the cascade into timer 1. -/
theorem test_tick_stops_before_the_cascade : after (.tmrTick 0)
    (withHandlers [.absent, .absent, .absent, .interactive]
      (((withRegs [(0x102, 0xC0), (0x106, 0x84), (0x200, 8), (0x208, 1)]).setTmr 0 ⟨0xFF00, 0xFFFF, 0⟩).setTmr 1 ⟨0, 9, 0⟩))
    (fun t => ((t.tmr.get 0).counter, (t.tmr.get 1).counter, t.kont)) =
    some (0xFF00, 9, [.handlerReturn, .tickCascade 0]) := by decide +kernel
theorem test_tickline_prescaled : after .tmrTickline ((withRegs [(0x102, 0xC1)]).setTmr 0 ⟨0, 0xFFF0, 0⟩)
    (fun t => (t.tmr.get 0, t.x 0x202)) = some (⟨0, 3, 16⟩, 0x0008) := by decide +kernel
theorem test_mscfg : after (.tmrMscfg 50) State.reset (fun t => t.result) = some (.timerPeriod 1 0xCCCD) ∧
    after (.tmrMscfg 250) State.reset (fun t => t.result) = some (.timerPeriod 1 0) := by decide +kernel
theorem test_mscfg_error : after (.tmrMscfg 4001) State.reset (fun t => t.result) =
    some (.timerPeriodUnrepresentable 4001) := by decide +kernel

/-! ### The compositor: BG2, BG7, BG9, BG13, BG14, BG16, OB3, SO1, WN1, FX, CM1, CM11, CM12, FB1 -/

/-- Pixel `px` of layer `n`. -/
def bgPixel (n : Fin 4) (px : Nat) (t : State) : Option (Option Colour) := (t.lb.bgpix.get n)[px]?

/-- The reset state with halfwords of VRAM and of the palette written. -/
def withVideo (regs : List (Nat × Half)) (vram pal : List (Nat × Nat)) : State :=
  pal.foldl (fun t p => t.writePal 2 p.1 p.2) (vram.foldl (fun t p => t.writeVram 2 p.1 p.2) (withRegs regs))

theorem test_text_hflip : after (.ppuBgText 0 0)
    (withVideo [(0x000, 0x0100), (0x008, 0x0100)] [(0x800, 0x1401), (0x20, 0x32)] [(0x24, 0x03E0), (0x26, 0x7C00)])
    (fun t => (bgPixel 0 5 t, bgPixel 0 6 t, bgPixel 0 7 t)) = some (some none, some (some 0x7C00), some (some 0x03E0)) := by
  decide +kernel
theorem test_affine_scaled : after (.ppuBgAffine 2 0)
    (withVideo [(0x000, 0x0401), (0x00C, 0x0100), (0x020, 0x0200), (0x026, 0x0100)] [(0x800, 0x0101), (0x40, 0x0201), (0x42, 0x0403)]
      [(2, 0x0101), (6, 0x0103)])
    (fun t => (bgPixel 2 0 t, bgPixel 2 1 t, bgPixel 2 64 t)) = some (some (some 0x0101), some (some 0x0103), some none) := by
  decide +kernel
theorem test_bitmap3_line_1 : after (.ppuBgBitmap3 1) (withVideo [(0x000, 0x0403)] [(0x1E0, 0x801F)] []) (bgPixel 2 0) =
    some (some (some 0x001F)) := by decide +kernel
theorem test_bitmap4_frame_1 : after (.ppuBgBitmap4 0) (withVideo [(0x000, 0x0414)] [(0xA000, 0x0005)] [(10, 0x7FFF)])
    (fun t => (bgPixel 2 0 t, bgPixel 2 1 t)) = some (some (some 0x7FFF), some none) := by decide +kernel
theorem test_bitmap5_column_159 : after (.ppuBgBitmap5 1) (withVideo [(0x000, 0x0405)] [(0x27E, 0x7C1F)] [])
    (fun t => (bgPixel 2 159 t, bgPixel 2 160 t)) = some (some (some 0x7C1F), some none) := by decide +kernel
theorem test_sprite_off_screen_corner : after (.ppuObj 0)
    (((withVideo [(0x000, 0x1000)] [(0x10032, 0x0A)] [(0x214, 0x7C00)]).writeOam 4 0 0x01FC00FC).writeOam 2 4 1)
    (fun t => ((t.lb.objpix.get 0)[0]?, (t.lb.objpix.get 0)[1]?)) = some (some (some ⟨0x7C00, false⟩), some none) := by
  decide +kernel
theorem test_sort_by_priority : after .ppuSort (withRegs [(0x000, 0x1F00), (0x008, 1), (0x00A, 0), (0x00C, 1), (0x00E, 3)])
    (fun t => t.result) =
    some (.order [.obj 0, .bg 1, .obj 1, .bg 0, .bg 2, .obj 2, .obj 3, .bg 3, .backdrop]) := by decide +kernel
/-- WN1. -/
def twoWindows : State :=
  withRegs [(0x000, 0x6000), (0x040, 0x0A14), (0x044, 0x0A14), (0x042, 0x0028), (0x046, 0x0028), (0x048, 0x0201)]
theorem test_window_inside : after (.ppuWindow 19 19) twoWindows (fun t => t.result) = some (.mask 1) ∧
    after (.ppuWindow 20 12) twoWindows (fun t => t.result) = some (.mask 2) := by decide +kernel
theorem test_window_outside : after (.ppuWindow 50 50) twoWindows (fun t => t.result) = some (.mask 0) := by decide +kernel
theorem test_effect_alpha : after (.ppuEffect 0)
    ((withRegs [(0x050, 0x0241), (0x052, 0x0808)]).setLb { LineBuffers.cleared with
      bgpix := ⟨[some 0x001F], [some 0x7C00], [], []⟩, order := [.bg 0, .bg 1, .backdrop], wm := 0x3F })
    (fun t => t.result) = some (.colour 0x3C0F) := by decide +kernel
theorem test_effect_gated : after (.ppuEffect 0)
    ((withRegs [(0x050, 0x0241), (0x052, 0x0808)]).setLb { LineBuffers.cleared with
      bgpix := ⟨[some 0x001F], [some 0x7C00], [], []⟩, order := [.bg 0, .bg 1, .backdrop], wm := 0x1F })
    (fun t => t.result) = some (.colour 0x001F) := by decide +kernel
theorem test_effect_arithmetic : alphaBlend 8 8 0x001F 0x7C00 = 0x3C0F ∧ alphaBlend 16 16 0x0010 0x0010 = 0x001F ∧
    alphaBlend 4 12 0x7C1F 0x03E0 = 0x1EE7 ∧ brighten 4 0x294A = 0x3DEF ∧ darken 15 0x294A = 0x0421 := by decide +kernel
theorem test_greenswap_pairs : after .ppuGreenswap
    ((withRegs [(0x002, 1)]).setLb { LineBuffers.cleared with line := [0x03E0, 0x001F, 0x7FFF, 0x0000] })
    (fun t => t.lb.line) = some [0x0000, 0x03FF, 0x7C1F, 0x03E0] := by decide +kernel
theorem test_commit_row : after (.ppuCommit 159) (State.reset.setLb { LineBuffers.cleared with line := [0x1234] })
    (fun t => (t.fb0[159]?, t.fb1[159]?.map List.length)) = some (some [0x1234], some 240) := by decide +kernel
theorem test_getframe_other_buffer : after .ppuGetframe State.reset (fun t => t.result) = some (.frame 1) := by decide +kernel
theorem test_framestart_loads : after .ppuFramestart (withRegs [(0x028, 0xFF00), (0x02A, 0x0FFF)]) (fun t => t.refs.bgx2) =
    some 0xFFFFF00 := by decide +kernel
theorem test_renderline_steps_references : after (.ppuRenderline 0) (withRegs [(0x000, 0x0080), (0x022, 0xFF00)])
    (fun t => (t.refs.bgx2, (t.fb0[0]?.bind (fun r => r[239]?)))) = some (0xFFFFF00, some 0x7FFF) := by decide +kernel

/-! ### Operands past the screen (R74, R281, R290, R301, R305, R317; log 27) -/

/-- 200 · 480 is 0x17700, and 255 · 480 is 0x05E20 modulo 0x18000. -/
theorem test_bitmap3_past_the_frame : after (.ppuBgBitmap3 200) (withVideo [] [(0x17700, 0x001F)] []) (bgPixel 2 0) =
      some (some (some 0x001F)) ∧
    after (.ppuBgBitmap3 255) (withVideo [] [(0x05E20, 0x03E0)] []) (bgPixel 2 0) = some (some (some 0x03E0)) := by
  decide +kernel
theorem test_text_past_the_screen : after (.ppuBgText 1 160) State.reset
    (fun t => ((t.lb.bgpix.get 1).length, bgPixel 0 0 t, t.x 0x202)) = some (240, some none, 0) := by decide +kernel
theorem test_sprites_past_the_screen : after (.ppuObj 160)
    (State.reset.setLb { LineBuffers.cleared with objpix := ⟨[some ⟨0x1234, true⟩], [none], [], []⟩ })
    (fun t => ((t.lb.objpix.get 0)[0]?, (t.lb.objpix.get 1)[0]?)) = some (some (some ⟨0x1234, true⟩), some none) := by
  decide +kernel
theorem test_window_past_the_screen : after (.ppuWindow 240 160) State.reset (fun t => t.result) = some (.mask 0x3F) := by
  decide +kernel
theorem test_effect_past_the_line : after (.ppuEffect 240)
    ((withVideo [] [] [(0, 0x1234)]).setLb { LineBuffers.cleared with order := [.bg 0, .backdrop], wm := 0x3E })
    (fun t => t.result) = some (.colour 0x1234) := by decide +kernel
theorem test_commit_past_the_screen : after (.ppuCommit 160) (State.reset.setLb { LineBuffers.cleared with line := [0x1234] })
    (fun t => (t.fb0.length, t.fb0[159]?.map List.length)) = some (160, some 240) := by decide +kernel

/-! ### The host bus: RA1, RA9, RA10, RA11, RA13, RA14, RA15, AF1, TM11, TM13, DM17, DM18, IR6c -/

theorem test_read_widths : after (.rd8 0x05000013) (State.reset.writePal 4 0x10 0x11223344) (fun t => t.result) =
      some (.byte 0x11) ∧
    after (.rd16 0x05000010) (State.reset.writePal 4 0x10 0x11223344) (fun t => t.result) = some (.half 0x3344) := by
  decide +kernel
theorem test_read_word_of_registers : after (.rd32 0x04000004) (withRegs [(0x004, 0x632A), (0x006, 0x0064)])
    (fun t => t.result) = some (.word 0x0064632A) := by decide +kernel
theorem test_write_byte_merges : after (.wr8 0x04000051 0x3F) (withRegs [(0x050, 0x0241)]) (fun t => t.x 0x050) =
      some 0x3F41 ∧
    after (.wr8 0x04000203 0xFF) (withRegs [(0x202, 0x0001)]) (fun t => t.x 0x202) = some 0x0001 := by decide +kernel
theorem test_write_half_masks : after (.wr16 0x04000000 0xFFFF) State.reset (fun t => t.x 0x000) = some 0xFFF7 ∧
    after (.wr16 0x04000004 0xFFFF) State.reset (fun t => t.x 0x004) = some 0xFF38 := by decide +kernel
theorem test_write_word_low_first : after (.wr32 0x04000200 0x00040003) (withRegs [(0x202, 5)])
      (fun t => (t.x 0x200, t.x 0x202)) = some (0x0003, 0x0001) ∧
    after (.wr32 0x04000100 0x00C0FF00) State.reset (fun t => (t.x 0x102, t.tmr.get 0)) =
      some (0x00C0, ⟨0xFF00, 0xFF00, 0⟩) := by decide +kernel
theorem test_access_faults : Faults (.rd16 0x04000001) State.reset .hostMisaligned 0x04000001 ∧
    Faults (.wr32 0x06000002 0) State.reset .hostMisaligned 0x06000002 ∧
    Faults (.rd8 0x06018000) State.reset .busError 0x06018000 ∧
    Faults (.wr16 0x04000400 0) State.reset .busError 0x04000400 := ⟨rfl, rfl, rfl, rfl⟩

/-! ### The hook forms -/

theorem test_hook_configure : after (.hookDmaConfigure 3 0x8400)
    ((withRegs [(0x0D4, 0), (0x0D6, 0x0600), (0x0D8, 0x10), (0x0DA, 0x0600), (0x0DC, 1)]).writeVram 4 0 0xAABBCCDD)
    (fun t => (t.vram16 0x10, t.x 0x0DE)) = some (0xCCDD, 0x0400) := by decide +kernel
theorem test_hook_stop : after (.hookDmaStop 0 0x7FFF) State.reset (fun t => t.x 0x0BA) = some 0x77E0 := by decide +kernel
theorem test_hook_start : after (.hookTmrStart 0 0x0081) (State.reset.setTmr 0 ⟨0x8000, 0x04D0, 5⟩)
    (fun t => (t.x 0x102, t.tmr.get 0)) = some (0x0081, ⟨0x8000, 0x8000, 0⟩) := by decide +kernel
theorem test_hook_timer_stop : after (.hookTmrStop 1 0x007F) State.reset (fun t => t.x 0x106) = some 0x0047 := by
  decide +kernel
theorem test_hook_seten : after (.hookIrqSeten 0xFFFF) State.reset (fun t => t.x 0x200) = some 0x3FFF := by decide +kernel
theorem test_hook_ack : after (.hookIrqAck 0x0004) (withRegs [(0x202, 5)]) (fun t => t.x 0x202) = some 0x0001 := by
  decide +kernel
theorem test_hook_setime : after (.hookIrqSetime 0xFFFF) State.reset (fun t => t.x 0x208) = some 1 := by decide +kernel
theorem test_reference_reload : after (.bgRefReload .bg2x true 0xFFFF) (withRegs [(0x028, 0x1000)])
    (fun t => (t.x 0x02A, t.refs.bgx2)) = some (0x0FFF, 0xFFF1000) := by decide +kernel

/-! ### States that meet the hypotheses of the statements -/

theorem exists_next_of_all {ops : List Instr} {s : State}
    (h : ops.all (fun i => (after i s (fun _ => ())).isSome) = true) : ∀ i ∈ ops, ∃ t, exec i s = .next t :=
  fun i hi => exists_next (List.all_eq_true.mp h i hi)

theorem witness_DecodeInvertsEncode : (Instr.ppuWindow 239 159).wellFormed = true ∧
    (Instr.ppuBgAffine 0 255).wellFormed = true ∧ (Instr.hookDmaStop 3 0x7FFF).wellFormed = true := by decide
theorem witness_EncodeInvertsDecode : decode (.port 0x9FEF49) = .ok (.ppuWindow 239 159) ∧
    decode (.hook 0x0DE 0x8000) = .ok (.hookDmaConfigure 3 0x8000) := ⟨rfl, rfl⟩
theorem witness_StepRuns_from_the_host : ∃ (s : State) (raw : RawOp) (rest : List HostEvent) (i : Instr),
    s.faulted = none ∧ (s.kont = [] ∨ ∃ ks, s.kont = .handlerReturn :: ks) ∧ s.host = .op raw :: rest ∧
      decode raw = .ok i :=
  ⟨State.reset.setHost [.op (.port 0x4D)], .port 0x4D, [], .ppuSwap, rfl, .inl rfl, rfl, rfl⟩
theorem witness_StepRuns_in_a_handler : ∃ (s : State) (raw : RawOp) (rest : List HostEvent) (i : Instr),
    s.faulted = none ∧ (s.kont = [] ∨ ∃ ks, s.kont = .handlerReturn :: ks) ∧ s.host = .op raw :: rest ∧
      decode raw = .ok i :=
  ⟨(State.reset.setKont [.handlerReturn]).setHost [.op (.port 0x4D)], .port 0x4D, [], .ppuSwap, rfl, .inr ⟨[], rfl⟩, rfl, rfl⟩
theorem witness_StepRuns_in_a_program : ∃ (s : State) (raw : RawOp) (ops : List RawOp) (ks : List Kont) (i : Instr),
    s.faulted = none ∧ s.kont = .handlerProgram (raw :: ops) :: ks ∧ decode raw = .ok i :=
  ⟨State.reset.setKont [.handlerProgram [.port 0x4D], .dispatch], .port 0x4D, [], [.dispatch], .ppuSwap, rfl, rfl, rfl⟩
theorem witness_StepRuns_suspended : ∃ (s : State) (k : Kont) (ks : List Kont),
    s.faulted = none ∧ s.kont = k :: ks ∧ k.isHandler = false :=
  ⟨State.reset.setKont [.dispatch], .dispatch, [], rfl, rfl, rfl⟩
theorem witness_OnlyResetLeavesAFault : ∃ (s : State) (c : FaultCode),
    s.faulted = some c ∧ ∀ rest, s.host ≠ .reset :: rest :=
  ⟨{ State.reset with faulted := some .busError }, .busError, rfl, fun _ h => nomatch h⟩
theorem witness_OnlyResetLeavesAFault_reset : ∃ (s : State) (c : FaultCode) (t : State) (rest : List HostEvent),
    s.faulted = some c ∧ step s = .next t ∧ s.kont = [] ∧ s.host = .reset :: rest :=
  ⟨({ State.reset with faulted := some .busError }).setHost [.reset], .busError, State.reset, [], rfl, rfl, rfl, rfl⟩
theorem witness_FaultsLeaveTheState : 3 < (4 : Byte).toNat ∧ 3 < (255 : Byte).toNat ∧
    State.reset.cfg.irqCount.val ≤ (14 : Byte).toNat ∧ State.reset.cfg.irqCount.val ≤ (255 : Byte).toNat := by decide

theorem witness_SetenWritesOneEnableBit : State.reset.cfg.irqCount.val ≤ (14 : Byte).toNat ∧
    (13 : Byte).toNat < State.reset.cfg.irqCount.val := by decide
theorem witness_AckClearsAndRecords : State.reset.cfg.irqCount.val ≤ (14 : Byte).toNat ∧
    (13 : Fin nIrq).val < (withRegs [(0x202, 0x2000)]).cfg.irqCount.val ∧
    (withRegs [(0x202, 0x2000)]).pending 13 = true ∧ State.reset.pending 0 = false := by decide
theorem witness_RaiseAlwaysSetsThePendingBit :
    (withRegs [(0x200, 0x2001), (0x208, 1)]).deliverable 13 = true ∧
    (withRegs [(0x200, 0x2001), (0x208, 1)]).deliverable 0 = false ∧
    (withRegs [(0x004, 0x0008), (0x200, 0x0001), (0x208, 1)]).deliverable 0 = true ∧
    (13 : Fin nIrq).val < (withRegs [(0x200, 0x2001), (0x208, 1)]).cfg.irqCount.val ∧
    State.reset.cfg.irqCount.val ≤ (14 : Byte).toNat := by decide
theorem witness_DeliveryEntersTheHandler : (13 : Fin nIrq).val < State.reset.cfg.irqCount.val ∧
    State.reset.cfg.handlerOf 13 = .absent ∧ (withHandlers [.interactive] State.reset).cfg.handlerOf 0 ≠ .absent ∧
    (withHandlers [.program []] State.reset).cfg.handlerOf 0 ≠ .absent ∧
    (0 : Fin nIrq).val < (withHandlers [.program []] State.reset).cfg.irqCount.val := by decide
theorem witness_HandlerReturn_interactive : ∃ (s : State) (ks : List Kont) (rest : List HostEvent) (f : DispatchFrame)
    (fs : List DispatchFrame), s.faulted = none ∧ s.dispatch = f :: fs ∧
      (s.kont = .handlerReturn :: ks ∧ s.host = .handlerReturn :: rest ∨ s.kont = .handlerProgram [] :: ks ∧ s.host = rest) :=
  ⟨((State.reset.setKont [.handlerReturn]).setHost [.handlerReturn]).setDispatch [⟨3, true, false⟩], [], [],
    ⟨3, true, false⟩, [], rfl, rfl, .inl ⟨rfl, rfl⟩⟩
theorem witness_HandlerReturn_program : ∃ (s : State) (ks : List Kont) (rest : List HostEvent) (f : DispatchFrame)
    (fs : List DispatchFrame), s.faulted = none ∧ s.dispatch = f :: fs ∧
      (s.kont = .handlerReturn :: ks ∧ s.host = .handlerReturn :: rest ∨ s.kont = .handlerProgram [] :: ks ∧ s.host = rest) :=
  ⟨(State.reset.setKont [.handlerProgram [], .haltAdvance]).setDispatch [⟨3, true, true⟩], [.haltAdvance], [],
    ⟨3, true, true⟩, [], rfl, rfl, .inr ⟨rfl, rfl⟩⟩
/-- Source 2 stands before 0, has no handler, and is pending and deliverable; 1 is pending and not deliverable. -/
theorem witness_DispatchTakesTheFirstInOrder :
    let s := withHandlers [.interactive, .interactive]
      (withRegs [(0x004, 0x0028), (0x200, 0x0007), (0x202, 0x0007), (0x208, 1)])
    ([1, 2, 0, 3, 4, 5, 6, 7, 8, 9, 10, 11, 12, 13] : List (Fin nIrq)) =
      [1, 2] ++ 0 :: [3, 4, 5, 6, 7, 8, 9, 10, 11, 12, 13] ∧
    (∀ j ∈ ([1, 2] : List (Fin nIrq)), s.pending j = true → s.deliverable j = true → s.cfg.handlerOf j = .absent) ∧
    s.pending 2 = true ∧ s.deliverable 2 = true ∧ s.pending 0 = true ∧ s.deliverable 0 = true ∧
    s.cfg.handlerOf 0 ≠ .absent := by decide
/-- Handlers registered, and only a source without one pending and deliverable; or the master enable clear. -/
theorem witness_DispatchLeavesNothingDeliverable :
    let s := withHandlers [.interactive, .interactive] (withRegs [(0x200, 0x2007), (0x202, 0x3007), (0x208, 1)])
    (∀ i, s.pending i = true → s.deliverable i = true → s.cfg.handlerOf i = .absent) ∧
    s.pending 13 = true ∧ s.deliverable 13 = true ∧
    ∀ i, (s.setReg 0x208 0).pending i = true → (s.setReg 0x208 0).deliverable i = true →
      (s.setReg 0x208 0).cfg.handlerOf i = .absent := by decide
theorem witness_EnablingDeliversNothing :
    State.reset.cfg.route 0x04000208 = .reg 0x208 ∧ State.reset.cfg.route 0x04000005 = .reg 0x005 ∧
      State.reset.cfg.route 0x04000201 = .reg 0x201 ∧
      (∀ o ∈ [0x208, 0x005, 0x201], o - o % 2 ∈ [Reg.dispstat, Reg.ie, Reg.ime]) ∧
      (∀ op ∈ [Instr.irqSeten 13 true, .irqSetime true, .hookIrqSeten 1, .hookIrqSetime 1, .wr16 0x04000208 1,
          .wr8 0x04000208 1, .wr8 0x04000005 1, .wr8 0x04000201 1], ∃ t, exec op State.reset = .next t) :=
  ⟨rfl, rfl, rfl, by decide, exists_next_of_all (by decide +kernel)⟩

theorem witness_ConfigureRejects_clauses :
    (0x02000002 : Word).toNat % (if (0x8400 : Half).getLsbD 10 = true then 4 else 2) ≠ 0 ∧
    (0x0DFFFFFE : Word).toNat % (if (0x8000 : Half).getLsbD 10 = true then 4 else 2) = 0 ∧
    (0x06000001 : Word).toNat % (if (0x8000 : Half).getLsbD 10 = true then 4 else 2) ≠ 0 ∧
    State.reset.cfg.romLo ≤ (0x0DFFFFFE : Word).toNat ∧ (0x0DFFFFFE : Word).toNat ≤ State.reset.cfg.romHi ∧
    ¬State.reset.cfg.romLo ≤ (0x07FFFFFE : Word).toNat ∧
    bitsOf (0x8180 : Half) 8 7 = 3 ∧ bitsOf (0x8060 : Half) 6 5 = 3 ∧ (0 : Fin 4) ≠ 1 ∧ (3 : Fin 4) ≠ 2 := by decide
theorem witness_ConfigureArmsTheChannel :
    (0x02000002 : Word).toNat % (if (0xB260 : Half).getLsbD 10 = true then 4 else 2) = 0 ∧
    ((0x0E000000 : Word).toNat < State.reset.cfg.romLo ∨ State.reset.cfg.romHi < (0x0E000000 : Word).toNat) ∧
    bitsOf (0xB260 : Half) 8 7 ≠ 3 ∧ (bitsOf (0xB260 : Half) 6 5 = 3 → (1 : Fin 4) = 1 ∨ (1 : Fin 4) = 2) ∧
    bitsOf (0xB260 : Half) 13 12 ≠ 0 := by decide
theorem witness_ImmediateTransferNeverRepeats : bitsOf (0x8600 : Half) 13 12 = 0 ∧
    ∃ t, exec (.dmaConfigure (BitVec.ofNat 8 (3 : Fin 4).val) 0x06000000 0x06000010 1 0x8600) State.reset = .next t :=
  ⟨by decide, exists_next (by decide +kernel)⟩
theorem witness_ImmediateConfigureMovesEveryUnit :
    let l : DmaLatch := ⟨0x05000000, 0x06000000, 2⟩
    (0x05000000 : Word).toNat % 2 = 0 ∧ (0x06000000 : Word).toNat % 2 = 0 ∧ bitsOf (0xC200 : Half) 13 12 = 0 ∧
    bitsOf (0xC200 : Half) 8 7 ≠ 3 ∧ bitsOf (0xC200 : Half) 6 5 ≠ 3 ∧
    ((0x05000000 : Word).toNat < State.reset.cfg.romLo ∨ State.reset.cfg.romHi < (0x05000000 : Word).toNat) ∧
    (2 : Half) &&& 0x3FFF = 2 ∧ State.reset.ime = false ∧
    ∀ k < l.cntCur.toNat, UnitAllowed State.reset.cfg 0 0xC200 l k ∧
      ∀ off, State.reset.cfg.route (walk l.dstCur (DmaCtl.dstMode 0xC200) 2 k) ≠ .reg off := by
  refine ⟨by decide, by decide, by decide, by decide, by decide, by decide, by decide, by decide, fun k hk => ⟨?_, ?_⟩⟩
  · exact unitAllowed_of_checked ((by decide : ∀ k < 2, unitChecked State.reset.cfg 0 0xC200 ⟨0x05000000, 0x06000000, 2⟩ k = true) k hk)
  · have h : ∀ k < 2, State.reset.cfg.route (walk 0x06000000 (DmaCtl.dstMode 0xC200) 2 k) = .vram (2 * k) := by decide
    intro off ho
    rw [h k hk] at ho
    cases ho

/-- A channel 0 armed for two halfwords from the palette to VRAM. -/
def armed0 (ctl : Half) : State := (withRegs [(0x0BA, ctl)]).setDma 0 ⟨0x05000000, 0x06000000, 2⟩
theorem witness_TransferCompletes :
    (∀ k < ((armed0 0x8000).dma.get 0).cntCur.toNat,
      UnitAllowed (armed0 0x8000).cfg 0 ((armed0 0x8000).dmaCtl 0) ((armed0 0x8000).dma.get 0) k) ∧
    (∀ k < 1 + 2, UnitAllowed (armed0 0x8000).cfg 0 ((armed0 0x8000).dmaCtl 0) ((armed0 0x8000).dma.get 0) k) :=
  ⟨fun k hk => unitAllowed_of_checked ((by decide : ∀ k < 2, unitChecked (armed0 0x8000).cfg 0 ((armed0 0x8000).dmaCtl 0)
      ((armed0 0x8000).dma.get 0) k = true) k hk),
    fun k hk => unitAllowed_of_checked ((by decide : ∀ k < 3, unitChecked (armed0 0x8000).cfg 0 ((armed0 0x8000).dmaCtl 0)
      ((armed0 0x8000).dma.get 0) k = true) k hk)⟩
/-- DM6: the second unit is in cartridge ROM. -/
def intoRom : State :=
  withExt 0x07FFFFFE 2 [] true ((withRegs [(0x0BA, 0x8000)]).setDma 0 ⟨0x07FFFFFE, 0x06000000, 2⟩)
theorem witness_TransferStops_rom : 1 < (intoRom.dma.get 0).cntCur.toNat ∧
    (∀ j < 1, UnitAllowed intoRom.cfg 0 (intoRom.dmaCtl 0) (intoRom.dma.get 0) j) ∧ (0 : Fin 4).val ≤ 2 ∧
    intoRom.cfg.inRom (walk (intoRom.dma.get 0).srcCur (DmaCtl.srcMode (intoRom.dmaCtl 0)) (DmaCtl.unit (intoRom.dmaCtl 0)) 1) =
      true :=
  ⟨by decide, fun j hj => unitAllowed_of_checked ((by decide : ∀ j < 1, unitChecked intoRom.cfg 0 (intoRom.dmaCtl 0)
    (intoRom.dma.get 0) j = true) j hj), by decide, by decide⟩
/-- DM12: the second unit falls on IF; a 32-bit unit from 0x200 falls on it at once. -/
def intoIf (ctl : Half) : State := (withRegs [(0x0DE, ctl)]).setDma 3 ⟨0x06000000, 0x04000200, 2⟩
theorem witness_TransferStops_control :
    (∀ j < 1, UnitAllowed (intoIf 0x8000).cfg 3 ((intoIf 0x8000).dmaCtl 3) ((intoIf 0x8000).dma.get 3) j) ∧
    (intoIf 0x8000).cfg.route (unitDst 0x8000 ⟨0x06000000, 0x04000200, 2⟩ 1) = .reg 0x202 ∧
    readAnswered (intoIf 0x8000).cfg 2 (walk 0x06000000 0 2 1) ∧
    (intoIf 0x8400).cfg.route (unitDst 0x8400 ⟨0x06000000, 0x04000200, 2⟩ 0) = .reg 0x200 ∧
    ((intoIf 0x8400).dmaCtl 3).getLsbD 10 = true :=
  ⟨fun j hj => unitAllowed_of_checked ((by decide : ∀ j < 1, unitChecked (intoIf 0x8000).cfg 3 ((intoIf 0x8000).dmaCtl 3)
    ((intoIf 0x8000).dma.get 3) j = true) j hj), by decide, fun h => absurd h (by decide), by decide, by decide⟩
/-- DM14: the second unit is read past the end of the mapped range, or written where nothing may be written. -/
def offTheMap (src dst : Word) : State :=
  withExt 0x02000000 2 [] false ((withRegs [(0x0DE, 0x8000)]).setDma 3 ⟨src, dst, 2⟩)
theorem witness_TransferStops_source :
    let s := offTheMap 0x02000000 0x06000000
    1 < (s.dma.get 3).cntCur.toNat ∧ (∀ j < 1, UnitAllowed s.cfg 3 (s.dmaCtl 3) (s.dma.get 3) j) ∧ ¬(3 : Fin 4).val ≤ 2 ∧
    ¬readAnswered s.cfg 2 (walk 0x02000000 0 2 1) :=
  ⟨by decide, fun j hj => unitAllowed_of_checked ((by decide : ∀ j < 1, unitChecked (offTheMap 0x02000000 0x06000000).cfg 3
    ((offTheMap 0x02000000 0x06000000).dmaCtl 3) ((offTheMap 0x02000000 0x06000000).dma.get 3) j = true) j hj),
    by decide, fun h => absurd (h (by decide) 0 (by decide)) (by decide)⟩
theorem witness_TransferStops_destination :
    let s := offTheMap 0x06000000 0x02000000
    0 < (s.dma.get 3).cntCur.toNat ∧ readAnswered s.cfg 2 (walk 0x06000000 0 2 0) ∧
    s.cfg.route (unitDst (s.dmaCtl 3) (s.dma.get 3) 0) = .ext ∧
    ∃ i < 2, ∀ r, s.cfg.rangeOf ((unitDst (s.dmaCtl 3) (s.dma.get 3) 0).toNat + i) = some r → r.writable = false := by
  refine ⟨by decide, fun h => absurd h (by decide), by decide, 0, by decide, fun r hr => ?_⟩
  have h : (offTheMap 0x06000000 0x02000000).cfg.rangeOf 0x02000000 = some ⟨0x02000000, 2, [], false⟩ := by decide
  cases h.symm.trans hr
  rfl
theorem witness_TransferStoresWhatItReads :
    (DmaCtl.dstMode ((armed0 0x8000).dmaCtl 0) = 0) ∧
    (∀ k < 2, (armed0 0x8000).cfg.route (unitDst 0x8000 ⟨0x05000000, 0x06000000, 2⟩ k) = .vram (0 + k * 2)) ∧
    (∀ k < 2, (armed0 0x8000).cfg.route (busAddr (walk 0x05000000 0 2 k) 2) = .pal (k * 2)) ∧
    (armed0 0x8000).cfg.route (busAddr 0x07000000 2) = .oam 0 ∧ intoRom.cfg.route (busAddr 0x07FFFFFE 2) = .ext := by decide
/-- Destinations of one word, on channel 3, in each window, and one outside them. -/
def oneUnit (src dst : Word) : State :=
  withExt 0x02000000 8 [] true ((withRegs [(0x0DE, 0x8400)]).setDma 3 ⟨src, dst, 1⟩)
theorem witness_TransferStoresWhatItReads_unit (dst : Word)
    (h : dst ∈ [(0x050003FC : Word), 0x06017FFC, 0x070003FC, 0x02000004, 0x04000028, 0x04000004, 0x040000FC]) :
    ((oneUnit 0x06000000 dst).dma.get 3).cntCur = 1 ∧
      UnitAllowed (oneUnit 0x06000000 dst).cfg 3 ((oneUnit 0x06000000 dst).dmaCtl 3) ((oneUnit 0x06000000 dst).dma.get 3) 0 := by
  simp only [List.mem_cons, List.not_mem_nil, or_false] at h
  rcases h with rfl | rfl | rfl | rfl | rfl | rfl | rfl <;> exact ⟨by decide, unitAllowed_of_checked (by decide)⟩
theorem witness_TransferStoresWhatItReads_from_registers :
    unitChecked (oneUnit 0x04000100 0x05000000).cfg 3 ((oneUnit 0x04000100 0x05000000).dmaCtl 3)
      ((oneUnit 0x04000100 0x05000000).dma.get 3) 0 = true := by decide
/-- Two halfwords from the register file (TM0CNT_L and TM0CNT_H) into VRAM. -/
theorem witness_TransferStoresWhatItReads_registers_to_vram :
    let s := (withRegs [(0x0DE, 0x8000)]).setDma 3 ⟨0x04000100, 0x06000000, 2⟩
    (∀ k < 2, UnitAllowed s.cfg 3 (s.dmaCtl 3) (s.dma.get 3) k) ∧ DmaCtl.dstMode (s.dmaCtl 3) = 0 ∧
    (∀ k < 2, s.cfg.route (unitDst (s.dmaCtl 3) (s.dma.get 3) k) = .vram (0 + k * 2)) ∧
    (∀ k < 2, s.cfg.route (busAddr (walk 0x04000100 0 2 k) 2) = .reg (0x100 + k * 2)) :=
  ⟨fun k hk => unitAllowed_of_checked ((by decide : ∀ k < 2, unitChecked State.reset.cfg 3 0x8000
    ⟨0x04000100, 0x06000000, 2⟩ k = true) k hk), by decide, by decide, by decide⟩
/-- A word into BG2X leaves the half of BG2Y, the latch of BG2Y and the timers uncovered. -/
theorem witness_TransferCompletes_uncovered : ∀ o ∈ [0x02C, 0x02E, 0x038, 0x100, 0x10C],
    HalfUncovered State.reset.cfg 0x8400 ⟨0x06000000, 0x04000028, 1⟩ 1 o := by
  intro o ho k hk p hp
  obtain rfl : k = 0 := by omega
  have h : State.reset.cfg.route (unitDst 0x8400 ⟨0x06000000, 0x04000028, 1⟩ 0) = .reg 0x28 := by decide
  cases h.symm.trans hp
  exact (by decide : ∀ o ∈ [0x02C, 0x02E, 0x038, 0x100, 0x10C], o ≠ 0x28 ∧ (DmaCtl.unit 0x8400 = 4 → o ≠ 0x28 + 2)) o ho
theorem witness_FireRuns_idle : (∀ ch : Fin 4, (State.reset.dmaCtl ch).getLsbD 15 = false ∨ bitsOf (State.reset.dmaCtl ch) 13 12 ≠ 2) ∧
    ∀ ch : Fin 4, ((armed0 0xB000).dmaCtl ch).getLsbD 15 = false ∨ bitsOf ((armed0 0xB000).dmaCtl ch) 13 12 ≠ 1 := by decide
theorem witness_FireRuns_armed : ((armed0 0xA200).dmaCtl 0).getLsbD 15 = true ∧ bitsOf ((armed0 0xA200).dmaCtl 0) 13 12 = 2 ∧
    (∀ d : Fin 4, d ≠ 0 → ((armed0 0xA200).dmaCtl d).getLsbD 15 = false ∨ bitsOf ((armed0 0xA200).dmaCtl d) 13 12 ≠ 2) ∧
    ((armed0 0x9000).dmaCtl 0).getLsbD 15 = true ∧ bitsOf ((armed0 0x9000).dmaCtl 0) 13 12 = 1 := by decide
theorem witness_FireRuns_units (k : Nat) (hk : k < ((armed0 0xA200).dma.get 0).cntCur.toNat) :
    UnitAllowed (armed0 0xA200).cfg 0 ((armed0 0xA200).dmaCtl 0) ((armed0 0xA200).dma.get 0) k :=
  unitAllowed_of_checked ((by decide : ∀ k < 2, unitChecked (armed0 0xA200).cfg 0 ((armed0 0xA200).dmaCtl 0)
    ((armed0 0xA200).dma.get 0) k = true) k hk)
theorem witness_FireRuns_in_order :
    ∃ t, State.reset.ime = false ∧ FiredUpTo 2 4 State.reset t := ⟨State.reset, rfl, _, ⟨_, ⟨_, ⟨_, rfl, rfl⟩, rfl⟩, rfl⟩, rfl⟩
theorem firedOne_armed {timing : Nat} {ch : Fin 4} {s t v : State}
    (h : (s.dmaCtl ch).getLsbD 15 = true ∧ bitsOf (s.dmaCtl ch) 13 12 = timing)
    (hv : exec (.dmaXfer (BitVec.ofNat 8 ch.val)) s = .next v)
    (ht : t = let u := if (s.dmaCtl ch).getLsbD 9 = true then
          v.setDma ch { v.dma.get ch with
            cntCur := v.cfg.countOf ch (v.x (Reg.dmaCntL ch))
            dstCur := if bitsOf (s.dmaCtl ch) 6 5 = 3 then v.x32 (Reg.dmaDad ch) else (v.dma.get ch).dstCur }
        else v.setRegBit (Reg.dmaCntH ch) 15 false
      if (s.dmaCtl ch).getLsbD 14 = true then u.setRegBit Reg.irf (8 + ch.val) true else u) :
    FiredOne timing ch s t := by
  unfold FiredOne
  rw [if_pos h]
  exact ⟨v, hv, ht⟩
theorem witness_FireRuns_two_channels :
    let s := ((withRegs [(0x0BA, 0xA000), (0x0DE, 0xE200), (0x0DC, 1)]).setDma 0 ⟨0x05000000, 0x06000000, 1⟩).setDma 3
      ⟨0x05000000, 0x06000000, 1⟩
    s.ime = false ∧ ∃ t, FiredUpTo 2 4 s t :=
  ⟨by decide, _, _, ⟨_, ⟨_, ⟨_, rfl, firedOne_armed (by decide) rfl rfl⟩, rfl⟩, rfl⟩, firedOne_armed (by decide) rfl rfl⟩
theorem witness_FireRuns_fault :
    let s := (withRegs [(0x0DE, 0x9000)]).setDma 3 ⟨0x06000000, 0x04000202, 1⟩
    s.ime = false ∧ FiredUpTo 1 3 s s ∧ (s.dmaCtl 3).getLsbD 15 = true ∧ bitsOf (s.dmaCtl 3) 13 12 = 1 ∧
      ∃ f, exec (.dmaXfer 3) s = .fault f :=
  ⟨by decide, ⟨_, ⟨_, ⟨_, rfl, rfl⟩, rfl⟩, rfl⟩, by decide, by decide, _, rfl⟩
theorem witness_StopDisablesTheChannel : (0x7FFF : Half).getLsbD 15 = false := by decide

theorem witness_StartLoadsTheTimer : (0x0080 : Half).getLsbD 7 = true ∧ (0xFF7F : Half).getLsbD 7 = false := by decide
/-- TM5: four running timers at 0xFFFF, each of 1 to 3 cascading. -/
def chain : State :=
  (((((withRegs [(0x102, 0xC0), (0x106, 0xC4), (0x10A, 0xC4), (0x10E, 0xC4)]).setTmr 0 ⟨0, 0xFFFF, 0⟩).setTmr 1
    ⟨0, 0xFFFF, 0⟩).setTmr 2 ⟨0, 0xFFFE, 0⟩).setTmr 3 ⟨0, 0xFFFF, 0⟩)
theorem witness_TickMovesTheCascadeChain : chain.ime = false ∧ chain.tickReaches 0 2 ∧ ¬chain.tickReaches 0 3 ∧
    (chain.tmr.get 1).counter = 0xFFFF ∧ (chain.tmrCtl 1).getLsbD 6 = true :=
  ⟨by decide, ⟨⟨trivial, by decide, by decide⟩, by decide, by decide⟩, fun h => absurd h.2.1 (by decide), by decide, by decide⟩
/-- With the master enable set and no timer handler: TIMER1's overflow is deliverable. -/
theorem witness_TickMovesTheCascadeChain_deliverable :
    let s := (chain.setReg 0x200 0x0010).setReg 0x208 1
    6 < s.cfg.irqCount.val ∧ (s.tmr.get 0).counter = 0xFFFF ∧ (s.tmr.get 2).counter ≠ 0xFFFF ∧ s.ime = true ∧
    (∀ c : Fin 4, s.cfg.handlerOf (timerSource c) = .absent) ∧ s.deliverable (timerSource 1) = true ∧
    (∃ m : BitVec 14, ∀ j : Fin nIrq, m.getLsbD j.val = true ↔ s.deliverable j = true ∧ ∃ d, 0 + d < 4 ∧ j.val = 3 + 0 + d ∧
      s.tickReaches 0 d ∧ (s.tmr.get (Fin.ofNat 4 (0 + d))).counter = 0xFFFF ∧
      (s.tmrCtl (Fin.ofNat 4 (0 + d))).getLsbD 6 = true) := by
  refine ⟨by decide, by decide, by decide, by decide, by decide, by decide, 0x0010, fun j => ⟨fun h => ?_, fun h => ?_⟩⟩
  · have hj : j = 4 := by revert h; revert j; decide
    subst hj
    exact ⟨by decide, 1, by decide, rfl, ⟨trivial, by decide, by decide⟩, by decide, by decide⟩
  · have key : ∀ j : Fin nIrq, ((chain.setReg 0x200 0x0010).setReg 0x208 1).deliverable j = true →
      (0x0010 : BitVec 14).getLsbD j.val = true := by decide
    exact key j h.1
theorem witness_LineOfTicksInClosedForm :
    let s := ((withRegs [(0x102, 0xC1), (0x106, 0xC4)]).setTmr 0 ⟨0xFFFE, 0xFFFF, 63⟩).setTmr 1 ⟨0, 0xFFFF, 1000⟩
    s.ime = false ∧ s.ownTicks 0 = true ∧ s.ownTicks 1 = false ∧
    s.AccInRange := by
  refine ⟨by decide, by decide, by decide, ?_⟩
  unfold State.AccInRange
  decide
theorem witness_MillisecondsTakeTheFinestPrescaler :
    1 ≤ 3 * State.reset.cfg.clockHz / (1000 * 1) ∧ 3 * State.reset.cfg.clockHz / (1000 * 1) ≤ 65536 ∧
    65536 < 4 * State.reset.cfg.clockHz / (1000 * 1) ∧ 250 * State.reset.cfg.clockHz / (1000 * 64) ≤ 65536 ∧
    65536 < 251 * State.reset.cfg.clockHz / (1000 * 64) ∧ 1000 * State.reset.cfg.clockHz / (1000 * 256) ≤ 65536 ∧
    65536 < 1001 * State.reset.cfg.clockHz / (1000 * 256) ∧ 4000 * State.reset.cfg.clockHz / (1000 * 1024) ≤ 65536 ∧
    65536 < 4001 * State.reset.cfg.clockHz / (1000 * 1024) ∧ 0 * State.reset.cfg.clockHz / 1000 = 0 := by decide

theorem witness_lines : (0 : Byte).toNat < 160 ∧ (159 : Byte).toNat < 160 ∧ 2 ≤ (2 : BitVec 2).toNat ∧ 2 ≤ (3 : BitVec 2).toNat ∧
    (239 : Byte).toNat < 240 := by decide
theorem witness_LowestSprite : ((State.reset.lb.objpix.get 3)[239]? = some none) ∧ State.reset.lb.objwin[239]? = some false ∧
    ((⟨[some ⟨0, true⟩], [], [], []⟩ : Four (List (Option ObjPixel))).get 0)[0]? = some (some ⟨0, true⟩) := by decide
/-- 128 disabled entries. -/
theorem witness_LowestSprite_undrawn :
    let s : State := { State.reset with oam := (List.range 128).map (fun i => (8 * i + 1, 2)) }
    ∀ i < 128, bitsOf (s.oam16 (8 * i)) 9 8 = 2 := by decide +kernel
theorem witness_lines_and_columns : (160 : Byte).toNat ≥ 160 ∧ (159 : Byte).toNat < 160 ∧ (239 : Byte).toNat < 240 ∧
    (2 : BitVec 2).toNat ≥ 2 ∧ State.reset.lb.objpix.get 0 = List.replicate 240 none := by decide +kernel
theorem witness_SortOrdersTheLayers : State.reset.cfg.modeLatch = .perLine := rfl
theorem witness_WindowMask_clauses :
    (twoWindows.x 0x000).getLsbD 13 = true ∧ insideOf (twoWindows.x 0x040) (twoWindows.x 0x044) 10 10 ∧
    insideOf (twoWindows.x 0x040) (twoWindows.x 0x044) 19 19 ∧ ¬insideOf (twoWindows.x 0x040) (twoWindows.x 0x044) 20 12 ∧
    (twoWindows.x 0x000).getLsbD 14 = true ∧ insideOf (twoWindows.x 0x042) (twoWindows.x 0x046) 39 39 ∧
    ¬insideOf (twoWindows.x 0x042) (twoWindows.x 0x046) 40 12 ∧ (twoWindows.x 0x000).getLsbD 15 = false ∧
    bitsOf (twoWindows.x 0x000) 15 13 ≠ 0 ∧ bitsOf (State.reset.x 0x000) 15 13 = 0 ∧
    insideOf 0xC8FF 0x00A0 239 159 ∧ insideOf 0x6432 0x96FF 100 150 ∧ ¬insideOf 0x3232 0x00A0 50 0 := by
  simp only [insideOf]
  decide
theorem witness_WindowMask_object : ((withRegs [(0x000, 0x8000)]).x 0x000).getLsbD 15 = true ∧
    (((withRegs [(0x000, 0x8000)]).setLb { LineBuffers.cleared with objwin := [false, true] }).lb.objwin[(1 : Byte).toNat]? =
      some true) := by decide
theorem witness_EffectOnTheTopTwoLayers :
    (State.reset.setLb { LineBuffers.cleared with order := [.bg 0, .backdrop] }).lb.order.find?
      ((State.reset.setLb { LineBuffers.cleared with order := [.bg 0, .backdrop] }).visible 0 239) = some .backdrop ∧
    (State.reset.setLb { LineBuffers.cleared with order := [.bg 0, .backdrop] }).lb.order.find?
      ((State.reset.setLb { LineBuffers.cleared with order := [.bg 0, .backdrop] }).visible 0 255) = some .backdrop := by
  decide +kernel
theorem witness_EffectOnTheTopTwoLayers_pixels :
    let s := State.reset.setLb { LineBuffers.cleared with
      bgpix := LineBuffers.cleared.bgpix.set 3 (List.replicate 240 (some 0x1F))
      objpix := LineBuffers.cleared.objpix.set 0 (List.replicate 240 (some ⟨0x7C00, true⟩)) }
    (s.lb.bgpix.get 3)[239]? = some (some 0x1F) ∧ (s.lb.objpix.get 0)[239]? = some (some ⟨0x7C00, true⟩) ∧
    (0x18 : BitVec 6).getLsbD 3 = true ∧ (0x18 : BitVec 6).getLsbD 4 = true := by decide +kernel
theorem witness_GreenSwap : State.reset.lb.line.length = 240 ∧ ((withRegs [(0x002, 1)]).x 0x002).getLsbD 0 = true ∧
    State.reset.lb.line[2 * 119]? = some 0 ∧ State.reset.lb.line[2 * 119 + 1]? = some 0 := by
  decide +kernel
theorem witness_frame_rows : (State.reset.fb State.reset.active).length = 160 := by decide +kernel
theorem witness_RenderLine_blank : ((withRegs [(0x000, 0x0080)]).x 0x000).getLsbD 7 = true ∧
    (State.reset.x 0x000).getLsbD 7 = false ∧ bitsOf (State.reset.x 0x000) 15 8 = 0 ∧
    (State.reset.x 0x050).getLsbD 5 = false := by decide
theorem witness_CompositorWrites : ∀ op ∈ [Instr.ppuRenderline 159, .ppuFramestart, .ppuBgText 3 159, .ppuBgAffine 3 159,
      .ppuBgBitmap3 159, .ppuBgBitmap4 159, .ppuBgBitmap5 159, .ppuObj 159, .ppuSort, .ppuWindow 239 159, .ppuEffect 239,
      .ppuGreenswap, .ppuCommit 159, .ppuSwap, .ppuGetframe, .ppuRenderline 255, .ppuBgText 3 160, .ppuBgAffine 0 255,
      .ppuObj 160, .ppuWindow 255 255, .ppuEffect 240, .ppuCommit 160], ∃ t, exec op State.reset = .next t :=
  exists_next_of_all (by decide +kernel)

theorem witness_HostAccessFaults : (0x04000001 : Word).toNat % 2 ≠ 0 ∧ (0x06000002 : Word).toNat % 4 ≠ 0 ∧
    State.reset.cfg.route 0x04000400 = .ext ∧ State.reset.cfg.route 0x06018000 = .ext ∧
    State.reset.cfg.route 0x02000000 = .ext ∧ (0x04000400 : Word).toNat % 4 = 0 := by decide
theorem witness_memory_windows : State.reset.cfg.route 0x05000000 = .pal 0 ∧ State.reset.cfg.route 0x050003FC = .pal 0x3FC ∧
    State.reset.cfg.route 0x06017FFC = .vram 0x17FFC ∧ State.reset.cfg.route 0x070003FC = .oam 0x3FC ∧
    (0x050003FC : Word).toNat % 4 = 0 := by decide
theorem witness_ReadsChangeNothing_view : ∃ view : Nat → Half, State.reset.cfg.route 0x04000004 = .reg 4 ∧
    (∀ j, (view 0x004).getLsbD j = if j = 2 then decide (bitsOf (State.reset.x 0x006) 7 0 = bitsOf (State.reset.x 0x004) 15 8)
      else (State.reset.x 0x004).getLsbD j) ∧
    (∀ ch : Fin 4, view (0x100 + 4 * ch.val) = (State.reset.tmr.get ch).counter) ∧
    (∀ o, o ∉ [0x004, 0x100, 0x104, 0x108, 0x10C] → view o = State.reset.x o) := by
  refine ⟨fun o => if o = 4 then 4 else 0, by decide, fun j => ?_, by decide, fun o ho => ?_⟩
  · by_cases hj : j < 16
    · exact (by decide : ∀ j < 16, (4 : Half).getLsbD j = if j = 2 then decide (bitsOf (State.reset.x 0x006) 7 0 =
        bitsOf (State.reset.x 0x004) 15 8) else (State.reset.x 0x004).getLsbD j) j hj
    · have h2 : j ≠ 2 := by omega
      rw [if_neg h2]
      exact (BitVec.getLsbD_of_ge _ _ (by omega)).trans (BitVec.getLsbD_of_ge _ _ (by omega)).symm
  · have h4 : o ≠ 4 := fun h => ho (by simp [h])
    show (if o = 4 then (4 : Half) else 0) = State.reset.x o
    rw [if_neg h4]
    rfl
theorem witness_register_routes : State.reset.cfg.route 0x04000000 = .reg 0 ∧ State.reset.cfg.route 0x040000DD = .reg 0xDD ∧
    State.reset.cfg.route 0x04000006 = .reg 6 ∧ State.reset.cfg.route 0x0400010C = .reg (0x100 + 4 * (3 : Fin 4).val) ∧
    State.reset.cfg.route 0x0400003E = .reg (0x03C + 2) ∧ State.reset.cfg.route 0x04000200 = .reg 0x200 ∧
    State.reset.cfg.route 0x04000202 = .reg 0x202 ∧ State.reset.cfg.route 0x04000208 = .reg 0x208 ∧
    State.reset.cfg.route 0x040000DE = .reg (0x0BA + 12 * (3 : BitVec 2).toNat) ∧
    State.reset.cfg.route 0x0400010E = .reg (0x102 + 4 * (3 : BitVec 2).toNat) := by decide
/-- Byte writes of every kind of register, and of offsets that no register has. -/
theorem witness_byte_write_routes :
    State.reset.cfg.route 0x04000004 = .reg 0x004 ∧ State.reset.cfg.route 0x04000005 = .reg 0x005 ∧
    State.reset.cfg.route 0x04000007 = .reg 0x007 ∧ State.reset.cfg.route 0x04000029 = .reg 0x029 ∧
    State.reset.cfg.route 0x0400003F = .reg 0x03F ∧ State.reset.cfg.route 0x04000051 = .reg 0x051 ∧
    State.reset.cfg.route 0x04000060 = .reg 0x060 ∧ State.reset.cfg.route 0x04000061 = .reg 0x061 ∧
    State.reset.cfg.route 0x040000BA = .reg 0x0BA ∧ State.reset.cfg.route 0x040000BB = .reg 0x0BB ∧
    State.reset.cfg.route 0x040000DF = .reg 0x0DF ∧ State.reset.cfg.route 0x04000100 = .reg 0x100 ∧
    State.reset.cfg.route 0x0400010D = .reg 0x10D ∧ State.reset.cfg.route 0x04000102 = .reg 0x102 ∧
    State.reset.cfg.route 0x0400010F = .reg 0x10F ∧ State.reset.cfg.route 0x04000200 = .reg 0x200 ∧
    State.reset.cfg.route 0x04000201 = .reg 0x201 ∧ State.reset.cfg.route 0x04000202 = .reg 0x202 ∧
    State.reset.cfg.route 0x04000203 = .reg 0x203 ∧ State.reset.cfg.route 0x04000208 = .reg 0x208 ∧
    State.reset.cfg.route 0x04000209 = .reg 0x209 ∧ State.reset.cfg.route 0x040003FF = .reg 0x3FF := by decide
theorem witness_byte_write_control : (byteMerged 0x0000 0x0BB 0x80).getLsbD 15 = true ∧
    (byteMerged 0x7FFF 0x0BA 0x80).getLsbD 15 = false ∧ (byteMerged 0xFF7F 0x102 0x80).getLsbD 7 = true ∧
    (byteMerged 0x0000 0x103 0x80).getLsbD 7 = false := by decide
theorem witness_ControlWrites_arm :
    let s := withRegs [(0x0D4, 2), (0x0D6, 0x0200), (0x0D8, 4), (0x0DA, 0x0600), (0x0DC, 1)]
    (0x9200 : Half).getLsbD 15 = true ∧ (s.x32 0x0D4).toNat % (if (0x9200 : Half).getLsbD 10 = true then 4 else 2) = 0 ∧
    (s.x32 0x0D8).toNat % (if (0x9200 : Half).getLsbD 10 = true then 4 else 2) = 0 ∧
    ((3 : BitVec 2).toNat ≤ 2 → (s.x32 0x0D4).toNat < s.cfg.romLo ∨ s.cfg.romHi < (s.x32 0x0D4).toNat) ∧
    bitsOf (0x9200 : Half) 8 7 ≠ 3 ∧ bitsOf (0x9200 : Half) 6 5 ≠ 3 ∧ bitsOf (0x9200 : Half) 13 12 ≠ 0 := by decide
theorem witness_WordWrite : State.reset.cfg.regBase % 4 = 0 ∧ (0x040003FC : Word).toNat % 4 = 0 ∧
    State.reset.cfg.route 0x040003FC = .reg 0x3FC ∧ State.reset.cfg.route (0x040003FC + 2) = .reg (0x3FC + 2) := by decide

/-- The reset state about to process line `n`. -/
def atLine (n : BitVec 8) : State := { State.reset with frameClock := n }
theorem witness_AdvanceMovesOneLine : ∀ n ∈ [(0 : BitVec 8), 159, 160, 227], (atLine n).ime = false ∧
    (atLine n).frameClock.toNat < 228 ∧
    ∀ ch : Fin 4, ((atLine n).dmaCtl ch).getLsbD 15 = true →
      ((atLine n).frameClock.toNat < 160 → bitsOf ((atLine n).dmaCtl ch) 13 12 ≠ 2) ∧
      ((atLine n).frameClock.toNat = 160 → bitsOf ((atLine n).dmaCtl ch) 13 12 ≠ 1) := by decide
theorem witness_AdvanceWithoutDeliveries_rows : ((atLine 159).fb (atLine 159).active).length = 160 := by decide +kernel
theorem witness_AdvanceWithoutDeliveries_chain_160 : (atLine 160).ime = false ∧ 2 < (atLine 160).cfg.irqCount.val ∧
    ∃ u, AdvanceChain (atLine 160) u :=
  ⟨by decide, by decide, _, _, _, _, _, _, ⟨_, rfl, rfl⟩, ⟨rfl, rfl, rfl⟩, rfl, _, rfl, rfl⟩
theorem witness_AdvanceWithoutDeliveries_chain_227 : ∃ u, AdvanceChain (atLine 227) u :=
  ⟨_, _, State.reset, State.reset, _, _, ⟨_, rfl, rfl⟩, rfl, rfl, _, rfl, rfl⟩
theorem witness_AdvanceWithoutDeliveries_chain_0 : ∃ u, AdvanceChain (atLine 0) u :=
  ⟨_, _, State.reset, State.reset, _, _, ⟨_, rfl, rfl⟩, rfl, rfl, _, rfl, rfl⟩
theorem witness_AdvanceWithoutDeliveries_sources : 11 < State.reset.cfg.irqCount.val ∧
    State.reset.cfg.route 0x040000DE = .reg 0x0DE ∧ (0x040000DE : Word).toNat % 2 = 0 := by decide
/-- Every position of a suspended operation. -/
theorem witness_AdvanceWithoutDeliveries_positions : ∀ k ∈ [Kont.advance 160 .vblankRaise, .advance 159 .hblankPoint,
      .advance 0 .vcountCompare, .advance 227 .hblankRaise, .advance 5 .timerTicks, .fire 2 3, .fire 1 0, .dispatch,
      .tickCascade 3, .tickLine 4927, .tickLine 0, .writeHigh 0x0DE 0x8000, .haltLoop, .haltAdvance, .haltPoll, .haltTest],
    (State.reset.setKont [k, .handlerReturn]).faulted = none ∧
      (State.reset.setKont [k, .handlerReturn]).kont = k :: [.handlerReturn] ∧ k.isHandler = false := by decide
theorem witness_OnlyAdvanceMovesTheClock : Instr.ppuSwap ≠ .advance ∧ ∃ t, exec .ppuSwap State.reset = .next t :=
  ⟨by decide, exists_next (by decide +kernel)⟩
theorem witness_WaitsPushTheirFrame : (0x2000 : Half).setWidth 14 ≠ (0 : BitVec 14) ∧
    (0xC000 : Half).setWidth 14 = (0 : BitVec 14) ∧ ((withRegs [(0x200, 1)]).x 0x200).setWidth 14 ≠ (0 : BitVec 14) ∧
    (State.reset.x 0x200).setWidth 14 = (0 : BitVec 14) := by decide
theorem witness_WaitForHblankEnds :
    let s := { withRegs [(0x004, 0x0010), (0x200, 0x0002), (0x208, 1)] with frameClock := 227 }
    s.faulted = none ∧ s.extRaises = [] ∧ (∀ i, s.cfg.handlerOf i = .absent) ∧ s.frameClock.toNat < 228 ∧
    (∀ ch : Fin 4, (s.dmaCtl ch).getLsbD 15 = false) ∧ s.deliverable 1 = true ∧ (0x0002 : Half).getLsbD 1 = true := by decide
theorem witness_WaitWithoutMasterEnableGoesOn :
    let s := (State.reset.setKont [.haltLoop]).setWaits [⟨0x0001, 0x0002⟩]
    s.faulted = none ∧ s.kont = [.haltLoop] ∧ s.waits = [⟨0x0001, 0x0002⟩] ∧ (0x0002 : BitVec 14) &&& 0x0001 = 0 ∧
    s.extRaises = [] ∧ s.ime = false ∧ s.frameClock.toNat < 228 ∧ ∀ ch : Fin 4, (s.dmaCtl ch).getLsbD 15 = false := by decide

theorem witness_a_step_goes_on : ∃ t, step (State.reset.withFetchWord 8 0x4D) = .next t := ⟨_, rfl⟩
theorem witness_a_fault_leaves_a_state : ∃ f t, step (State.reset.withFetchWord 8 0x04) = .fault f ∧ f.left = some t :=
  ⟨_, _, rfl, rfl⟩
theorem witness_StepKeepsTheStoresCanonical : (State.reset.withFetchWord 8 0x4D).Canonical :=
  ⟨by decide, by decide, by decide, by decide, by decide⟩
theorem witness_StepKeepsRegistersClockTimersAndFrames : (State.reset.withFetchWord 8 0x4D).ReservedZero ∧
    (State.reset.withFetchWord 8 0x4D).ClockInRange ∧ (State.reset.withFetchWord 8 0x4D).AccInRange ∧
    (State.reset.withFetchWord 8 0x4D).FramesShaped := by
  refine ⟨fun o => ?_, ⟨by decide, by decide⟩, by unfold State.AccInRange; decide, ⟨⟨by decide +kernel, ?_⟩, ⟨by decide +kernel, ?_⟩, by decide +kernel⟩⟩
  · show (0 : Half) &&& ~~~storedMask o = 0
    exact BitVec.zero_and
  · exact fun row h => by rw [List.eq_of_mem_replicate h]; exact List.length_replicate
  · exact fun row h => by rw [List.eq_of_mem_replicate h]; exact List.length_replicate
theorem witness_StepKeepsTheStacksMatched : ((State.reset.setKont [.handlerReturn, .haltAdvance]).setDispatch
    [⟨0, true, false⟩]).waits.length + 1 = haltCount [.handlerReturn, .haltAdvance] ∧
    (State.reset.withFetchWord 8 0x4D).StacksMatch := ⟨rfl, rfl, rfl⟩

end Sys2Proof.Tests
end

/-! ### Steps: which event or position a step takes (`00_scope.md` R7; log 1, 2) -/

section

namespace Sys2Proof.Machine

variable {s t : State}

theorem step_of_running (h : s.faulted = none) : step s = if s.hostTurn then hostStep s else innerStep s := by
  rw [step, h]

theorem step_of_stuck {code : FaultCode} (h : s.faulted = some code) : step s = stuckStep code s := by
  rw [step, h]

/-- The host has control when nothing is in progress or an interactive handler runs. -/
theorem hostTurn_eq_true (h : s.kont = [] ∨ ∃ ks, s.kont = .handlerReturn :: ks) : s.hostTurn = true := by
  rcases h with h | ⟨ks, h⟩ <;> rw [State.hostTurn, h]

theorem hostTurn_of_handlerProgram {ops : List RawOp} {ks : List Kont} (h : s.kont = .handlerProgram ops :: ks) :
    s.hostTurn = false := by
  rw [State.hostTurn, h]

theorem hostTurn_of_not_isHandler {k : Kont} {ks : List Kont} (h : s.kont = k :: ks) (hk : k.isHandler = false) :
    s.hostTurn = false := by
  rw [State.hostTurn, h]
  cases k with
  | handlerReturn => cases hk
  | handlerProgram _ => cases hk
  | _ => rfl

theorem issue_of_decode {raw : RawOp} {i : Instr} (h : decode raw = .ok i) (s : State) : issue raw s = exec i s := by
  rw [issue, h]

theorem hostStep_op {raw : RawOp} {rest : List HostEvent} (h : s.host = .op raw :: rest) :
    hostStep s = issue raw (s.setHost rest) := by
  rw [hostStep, h]

theorem innerStep_handlerProgram {raw : RawOp} {ops : List RawOp} {ks : List Kont}
    (h : s.kont = .handlerProgram (raw :: ops) :: ks) :
    innerStep s = issue raw (s.setKont (.handlerProgram ops :: ks)) := by
  rw [innerStep, h]

theorem innerStep_of_not_isHandler {k : Kont} {ks : List Kont} (h : s.kont = k :: ks) (hk : k.isHandler = false) :
    innerStep s = (resume k (s.setKont ks)).finish := by
  rw [innerStep, h]
  cases k with
  | handlerReturn => cases hk
  | handlerProgram _ => cases hk
  | _ => rfl

/-- Settles O4: `faulted` is empty, so the step is the host's or the inner one, and each of the three situations fixes
which and what it takes. -/
theorem stepRunsTheDecodedOperation : Obligations.StepRunsTheDecodedOperation := by
  refine ⟨fun s raw rest i hf hk hh hd => ?_, fun s raw ops ks i hf hk hd => ?_, fun s k ks hf hk hn => ?_⟩
  · rw [step_of_running hf, hostTurn_eq_true hk, if_pos rfl, hostStep_op hh, issue_of_decode hd]
  · rw [step_of_running hf, hostTurn_of_handlerProgram hk, if_neg Bool.false_ne_true, innerStep_handlerProgram hk,
      issue_of_decode hd]
  · rw [step_of_running hf, hostTurn_of_not_isHandler hk hn, if_neg Bool.false_ne_true,
      innerStep_of_not_isHandler hk hn]

end Sys2Proof.Machine

end

/-! ### The stores and the parameters along a step (`00_scope.md` R2, `10_state.md` R57) -/

section

namespace Sys2Proof.Machine

variable {s t : State}

theorem AllOutcome.next {P Q : State → Prop} {o : Host.Outcome State Fault Refusal} (h : AllOutcome P Q o)
    (ho : o = .next t) : P t := by
  subst ho; exact h

theorem AllOutcome.fault {P Q : State → Prop} {o : Host.Outcome State Fault Refusal} {f : Fault}
    (h : AllOutcome P Q o) (ho : o = .fault f) (hf : f.left = some t) : Q t := by
  subst ho; exact h t hf

/-- The parameters and the five stores: all that `State.Canonical` reads. -/
def State.stores (s : State) : Config × Store Half × Memory × Memory × Memory × Memory :=
  (s.cfg, s.regs, s.pal, s.vram, s.oam, s.ext)

theorem State.Canonical.of_stores (hs : s.Canonical) (h : t.stores = s.stores) : t.Canonical := by
  simp only [State.stores, Prod.mk.injEq] at h
  obtain ⟨hcfg, hregs, hpal, hvram, hoam, hext⟩ := h
  constructor
  · rw [hregs]; exact hs.regs
  · rw [State.palInit, hcfg, hpal]; exact hs.pal
  · rw [State.vramInit, hcfg, hvram]; exact hs.vram
  · rw [State.oamInit, hcfg, hoam]; exact hs.oam
  · rw [State.extInit, hcfg, hext]; exact hs.ext

theorem State.Canonical.setReg (hs : s.Canonical) (o : Nat) (v : Half) : (s.setReg o v).Canonical :=
  ⟨Store.wf_set hs.regs o v, hs.pal, hs.vram, hs.oam, hs.ext⟩

theorem stores_commit (s : State) (y : Nat) : (commit s y).stores = s.stores := by
  unfold commit
  split <;> rfl

theorem Store.wf_nil {α : Type} [DecidableEq α] (d : Nat → α) : Store.wf d [] :=
  ⟨List.Pairwise.nil, fun _ hc => absurd hc List.not_mem_nil⟩

theorem canonical_resetWith (cfg : Config) : (State.resetWith cfg).Canonical :=
  ⟨Store.wf_nil _, Store.wf_nil _, Store.wf_nil _, Store.wf_nil _, Store.wf_nil _⟩

/-- Reset empties the block's own stores and keeps external memory (log 21). -/
theorem canonical_applyReset (hs : s.Canonical) : (applyReset s).Canonical :=
  ⟨Store.wf_nil _, Store.wf_nil _, Store.wf_nil _, Store.wf_nil _, hs.ext⟩

/-- Canonical stores are kept by every update a step is made of, and by the update of a fault. -/
theorem closedStep_canonical : ClosedStep State.Canonical State.Canonical where
  setReg _ o v _ _ hs := hs.setReg o v
  setTmrCtl _ _ v _ _ hs := hs.setReg _ v
  writePal _ n off v hs := ⟨hs.regs, writeLE_wf hs.pal n off v, hs.vram, hs.oam, hs.ext⟩
  writeVram _ n off v hs := ⟨hs.regs, hs.pal, writeLE_wf hs.vram n off v, hs.oam, hs.ext⟩
  writeOam _ n off v hs := ⟨hs.regs, hs.pal, hs.vram, writeLE_wf hs.oam n off v, hs.ext⟩
  writeExt _ n a v hs := ⟨hs.regs, hs.pal, hs.vram, hs.oam, writeLE_wf hs.ext n a v⟩
  setDma _ _ _ hs := hs.of_stores rfl
  setTmr _ _ _ _ hs := hs.of_stores rfl
  setRefs _ _ hs := hs.of_stores rfl
  frameMode _ _ hs := hs.of_stores rfl
  setLb _ _ _ hs := hs.of_stores rfl
  useFree _ hs := hs.of_stores rfl
  commit s y hs := hs.of_stores (stores_commit s y)
  swap _ hs := hs.of_stores rfl
  setResult _ _ hs := hs.of_stores rfl
  setDispatch _ _ hs := hs.of_stores rfl
  setWaits _ _ hs := hs.of_stores rfl
  setHost _ _ hs := hs.of_stores rfl
  setKont _ _ hs := hs.of_stores rfl
  extRaises _ _ hs := hs.of_stores rfl
  afterFault _ _ hs := hs.of_stores rfl
  clock s hs := (hs.setReg Reg.vcount (s.frameClock.setWidth 16)).of_stores rfl
  reset _ hs := canonical_applyReset hs

/-- The machine runs with the parameters `cfg`. -/
def State.RunsWith (cfg : Config) (s : State) : Prop := s.cfg = cfg ∧ s.faulted = none

/-- No update of a step touches the parameters, and only the one of a fault sets `faulted`. -/
theorem closedStep_runsWith (cfg : Config) : ClosedStep (State.RunsWith cfg) (fun _ => True) where
  setReg _ _ _ _ _ hs := hs
  setTmrCtl _ _ _ _ _ hs := hs
  writePal _ _ _ _ hs := hs
  writeVram _ _ _ _ hs := hs
  writeOam _ _ _ _ hs := hs
  writeExt _ _ _ _ hs := hs
  setDma _ _ _ hs := hs
  setTmr _ _ _ _ hs := hs
  setRefs _ _ hs := hs
  frameMode _ _ hs := hs
  setLb _ _ _ hs := hs
  useFree _ hs := hs
  commit s y hs := by
    unfold commit
    split <;> exact hs
  swap _ hs := hs
  setResult _ _ hs := hs
  setDispatch _ _ hs := hs
  setWaits _ _ hs := hs
  setHost _ _ hs := hs
  setKont _ _ hs := hs
  extRaises _ _ hs := hs
  afterFault _ _ _ := trivial
  clock _ hs := hs
  reset _ hs := ⟨hs.1, rfl⟩

/-- A reset event that gives a next state gives the reset one (`70_reset_and_hazards.md` R410). -/
theorem eq_applyReset_of_resetEvent (h : resetEvent s = .next t) : t = applyReset s := by
  unfold resetEvent at h
  split at h
  · exact (Host.Outcome.next.inj h).symm
  · cases h

/-- The only next state of a block with `faulted` set is the reset one (`60_exceptions.md` R372 (4)). -/
theorem eq_applyReset_of_stuckStep {code : FaultCode} (h : stuckStep code s = .next t) :
    ∃ rest, t = applyReset (s.setHost rest) := by
  unfold stuckStep at h
  split at h
  · exact ⟨_, eq_applyReset_of_resetEvent h⟩
  · cases h

/-- A step that gives a next state leaves the machine running with the same parameters: from an empty `faulted` no
update sets it, and from a set one the step is a reset. -/
theorem runsWith_of_step (h : step s = .next t) : t.RunsWith s.cfg := by
  cases hf : s.faulted with
  | none => exact ((closedStep_runsWith s.cfg).step ⟨rfl, hf⟩).next h
  | some code =>
    rw [step_of_stuck hf] at h
    obtain ⟨rest, rfl⟩ := eq_applyReset_of_stuckStep h
    exact ⟨rfl, rfl⟩

/-- Settles O58: `State.Canonical` and `State.RunsWith` are closed under the updates every step is made of. -/
theorem stepKeepsTheStoresCanonical : Obligations.StepKeepsTheStoresCanonical := by
  refine ⟨fun s hs => ?_, fun s t h => runsWith_of_step h⟩
  have hstep := closedStep_canonical.step hs
  exact ⟨fun t h => hstep.next h, fun f t h hl => hstep.fault h hl⟩

end Sys2Proof.Machine

end

/-! ### The reset state (`10_state.md` R62, `70_reset_and_hazards.md` R410) -/

section

namespace Sys2Proof.Machine

@[simp] theorem x_reset (o : Nat) : State.reset.x o = 0 := rfl

theorem dma_reset (ch : Fin 4) : State.reset.dma.get ch = ⟨0, 0, if ch = 3 then 0x10000 else 0x4000⟩ := by
  revert ch; decide

theorem tmr_reset (ch : Fin 4) : State.reset.tmr.get ch = ⟨0, 0, 0⟩ := by
  revert ch; decide

theorem reservedZero_reset : State.reset.ReservedZero := fun _ => BitVec.zero_and

theorem clockInRange_reset : State.reset.ClockInRange := ⟨by decide, by rw [x_reset]; decide⟩

/-- No timer is running at reset. -/
theorem ownTicks_reset (ch : Fin 4) : State.reset.ownTicks ch = false := by
  rw [State.ownTicks, State.tmrCtl, x_reset]; rfl

theorem accInRange_reset : State.reset.AccInRange := fun ch h => by
  rw [ownTicks_reset] at h; cases h

theorem frameShape_blackFrame : frameShape blackFrame :=
  ⟨List.length_replicate, fun _ hrow => List.eq_of_mem_replicate hrow ▸ List.length_replicate⟩

theorem framesShaped_reset : State.reset.FramesShaped :=
  ⟨frameShape_blackFrame, frameShape_blackFrame, List.length_replicate⟩

theorem stacksMatch_reset : State.reset.StacksMatch := ⟨rfl, rfl⟩

/-- Settles O5: the values by the definition of reset, and each invariant by its own lemma. -/
theorem resetState : Obligations.ResetState :=
  ⟨⟨x_reset, rfl, dma_reset, tmr_reset, rfl, rfl, rfl, rfl, rfl, rfl, rfl, rfl, rfl, fun _ => ⟨rfl, rfl, rfl⟩⟩,
    canonical_resetWith _, reservedZero_reset, clockInRange_reset, accInRange_reset, framesShaped_reset,
    stacksMatch_reset⟩

end Sys2Proof.Machine

end

/-! ### The stacks along a step (`10_state.md` R58, R59, `60_exceptions.md` R388; log 1) -/

section

namespace Sys2Proof.Machine

variable {s t : State}

/-- Reset empties the suspended operations and both stacks of frames (`70_reset_and_hazards.md` R410). -/
theorem stacksMatch_applyReset (s : State) : (applyReset s).StacksMatch := ⟨rfl, rfl⟩

/-- Taking up the innermost suspended position leaves its own frame on top of matched stacks. -/
theorem State.StacksMatch.shape_setKont_tail {k : Kont} {ks : List Kont} (hm : s.StacksMatch) (hk : s.kont = k :: ks) :
    (s.setKont ks).shape = (Shape.mk ks (handlerCount ks) (haltCount ks)).plus [k] := by
  obtain ⟨hd, hw⟩ := hm
  rw [hk, ← List.singleton_append] at hd hw
  rw [handlerCount_append, Nat.add_comm] at hd
  rw [haltCount_append, Nat.add_comm] at hw
  simp only [State.shape, Shape.plus, State.setKont_kont, State.setKont_dispatch, State.setKont_waits, hd, hw]

/-- Going on with the innermost suspended position removes its frame, and leaves one for each position it suspends at. -/
theorem stacksMatch_of_resume {k : Kont} {ks : List Kont} (hm : s.StacksMatch) (hk : s.kont = k :: ks)
    (h : (resume k (s.setKont ks)).finish = .next t) : t.StacksMatch :=
  (resume_ends k (hm.shape_setKont_tail hk)).finish rfl rfl h

/-- Taking an operation from a handler program leaves the handler running. -/
theorem State.StacksMatch.takeProgramOp {raw : RawOp} {ops : List RawOp} {ks : List Kont} (hm : s.StacksMatch)
    (hk : s.kont = .handlerProgram (raw :: ops) :: ks) : (s.setKont (.handlerProgram ops :: ks)).StacksMatch := by
  obtain ⟨hd, hw⟩ := hm
  rw [hk] at hd hw
  exact ⟨hd, hw⟩

theorem stacksMatch_of_issue {raw : RawOp} (hm : s.StacksMatch) (h : issue raw s = .next t) : t.StacksMatch := by
  unfold issue at h
  split at h
  · exact exec_stacks hm h
  · cases h

/-- A return event resumes the interactive handler's position. -/
theorem stacksMatch_of_returnEvent (hm : s.StacksMatch) (h : returnEvent s = .next t) : t.StacksMatch := by
  unfold returnEvent at h
  split at h
  · next ks hk => exact stacksMatch_of_resume hm hk h
  · cases h

theorem stacksMatch_of_hostStep (hm : s.StacksMatch) (h : hostStep s = .next t) : t.StacksMatch := by
  have taken (rest : List HostEvent) : (s.setHost rest).StacksMatch := hm.of_shape rfl
  unfold hostStep at h
  split at h
  · exact Host.Outcome.next.inj h ▸ hm
  · exact stacksMatch_of_issue (taken _) h
  · exact stacksMatch_of_returnEvent (taken _) h
  · exact eq_applyReset_of_resetEvent h ▸ stacksMatch_applyReset _

theorem stacksMatch_of_innerStep (hm : s.StacksMatch) (h : innerStep s = .next t) : t.StacksMatch := by
  unfold innerStep at h
  split at h
  · exact Host.Outcome.next.inj h ▸ hm
  · next hk => exact stacksMatch_of_issue (hm.takeProgramOp hk) h
  · next hk => exact stacksMatch_of_resume hm hk h

/-- Settles O60: a stuck block only resets; else the host's event or the innermost position runs, and each keeps a frame
for every position. -/
theorem stepKeepsTheStacksMatched : Obligations.StepKeepsTheStacksMatched := by
  intro s t hm h
  cases hf : s.faulted with
  | some code =>
    rw [step_of_stuck hf] at h
    obtain ⟨rest, rfl⟩ := eq_applyReset_of_stuckStep h
    exact stacksMatch_applyReset _
  | none =>
    rw [step_of_running hf] at h
    split at h
    · exact stacksMatch_of_hostStep hm h
    · exact stacksMatch_of_innerStep hm h

end Sys2Proof.Machine

end

/-! ### The clock outside `ADVANCE` (`10_state.md` R50, `00_scope.md` R5, `40_scheduler.md` R130) -/

section

namespace Sys2Proof.Machine

/-- The clock stands at line `l` and VCOUNT at `v`. -/
def State.ClockAt (l : BitVec 8) (v : Half) (s : State) : Prop := s.frameClock = l ∧ s.x Reg.vcount = v

theorem State.ClockAt.setReg {l : BitVec 8} {v : Half} {s : State} (hs : s.ClockAt l v) {o : Nat} (ho : Reg.vcount ≠ o)
    (w : Half) : (s.setReg o w).ClockAt l v :=
  ⟨hs.1, (s.x_setReg_other w ho).trans hs.2⟩

theorem vcount_ne_tmrCntH (ch : Fin 4) : Reg.vcount ≠ Reg.tmrCntH ch := by revert ch; decide

/-- Of the updates an operation is made of, only the clock's own writes the clock or VCOUNT. -/
theorem closed_clockAt (l : BitVec 8) (v : Half) : Closed (State.ClockAt l v) (fun _ => True) where
  setReg _ _ w ho _ hs := hs.setReg ho.1.symm w
  setTmrCtl _ ch w _ _ hs := hs.setReg (vcount_ne_tmrCntH ch) w
  writePal _ _ _ _ hs := hs
  writeVram _ _ _ _ hs := hs
  writeOam _ _ _ _ hs := hs
  writeExt _ _ _ _ hs := hs
  setDma _ _ _ hs := hs
  setTmr _ _ _ _ hs := hs
  setRefs _ _ hs := hs
  frameMode _ _ hs := hs
  setLb _ _ _ hs := hs
  useFree _ hs := hs
  commit s y hs := by
    unfold commit
    split <;> exact hs
  swap _ hs := hs
  setResult _ _ hs := hs
  setDispatch _ _ hs := hs
  setWaits _ _ hs := hs
  setHost _ _ hs := hs
  setKont _ _ hs := hs
  extRaises _ _ hs := hs
  afterFault _ _ _ := trivial

/-- Settles O54: every operation but `ADVANCE` is made of updates that keep `State.ClockAt`. -/
theorem onlyAdvanceMovesTheClock : Obligations.OnlyAdvanceMovesTheClock := fun i s _ hi h =>
  ((closed_clockAt s.frameClock (s.x Reg.vcount)).exec_of_ne ⟨rfl, rfl⟩ i hi).next h

end Sys2Proof.Machine

end

/-! ### The encoding (`30_encoding.md` R100 to R103, R120; log 4, 5) -/

section

namespace Sys2Proof

/-- Settles O2: each operation by its round-trip lemma. -/
theorem decodeInvertsEncode : Obligations.DecodeInvertsEncode := fun i h => by
  cases i with
  | advance => exact Laws.RoundTrip.advance h
  | haltuntil m => exact Laws.RoundTrip.haltuntil m h
  | haltvbl => exact Laws.RoundTrip.haltvbl h
  | halt => exact Laws.RoundTrip.halt h
  | irqSeten s b => exact Laws.RoundTrip.irqSeten s b h
  | irqRaise s => exact Laws.RoundTrip.irqRaise s h
  | irqAck s => exact Laws.RoundTrip.irqAck s h
  | irqSetime b => exact Laws.RoundTrip.irqSetime b h
  | irqDeliver s => exact Laws.RoundTrip.irqDeliver s h
  | irqDispatch => exact Laws.RoundTrip.irqDispatch h
  | dmaConfigure ch src dst count flags => exact Laws.RoundTrip.dmaConfigure ch src dst count flags h
  | dmaStop ch => exact Laws.RoundTrip.dmaStop ch h
  | dmaFireHblank => exact Laws.RoundTrip.dmaFireHblank h
  | dmaFireVblank => exact Laws.RoundTrip.dmaFireVblank h
  | dmaXfer ch => exact Laws.RoundTrip.dmaXfer ch h
  | tmrStart ch reload p c q => exact Laws.RoundTrip.tmrStart ch reload p c q h
  | tmrStop ch => exact Laws.RoundTrip.tmrStop ch h
  | tmrTickline => exact Laws.RoundTrip.tmrTickline h
  | tmrTick ch => exact Laws.RoundTrip.tmrTick ch h
  | tmrMscfg ms => exact Laws.RoundTrip.tmrMscfg ms h
  | ppuRenderline y => exact Laws.RoundTrip.ppuRenderline y h
  | ppuFramestart => exact Laws.RoundTrip.ppuFramestart h
  | ppuBgText n y => exact Laws.RoundTrip.ppuBgText n y h
  | ppuBgAffine k y => exact Laws.RoundTrip.ppuBgAffine k y h
  | ppuBgBitmap3 y => exact Laws.RoundTrip.ppuBgBitmap3 y h
  | ppuBgBitmap4 y => exact Laws.RoundTrip.ppuBgBitmap4 y h
  | ppuBgBitmap5 y => exact Laws.RoundTrip.ppuBgBitmap5 y h
  | ppuObj y => exact Laws.RoundTrip.ppuObj y h
  | ppuSort => exact Laws.RoundTrip.ppuSort h
  | ppuWindow x y => exact Laws.RoundTrip.ppuWindow x y h
  | ppuEffect x => exact Laws.RoundTrip.ppuEffect x h
  | ppuGreenswap => exact Laws.RoundTrip.ppuGreenswap h
  | ppuCommit y => exact Laws.RoundTrip.ppuCommit y h
  | ppuSwap => exact Laws.RoundTrip.ppuSwap h
  | ppuGetframe => exact Laws.RoundTrip.ppuGetframe h
  | rd8 a => exact Laws.RoundTrip.rd8 a h
  | rd16 a => exact Laws.RoundTrip.rd16 a h
  | rd32 a => exact Laws.RoundTrip.rd32 a h
  | wr8 a d => exact Laws.RoundTrip.wr8 a d h
  | wr16 a d => exact Laws.RoundTrip.wr16 a d h
  | wr32 a d => exact Laws.RoundTrip.wr32 a d h
  | hookDmaConfigure ch w => exact Laws.RoundTrip.hookDmaConfigure ch w h
  | hookDmaStop ch w => exact Laws.RoundTrip.hookDmaStop ch w h
  | hookTmrStart ch w => exact Laws.RoundTrip.hookTmrStart ch w h
  | hookTmrStop ch w => exact Laws.RoundTrip.hookTmrStop ch w h
  | hookIrqSeten w => exact Laws.RoundTrip.hookIrqSeten w h
  | hookIrqAck w => exact Laws.RoundTrip.hookIrqAck w h
  | hookIrqSetime w => exact Laws.RoundTrip.hookIrqSetime w h
  | bgRefReload r hi w => exact Laws.RoundTrip.bgRefReload r hi w h

/-- Settles O1: each word is the encoding of the operation it is said to decode to. -/
theorem writtenOutWordsDecode : Obligations.WrittenOutWordsDecode :=
  ⟨decodeInvertsEncode .advance rfl, decodeInvertsEncode (.haltuntil 0x0001) rfl,
    decodeInvertsEncode (.irqSeten 3 true) rfl,
    decodeInvertsEncode (.dmaConfigure 3 0x02000000 0x06000000 4 0x8400) rfl,
    decodeInvertsEncode (.tmrStart 2 0xFFFE 1 false true) rfl, decodeInvertsEncode (.ppuBgText 3 159) rfl,
    decodeInvertsEncode (.rd16 0x04000000) rfl, decodeInvertsEncode (.wr32 0x04000100 0x00C0FF00) rfl,
    decodeInvertsEncode (.hookDmaConfigure 3 0x8400) rfl, decodeInvertsEncode (.bgRefReload .bg3x true 0x0FFF) rfl⟩

/-! ### From a raw operation to the encoding of its meaning -/

variable {opnum r : Nat} {i j : Instr}

/-- A field and what follows it are the whole stream. -/
theorem fieldCons_low_rest (n r : Nat) : fieldCons (fieldLow n r) (fieldRest n r) = r := by
  rw [fieldCons, fieldLow, fieldRest, BitVec.toNat_ofNat]
  exact Nat.mod_add_div r (2 ^ n)

theorem flagBit_fieldFlag (r : Nat) : flagBit (fieldFlag r) = fieldLow 1 r := by
  rw [fieldFlag]
  generalize fieldLow 1 r = v
  revert v
  decide

theorem fieldEnd_eq_ok_iff : fieldEnd r i = .ok j ↔ r = 0 ∧ i = j := by
  rw [fieldEnd]
  split <;> simp [*]

/-- `i` is well formed, and its encoding is `opnum` with the operand stream `r`. -/
def Instr.PortForm (i : Instr) (opnum r : Nat) : Prop := i.wellFormed = true ∧ encode i = .port (opnum + 256 * r)

theorem exists_eq_fieldCons (n r : Nat) : ∃ (v : BitVec n) (r' : Nat), r = fieldCons v r' :=
  ⟨_, _, (fieldCons_low_rest n r).symm⟩

theorem exists_eq_fieldCons_flagBit (r : Nat) : ∃ (b : Bool) (r' : Nat), r = fieldCons (flagBit b) r' :=
  ⟨fieldFlag r, fieldRest 1 r, by rw [flagBit_fieldFlag, fieldCons_low_rest]⟩

theorem Instr.PortForm.of_fieldEnd (h : fieldEnd r i = .ok j) (hi : i.PortForm opnum 0) : j.PortForm opnum r := by
  obtain ⟨rfl, rfl⟩ := fieldEnd_eq_ok_iff.mp h
  exact hi

theorem Instr.PortForm.of_field {n : Nat} {mk : BitVec n → Instr}
    (h : fieldEnd (fieldRest n r) (mk (fieldLow n r)) = .ok j) (hmk : ∀ v, (mk v).PortForm opnum (fieldCons v 0)) :
    j.PortForm opnum r := by
  obtain ⟨v, r, rfl⟩ := exists_eq_fieldCons n r
  rw [fieldRest_cons, fieldLow_cons] at h
  obtain ⟨rfl, rfl⟩ := fieldEnd_eq_ok_iff.mp h
  exact hmk v

theorem Instr.PortForm.of_two_fields {n m : Nat} {mk : BitVec n → BitVec m → Instr}
    (h : fieldEnd (fieldRest m (fieldRest n r)) (mk (fieldLow n r) (fieldLow m (fieldRest n r))) = .ok j)
    (hmk : ∀ v w, (mk v w).PortForm opnum (fieldCons v (fieldCons w 0))) : j.PortForm opnum r := by
  obtain ⟨v, r, rfl⟩ := exists_eq_fieldCons n r
  rw [fieldRest_cons, fieldLow_cons] at h
  obtain ⟨w, r, rfl⟩ := exists_eq_fieldCons m r
  rw [fieldRest_cons, fieldLow_cons] at h
  obtain ⟨rfl, rfl⟩ := fieldEnd_eq_ok_iff.mp h
  exact hmk v w

theorem portForm_of_decodeSetime (h : decodeSetime r = .ok i) : i.PortForm 0x13 r := by
  obtain ⟨b, r, rfl⟩ := exists_eq_fieldCons_flagBit r
  rw [decodeSetime, fieldRest_cons, fieldFlag_cons] at h
  obtain ⟨rfl, rfl⟩ := fieldEnd_eq_ok_iff.mp h
  exact ⟨rfl, rfl⟩

theorem portForm_of_decodeSeten (h : decodeSeten r = .ok i) : i.PortForm 0x10 r := by
  obtain ⟨s, r, rfl⟩ := exists_eq_fieldCons 8 r
  obtain ⟨b, r, rfl⟩ := exists_eq_fieldCons_flagBit r
  simp only [decodeSeten, fieldRest_cons, fieldLow_cons, fieldFlag_cons] at h
  obtain ⟨rfl, rfl⟩ := fieldEnd_eq_ok_iff.mp h
  exact ⟨rfl, rfl⟩

theorem portForm_of_decodeConfigure (h : decodeConfigure r = .ok i) : i.PortForm 0x20 r := by
  obtain ⟨ch, r, rfl⟩ := exists_eq_fieldCons 8 r
  obtain ⟨src, r, rfl⟩ := exists_eq_fieldCons 32 r
  obtain ⟨dst, r, rfl⟩ := exists_eq_fieldCons 32 r
  obtain ⟨count, r, rfl⟩ := exists_eq_fieldCons 16 r
  obtain ⟨flags, r, rfl⟩ := exists_eq_fieldCons 16 r
  simp only [decodeConfigure, fieldRest_cons, fieldLow_cons] at h
  obtain ⟨rfl, rfl⟩ := fieldEnd_eq_ok_iff.mp h
  exact ⟨rfl, rfl⟩

theorem portForm_of_decodeTmrStart (h : decodeTmrStart r = .ok i) : i.PortForm 0x30 r := by
  obtain ⟨ch, r, rfl⟩ := exists_eq_fieldCons 8 r
  obtain ⟨reload, r, rfl⟩ := exists_eq_fieldCons 16 r
  obtain ⟨prescaler, r, rfl⟩ := exists_eq_fieldCons 2 r
  obtain ⟨cascade, r, rfl⟩ := exists_eq_fieldCons_flagBit r
  obtain ⟨irq, r, rfl⟩ := exists_eq_fieldCons_flagBit r
  simp only [decodeTmrStart, fieldRest_cons, fieldLow_cons, fieldFlag_cons] at h
  obtain ⟨rfl, rfl⟩ := fieldEnd_eq_ok_iff.mp h
  exact ⟨rfl, rfl⟩

theorem portForm_of_decodePort (h : decodePort opnum r = .ok i) : i.PortForm opnum r := by
  unfold decodePort at h
  split at h
  -- no operand
  case h_1 | h_3 | h_4 | h_10 | h_13 | h_14 | h_18 | h_22 | h_29 | h_32 | h_34 | h_35 => exact .of_fieldEnd h ⟨rfl, rfl⟩
  -- one operand: a mask, source, channel, line, column, period or address
  case h_2 | h_6 | h_7 | h_9 | h_12 | h_15 | h_17 | h_19 | h_20 | h_21 | h_25 | h_26 | h_27 | h_28 | h_31 | h_33 | h_36 |
      h_37 | h_38 => exact .of_field h fun _ => ⟨rfl, rfl⟩
  -- two operands: a layer and a line, a column and a line, an address and data
  case h_23 | h_24 | h_30 | h_39 | h_40 | h_41 => exact .of_two_fields h fun _ _ => ⟨rfl, rfl⟩
  case h_5 => exact portForm_of_decodeSeten h
  case h_8 => exact portForm_of_decodeSetime h
  case h_11 => exact portForm_of_decodeConfigure h
  case h_16 => exact portForm_of_decodeTmrStart h
  -- an `opnum` outside the map
  case h_42 => cases h

/-- `i` is well formed, and its encoding is the word `w` at the register offset `off`. -/
def Instr.HookForm (i : Instr) (off : Nat) (w : Half) : Prop := i.wellFormed = true ∧ encode i = .hook off w

variable {ch : BitVec 2} {w : Half}

theorem decodeDmaHook_of_set (h : w.getLsbD 15 = true) : decodeDmaHook ch w = .hookDmaConfigure ch w := if_pos h

theorem decodeDmaHook_of_clear (h : w.getLsbD 15 = false) : decodeDmaHook ch w = .hookDmaStop ch w :=
  if_neg (Bool.eq_false_iff.mp h)

theorem decodeTmrHook_of_set (h : w.getLsbD 7 = true) : decodeTmrHook ch w = .hookTmrStart ch w := if_pos h

theorem decodeTmrHook_of_clear (h : w.getLsbD 7 = false) : decodeTmrHook ch w = .hookTmrStop ch w :=
  if_neg (Bool.eq_false_iff.mp h)

theorem hookForm_decodeDmaHook : (decodeDmaHook ch w).HookForm (encodeDmaCntH ch) w := by
  cases h : w.getLsbD 15 with
  | true => rw [decodeDmaHook_of_set h]; exact ⟨h, rfl⟩
  | false => rw [decodeDmaHook_of_clear h]; exact ⟨(Bool.not_eq_true' _).mpr h, rfl⟩

theorem hookForm_decodeTmrHook : (decodeTmrHook ch w).HookForm (encodeTmrCntH ch) w := by
  cases h : w.getLsbD 7 with
  | true => rw [decodeTmrHook_of_set h]; exact ⟨h, rfl⟩
  | false => rw [decodeTmrHook_of_clear h]; exact ⟨(Bool.not_eq_true' _).mpr h, rfl⟩

theorem hookForm_of_decodeHook {off : Nat} (h : decodeHook off w = .ok i) : i.HookForm off w := by
  unfold decodeHook at h
  split at h
  all_goals cases h
  case h_1 | h_2 | h_3 | h_4 => exact hookForm_decodeDmaHook
  case h_5 | h_6 | h_7 | h_8 => exact hookForm_decodeTmrHook
  -- IE, IF, IME and the halves of the reference points
  all_goals exact ⟨rfl, rfl⟩

/-- Settles O3: a port operation by the branch of the operation map it decodes in, a hook operation by that of the hook
table. -/
theorem encodeInvertsDecode : Obligations.EncodeInvertsDecode := fun raw i h => by
  cases raw with
  | hook off w => exact hookForm_of_decodeHook h
  | port bits =>
    obtain ⟨hwf, henc⟩ := portForm_of_decodePort h
    refine ⟨hwf, ?_⟩
    rw [henc, Nat.mod_add_div]

end Sys2Proof

end

/-! ### Writes of the control registers (`30_encoding.md` R103, R104, `47_register_access.md` R342, R351, R352, R355) -/

section

namespace Sys2Proof.Machine

variable (s : State) (ch : BitVec 2) (w : Half)

/-! #### Masked words -/

theorem getLsbD_and_of_mask {v m : Half} {j : Nat} (hm : m.getLsbD j = true) : (v &&& m).getLsbD j = v.getLsbD j := by
  rw [BitVec.getLsbD_and, hm, Bool.and_true]

/-- A field that a mask covers is the same in the masked word. -/
theorem fieldOf_and_of_mask {v m : Half} {lo n : Nat} (hm : fieldOf m lo n = 2 ^ n - 1) :
    fieldOf (v &&& m) lo n = fieldOf v lo n := by
  rw [fieldOf] at hm
  rw [fieldOf, fieldOf, BitVec.toNat_and, Nat.and_div_two_pow, Nat.and_mod_two_pow, hm, Nat.and_two_pow_sub_one_eq_mod,
    Nat.mod_mod]

theorem withBit_false_of_getLsbD {v : Half} {j : Nat} (h : v.getLsbD j = false) : withBit v j false = v := by
  refine BitVec.eq_of_getLsbD_eq fun k _ => ?_
  rw [withBit_getLsbD]
  split
  · next hk => rw [hk.1, h]
  · rfl

theorem mergeByte_eq_byteMerged (old : Half) (off : Nat) (b : Byte) :
    mergeByte old (decide (off % 2 = 1)) b = byteMerged old off b := by
  rcases Nat.mod_two_eq_zero_or_one off with h | h
  · have : old.extractLsb' 8 8 = (old >>> 8).setWidth 8 := by
      refine BitVec.eq_of_getLsbD_eq fun k hk => ?_
      simp [hk]
    simp [mergeByte, byteMerged, h, this]
  · simp [mergeByte, byteMerged, h]

theorem writeMask_dmaCntH : writeMask (Reg.dmaCntH (channelOf ch)) = if ch = 3 then 0xFFE0 else 0xF7E0 := by
  revert ch; decide

theorem writeMask_dmaCntH_bit15 (c : Fin 4) : (writeMask (Reg.dmaCntH c)).getLsbD 15 = true := by revert c; decide

theorem writeMask_tmrCntH_bit7 (c : Fin 4) : (writeMask (Reg.tmrCntH c)).getLsbD 7 = true := by revert c; decide

/-! #### Host writes at a register's offset -/

variable {s ch w} {a : Word} {off : Nat} {b : Byte}

theorem exec_wr16_of_reg (hr : s.cfg.route a = .reg off) (ha : a.toNat % 2 = 0) :
    exec (.wr16 a w) s = (regWriteHalf s off w).finish := by
  show (hostWrite s a 2 _ _).finish = _
  rw [hostWrite, if_neg (not_not_intro ha), hr]

theorem exec_wr8_of_reg (hr : s.cfg.route a = .reg off) : exec (.wr8 a b) s = (regWrite8 s off b).finish := by
  show (hostWrite s a 1 _ _).finish = _
  rw [hostWrite, if_neg (not_not_intro (Nat.mod_one _)), hr]

theorem regWriteHalf_dmaCntH (c : Fin 4) :
    regWriteHalf s (Reg.dmaCntH c) w = writeDmaCntH s c (w &&& writeMask (Reg.dmaCntH c)) := by
  rw [regWriteHalf, regWrite16, regKind_of_dmaCntH]

theorem regWriteHalf_tmrCntH (c : Fin 4) :
    regWriteHalf s (Reg.tmrCntH c) w = .done (writeTmrCntH s c (w &&& writeMask (Reg.tmrCntH c))) := by
  rw [regWriteHalf, regWrite16, regKind_of_tmrCntH]

theorem regWriteHalf_ime : regWriteHalf s Reg.ime w = .done (irqSetMaster s ((w &&& writeMask Reg.ime).getLsbD 0)) := rfl

/-- But for a timer's reload value and IF, a byte write is the halfword write of the stored halfword with the byte in it
(R342). -/
theorem regWrite8_eq_regWriteHalf {o : Nat} (ho : off - off % 2 = o) (hl : ∀ c, regKind o ≠ .tmrCntL c)
    (hf : regKind o ≠ .irf) : regWrite8 s off b = regWriteHalf s o (byteMerged (s.x o) off b) := by
  have hold : storedHalf s o = s.x o := by
    unfold storedHalf
    split
    · next c hk => exact absurd hk (hl c)
    · next hk => exact absurd hk hf
    · rfl
  simp only [regWrite8, regWriteHalf, ho, hold, mergeByte_eq_byteMerged, regWrite16]
  split
  case h_4 hk => exact absurd hk hf
  all_goals rfl

/-! #### The written word and its hook operation -/

theorem finish_regWriteHalf_dmaCntH :
    (regWriteHalf s (Reg.dmaCntH (channelOf ch)) w).finish = exec (decodeDmaHook ch w) s := by
  rw [regWriteHalf_dmaCntH, writeDmaCntH, getLsbD_and_of_mask (writeMask_dmaCntH_bit15 _)]
  split
  · next h => rw [decodeDmaHook_of_set h]; rfl
  · next h => rw [decodeDmaHook_of_clear (Bool.eq_false_iff.mpr h)]; rfl

theorem finish_regWriteHalf_tmrCntH :
    (regWriteHalf s (Reg.tmrCntH (channelOf ch)) w).finish = exec (decodeTmrHook ch w) s := by
  have hbit : (w &&& writeMask (Reg.tmrCntH (channelOf ch))).getLsbD 7 = w.getLsbD 7 :=
    getLsbD_and_of_mask (writeMask_tmrCntH_bit7 _)
  rw [regWriteHalf_tmrCntH, writeTmrCntH, hbit]
  split
  · next h => rw [decodeTmrHook_of_set h]; rfl
  · next h =>
    have h := Bool.eq_false_iff.mpr h
    rw [decodeTmrHook_of_clear h]
    show _ = (Run.done (hookStore s _ (withBit _ 7 false))).finish
    rw [withBit_false_of_getLsbD (hbit.trans h)]

theorem exec_wr16_dmaCntH (hr : s.cfg.route a = .reg (Reg.dmaCntH (channelOf ch))) (ha : a.toNat % 2 = 0) :
    exec (.wr16 a w) s = exec (decodeDmaHook ch w) s :=
  (exec_wr16_of_reg hr ha).trans finish_regWriteHalf_dmaCntH

theorem exec_wr16_tmrCntH (hr : s.cfg.route a = .reg (Reg.tmrCntH (channelOf ch))) (ha : a.toNat % 2 = 0) :
    exec (.wr16 a w) s = exec (decodeTmrHook ch w) s :=
  (exec_wr16_of_reg hr ha).trans finish_regWriteHalf_tmrCntH

theorem exec_wr8_dmaCntH (hr : s.cfg.route a = .reg off) (ho : off - off % 2 = Reg.dmaCntH (channelOf ch)) :
    exec (.wr8 a b) s = exec (decodeDmaHook ch (byteMerged (s.x (off - off % 2)) off b)) s := by
  rw [exec_wr8_of_reg hr, regWrite8_eq_regWriteHalf ho (by simp) (by simp), finish_regWriteHalf_dmaCntH, ho]

theorem exec_wr8_tmrCntH (hr : s.cfg.route a = .reg off) (ho : off - off % 2 = Reg.tmrCntH (channelOf ch)) :
    exec (.wr8 a b) s = exec (decodeTmrHook ch (byteMerged (s.x (off - off % 2)) off b)) s := by
  rw [exec_wr8_of_reg hr, regWrite8_eq_regWriteHalf ho (by simp) (by simp), finish_regWriteHalf_tmrCntH, ho]

theorem byteMerged_bit0 (old : Half) (off : Nat) (b : Byte) :
    (byteMerged old off b).getLsbD 0 = if off % 2 = 0 then b.getLsbD 0 else old.getLsbD 0 := by
  rw [byteMerged]
  split <;> rw [BitVec.getLsbD_append] <;> simp

theorem exec_wr16_ime (hr : s.cfg.route a = .reg Reg.ime) (ha : a.toNat % 2 = 0) :
    exec (.wr16 a w) s = exec (.hookIrqSetime w) s :=
  exec_wr16_of_reg hr ha

theorem exec_wr8_ime (hr : s.cfg.route a = .reg off) (ho : off - off % 2 = Reg.ime) :
    exec (.wr8 a b) s = exec (.irqSetime (if off % 2 = 0 then b.getLsbD 0 else s.ime)) s := by
  have hbit : (byteMerged (s.x Reg.ime) off b &&& writeMask Reg.ime).getLsbD 0 =
      if off % 2 = 0 then b.getLsbD 0 else s.ime := (getLsbD_and_of_mask rfl).trans (byteMerged_bit0 _ _ _)
  rw [exec_wr8_of_reg hr, regWrite8_eq_regWriteHalf ho (by decide) (by decide), regWriteHalf_ime, hbit]
  rfl

/-! #### A configure by a write (R104, R181, R351) -/

theorem withChannel_setWidth (f : Fin 4 → Run) : withChannel (ch.setWidth 8) s f = f (channelOf ch) := by
  have h : (ch.setWidth 8).toNat = ch.toNat := by
    rw [BitVec.toNat_setWidth, Nat.mod_eq_of_lt (by omega)]
  rw [withChannel, dif_pos (h ▸ ch.isLt)]
  exact congrArg f (Fin.ext h)

theorem exec_hookDmaConfigure_eq_op :
    exec (.hookDmaConfigure ch w) s = exec (.dmaConfigure (ch.setWidth 8) (s.x32 (Reg.dmaSad (channelOf ch)))
      (s.x32 (Reg.dmaDad (channelOf ch))) (s.x (Reg.dmaCntL (channelOf ch)))
      (w &&& writeMask (Reg.dmaCntH (channelOf ch)))) s :=
  congrArg Run.finish (withChannel_setWidth (fun c => dmaConfigure s c _ _ _ _)).symm

/-- The enable bit of a configure by a write is set already. -/
theorem dmaFlags_masked (c : Fin 4) (h : w.getLsbD 15 = true) :
    dmaFlags c (w &&& writeMask (Reg.dmaCntH c)) = w &&& writeMask (Reg.dmaCntH c) := by
  rw [dmaFlags, BitVec.and_assoc, BitVec.and_self]
  refine BitVec.eq_of_getLsbD_eq fun k hk => ?_
  have h8000 : ∀ k < 16, (0x8000 : Half).getLsbD k = decide (k = 15) := by decide
  rw [BitVec.getLsbD_or, h8000 k hk]
  by_cases h15 : k = 15
  · rw [h15, getLsbD_and_of_mask (writeMask_dmaCntH_bit15 c), h]; rfl
  · simp [h15]

/-- The fields that a configure tests are those of the written word. -/
theorem unit_masked (c : Fin 4) : DmaCtl.unit (w &&& writeMask (Reg.dmaCntH c)) = if w.getLsbD 10 = true then 4 else 2 := by
  have hm : ∀ c, (writeMask (Reg.dmaCntH c)).getLsbD 10 = true := by decide
  rw [DmaCtl.unit, DmaCtl.word32, getLsbD_and_of_mask (hm c)]

theorem srcMode_masked (c : Fin 4) : DmaCtl.srcMode (w &&& writeMask (Reg.dmaCntH c)) = bitsOf w 8 7 :=
  (fieldOf_and_of_mask (by revert c; decide)).trans (bitsOf_eq_fieldOf w 8 7).symm

theorem dstMode_masked (c : Fin 4) : DmaCtl.dstMode (w &&& writeMask (Reg.dmaCntH c)) = bitsOf w 6 5 :=
  (fieldOf_and_of_mask (by revert c; decide)).trans (bitsOf_eq_fieldOf w 6 5).symm

theorem timing_masked (c : Fin 4) : DmaCtl.timing (w &&& writeMask (Reg.dmaCntH c)) = bitsOf w 13 12 :=
  (fieldOf_and_of_mask (by revert c; decide)).trans (bitsOf_eq_fieldOf w 13 12).symm

/-- A configure of a triggered channel that passes every test stores its operands and does no more (R181). -/
theorem dmaConfigure_arms {c : Fin 4} {src dst : Word} {count flags f : Half} (hf : dmaFlags c flags = f)
    (hsrc : src.toNat % DmaCtl.unit f = 0) (hdst : dst.toNat % DmaCtl.unit f = 0)
    (hrom : (decide (c.val ≤ 2) && s.cfg.inRom src) = false) (hstep : stepModesValid c f = true)
    (htiming : DmaCtl.timing f ≠ 0) :
    dmaConfigure s c src dst count flags = .done (dmaStore s c src dst count f) := by
  simp [dmaConfigure, hf, hsrc, hdst, hrom, hstep, htiming]

section

variable (s) (c : Fin 4) (src dst : Word) (count f : Half)

theorem x_dmaStore_dmaCntH : (dmaStore s c src dst count f).x (Reg.dmaCntH c) = f := by
  rw [dmaStore, State.x_setDma, State.x_setReg_same]

theorem dma_dmaStore : (dmaStore s c src dst count f).dma.get c =
    { srcCur := src, dstCur := dst, cntCur := s.cfg.countOf c (count &&& writeMask (Reg.dmaCntL c)) } := by
  rw [dmaStore, State.setDma_dma, Four.get_set_same]

theorem sameBytes_dmaStore : SameBytes s (dmaStore s c src dst count f) :=
  ⟨by simp [dmaStore], by simp [dmaStore], by simp [dmaStore], by simp [dmaStore]⟩

/-- A configure writes its registers and its latches only. -/
theorem dmaStore_eq : dmaStore s c src dst count f =
    { s with regs := (dmaStore s c src dst count f).regs, dma := (dmaStore s c src dst count f).dma } := by
  cases s; rfl

end

theorem stepModesValid_masked {c : Fin 4} (hsrc : bitsOf w 8 7 ≠ 3) (hdst : bitsOf w 6 5 = 3 → c = 1 ∨ c = 2) :
    stepModesValid c (w &&& writeMask (Reg.dmaCntH c)) = true := by
  simp only [stepModesValid, srcMode_masked, dstMode_masked, Bool.and_eq_true, Bool.or_eq_true, decide_eq_true_eq]
  exact ⟨hsrc, or_assoc.mpr (or_iff_not_imp_left.mpr fun h => hdst (not_not.mp h))⟩

theorem inRom_eq_false {cfg : Config} (h : a.toNat < cfg.romLo ∨ cfg.romHi < a.toNat) : cfg.inRom a = false := by
  simp only [Config.inRom, Bool.and_eq_false_imp, decide_eq_true_eq, decide_eq_false_iff_not]
  omega

/-- A configure by a write of the word `w`, with registers that no test rejects, stores the masked word and the latches. -/
theorem hookConfigure_arms {c : Fin 4} (h15 : w.getLsbD 15 = true)
    (hsrc : (s.x32 (Reg.dmaSad c)).toNat % (if w.getLsbD 10 = true then 4 else 2) = 0)
    (hdst : (s.x32 (Reg.dmaDad c)).toNat % (if w.getLsbD 10 = true then 4 else 2) = 0)
    (hrom : c.val ≤ 2 → (s.x32 (Reg.dmaSad c)).toNat < s.cfg.romLo ∨ s.cfg.romHi < (s.x32 (Reg.dmaSad c)).toNat)
    (hsm : bitsOf w 8 7 ≠ 3) (hdm : bitsOf w 6 5 = 3 → c = 1 ∨ c = 2) (htiming : bitsOf w 13 12 ≠ 0) :
    hookConfigure s c (w &&& writeMask (Reg.dmaCntH c)) = .done (dmaStore s c (s.x32 (Reg.dmaSad c))
      (s.x32 (Reg.dmaDad c)) (s.x (Reg.dmaCntL c)) (w &&& writeMask (Reg.dmaCntH c))) := by
  rw [← unit_masked] at hsrc hdst
  rw [← timing_masked] at htiming
  refine dmaConfigure_arms (dmaFlags_masked c h15) hsrc hdst ?_ (stepModesValid_masked hsm hdm) htiming
  rw [Bool.and_eq_false_imp, decide_eq_true_eq]
  exact fun hc => inRom_eq_false (hrom hc)

/-- Settles O50: a write of a control register is a halfword write of the merged word, which runs the operation that the hook
table decodes from it; a configure that passes every test ends with `dmaStore`. -/
theorem controlWritesAreTheirHooks : Obligations.ControlWritesAreTheirHooks := by
  refine ⟨fun s a ch w ha => ⟨fun hr h => ⟨?_, ?_⟩, fun hr h => ?_, fun hr h => ?_, fun hr h => ?_, fun hr => ?_⟩,
    fun s a off ch b hr => ⟨fun ho h => ?_, fun ho h => ?_, fun ho h => ?_, fun ho h => ?_, fun ho => ?_, fun ho => ?_⟩,
    fun s ch w => ?_⟩
  · rw [exec_wr16_dmaCntH hr ha, decodeDmaHook_of_set h]
  · rw [← writeMask_dmaCntH]
    exact exec_hookDmaConfigure_eq_op
  · rw [exec_wr16_dmaCntH hr ha, decodeDmaHook_of_clear h]
  · rw [exec_wr16_tmrCntH hr ha, decodeTmrHook_of_set h]
  · rw [exec_wr16_tmrCntH hr ha, decodeTmrHook_of_clear h]
  · exact exec_wr16_ime hr ha
  · rw [exec_wr8_dmaCntH hr ho, decodeDmaHook_of_set h]
  · rw [exec_wr8_dmaCntH hr ho, decodeDmaHook_of_clear h]
  · rw [exec_wr8_tmrCntH hr ho, decodeTmrHook_of_set h]
  · rw [exec_wr8_tmrCntH hr ho, decodeTmrHook_of_clear h]
  · subst ho
    exact exec_wr8_ime hr rfl
  · subst ho
    exact exec_wr8_ime hr rfl
  · intro src dst unit h15 hsrc hdst hrom hsm hdm htiming
    have hdm' : bitsOf w 6 5 = 3 → channelOf ch = 1 ∨ channelOf ch = 2 :=
      fun h => (hdm h).imp (congrArg channelOf) (congrArg channelOf)
    refine ⟨_, congrArg Run.finish (hookConfigure_arms (c := channelOf ch) h15 hsrc hdst hrom hsm hdm' htiming), ?_⟩
    rw [dma_dmaStore, ← writeMask_dmaCntH]
    exact ⟨x_dmaStore_dmaCntH .., rfl, rfl, sameBytes_dmaStore .., dmaStore_eq ..⟩

end Sys2Proof.Machine

end

/-! ### How a wait starts (`40_scheduler.md` R133 to R135; log 1) -/

section

namespace Sys2Proof.Machine

variable {s : State} {mask : Half}

theorem finish_haltUntil (h : mask.setWidth 14 ≠ (0 : BitVec 14)) : (haltUntil s mask).finish =
    .next { s with waits := { mask := mask.setWidth 14, seen := 0 } :: s.waits, kont := .haltLoop :: s.kont } := by
  simp only [haltUntil, if_neg h]
  rfl

theorem finish_haltUntil_zero (h : mask.setWidth 14 = (0 : BitVec 14)) :
    (haltUntil s mask).finish = .fault (raiseFault .zeroWaitMask (mask.setWidth 32) s) := by
  simp only [haltUntil, if_pos h]
  rfl

/-- Settles O55: the three wait operations are `haltUntil` of their masks. -/
theorem waitsPushTheirFrame : Obligations.WaitsPushTheirFrame := by
  refine ⟨fun s mask p hp h => ?_, fun s mask => ⟨finish_haltUntil_zero, finish_haltUntil_zero⟩⟩
  simp only [List.mem_cons, List.not_mem_nil, or_false] at hp
  rcases hp with rfl | rfl | rfl <;> exact finish_haltUntil h

end Sys2Proof.Machine

end

/-! ### Events that no handler takes (`41_interrupts.md` R153, R155, R156) -/

section

namespace Sys2Proof.Machine

variable {s t u : State} {R R' : Finset (Fin nIrq)}

/-- A delivery stops at no handler: the master enable is clear, or no source has a handler. -/
def State.Unhandled (s : State) : Prop := s.ime = false ∨ ∀ i, s.cfg.handlerOf i = .absent

/-- The sources of `R` have had events that no handler took: each is pending, or, where it is deliverable, acknowledged and
recorded in every wait frame. The timers may have counted. -/
structure Raised (R : Finset (Fin nIrq)) (s t : State) : Prop where
  regs : SameRegsBut [Reg.irf] s t
  pending : ∀ i, t.pending i = if i ∈ R then !s.deliverable i else s.pending i
  waits : ∃ m : BitVec 14, (∀ i : Fin nIrq, m.getLsbD i.val = (decide (i ∈ R) && s.deliverable i)) ∧
    t.waits = recordAck m s.waits
  rest : t = { s with regs := t.regs, tmr := t.tmr, waits := t.waits }

theorem deliverable_congr (hime : t.x Reg.ime = s.x Reg.ime) (hie : t.x Reg.ie = s.x Reg.ie)
    (hd : ∀ j, 3 ≤ j → (t.x Reg.dispstat).getLsbD j = (s.x Reg.dispstat).getLsbD j) (i : Fin nIrq) :
    t.deliverable i = s.deliverable i := by
  simp only [State.deliverable, State.ime, State.subEnabled, hime, hie, hd 3 le_rfl, hd 4 (by omega), hd 5 (by omega)]

theorem recordAck_recordAck (m k : BitVec 14) (ws : List WaitFrame) :
    recordAck k (recordAck m ws) = recordAck (m ||| k) ws := by
  simp only [recordAck, List.map_map]
  exact List.map_congr_left fun w _ => by simp only [Function.comp, BitVec.or_assoc]

namespace Raised

theorem x (h : Raised R s t) {o : Nat} (ho : o ≠ Reg.irf) : t.x o = s.x o := h.regs o (by simpa using ho)

theorem cfg (h : Raised R s t) : t.cfg = s.cfg := by rw [h.rest]

theorem ime (h : Raised R s t) : t.ime = s.ime := by rw [State.ime, h.x (by decide), State.ime]

theorem dmaCtl (h : Raised R s t) (ch : Fin 4) : t.dmaCtl ch = s.dmaCtl ch := h.x (by revert ch; decide)

theorem deliverable (h : Raised R s t) (i : Fin nIrq) : t.deliverable i = s.deliverable i :=
  deliverable_congr (h.x (by decide)) (h.x (by decide)) (fun j _ => by rw [h.x (by decide)]) i

theorem unhandled (h : Raised R s t) (hs : s.Unhandled) : t.Unhandled := by
  rw [State.Unhandled, h.ime, h.cfg]; exact hs

/-- With the master enable clear no wait frame records anything. -/
theorem waits_eq (h : Raised R s t) (hime : s.ime = false) : t.waits = s.waits := by
  obtain ⟨m, hm, hw⟩ := h.waits
  have hm0 : m = 0 := BitVec.eq_of_getLsbD_eq fun j hj => by
    rw [hm ⟨j, hj⟩, deliverable_of_ime s hime, Bool.and_false]
    exact BitVec.getLsbD_zero.symm
  rw [hw, hm0, recordAck_zero]

theorem refl (s : State) : Raised ∅ s s :=
  ⟨fun _ _ => rfl, fun i => by simp, ⟨0, fun i => by simp, (recordAck_zero s.waits).symm⟩, rfl⟩

theorem trans (h : Raised R s t) (h' : Raised R' t u) : Raised (R ∪ R') s u := by
  obtain ⟨m, hm, hw⟩ := h.waits
  obtain ⟨k, hk, hw'⟩ := h'.waits
  refine ⟨fun o ho => (h'.regs o ho).trans (h.regs o ho), fun i => ?_, ⟨m ||| k, fun i => ?_, ?_⟩, ?_⟩
  · rw [h'.pending, h.pending, h.deliverable]
    by_cases h1 : i ∈ R <;> by_cases h2 : i ∈ R' <;> simp [h1, h2]
  · rw [BitVec.getLsbD_or, hm, hk, h.deliverable]
    by_cases h1 : i ∈ R <;> by_cases h2 : i ∈ R' <;> simp [h1, h2]
  · rw [hw', hw, recordAck_recordAck]
  · rw [h'.rest, h.rest]

/-- The HBlank flag is no part of it. -/
theorem setHblankFlag (h : Raised R s t) (b : Bool) : Raised R (s.setHblankFlag b) (t.setHblankFlag b) := by
  have hx : ∀ (v : State) (o : Nat), (v.setHblankFlag b).x o =
      if o = Reg.dispstat then withBit (v.x Reg.dispstat) 1 b else v.x o := fun v o => v.x_setRegBit _ _ o b
  have hdel : ∀ i, (s.setHblankFlag b).deliverable i = s.deliverable i :=
    deliverable_congr (hx s _) (hx s _) fun j hj => by
      rw [hx, if_pos rfl, withBit_getLsbD_lt (by decide), if_neg (by omega)]
  refine ⟨fun o ho => ?_, fun i => ?_, ?_, ?_⟩
  · rw [hx, hx, h.x (by decide), h.regs o ho]
  · simp only [State.pending, hx, hdel]
    exact h.pending i
  · simp only [hdel]; exact h.waits
  · exact congrArg (fun v : State => { v with regs := (t.setHblankFlag b).regs }) h.rest

end Raised

/-- A raise where no handler takes it. -/
theorem raise_unhandled (hs : s.Unhandled) (i : Fin nIrq) : ∃ t, raise s i = .done t ∧ Raised {i} s t := by
  obtain ⟨t, ht, hx, he⟩ := raise_completes s (i := i) (hs.imp id fun h => h i)
  have hi : i.val < 16 := lt_trans i.isLt (by decide)
  refine ⟨t, ht, fun o ho => by rw [hx, if_neg (by simpa using ho)], fun j => ?_, ?_, by rw [he]⟩
  · rw [State.pending, hx, if_pos rfl, withBit_getLsbD_lt hi, State.pending]
    simp only [Finset.mem_singleton, Fin.ext_iff]
    split
    · next h => rw [Fin.ext h]
    · rfl
  · cases hd : s.deliverable i with
    | false =>
      refine ⟨0, fun j => ?_, by rw [he, recordAck_zero, hd]; rfl⟩
      by_cases h : j = i <;> simp [h, hd]
    | true =>
      refine ⟨1#14 <<< i.val, fun j => ?_, by rw [he, hd]; rfl⟩
      rw [getLsbD_one_shift]
      by_cases h : j = i <;> simp [h, hd, Fin.ext_iff.not.mp]

/-! #### The timers -/

/-- The sources of the four timers (R150). -/
def timerSources : Finset (Fin nIrq) := {3, 4, 5, 6}

theorem timerSource_mem (ch : Fin 4) : timerSource ch ∈ timerSources := by revert ch; decide

/-- The piece completes, and only timers had events. -/
def Run.OnlyTimers (s : State) (r : Run) : Prop := ∃ R t, r = .done t ∧ R ⊆ timerSources ∧ Raised R s t

theorem Run.OnlyTimers.done (s : State) : (Run.done s).OnlyTimers s := ⟨∅, s, rfl, Finset.empty_subset _, .refl s⟩

theorem Run.OnlyTimers.andThen {r : Run} {k : Kont} {f : State → Run} (hr : r.OnlyTimers s) (hs : s.Unhandled)
    (hf : ∀ t : State, t.Unhandled → (f t).OnlyTimers t) : (r.andThen k f).OnlyTimers s := by
  obtain ⟨R, t, rfl, hR, ht⟩ := hr
  obtain ⟨R', u, hu, hR', hu'⟩ := hf t (ht.unhandled hs)
  exact ⟨R ∪ R', u, hu, Finset.union_subset hR hR', ht.trans hu'⟩

/-- A change of a timer's own state is no event. -/
theorem Run.OnlyTimers.of_setTmr {r : Run} {ch : Fin 4} {v : Timer} (hr : r.OnlyTimers (s.setTmr ch v)) :
    r.OnlyTimers s := by
  obtain ⟨R, t, ht, hR, h⟩ := hr
  exact ⟨R, t, ht, hR, h.regs, h.pending, h.waits, h.rest⟩

theorem Run.OnlyTimers.ite {c : Prop} [Decidable c] {a b : Run} (ha : a.OnlyTimers s) (hb : b.OnlyTimers s) :
    (if c then a else b).OnlyTimers s := by
  split <;> assumption

theorem tmrOverflow_onlyTimers (hs : s.Unhandled) (ch : Fin 4) : (tmrOverflow s ch).OnlyTimers s := by
  refine Run.OnlyTimers.of_setTmr (ch := ch) (v := { s.tmr.get ch with counter := (s.tmr.get ch).reload })
    (Run.OnlyTimers.ite ?_ (.done _))
  obtain ⟨t, ht, h⟩ := raise_unhandled (s := s.setTmr ch { s.tmr.get ch with counter := (s.tmr.get ch).reload }) hs
    (timerSource ch)
  exact ⟨_, t, ht, Finset.singleton_subset_iff.mpr (timerSource_mem ch), h⟩

theorem tmrCount_onlyTimers (hs : s.Unhandled) (ch : Fin 4) {f : State → Run}
    (hf : ∀ t : State, t.Unhandled → (f t).OnlyTimers t) : (tmrCount ch f s).OnlyTimers s :=
  Run.OnlyTimers.ite ((tmrOverflow_onlyTimers hs ch).andThen hs hf) (Run.OnlyTimers.done _).of_setTmr

theorem tickUp_onlyTimers (n : Nat) (hs : s.Unhandled) : (tickUp n s).OnlyTimers s := by
  induction n generalizing s with
  | zero => exact tmrCount_onlyTimers hs 3 fun t _ => .done t
  | succ n ih => exact tmrCount_onlyTimers hs _ fun t ht => Run.OnlyTimers.ite (ih ht) (.done t)

theorem tickSlot_onlyTimers (hs : s.Unhandled) (ch : Fin 4) : (tickSlot s ch).OnlyTimers s :=
  Run.OnlyTimers.ite (Run.OnlyTimers.ite
    (tickUp_onlyTimers _ (s := s.setTmr ch { s.tmr.get ch with prescAcc := 0 }) hs).of_setTmr
    (Run.OnlyTimers.done _).of_setTmr) (.done s)

theorem tickSlots_onlyTimers (n : Nat) (hs : s.Unhandled) : (tickSlots n s).OnlyTimers s := by
  induction n generalizing s with
  | zero => exact .done s
  | succ n ih => exact (tickSlot_onlyTimers hs _).andThen hs fun t ht => ih ht

end Sys2Proof.Machine

end

/-! ### What the compositor's line leaves unchanged (`44_ppu_backgrounds.md` R240, R76) -/

section

namespace Sys2Proof.Machine

variable {s t u : State}

theorem OnlyLineBuffersOrFree.refl (s : State) : OnlyLineBuffersOrFree s s :=
  ⟨⟨fun _ => rfl, fun _ => rfl, fun _ => rfl, fun _ => rfl⟩, rfl⟩

/-- The equation alone says it: no memory is among what may differ. -/
theorem OnlyLineBuffersOrFree.of_rest (h : t = { s with lb := t.lb, freeCount := t.freeCount }) :
    OnlyLineBuffersOrFree s t := by
  rw [h]; exact ⟨⟨fun _ => rfl, fun _ => rfl, fun _ => rfl, fun _ => rfl⟩, rfl⟩

theorem OnlyLineBuffersOrFree.trans (h : OnlyLineBuffersOrFree s t) (h' : OnlyLineBuffersOrFree t u) :
    OnlyLineBuffersOrFree s u :=
  .of_rest (by rw [h'.rest, h.rest])

theorem renderLayer_only (y : Nat) (s : State) (n : Fin 4) : OnlyLineBuffersOrFree s (renderLayer y s n) := by
  unfold renderLayer
  split
  · split
    · exact bgText_only s n y
    · exact bgAffine_only s n y
    · exact .of_rest rfl
    · exact .of_rest rfl
    · exact .of_rest rfl
    · exact .refl s
  · exact .refl s

theorem renderLayers_only (s : State) (y : Nat) : OnlyLineBuffersOrFree s (renderLayers s y) := by
  have hfold : ∀ (l : List (Fin 4)) (t : State), OnlyLineBuffersOrFree t (l.foldl (renderLayer y) t) := by
    intro l
    induction l with
    | nil => exact .refl
    | cons n l ih => exact fun t => (renderLayer_only y t n).trans (ih _)
  have hlayers : OnlyLineBuffersOrFree s (([0, 1, 2, 3] : List (Fin 4)).foldl (renderLayer y) (clearBuffers s)) :=
    (OnlyLineBuffersOrFree.of_rest rfl).trans (hfold _ _)
  unfold renderLayers
  split
  · exact hlayers.trans (objLine_only _ y)
  · exact hlayers

theorem composeLine_only (s : State) (y : Nat) : OnlyLineBuffersOrFree s (composeLine s y) := by
  unfold composeLine State.useFreeOff
  split <;> exact .of_rest rfl

theorem greenSwap_only (s : State) : OnlyLineBuffersOrFree s (greenSwap s) := by
  unfold greenSwap
  split
  · exact .of_rest rfl
  · exact .refl s

theorem outputLine_only (s : State) (y : Nat) : OnlyLineBuffersOrFree s (outputLine s y) := by
  unfold outputLine
  split
  · exact .of_rest rfl
  · exact ((renderLayers_only s y).trans (composeLine_only _ y)).trans (greenSwap_only _)

/-- What a frame start and a rendered line may change; no register and no memory is among it. -/
structure OnlyVideo (s t : State) : Prop where
  rest : t = { s with
    refs := t.refs, frameMode := t.frameMode, lb := t.lb, fb0 := t.fb0, fb1 := t.fb1, freeCount := t.freeCount }

theorem OnlyVideo.trans (h : OnlyVideo s t) (h' : OnlyVideo t u) : OnlyVideo s u := ⟨by rw [h'.rest, h.rest]⟩

theorem OnlyVideo.x (h : OnlyVideo s t) (o : Nat) : t.x o = s.x o := by
  have hregs : t.regs = s.regs := by rw [h.rest]
  rw [State.x, hregs, State.x]

theorem onlyVideo_commit (s : State) (y : Nat) : OnlyVideo s (commit s y) := by
  unfold commit
  split <;> exact ⟨rfl⟩

theorem onlyVideo_renderLine (s : State) (y : Nat) : OnlyVideo s (renderLine s y) := by
  have hline : OnlyVideo s (outputLine s y) := ⟨by rw [(outputLine_only s y).rest]⟩
  exact (hline.trans (onlyVideo_commit _ y)).trans ⟨rfl⟩

theorem fb_commit (s : State) (y : Nat) : (commit s y).fb s.active = (s.fb s.active).set y s.lb.line := by
  unfold commit State.fb
  split <;> rfl

/-- The rendered row stands in the active buffer (R317). -/
theorem fb_renderLine {y : Nat} (hy : y < (s.fb s.active).length) :
    ((renderLine s y).fb s.active)[y]? = some (renderLine s y).lb.line := by
  have ho := (outputLine_only s y).rest
  have hactive : (outputLine s y).active = s.active := by rw [ho]
  have hfb : (outputLine s y).fb s.active = s.fb s.active := by rw [ho]; rfl
  have hline : (renderLine s y).lb = (outputLine s y).lb := by
    show (commit _ _).lb = _
    unfold commit
    split <;> rfl
  have hcommit : (renderLine s y).fb s.active = (s.fb s.active).set y (outputLine s y).lb.line := by
    show (commit _ _).fb _ = _
    rw [← hactive, fb_commit, hactive, hfb]
  rw [hcommit, hline, List.getElem?_set_self hy]

end Sys2Proof.Machine

end

/-! ### Lines 1 to 7 of a scanline step (`40_scheduler.md` R131) -/

section

namespace Sys2Proof.Machine

variable {s t : State}

/-- The clock, VCOUNT and the flags of a new line (lines 1 to 5). -/
def lineBegin (s : State) : State :=
  ((tickClock s).setHblankFlag false).setVblankFlag (decide (nVisible ≤ s.frameClock.toNat))

theorem toNat_eq_zero_iff {l : Byte} : l.toNat = 0 ↔ l = 0 :=
  ⟨fun h => BitVec.eq_of_toNat_eq h, fun h => congrArg BitVec.toNat h⟩

/-- The frame start of line 0 (line 6). -/
def lineFrame (s : State) : State := if s.frameClock = 0 then frameStart (lineBegin s) else lineBegin s

theorem advanceBegin_eq (s : State) : advanceBegin s =
    if s.frameClock.toNat < nVisible then renderLine (lineFrame s) s.frameClock.toNat else lineFrame s := rfl

theorem onlyVideo_lineFrame (s : State) : OnlyVideo (lineBegin s) (lineFrame s) := by
  unfold lineFrame
  split <;> exact ⟨rfl⟩

theorem onlyVideo_advanceBegin (s : State) : OnlyVideo (lineBegin s) (advanceBegin s) := by
  rw [advanceBegin_eq]
  split
  · exact (onlyVideo_lineFrame s).trans (onlyVideo_renderLine _ _)
  · exact onlyVideo_lineFrame s

theorem next_inj {a b : State} : (Host.Outcome.next a : Host.Outcome State Fault Refusal) = .next b ↔ b = a :=
  ⟨fun h => (Host.Outcome.next.inj h).symm, fun h => congrArg _ h.symm⟩

theorem advanceBegun_iff : AdvanceBegun s t ↔ t = advanceBegin s := by
  have hframe : ∀ a, (if s.frameClock.toNat = 0 then exec .ppuFramestart (lineBegin s) = .next a else a = lineBegin s) ↔
      a = lineFrame s := fun a => by
    unfold lineFrame
    by_cases h : s.frameClock = 0
    · rw [if_pos (toNat_eq_zero_iff.mpr h), if_pos h]
      exact next_inj
    · rw [if_neg (toNat_eq_zero_iff.not.mpr h), if_neg h]
  have hrender : ∀ a, (if s.frameClock.toNat < 160 then exec (.ppuRenderline s.frameClock) a = .next t else t = a) ↔
      t = if s.frameClock.toNat < nVisible then renderLine a s.frameClock.toNat else a := fun a => by
    by_cases h : s.frameClock.toNat < 160
    · rw [if_pos h, if_pos h]
      exact next_inj
    · rw [if_neg h, if_neg h]
  show (∃ a, (if s.frameClock.toNat = 0 then exec .ppuFramestart (lineBegin s) = .next a else a = lineBegin s) ∧
    if s.frameClock.toNat < 160 then exec (.ppuRenderline s.frameClock) a = .next t else t = a) ↔ _
  simp only [hframe, hrender, exists_eq_left, advanceBegin_eq]

theorem x_lineBegin (s : State) (o : Nat) : (lineBegin s).x o =
    if o = Reg.dispstat then withBit (withBit (s.x Reg.dispstat) 1 false) 0 (decide (nVisible ≤ s.frameClock.toNat))
    else if o = Reg.vcount then s.frameClock.setWidth 16 else s.x o := by
  have hclock : ∀ p, (tickClock s).x p = if p = Reg.vcount then s.frameClock.setWidth 16 else s.x p := fun p =>
    State.x_setReg _ _ _ _
  simp only [lineBegin, State.setVblankFlag, State.setHblankFlag, State.x_setRegBit, if_true, hclock]
  split
  · rw [if_neg (by decide)]
  · rfl

theorem cfg_advanceBegin (s : State) : (advanceBegin s).cfg = s.cfg := by
  rw [(onlyVideo_advanceBegin s).rest]
  rfl

theorem x_advanceBegin (s : State) (o : Nat) : (advanceBegin s).x o = (lineBegin s).x o := (onlyVideo_advanceBegin s).x o

end Sys2Proof.Machine

end

/-! ### A scanline step where no handler takes an event (`40_scheduler.md` R131) -/

section

namespace Sys2Proof.Machine

variable {s t u : State}

/-! #### The line before its events -/

/-- A scanline step up to its first event: at line 160 the buffers are swapped. -/
def lineStart (s : State) : State :=
  if s.frameClock.toNat = nVisible then swapBuffers (advanceBegin s) else advanceBegin s

/-- The same with the HBlank flag: everything a step does but the events and the timers. -/
def lineQuiet (s : State) : State := (lineStart s).setHblankFlag true

theorem dmaCtl_lineBegin (s : State) (ch : Fin 4) : (lineBegin s).dmaCtl ch = s.dmaCtl ch := by
  have hne : Reg.dmaCntH ch ≠ Reg.dispstat ∧ Reg.dmaCntH ch ≠ Reg.vcount := by revert ch; decide
  rw [State.dmaCtl, x_lineBegin, if_neg hne.1, if_neg hne.2, State.dmaCtl]

theorem dmaCtl_advanceBegin (s : State) (ch : Fin 4) : (advanceBegin s).dmaCtl ch = s.dmaCtl ch :=
  (x_advanceBegin s _).trans (dmaCtl_lineBegin s ch)

theorem dmaCtl_lineStart (s : State) (ch : Fin 4) : (lineStart s).dmaCtl ch = s.dmaCtl ch := by
  unfold lineStart
  split <;> exact dmaCtl_advanceBegin s ch

theorem x_lineStart (s : State) (o : Nat) : (lineStart s).x o = (lineBegin s).x o := by
  unfold lineStart
  split <;> exact x_advanceBegin s o

theorem lineStart_eq (s : State) : lineStart s =
    { s with
      frameClock := BitVec.ofNat 8 ((s.frameClock.toNat + 1) % nLines)
      regs := (lineStart s).regs
      refs := (advanceBegin s).refs
      frameMode := (advanceBegin s).frameMode
      lb := (advanceBegin s).lb
      fb0 := (advanceBegin s).fb0
      fb1 := (advanceBegin s).fb1
      freeCount := (advanceBegin s).freeCount
      active := if s.frameClock.toNat = nVisible then ~~~s.active else s.active } := by
  have hrest := (onlyVideo_advanceBegin s).rest
  have hactive : (advanceBegin s).active = s.active := by rw [hrest]; rfl
  unfold lineStart
  split
  · rw [← hactive]
    exact congrArg (fun v : State => { v with regs := (advanceBegin s).regs, active := ~~~(advanceBegin s).active }) hrest
  · rw [← hactive]
    exact congrArg (fun v : State => { v with regs := (advanceBegin s).regs, active := (advanceBegin s).active }) hrest

theorem lineQuiet_eq (s : State) : lineQuiet s = { lineStart s with regs := (lineQuiet s).regs } := rfl

theorem x_lineQuiet (s : State) (o : Nat) : (lineQuiet s).x o =
    if o = Reg.dispstat then
      withBit (withBit (withBit (s.x Reg.dispstat) 1 false) 0 (decide (nVisible ≤ s.frameClock.toNat))) 1 true
    else if o = Reg.vcount then s.frameClock.setWidth 16 else s.x o := by
  rw [lineQuiet, State.setHblankFlag, State.x_setRegBit, x_lineStart, x_lineStart]
  simp only [x_lineBegin, if_true]
  split <;> rfl

theorem dispstat_lineQuiet (s : State) (j : Nat) : ((lineQuiet s).x Reg.dispstat).getLsbD j =
    if j = 0 then decide (160 ≤ s.frameClock.toNat) else if j = 1 then true else (s.x Reg.dispstat).getLsbD j := by
  rw [x_lineQuiet, if_pos rfl]
  rw [withBit_getLsbD_lt (by decide), withBit_getLsbD_lt (by decide), withBit_getLsbD_lt (by decide)]
  by_cases h0 : j = 0 <;> by_cases h1 : j = 1 <;> simp [h0, h1]

theorem deliverable_lineQuiet (s : State) (i : Fin nIrq) : (lineQuiet s).deliverable i = s.deliverable i :=
  deliverable_congr (x_lineQuiet s _) (x_lineQuiet s _)
    (fun j hj => by rw [dispstat_lineQuiet, if_neg (by omega), if_neg (by omega)]) i

theorem pending_lineQuiet (s : State) (i : Fin nIrq) : (lineQuiet s).pending i = s.pending i :=
  congrArg (·.getLsbD i.val) (x_lineQuiet s _)

theorem ime_lineQuiet (s : State) : (lineQuiet s).ime = s.ime := congrArg (·.getLsbD 0) (x_lineQuiet s _)

theorem cfg_lineStart (s : State) : (lineStart s).cfg = s.cfg := by rw [lineStart_eq]

theorem unhandled_lineStart (hs : s.Unhandled) : (lineStart s).Unhandled := by
  rw [State.Unhandled, State.ime, x_lineStart, x_lineBegin, cfg_lineStart]
  exact hs

theorem unhandled_lineQuiet (hs : s.Unhandled) : (lineQuiet s).Unhandled := by
  rw [State.Unhandled, ime_lineQuiet, lineQuiet_eq, cfg_lineStart]
  exact hs

/-! #### The compared line (R131 line 14) -/

theorem fieldOf_congr {w : Nat} {v v' : BitVec w} {lo n : Nat} (h : ∀ j, lo ≤ j → v'.getLsbD j = v.getLsbD j) :
    fieldOf v' lo n = fieldOf v lo n := by
  have hshift : v' >>> lo = v >>> lo := BitVec.eq_of_getLsbD_eq fun j _ => by
    rw [BitVec.getLsbD_ushiftRight, BitVec.getLsbD_ushiftRight, h _ (Nat.le_add_right lo j)]
  have hnat := congrArg BitVec.toNat hshift
  rw [BitVec.toNat_ushiftRight, BitVec.toNat_ushiftRight, Nat.shiftRight_eq_div_pow, Nat.shiftRight_eq_div_pow] at hnat
  rw [fieldOf, hnat, fieldOf]

theorem vcountMatch_eq_bitsOf (s : State) : s.vcountMatch = bitsOf (s.x 0x004) 15 8 := (bitsOf_eq_fieldOf _ 15 8).symm

theorem vcountMatch_lineQuiet (s : State) : (lineQuiet s).vcountMatch = s.vcountMatch :=
  fieldOf_congr fun j hj => by rw [dispstat_lineQuiet, if_neg (by omega), if_neg (by omega)]

theorem Raised.vcountMatch {R : Finset (Fin nIrq)} (h : Raised R s t) : t.vcountMatch = s.vcountMatch := by
  rw [State.vcountMatch, h.x (by decide), State.vcountMatch]

/-! #### The chain of a step's parts -/

/-- Lines 1 to 15 of a step, where each of its parts completes. -/
def LineChain (s t : State) : Prop :=
  ∃ d e f g,
    (if s.frameClock.toNat = nVisible then fireVblank (swapBuffers (advanceBegin s)) = .done d ∧ raise d 0 = .done e
      else e = advanceBegin s) ∧
    (if s.frameClock.toNat < nVisible then fireHblank (e.setHblankFlag true) = .done f else f = e.setHblankFlag true) ∧
    (if s.frameClock.toNat = f.vcountMatch then raise f 2 = .done g else g = f) ∧ raise g 1 = .done t

theorem andThen_of_ite {c : Prop} [Decidable c] {r : Run} {k : Kont} {f : State → Run}
    (h : if c then r = .done t else t = s) : (if c then r else .done s).andThen k f = f t := by
  split at h
  · next hc => rw [if_pos hc, h]; rfl
  · next hc => rw [if_neg hc, h]; rfl

/-- After its other parts a step has its timers' line to run. -/
theorem LineChain.advance_eq (h : LineChain s t) : advance s = tmrTickline t := by
  obtain ⟨d, e, f, g, hvblank, hhblank, hvcount, hraise⟩ := h
  have h15 : advanceHblankRaise s.frameClock g = tmrTickline t := by rw [advanceHblankRaise, hraise]; rfl
  have h12 : advanceHblankPoint s.frameClock e = tmrTickline t := by
    rw [advanceHblankPoint, andThen_of_ite hhblank, advanceVcount, andThen_of_ite hvcount, h15]
  unfold advance
  split at hvblank
  · next hl => rw [if_pos hl, hvblank.1, ← h12]; exact congrArg (Run.andThen · _ _) hvblank.2
  · next hl => rw [if_neg hl, ← hvblank, h12]

/-! #### With no channel armed -/

/-- No channel is armed for the trigger that the line runs. -/
def State.LineUnarmed (s : State) : Prop :=
  ∀ ch : Fin 4, (s.dmaCtl ch).getLsbD 15 = true → (s.frameClock.toNat < 160 → bitsOf (s.dmaCtl ch) 13 12 ≠ 2) ∧
    (s.frameClock.toNat = 160 → bitsOf (s.dmaCtl ch) 13 12 ≠ 1)

theorem armed_eq_false {ch : Fin 4} {timing : Nat}
    (h : (s.dmaCtl ch).getLsbD 15 = true → bitsOf (s.dmaCtl ch) 13 12 ≠ timing) : s.armed ch timing = false := by
  rw [State.armed, Bool.and_eq_false_imp]
  exact fun he => decide_eq_false (by rw [DmaCtl.timing, ← bitsOf_eq_fieldOf _ 13 12]; exact h he)

theorem fireFrom_idle (timing : BitVec 2) (n : Nat) (h : ∀ ch, s.armed ch timing.toNat = false) :
    fireFrom timing n s = .done s := by
  induction n with
  | zero => rfl
  | succ n ih =>
    rw [fireFrom, h]
    exact ih

theorem State.LineUnarmed.fireVblank (h : s.LineUnarmed) (hl : s.frameClock.toNat = nVisible)
    (ht : ∀ ch, t.dmaCtl ch = s.dmaCtl ch) : fireVblank t = .done t :=
  fireFrom_idle 1 4 fun ch => armed_eq_false fun he => by rw [ht] at he ⊢; exact (h ch he).2 hl

theorem State.LineUnarmed.fireHblank (h : s.LineUnarmed) (hl : s.frameClock.toNat < nVisible)
    (ht : ∀ ch, t.dmaCtl ch = s.dmaCtl ch) : fireHblank t = .done t :=
  fireFrom_idle 2 4 fun ch => armed_eq_false fun he => by rw [ht] at he ⊢; exact (h ch he).1 hl

theorem dmaCtl_setHblankFlag (s : State) (b : Bool) (ch : Fin 4) : (s.setHblankFlag b).dmaCtl ch = s.dmaCtl ch := by
  have hne : Reg.dmaCntH ch ≠ Reg.dispstat := by revert ch; decide
  rw [State.dmaCtl, State.setHblankFlag, State.x_setRegBit, if_neg hne, State.dmaCtl]

/-! #### The events of a line -/

/-- The sources a step of line `frameClock` raises, but for the timers' (R131 lines 11, 14 and 15). -/
def lineEvents (s : State) : Finset (Fin nIrq) :=
  (if s.frameClock.toNat = nVisible then {0} else ∅) ∪ (if s.frameClock.toNat = s.vcountMatch then {2} else ∅) ∪ {1}

theorem raise_if_unhandled {c : Prop} [Decidable c] (hs : s.Unhandled) (i : Fin nIrq) :
    ∃ t, (if c then raise s i = .done t else t = s) ∧ Raised (if c then {i} else ∅) s t := by
  split
  · exact raise_unhandled hs i
  · exact ⟨s, rfl, .refl s⟩

/-- A step with no channel armed, where no handler takes an event: it completes, with its own events and some of the timers'. -/
theorem exists_lineChain (hs : s.Unhandled) (hu : s.LineUnarmed) :
    ∃ u t R, LineChain s u ∧ tmrTickline u = .done t ∧ R ⊆ timerSources ∧ Raised (lineEvents s ∪ R) (lineQuiet s) t := by
  obtain ⟨e, he, hre⟩ := raise_if_unhandled (c := s.frameClock.toNat = nVisible) (unhandled_lineStart hs) 0
  have hrf := hre.setHblankFlag true
  have hctl : ∀ ch, (e.setHblankFlag true).dmaCtl ch = s.dmaCtl ch := fun ch => by
    rw [dmaCtl_setHblankFlag, hre.dmaCtl, dmaCtl_lineStart]
  have hmatch : (e.setHblankFlag true).vcountMatch = s.vcountMatch := hrf.vcountMatch.trans (vcountMatch_lineQuiet s)
  have hf := hrf.unhandled (unhandled_lineQuiet hs)
  obtain ⟨g, hg, hrg⟩ := raise_if_unhandled (c := s.frameClock.toNat = s.vcountMatch) hf 2
  obtain ⟨u, hu1, hru⟩ := raise_unhandled (hrg.unhandled hf) 1
  obtain ⟨R, t, ht, hR, hrt⟩ := tickSlots_onlyTimers (4 * u.cfg.cyclesPerLine) (hru.unhandled (hrg.unhandled hf))
  refine ⟨u, t, R, ⟨lineStart s, e, e.setHblankFlag true, g, ?_, ?_, ?_, hu1⟩, ht, hR,
    ((hrf.trans hrg).trans hru).trans hrt⟩
  · split at he
    · next hl =>
      rw [if_pos hl]
      refine ⟨?_, he⟩
      rw [lineStart, if_pos hl]
      exact hu.fireVblank hl (dmaCtl_advanceBegin s)
    · next hl => rw [if_neg hl, he, lineStart, if_neg hl]
  · split
    · next hl => exact hu.fireHblank hl hctl
    · rfl
  · rw [hmatch]; exact hg

end Sys2Proof.Machine

end

/-! ### A round of a wait where no handler takes an event (`40_scheduler.md` R133; log 1) -/

section

namespace Sys2Proof.Machine

variable {s t : State} {R : Finset (Fin nIrq)}

/-- All that a step where no handler takes an event may change. -/
theorem Raised.line_rest (h : Raised R (lineQuiet s) t) : t =
    { s with
      frameClock := BitVec.ofNat 8 ((s.frameClock.toNat + 1) % nLines)
      regs := t.regs
      tmr := t.tmr
      waits := t.waits
      refs := (advanceBegin s).refs
      frameMode := (advanceBegin s).frameMode
      lb := (advanceBegin s).lb
      fb0 := (advanceBegin s).fb0
      fb1 := (advanceBegin s).fb1
      freeCount := (advanceBegin s).freeCount
      active := if s.frameClock.toNat = nVisible then ~~~s.active else s.active } :=
  h.rest.trans (congrArg (fun v : State => { v with regs := t.regs, tmr := t.tmr, waits := t.waits }) (lineStart_eq s))

theorem waits_lineQuiet (s : State) : (lineQuiet s).waits = s.waits := by rw [lineQuiet_eq, lineStart_eq]

theorem toNat_nextLine (n : Nat) : (BitVec.ofNat 8 ((n + 1) % nLines)).toNat = (n + 1) % 228 := by
  rw [BitVec.toNat_ofNat]
  exact Nat.mod_eq_of_lt (lt_trans (Nat.mod_lt _ (by decide)) (by decide))

theorem Raised.line_clock (h : Raised R (lineQuiet s) t) : t.frameClock.toNat = (s.frameClock.toNat + 1) % 228 := by
  rw [h.line_rest]
  exact toNat_nextLine _

theorem Raised.line_ime (h : Raised R (lineQuiet s) t) : t.ime = s.ime := h.ime.trans (ime_lineQuiet s)

theorem Raised.line_dmaCtl (h : Raised R (lineQuiet s) t) (ch : Fin 4) : t.dmaCtl ch = s.dmaCtl ch := by
  rw [h.dmaCtl, lineQuiet, dmaCtl_setHblankFlag, dmaCtl_lineStart]

theorem Raised.line_deliverable (h : Raised R (lineQuiet s) t) (i : Fin nIrq) : t.deliverable i = s.deliverable i :=
  (h.deliverable i).trans (deliverable_lineQuiet s i)

theorem advance_unhandled (hs : s.Unhandled) (hu : s.LineUnarmed) :
    ∃ t R, advance s = .done t ∧ R ⊆ timerSources ∧ Raised (lineEvents s ∪ R) (lineQuiet s) t := by
  obtain ⟨u, t, R, hchain, ht, hR, h⟩ := exists_lineChain hs hu
  exact ⟨t, R, hchain.advance_eq.trans ht, hR, h⟩

theorem lineUnarmed_of_disabled (h : ∀ ch : Fin 4, (s.dmaCtl ch).getLsbD 15 = false) : s.LineUnarmed := fun ch he => by
  rw [h ch] at he; cases he

/-- A round with nothing on the external raise port starts with its scanline. -/
theorem step_haltLoop {ks : List Kont} (hf : s.faulted = none) (hk : s.kont = .haltLoop :: ks) (he : s.extRaises = []) :
    step s = (haltAdvance (s.setKont ks)).finish := by
  have hloop : haltLoop (s.setKont ks) = haltAdvance (s.setKont ks) := by
    rw [haltLoop, show (s.setKont ks).extRaises = [] from he]
  rw [step_of_running hf, hostTurn_of_not_isHandler hk rfl, ← hloop]
  exact innerStep_of_not_isHandler hk rfl

theorem haltAdvance_of_done {u : State} (ha : advance s = .done t) (hd : irqDispatch t = .done u) :
    haltAdvance s = haltTest u := by
  rw [haltAdvance, ha]
  show haltPoll t = _
  rw [haltPoll, hd]
  rfl

theorem irqDispatch_of_ime (h : s.ime = false) : irqDispatch s = .done s :=
  dispatchLoop_none s nIrq ((nextSource_none s).mpr fun i hi => by
    rw [deliverable_of_ime s h] at hi
    exact absurd hi.2 (by decide))

/-- Settles O57: with the master enable clear the scanline raises without a delivery, the poll finds nothing, and the wait
frame is as it was, so the test stops at the head of the loop again. -/
theorem waitWithoutMasterEnableGoesOn : Obligations.WaitWithoutMasterEnableGoesOn := by
  intro s ks w ws hf hk hw hseen he hime _ hdis
  obtain ⟨t, R, ha, _, h⟩ := advance_unhandled (s := s.setKont ks) (.inl hime) (lineUnarmed_of_disabled hdis)
  have htime : t.ime = false := h.line_ime.trans hime
  have hwaits : t.waits = s.waits := (h.waits_eq ((ime_lineQuiet _).trans hime)).trans (waits_lineQuiet _)
  have hrest := h.line_rest
  have hkont : t.kont = ks := by rw [hrest]; rfl
  have htest : haltTest t = .susp t [.haltLoop] := by
    unfold haltTest
    rw [hwaits, hw]
    exact if_pos hseen
  refine ⟨t.setKont (.haltLoop :: t.kont), ?_, ?_, hwaits, ?_, htime, ?_, h.line_clock, fun ch => ?_⟩
  · rw [step_haltLoop hf hk he, haltAdvance_of_done ha (irqDispatch_of_ime htime), htest]
    rfl
  · rw [hk, ← hkont]; rfl
  · show t.extRaises = []
    rw [hrest]; exact he
  · show t.faulted = none
    rw [hrest]; exact hf
  · exact congrArg (·.getLsbD 15) (h.line_dmaCtl ch) |>.trans (hdis ch)

/-! #### A wait that ends -/

theorem pollCount_le (s : State) : pollCount s ≤ nIrq :=
  (List.length_filter_le _ _).trans (List.length_finRange).le

theorem exists_mask (f : Fin nIrq → Bool) : ∃ m : BitVec 14, ∀ i : Fin nIrq, m.getLsbD i.val = f i :=
  ⟨BitVec.ofFnLE f, fun i => by rw [BitVec.getLsbD_eq_getElem i.isLt, BitVec.getElem_ofFnLE]⟩

/-- A wait whose frame has recorded a source of its mask ends: its frame is popped. -/
theorem haltTest_of_seen {w : WaitFrame} {ws : List WaitFrame} (hw : s.waits = w :: ws) {j : Nat}
    (hm : w.mask.getLsbD j = true) (hs : w.seen.getLsbD j = true) : haltTest s = .done (s.setWaits ws) := by
  have hne : w.seen &&& w.mask ≠ 0 := fun h => by
    have hbit := congrArg (·.getLsbD j) h
    simp [hm, hs] at hbit
  unfold haltTest
  rw [hw]
  exact if_neg hne

theorem recordAck_cons (m : BitVec 14) (w : WaitFrame) (ws : List WaitFrame) :
    recordAck m (w :: ws) = { w with seen := w.seen ||| m } :: recordAck m ws := rfl

theorem length_recordAck (m : BitVec 14) (ws : List WaitFrame) : (recordAck m ws).length = ws.length := List.length_map _

/-- A line with HBLANK deliverable records it in every wait frame. -/
theorem Raised.line_records_hblank (h : Raised (lineEvents s ∪ R) (lineQuiet s) t) (hdel : s.deliverable 1 = true) :
    ∃ m : BitVec 14, m.getLsbD 1 = true ∧ t.waits = recordAck m s.waits := by
  obtain ⟨m, hm, hwaits⟩ := h.waits
  have hmem : (1 : Fin nIrq) ∈ lineEvents s ∪ R := by simp [lineEvents]
  have hm1 := hm 1
  rw [deliverable_lineQuiet, hdel, decide_eq_true hmem] at hm1
  exact ⟨m, hm1, hwaits.trans (congrArg _ (waits_lineQuiet s))⟩

/-- A round of a wait for HBLANK, with HBLANK deliverable and no handlers: the line's HBlank raise is recorded in the wait's
frame, the poll records what else is deliverable, and the test pops the frame. -/
theorem haltAdvance_hblank {w : WaitFrame} {ws : List WaitFrame} (hh : ∀ i, s.cfg.handlerOf i = .absent)
    (hu : s.LineUnarmed) (hw : s.waits = w :: ws) (hdel : s.deliverable 1 = true) (hmask : w.mask.getLsbD 1 = true) :
    ∃ u, haltAdvance s = .done u ∧ u.kont = s.kont ∧ u.waits.length = ws.length ∧
      u.frameClock.toNat = (s.frameClock.toNat + 1) % 228 ∧ u.ime = true ∧ u.pending 1 = false ∧
      u.dispatch = s.dispatch := by
  obtain ⟨t, R, ha, _, h⟩ := advance_unhandled (.inr hh) hu
  have hrest := h.line_rest
  obtain ⟨p, hp, hpend, hregs, hrec, hprest⟩ := dispatchLoop_absent nIrq t
    (fun i _ _ => by rw [hrest]; exact hh i) (pollCount_le t)
  obtain ⟨m, hm, hwaits⟩ := h.line_records_hblank hdel
  obtain ⟨m', hm'⟩ := exists_mask fun j => t.pending j && t.deliverable j
  have hpwaits : p.waits = { w with seen := w.seen ||| m ||| m' } :: recordAck m' (recordAck m ws) := by
    rw [hrec m' hm', hwaits, hw, recordAck_cons, recordAck_cons]
  have htest := haltTest_of_seen hpwaits hmask (by simp [hm])
  have hime : s.ime = true := by
    simp only [State.deliverable, Bool.and_eq_true] at hdel
    exact hdel.1.1
  have hpime : p.ime = t.ime := congrArg (·.getLsbD 0) (hregs Reg.ime (by decide))
  refine ⟨p.setWaits (recordAck m' (recordAck m ws)), (haltAdvance_of_done ha hp).trans htest, ?_, ?_, ?_, ?_, ?_, ?_⟩
  · rw [State.setWaits_kont, hprest, hrest]
  · rw [State.setWaits_waits, length_recordAck, length_recordAck]
  · rw [State.setWaits_frameClock, hprest]
    exact h.line_clock
  · exact hpime.trans (h.line_ime.trans hime)
  · exact (hpend 1).trans (by rw [h.line_deliverable, hdel, Bool.not_true, Bool.and_false])
  · rw [State.setWaits_dispatch, hprest, hrest]

/-- Settles O56: the issue pushes the frame, and the round of the next step pops it (`haltAdvance_hblank`). -/
theorem waitForHblankEnds : Obligations.WaitForHblankEnds := by
  intro s mask hf he hh _ hdis hdel hmask
  have hbit : (mask.setWidth 14 : BitVec 14).getLsbD 1 = true := by rw [BitVec.getLsbD_setWidth, hmask]; rfl
  have hne : mask.setWidth 14 ≠ (0 : BitVec 14) := fun h => by rw [h] at hbit; cases hbit
  obtain ⟨u, hround, hu⟩ := haltAdvance_hblank
    (s := s.setWaits ({ mask := mask.setWidth 14, seen := 0 } :: s.waits)) hh (lineUnarmed_of_disabled hdis) rfl hdel hbit
  refine ⟨_, u, finish_haltUntil hne, ?_, hu⟩
  exact Eq.trans (step_haltLoop (ks := s.kont) hf rfl he) (congrArg Run.finish hround)

end Sys2Proof.Machine

end

/-! ### A scanline step that handlers may stop (`40_scheduler.md` R132, R136 (a)) -/

section

namespace Sys2Proof.Machine

variable {s : State}

/-- A piece that ends in no fault. -/
def Run.NoFault : Run → Prop
  | .done _ => True
  | .susp _ _ => True
  | .fault _ => False

theorem Run.NoFault.andThen {r : Run} {k : Kont} {f : State → Run} (hr : r.NoFault) (hf : ∀ t, (f t).NoFault) :
    (r.andThen k f).NoFault := by
  cases r with
  | done t => exact hf t
  | susp t ks => exact trivial
  | fault e => exact hr

theorem Run.NoFault.ite {c : Prop} [Decidable c] {a b : Run} (ha : a.NoFault) (hb : b.NoFault) :
    (if c then a else b).NoFault := by
  split <;> assumption

/-- A piece that ends in no fault gives a next state, with every property that its own state has and that does not read the
suspended operations. -/
theorem Run.NoFault.exists_next {P Q : State → Prop} {r : Run} (hr : r.NoFault) (hP : r.All P Q)
    (hk : ∀ t ks, P t → P (t.setKont ks)) : ∃ t, r.finish = .next t ∧ P t := by
  cases r with
  | done t => exact ⟨t, rfl, hP⟩
  | susp t ks => exact ⟨_, rfl, hk t _ hP⟩
  | fault e => exact hr.elim

theorem deliver_noFault (s : State) (i : Fin nIrq) : (deliver s i).NoFault := by
  simp only [deliver]
  split <;> exact trivial

theorem raise_noFault (s : State) (i : Fin nIrq) : (raise s i).NoFault := Run.NoFault.ite (deliver_noFault _ i) trivial

theorem tmrCount_noFault (s : State) (ch : Fin 4) {f : State → Run} (hf : ∀ t, (f t).NoFault) :
    (tmrCount ch f s).NoFault :=
  Run.NoFault.ite (Run.NoFault.andThen (Run.NoFault.ite (raise_noFault _ _) trivial) hf) trivial

theorem tickUp_noFault (n : Nat) (s : State) : (tickUp n s).NoFault := by
  induction n generalizing s with
  | zero => exact tmrCount_noFault s 3 fun _ => trivial
  | succ n ih => exact tmrCount_noFault s _ fun t => Run.NoFault.ite (ih t) trivial

theorem tickSlot_noFault (s : State) (ch : Fin 4) : (tickSlot s ch).NoFault :=
  Run.NoFault.ite (Run.NoFault.ite (tickUp_noFault _ _) trivial) trivial

theorem tickSlots_noFault (n : Nat) (s : State) : (tickSlots n s).NoFault := by
  induction n generalizing s with
  | zero => exact trivial
  | succ n ih => exact (tickSlot_noFault s _).andThen ih

theorem advanceVcount_noFault (l : BitVec 8) (s : State) : (advanceVcount l s).NoFault :=
  (Run.NoFault.ite (b := .done s) (raise_noFault s 2) trivial).andThen fun t =>
    (raise_noFault t 1).andThen fun _ => tickSlots_noFault _ _

/-- With no channel armed for HBlank nothing faults from line 12 on. -/
theorem advanceHblankPoint_noFault {l : BitVec 8}
    (h : l.toNat < nVisible → fireHblank (s.setHblankFlag true) = .done (s.setHblankFlag true)) :
    (advanceHblankPoint l s).NoFault := by
  refine Run.NoFault.andThen ?_ (advanceVcount_noFault l)
  split
  · next hl => rw [h hl]; exact trivial
  · exact trivial

/-- A step with no channel armed does not fault. At line 160 a handler may change DMA control words, but no line from 160 on
runs the HBlank-armed channels. -/
theorem advance_noFault (hu : s.LineUnarmed) : (advance s).NoFault := by
  simp only [advance]
  split
  · next hl =>
    rw [hu.fireVblank (t := swapBuffers (advanceBegin s)) hl (dmaCtl_advanceBegin s)]
    refine (raise_noFault _ 0).andThen fun t => advanceHblankPoint_noFault fun hlt => ?_
    exact absurd hl hlt.ne
  · exact advanceHblankPoint_noFault fun hlt => hu.fireHblank hlt fun ch => by
      rw [dmaCtl_setHblankFlag, dmaCtl_advanceBegin]

/-- After its first lines a step moves neither the clock nor VCOUNT. -/
theorem advance_clockAt (s : State) : (advance s).All
    (State.ClockAt (BitVec.ofNat 8 ((s.frameClock.toNat + 1) % nLines)) (s.frameClock.setWidth 16)) (fun _ => True) := by
  have hc := closed_clockAt (BitVec.ofNat 8 ((s.frameClock.toNat + 1) % nLines)) (s.frameClock.setWidth 16)
  have hbegin : State.ClockAt (BitVec.ofNat 8 ((s.frameClock.toNat + 1) % nLines)) (s.frameClock.setWidth 16)
      (advanceBegin s) := by
    refine ⟨by rw [(onlyVideo_advanceBegin s).rest]; rfl, ?_⟩
    rw [x_advanceBegin, x_lineBegin]
    rfl
  simp only [advance]
  split
  · exact (hc.fireFrom _ _ (hc.swap _ hbegin)).andThen fun t ht => hc.advanceVblankRaise _ ht
  · exact hc.advanceHblankPoint _ hbegin

/-- Settles O52: nothing in the step faults, and nothing after its first lines moves the clock or VCOUNT. -/
theorem advanceMovesOneLine : Obligations.AdvanceMovesOneLine := by
  intro s _ hu
  obtain ⟨t, ht, hclock, hvcount⟩ := (advance_noFault hu).exists_next (advance_clockAt s) fun _ _ h => h
  refine ⟨t, ht, ?_, ?_⟩
  · rw [hclock]
    exact toNat_nextLine _
  · have hl := s.frameClock.isLt
    exact (congrArg BitVec.toNat hvcount).trans (by rw [BitVec.toNat_setWidth]; omega)

end Sys2Proof.Machine

end

/-! ### The parameters along an operation (`00_scope.md` R2) -/

section

namespace Sys2Proof.Machine

variable {s t : State}

/-- No update writes the parameters. -/
theorem closedStep_cfg (cfg : Config) : ClosedStep (fun s => s.cfg = cfg) (fun _ => True) := by
  refine ⟨?_, fun _ h => h, fun _ h => h⟩
  constructor
  case commit => intro s y h; exact (congrArg State.cfg (onlyVideo_commit s y).rest).trans h
  case afterFault => exact fun _ _ _ => trivial
  all_goals intros; assumption

theorem Run.All.of_done {P Q : State → Prop} {r : Run} (h : r.All P Q) (hr : r = .done t) : P t := by
  subst hr; exact h

theorem cfg_of_raise {i : Fin nIrq} (h : raise s i = .done t) : t.cfg = s.cfg :=
  ((closedStep_cfg s.cfg).raise rfl i).of_done h

/-- A raise of a source below `N_IRQ` (`30_encoding.md` R108). -/
theorem exec_irqRaise {b : Byte} {i : Fin nIrq} (hb : b.toNat = i.val) (hi : i.val < s.cfg.irqCount.val) :
    exec (.irqRaise b) s = (raise s i).finish :=
  congrArg Run.finish (withSource_lt s (hb ▸ hi) hb)

end Sys2Proof.Machine

end

/-! ### Where no handler takes an event, an operation that gives a next state completes (`60_exceptions.md` R388; log 1) -/

section

namespace Sys2Proof.Machine

variable {s t : State} {cfg : Config}

/-! #### What a transfer writes (`20_memory.md` R84) -/

theorem onlyWritten_of_dmaWrite {a : Word} {unit v : Nat} (h : dmaWrite s a unit v = .ok t) : OnlyWritten s t := by
  simp only [dmaWrite] at h
  split at h
  · split at h
    · cases h
    · next hf =>
      simp only [Bool.or_eq_true, Bool.and_eq_true, decide_eq_true_eq, not_or, Bool.not_eq_true, not_and] at hf
      cases h
      simp only [dmaRegWrite]
      split
      · next hu => exact (onlyWritten_storeReg hf.1).trans (onlyWritten_storeReg (hf.2 hu))
      · exact onlyWritten_storeReg hf.1
  · cases h; exact ⟨fun _ => ⟨rfl, rfl⟩, fun _ _ => rfl, rfl⟩
  · cases h; exact ⟨fun _ => ⟨rfl, rfl⟩, fun _ _ => rfl, rfl⟩
  · cases h; exact ⟨fun _ => ⟨rfl, rfl⟩, fun _ _ => rfl, rfl⟩
  · split at h
    · cases h; exact ⟨fun _ => ⟨rfl, rfl⟩, fun _ _ => rfl, rfl⟩
    · cases h

theorem onlyTransferred_of_dmaUnit {ch : Fin 4} {c : Half} (h : dmaUnit ch c s = .ok t) : OnlyTransferred ch s t := by
  simp only [dmaUnit] at h
  split at h
  · cases h
  · split at h
    · cases h
    · split at h
      · cases h
      · next hw => cases h; exact (onlyWritten_of_dmaWrite hw).transferred _

theorem onlyTransferred_of_dmaUnits {ch : Fin 4} {c : Half} (n : Nat) (h : dmaUnits ch c n s = .ok t) :
    OnlyTransferred ch s t := by
  induction n generalizing s with
  | zero => cases h; exact .refl ch _
  | succ n ih =>
    unfold dmaUnits at h
    split at h
    · cases h
    · next hu => exact (onlyTransferred_of_dmaUnit hu).trans (ih h)

/-! #### Runs that no handler stops -/

/-- With the parameters `cfg`, a delivery stops at no handler. -/
def State.UnhandledIn (cfg : Config) (s : State) : Prop := s.cfg = cfg ∧ s.Unhandled

theorem State.UnhandledIn.congr (hs : s.UnhandledIn cfg) (hcfg : t.cfg = s.cfg) (hime : t.x Reg.ime = s.x Reg.ime) :
    t.UnhandledIn cfg := by
  rw [State.UnhandledIn, State.Unhandled, State.ime, hcfg, hime]
  exact hs

/-- The piece is not stopped by a handler, and `P` holds where it completes. -/
def Run.Completes (P : State → Prop) : Run → Prop
  | .done s => P s
  | .susp _ _ => False
  | .fault _ => True

theorem Run.Completes.andThen {P Q : State → Prop} {r : Run} {k : Kont} {f : State → Run} (hr : r.Completes P)
    (hf : ∀ t, P t → (f t).Completes Q) : (r.andThen k f).Completes Q := by
  cases r with
  | done t => exact hf t hr
  | susp t ks => exact hr.elim
  | fault e => exact trivial

theorem Run.Completes.ite {P : State → Prop} {c : Prop} [Decidable c] {a b : Run} (ha : a.Completes P)
    (hb : b.Completes P) : (if c then a else b).Completes P := by
  split <;> assumption

theorem Run.Completes.of_finish {P : State → Prop} {r : Run} (h : r.Completes P) (hr : r.finish = .next t) :
    r = .done t ∧ P t := by
  cases r with
  | done u => cases hr; exact ⟨rfl, h⟩
  | susp u ks => exact h.elim
  | fault e => cases hr

theorem raise_unhandledIn (hs : s.UnhandledIn cfg) (i : Fin nIrq) : (raise s i).Completes (State.UnhandledIn cfg) := by
  obtain ⟨t, ht, h⟩ := raise_unhandled hs.2 i
  rw [ht]
  exact hs.congr h.cfg (h.x (by decide))

theorem dmaComplete_unhandledIn (hs : s.UnhandledIn cfg) (ch : Fin 4) :
    (dmaComplete s ch).Completes (State.UnhandledIn cfg) := by
  have hne : Reg.ime ≠ Reg.dmaCntH ch := by revert ch; decide
  have hbook : (if DmaCtl.timing (s.dmaCtl ch) = 0 ∨ DmaCtl.repeats (s.dmaCtl ch) = false then
      s.setRegBit (Reg.dmaCntH ch) 15 false else dmaReload s ch).UnhandledIn cfg := by
    split
    · exact hs.congr rfl (State.x_setReg_other s _ hne)
    · exact hs.congr rfl rfl
  exact Run.Completes.ite (raise_unhandledIn hbook _) hbook

theorem dmaTransfer_unhandledIn (hs : s.UnhandledIn cfg) (ch : Fin 4) :
    (dmaTransfer s ch).Completes (State.UnhandledIn cfg) := by
  unfold dmaTransfer
  split
  · exact trivial
  · next t ht =>
    obtain ⟨_, _, hx, hrest⟩ := onlyTransferred_of_dmaUnits _ ht
    exact dmaComplete_unhandledIn (hs.congr (by rw [hrest]) (hx _ rfl)) ch

theorem fireFrom_unhandledIn (timing : BitVec 2) (n : Nat) (hs : s.UnhandledIn cfg) :
    (fireFrom timing n s).Completes (State.UnhandledIn cfg) := by
  induction n generalizing s with
  | zero => exact hs
  | succ n ih => exact (Run.Completes.ite (b := .done s) (dmaTransfer_unhandledIn hs _) hs).andThen fun t ht => ih ht

/-! #### The chain of operations of a step (R131 lines 1 to 15) -/

theorem unhandledIn_advanceBegin (hs : s.UnhandledIn cfg) : (advanceBegin s).UnhandledIn cfg :=
  hs.congr (cfg_advanceBegin s) (by rw [x_advanceBegin, x_lineBegin]; rfl)

theorem unhandledIn_setHblankFlag (hs : s.UnhandledIn cfg) (b : Bool) : (s.setHblankFlag b).UnhandledIn cfg :=
  hs.congr rfl (State.x_setReg_other s _ (by decide))

theorem raise_of_next {b : Byte} {i : Fin nIrq} (hs : s.UnhandledIn cfg) (hb : b.toNat = i.val)
    (hi : i.val < cfg.irqCount.val) (h : exec (.irqRaise b) s = .next t) : raise s i = .done t ∧ t.UnhandledIn cfg := by
  rw [exec_irqRaise hb (hs.1 ▸ hi)] at h
  exact (raise_unhandledIn hs i).of_finish h

theorem ite_and_of_imp {c A A' B P : Prop} [Decidable c] (h : if c then A else B) (hA : A → A' ∧ P) (hB : B → P) :
    (if c then A' else B) ∧ P := by
  split at h
  · next hc => rw [if_pos hc]; exact hA h
  · next hc => rw [if_neg hc]; exact ⟨h, hB h⟩

/-- A step's chain of operations is the chain of its parts. -/
theorem lineChain_of_advanceChain (hs : s.UnhandledIn cfg) (hc : 2 < cfg.irqCount.val) (h : AdvanceChain s t) :
    LineChain s t := by
  obtain ⟨b, c, d, e, f, hb, hvblank, hhblank, g, hvcount, hraise⟩ := h
  obtain rfl := advanceBegun_iff.mp hb
  have hbegin := unhandledIn_advanceBegin hs
  obtain ⟨he, heU⟩ := ite_and_of_imp hvblank (P := e.UnhandledIn cfg)
    (A' := fireVblank (swapBuffers (advanceBegin s)) = .done d ∧ raise d 0 = .done e)
    (fun ⟨hswap, hfire, hr⟩ => by
      obtain rfl := next_inj.mp hswap
      obtain ⟨hd, hdU⟩ := (fireFrom_unhandledIn 1 4 (s := swapBuffers (advanceBegin s)) hbegin).of_finish hfire
      obtain ⟨he, heU⟩ := raise_of_next hdU (i := 0) (by decide) (lt_of_le_of_lt (by decide) hc) hr
      exact ⟨⟨hd, he⟩, heU⟩)
    (fun h => h ▸ hbegin)
  have hflag := unhandledIn_setHblankFlag heU true
  obtain ⟨hf, hfU⟩ := ite_and_of_imp hhblank (fun h => (fireFrom_unhandledIn 2 4 hflag).of_finish h) (fun h => h ▸ hflag)
  rw [← vcountMatch_eq_bitsOf] at hvcount
  obtain ⟨hg, hgU⟩ := ite_and_of_imp hvcount (fun h => raise_of_next hfU (i := 2) (by decide) hc h) (fun h => h ▸ hfU)
  obtain ⟨ht, _⟩ := raise_of_next hgU (i := 1) (by decide) (lt_of_le_of_lt (by decide) hc) hraise
  exact ⟨d, e, f, g, he, hf, hg, ht⟩

theorem exec_irqRaise_of_done {b : Byte} {i : Fin nIrq} (hb : b.toNat = i.val) (hi : i.val < s.cfg.irqCount.val)
    (h : raise s i = .done t) : exec (.irqRaise b) s = .next t := by
  rw [exec_irqRaise hb hi, h]
  rfl

theorem cfg_of_fireFrom {timing : BitVec 2} {n : Nat} (h : fireFrom timing n s = .done t) : t.cfg = s.cfg :=
  ((closedStep_cfg s.cfg).fireFrom timing n rfl).of_done h

/-- A step whose parts complete is a chain of operations. -/
theorem advanceChain_of_lineChain (hc : 2 < s.cfg.irqCount.val) (h : LineChain s t) : AdvanceChain s t := by
  obtain ⟨d, e, f, g, hvblank, hhblank, hvcount, hraise⟩ := h
  have hbegin := cfg_advanceBegin s
  obtain ⟨he, hecfg⟩ := ite_and_of_imp hvblank (P := e.cfg = s.cfg)
    (A' := exec .ppuSwap (advanceBegin s) = .next (swapBuffers (advanceBegin s)) ∧
      exec .dmaFireVblank (swapBuffers (advanceBegin s)) = .next d ∧ exec (.irqRaise 0) d = .next e)
    (fun ⟨hd, hr⟩ => by
      have hdcfg : d.cfg = s.cfg := (cfg_of_fireFrom hd).trans hbegin
      refine ⟨⟨rfl, congrArg Run.finish hd, ?_⟩, (cfg_of_raise hr).trans hdcfg⟩
      exact exec_irqRaise_of_done (i := 0) (by decide) (lt_of_le_of_lt (by decide) (hdcfg ▸ hc)) hr)
    (fun h => h ▸ hbegin)
  obtain ⟨hf, hfcfg⟩ := ite_and_of_imp hhblank (P := f.cfg = s.cfg)
    (A' := exec .dmaFireHblank (e.setHblankFlag true) = .next f)
    (fun h => ⟨congrArg Run.finish h, (cfg_of_fireFrom h).trans hecfg⟩) (fun h => h ▸ hecfg)
  obtain ⟨hg, hgcfg⟩ := ite_and_of_imp hvcount (P := g.cfg = s.cfg) (A' := exec (.irqRaise 2) f = .next g)
    (fun h => ⟨exec_irqRaise_of_done (i := 2) (by decide) (hfcfg ▸ hc) h, (cfg_of_raise h).trans hfcfg⟩)
    (fun h => h ▸ hfcfg)
  rw [vcountMatch_eq_bitsOf] at hg
  exact ⟨advanceBegin s, swapBuffers (advanceBegin s), d, e, f, advanceBegun_iff.mpr rfl, he, hf, g, hg,
    exec_irqRaise_of_done (i := 1) (by decide) (lt_of_le_of_lt (by decide) (hgcfg ▸ hc)) hraise⟩

end Sys2Proof.Machine

end

/-! ### A suspended operation goes on with the rest of its pseudocode (`60_exceptions.md` R388; log 1) -/

section

namespace Sys2Proof.Machine

variable {s : State}

/-- `thenAt` of a first part that keeps the parameters, where the rests agree for every state with all the sources. -/
theorem thenAt_finish_cfg {first rest : State → Host.Outcome State Fault Refusal} {k : Kont} {r : Run} {f : State → Run}
    (h : 11 < s.cfg.irqCount.val) (h1 : first s = r.finish) (he : r.Ends s.shape) (hs : r.Stops)
    (hcfg : r.All (fun t => t.cfg = s.cfg) (fun _ => True))
    (hf : ∀ t : State, 11 < t.cfg.irqCount.val → rest t = (f t).finish) :
    thenAt first k rest s = (r.andThen k f).finish :=
  thenAt_finish h1 he hs fun t ht => hf t (by rw [hcfg.of_done ht]; exact h)

theorem onlyIf_finish {c : Prop} [Decidable c] {first : State → Host.Outcome State Fault Refusal} {r : Run}
    (h : first s = r.finish) : onlyIf c first s = (if c then r else .done s).finish := by
  unfold onlyIf
  split
  · exact h
  · rfl

theorem Run.All.ite {P Q : State → Prop} {c : Prop} [Decidable c] {a b : Run} (ha : a.All P Q) (hb : b.All P Q) :
    (if c then a else b).All P Q := by
  split <;> assumption

theorem exec_irqRaise_of_all {b : Byte} {i : Fin nIrq} (h : 11 < s.cfg.irqCount.val) (hb : b.toNat = i.val)
    (hi : i.val ≤ 11) : exec (.irqRaise b) s = (raise s i).finish :=
  exec_irqRaise hb (lt_of_le_of_lt hi h)

theorem raise_cfg (s : State) (i : Fin nIrq) : (raise s i).All (fun t => t.cfg = s.cfg) (fun _ => True) :=
  (closedStep_cfg s.cfg).raise rfl i

/-! #### `ADVANCE` (R131) -/

theorem advanceFrom15_eq (l : Byte) (h : 11 < s.cfg.irqCount.val) :
    advanceFrom15 l s = (advanceHblankRaise l s).finish :=
  thenAt_finish_cfg h (exec_irqRaise_of_all h (by decide) (by decide)) (raise_ends 1 rfl) (raise_stops s 1) (raise_cfg s 1)
    fun _ _ => rfl

theorem advanceFrom14_eq (l : Byte) (h : 11 < s.cfg.irqCount.val) : advanceFrom14 l s = (advanceVcount l s).finish := by
  rw [advanceFrom14, ← vcountMatch_eq_bitsOf]
  exact thenAt_finish_cfg h (onlyIf_finish (exec_irqRaise_of_all h (by decide) (by decide)))
    (Run.Ends.ite (b := .done s) (raise_ends 2 rfl) rfl) (Run.Stops.ite (b := .done s) (raise_stops s 2) trivial)
    (Run.All.ite (b := .done s) (raise_cfg s 2) rfl) fun _ ht => advanceFrom15_eq l ht

theorem fireFrom_cfg (timing : BitVec 2) (n : Nat) (s : State) :
    (fireFrom timing n s).All (fun t => t.cfg = s.cfg) (fun _ => True) :=
  (closedStep_cfg s.cfg).fireFrom timing n rfl

theorem advanceFrom12_eq (l : Byte) (h : 11 < s.cfg.irqCount.val) :
    advanceFrom12 l s = (advanceHblankPoint l s).finish :=
  thenAt_finish_cfg (s := s.setHblankFlag true) h (onlyIf_finish rfl)
    (Run.Ends.ite (b := .done _) (fireFrom_ends 2 4 rfl) rfl) (Run.Stops.ite (b := .done _) (fireFrom_stops _ 2 4) trivial)
    (Run.All.ite (b := .done _) (fireFrom_cfg 2 4 _) rfl) fun _ ht => advanceFrom14_eq l ht

theorem advanceFrom11_eq (l : Byte) (h : 11 < s.cfg.irqCount.val) :
    advanceFrom11 l s = (advanceVblankRaise l s).finish :=
  thenAt_finish_cfg h (exec_irqRaise_of_all h (by decide) (by decide)) (raise_ends 0 rfl) (raise_stops s 0) (raise_cfg s 0)
    fun _ ht => advanceFrom12_eq l ht

theorem exec_advance_from12 (h : 11 < s.cfg.irqCount.val) (hl : s.frameClock.toNat ≠ 160) :
    exec .advance s = advanceFrom12 s.frameClock (advanceBegin s) := by
  rw [advanceFrom12_eq _ (by rw [cfg_advanceBegin]; exact h)]
  exact congrArg Run.finish (if_neg hl)

theorem exec_advance_from11 (h : 11 < s.cfg.irqCount.val) (hl : s.frameClock.toNat = 160) :
    exec .advance s = thenAt (exec .dmaFireVblank) (.advance s.frameClock .vblankRaise) (advanceFrom11 s.frameClock)
      (swapBuffers (advanceBegin s)) := by
  have hcfg : 11 < (swapBuffers (advanceBegin s)).cfg.irqCount.val := by
    show 11 < (advanceBegin s).cfg.irqCount.val
    rw [cfg_advanceBegin]; exact h
  rw [thenAt_finish_cfg hcfg (r := fireVblank (swapBuffers (advanceBegin s))) rfl (fireFrom_ends 1 4 rfl)
    (fireFrom_stops _ 1 4) (fireFrom_cfg 1 4 _) fun t ht => advanceFrom11_eq s.frameClock ht]
  exact congrArg Run.finish (if_pos hl)

/-! #### The fire operations (`42_dma.md` R187 to R192) -/

theorem dmaSource_toNat (ch : Fin 4) : (BitVec.ofNat 8 (8 + ch.val)).toNat = (dmaSource ch).val := by revert ch; decide

theorem completeTurn_eq (ch : Fin 4) (h : 11 < s.cfg.irqCount.val) :
    completeTurn ch s = (dmaComplete s ch).finish := by
  have hirq : ∀ u : State, u.cfg = s.cfg → exec (.irqRaise (BitVec.ofNat 8 (8 + ch.val))) u =
      (raise u (dmaSource ch)).finish := fun u hu =>
    exec_irqRaise_of_all (hu ▸ h) (dmaSource_toNat ch) (by revert ch; decide)
  have htiming : bitsOf (s.dmaCtl ch) 13 12 = DmaCtl.timing (s.dmaCtl ch) := bitsOf_eq_fieldOf _ 13 12
  have hcond : (DmaCtl.timing (s.dmaCtl ch) = 0 ∨ DmaCtl.repeats (s.dmaCtl ch) = false) ↔
      ¬((s.dmaCtl ch).getLsbD 9 = true ∧ bitsOf (s.dmaCtl ch) 13 12 ≠ 0) := by
    rw [htiming, DmaCtl.repeats, ← Bool.not_eq_true]
    tauto
  by_cases hc : (s.dmaCtl ch).getLsbD 9 = true ∧ bitsOf (s.dmaCtl ch) 13 12 ≠ 0
  · simp only [completeTurn, dmaComplete, if_pos hc, if_neg (hcond.not.mpr (not_not_intro hc)), bitsOf_eq_fieldOf _ 6 5]
    exact onlyIf_finish (hirq _ rfl)
  · simp only [completeTurn, dmaComplete, if_neg hc, if_pos (hcond.mpr hc)]
    exact onlyIf_finish (hirq _ rfl)

theorem withChannel_ofNat (ch : Fin 4) (s : State) (f : Fin 4 → Run) : withChannel (BitVec.ofNat 8 ch.val) s f = f ch := by
  have hch : (BitVec.ofNat 8 ch.val).toNat = ch.val := by revert ch; decide
  unfold withChannel
  rw [dif_pos (hch.trans_lt ch.isLt)]
  exact congrArg f (Fin.ext hch)

theorem armed_iff (s : State) (ch : Fin 4) (timing : Nat) :
    s.armed ch timing = true ↔ (s.dmaCtl ch).getLsbD 15 = true ∧ bitsOf (s.dmaCtl ch) 13 12 = timing := by
  rw [State.armed, Bool.and_eq_true, decide_eq_true_eq, DmaCtl.timing, ← bitsOf_eq_fieldOf _ 13 12]
  rfl

/-- The turn of an armed channel. -/
theorem fireTurn_of_armed {timing : BitVec 2} {ch : Fin 4} (h : 11 < s.cfg.irqCount.val)
    (ha : s.armed ch timing.toNat = true) : fireTurn timing ch s = (dmaTransfer s ch).finish := by
  have hx : exec (.dmaXfer (BitVec.ofNat 8 ch.val)) s = (Run.ofExcept (dmaXfer s ch)).finish :=
    congrArg Run.finish (withChannel_ofNat ch s _)
  have hcfg := (closedStep_cfg s.cfg).dmaXfer rfl ch
  rw [fireTurn, if_pos ((armed_iff s ch _).mp ha), hx, dmaTransfer]
  cases hr : dmaXfer s ch with
  | ok v =>
    rw [hr] at hcfg
    exact completeTurn_eq ch (by rw [show v.cfg = s.cfg from hcfg]; exact h)
  | error e => rfl

theorem fireTurn_eq (timing : BitVec 2) (ch : Fin 4) (h : 11 < s.cfg.irqCount.val) : fireTurn timing ch s =
    (if s.armed ch timing.toNat then dmaTransfer s ch else .done s).finish := by
  by_cases ha : s.armed ch timing.toNat = true
  · rw [if_pos ha]
    exact fireTurn_of_armed h ha
  · rw [if_neg ha, fireTurn, if_neg fun hc => ha ((armed_iff s ch _).mpr hc)]
    rfl

theorem fireLast_eq (timing : BitVec 2) (n : Nat) (h : 11 < s.cfg.irqCount.val) :
    fireLast timing n s = (fireFrom timing n s).finish := by
  induction n generalizing s with
  | zero => rfl
  | succ n ih =>
    exact thenAt_finish_cfg h (fireTurn_eq timing _ h) (Run.Ends.ite (b := .done s) (dmaTransfer_ends _ rfl) rfl)
      (Run.Stops.ite (b := .done s) (dmaTransfer_stops s _) trivial)
      (Run.All.ite (b := .done s) ((closedStep_cfg s.cfg).dmaTransfer rfl _) rfl) fun t ht => ih ht

/-! #### The timers (`43_timers.md` R213, R214) -/

theorem exec_tmrTick (ch : Fin 4) (s : State) : exec (.tmrTick (BitVec.ofNat 8 ch.val)) s = (tmrTick s ch).finish :=
  congrArg Run.finish (withChannel_ofNat ch s _)

theorem timerTurn_eq (ch : Fin 4) (s : State) : timerTurn ch s = (tickSlot s ch).finish := by
  have hprescaler : bitsOf (s.tmrCtl ch) 1 0 = TmrCtl.prescaler (s.tmrCtl ch) := bitsOf_eq_fieldOf _ 1 0
  simp only [timerTurn, tickSlot, State.ownTicks, hprescaler]
  split
  · split
    · exact exec_tmrTick ch _
    · rfl
  · rfl

theorem slotChannel_eq (n : Nat) : Fin.ofNat 4 (3 - n % 4) = slotChannel n :=
  Fin.ext (Nat.mod_eq_of_lt (by omega))

theorem timerLast_eq (n : Nat) (s : State) : timerLast n s = (tickSlots n s).finish := by
  induction n generalizing s with
  | zero => rfl
  | succ n ih =>
    rw [timerLast, slotChannel_eq]
    exact thenAt_finish (timerTurn_eq _ s) (tickSlot_ends _ rfl) (tickSlot_stops s _) fun t _ => ih t

theorem cascadeRest_eq (ch : Fin 4) (s : State) : cascadeRest ch s = (tickCascade s ch).finish := by
  unfold tickCascade cascadeRest
  by_cases hch : ch.val < 3
  · have hnext : Fin.ofNat 4 (ch.val + 1) = ⟨ch.val + 1, by omega⟩ := Fin.ext (Nat.mod_eq_of_lt (by omega))
    rw [dif_pos hch, hnext]
    simp only [hch, true_and, State.cascades, Bool.and_eq_true]
    exact onlyIf_finish (exec_tmrTick ⟨ch.val + 1, by omega⟩ s)
  · rw [dif_neg hch, onlyIf, if_neg fun h => hch h.1]
    rfl

/-! #### The rounds of a wait (`40_scheduler.md` R133) -/

theorem waitTest_eq (s : State) : waitTest s = (haltTest s).finish := by
  cases hw : s.waits with
  | nil =>
    have hspec : waitTest s = .next s := by rw [waitTest, hw]
    have hmodel : haltTest s = .done s := by rw [haltTest, hw]
    rw [hspec, hmodel]
    rfl
  | cons w ws =>
    have hspec : waitTest s =
        if w.seen &&& w.mask = 0 then .next (s.setKont (.haltLoop :: s.kont)) else .next (s.setWaits ws) := by
      rw [waitTest, hw]
    have hmodel : haltTest s = if w.seen &&& w.mask = 0 then .susp s [.haltLoop] else .done (s.setWaits ws) := by
      rw [haltTest, hw]
    rw [hspec, hmodel]
    by_cases hseen : w.seen &&& w.mask = 0
    · rw [if_pos hseen, if_pos hseen]
      rfl
    · rw [if_neg hseen, if_neg hseen]
      rfl

theorem waitPoll_eq (s : State) : waitPoll s = (haltPoll s).finish :=
  thenAt_finish rfl (irqDispatch_ends rfl) (irqDispatch_stops s) fun t _ => waitTest_eq t

theorem waitAdvance_eq (s : State) : waitAdvance s = (haltAdvance s).finish :=
  thenAt_finish rfl (advance_ends rfl) (advance_stops s) fun t _ => waitPoll_eq t

theorem waitRound_eq (s : State) : waitRound s = (haltLoop s).finish := by
  cases he : s.extRaises with
  | nil =>
    have hspec : waitRound s = waitAdvance s := by rw [waitRound, he]
    have hmodel : haltLoop s = haltAdvance s := by rw [haltLoop, he]
    rw [hspec, hmodel]
    exact waitAdvance_eq s
  | cons e rest =>
    cases e with
    | none =>
      have hspec : waitRound s = waitAdvance { s with extRaises := rest } := by rw [waitRound, he]
      have hmodel : haltLoop s = haltAdvance { s with extRaises := rest } := by rw [haltLoop, he]
      rw [hspec, hmodel]
      exact waitAdvance_eq _
    | some i =>
      have hspec : waitRound s =
          thenAt (exec (.irqRaise i)) .haltAdvance waitAdvance { s with extRaises := rest } := by rw [waitRound, he]
      have hmodel : haltLoop s =
          (withSource i { s with extRaises := rest } (fun j => raise { s with extRaises := rest } j)).andThen
            .haltAdvance haltAdvance := by rw [haltLoop, he]
      rw [hspec, hmodel]
      exact thenAt_finish rfl (withSource_ends fun j => raise_ends j rfl)
        (withSource_stops _ _ fun j => raise_stops _ j) fun t _ => waitAdvance_eq t

/-! #### Every position -/

/-- What the operation stopped at a position has still to do is the rest of its pseudocode from there. -/
theorem goesOn_resume (k : Kont) (h : 11 < s.cfg.irqCount.val) : GoesOn k s (resume k s).finish := by
  cases k with
  | handlerReturn => exact trivial
  | handlerProgram ops => exact trivial
  | advance l p =>
    cases p with
    | vblankRaise => exact (advanceFrom11_eq l h).symm
    | hblankPoint => exact (advanceFrom12_eq l h).symm
    | vcountCompare => exact (advanceFrom14_eq l h).symm
    | hblankRaise => exact (advanceFrom15_eq l h).symm
    | timerTicks => exact rfl
  | fire timing n => exact (fireLast_eq timing n h).symm
  | dispatch => exact rfl
  | tickCascade ch => exact (cascadeRest_eq ch s).symm
  | tickLine n => exact (timerLast_eq n s).symm
  | writeHigh off v => exact fun a hr ha => (exec_wr16_of_reg hr ha).symm
  | haltLoop => exact (waitRound_eq s).symm
  | haltAdvance => exact (waitAdvance_eq s).symm
  | haltPoll => exact (waitPoll_eq s).symm
  | haltTest => exact (waitTest_eq s).symm

end Sys2Proof.Machine

end

/-! ### A whole scanline step with nothing delivered (`40_scheduler.md` R131, R136) -/

section

namespace Sys2Proof.Machine

variable {s t : State} {R : Finset (Fin nIrq)}

/-- With the master enable clear an event only sets the source's pending bit. -/
theorem Raised.line_pending (h : Raised R (lineQuiet s) t) (hime : s.ime = false) (i : Fin nIrq) :
    t.pending i = (s.pending i || decide (i ∈ R)) := by
  rw [h.pending, deliverable_lineQuiet, deliverable_of_ime s hime, pending_lineQuiet]
  by_cases hi : i ∈ R <;> simp [hi]

theorem mem_ite_singleton {c : Prop} [Decidable c] {i j : Fin nIrq} :
    i ∈ (if c then {j} else ∅ : Finset (Fin nIrq)) ↔ i = j ∧ c := by
  split
  · next hc => rw [Finset.mem_singleton, and_iff_left hc]
  · next hc => exact iff_of_false (Finset.notMem_empty i) fun h => hc h.2

/-- A source that is no timer's has an event exactly where the step raises it. -/
theorem mem_lineEvents_union (hR : R ⊆ timerSources) {i : Fin nIrq} (hi : i ∉ timerSources) : i ∈ lineEvents s ∪ R ↔
    i = 0 ∧ s.frameClock.toNat = 160 ∨ i = 2 ∧ s.frameClock.toNat = bitsOf (s.x 0x004) 15 8 ∨ i = 1 := by
  have hiR : i ∉ R := fun h => hi (hR h)
  rw [← vcountMatch_eq_bitsOf, Finset.mem_union, or_iff_left hiR, lineEvents, Finset.mem_union, Finset.mem_union,
    mem_ite_singleton, mem_ite_singleton, Finset.mem_singleton, or_assoc]

theorem Raised.line_regs (h : Raised R (lineQuiet s) t) : SameRegsBut [0x004, 0x006, 0x202] s t := fun o ho => by
  simp only [List.mem_cons, List.not_mem_nil, or_false, not_or] at ho
  rw [h.x (o := o) ho.2.2, x_lineQuiet, if_neg (show o ≠ Reg.dispstat from ho.1),
    if_neg (show o ≠ Reg.vcount from ho.2.1)]

theorem Raised.line_bytes (h : Raised R (lineQuiet s) t) : SameBytes s t := by
  rw [h.line_rest]
  exact ⟨fun _ => rfl, fun _ => rfl, fun _ => rfl, fun _ => rfl⟩

theorem Raised.line_active (h : Raised R (lineQuiet s) t) : t.active.toNat =
    if s.frameClock.toNat = 160 then 1 - s.active.toNat else s.active.toNat := by
  have hnot : ∀ a : BitVec 1, (~~~a).toNat = 1 - a.toNat := by decide
  have hactive : t.active = if s.frameClock.toNat = nVisible then ~~~s.active else s.active := by rw [h.line_rest]
  rw [hactive, apply_ite BitVec.toNat, hnot]

/-- On a visible line the rendered row stands in the active buffer. -/
theorem Raised.line_row (h : Raised R (lineQuiet s) t) (hl : s.frameClock.toNat < 160)
    (hrows : (s.fb s.active).length = 160) : (t.fb s.active)[s.frameClock.toNat]? = some t.lb.line := by
  have hframe := (onlyVideo_lineFrame s).rest
  have hactive : (lineFrame s).active = s.active := by rw [hframe]; rfl
  have hfb : (lineFrame s).fb s.active = s.fb s.active := by
    unfold lineFrame
    split <;> rfl
  have hrow := fb_renderLine (s := lineFrame s) (y := s.frameClock.toNat) (by rw [hactive, hfb, hrows]; exact hl)
  rw [hactive] at hrow
  have hbegin : advanceBegin s = renderLine (lineFrame s) s.frameClock.toNat := if_pos hl
  rw [h.line_rest, hbegin]
  exact hrow

/-- From line 160 nothing is rendered. -/
theorem Raised.line_unrendered (h : Raised R (lineQuiet s) t) (hl : 160 ≤ s.frameClock.toNat) :
    t.fb0 = s.fb0 ∧ t.fb1 = s.fb1 ∧ t.refs = s.refs ∧ t.lb = s.lb := by
  have hne : s.frameClock ≠ 0 := fun h0 => by
    rw [h0] at hl
    exact absurd hl (by decide)
  have hbegin : advanceBegin s = lineBegin s := (if_neg (Nat.not_lt.mpr hl)).trans (if_neg hne)
  rw [h.line_rest, hbegin]
  exact ⟨rfl, rfl, rfl, rfl⟩

theorem Raised.line_pending_of_notMem (h : Raised (lineEvents s ∪ R) (lineQuiet s) t) (hR : R ⊆ timerSources)
    (hime : s.ime = false) {i : Fin nIrq} (hi : i ∉ timerSources) : t.pending i = (s.pending i ||
      decide (i = 0 ∧ s.frameClock.toNat = 160 ∨ i = 2 ∧ s.frameClock.toNat = bitsOf (s.x 0x004) 15 8 ∨ i = 1)) := by
  rw [h.line_pending hime, decide_eq_decide.mpr (mem_lineEvents_union hR hi)]

/-- Settles O53: with nothing delivered the step is `lineQuiet` and its events (`exists_lineChain`); where no handler takes an
event the chain of operations is that of the step's parts; and each `thenAt` is the run of its parts one after another. -/
theorem advanceWithoutDeliveries : Obligations.AdvanceWithoutDeliveries := by
  refine ⟨fun s hime _ hu => ?_, fun s u hh _ hc h => ?_, fun s h => ⟨fun _ => ?_, ?_⟩, fun s k ks hf hk hkh h => ?_⟩
  · obtain ⟨u, t, R, hchain, ht, hR, h⟩ := exists_lineChain (.inl hime) hu
    refine ⟨t, congrArg Run.finish (hchain.advance_eq.trans ht), fun j => ?_, ?_, ?_, ?_, fun i hi => ?_, h.line_active,
      h.line_row, h.line_unrendered, h.line_regs, h.line_bytes, ?_, ?_, ?_, ?_,
      fun hc => ⟨u, advanceChain_of_lineChain hc hchain⟩⟩
    · exact (congrArg (·.getLsbD j) (h.x (by decide))).trans (dispstat_lineQuiet s j)
    · rw [h.line_pending_of_notMem hR hime (by decide)]
      simp
    · rw [h.line_pending_of_notMem hR hime (by decide)]
      simp
    · rw [h.line_pending_of_notMem hR hime (by decide)]
      simp
    · have hlow : ∀ i : Fin nIrq, 7 ≤ i.val → i ∉ timerSources ∧ i ≠ 0 ∧ i ≠ 2 ∧ i ≠ 1 := by decide
      obtain ⟨hT, h0, h2, h1⟩ := hlow i hi
      rw [h.line_pending_of_notMem hR hime hT]
      simp [h0, h1, h2]
    · rw [h.line_rest]
    · rw [h.line_rest]
    · exact (h.waits_eq ((ime_lineQuiet s).trans hime)).trans (waits_lineQuiet s)
    · rw [h.line_rest]
  · exact congrArg Run.finish (lineChain_of_advanceChain ⟨rfl, hh⟩ hc h).advance_eq
  · exact ⟨advanceBegin s, advanceBegun_iff.mpr rfl, exec_advance_from12 h, fun hl => ⟨_, rfl, exec_advance_from11 h hl⟩⟩
  · exact ⟨(fireLast_eq 2 4 h).symm, (fireLast_eq 1 4 h).symm, (timerLast_eq _ s).symm⟩
  · rw [step_of_running hf, hostTurn_of_not_isHandler hk hkh, if_neg (by decide), innerStep_of_not_isHandler hk hkh]
    exact goesOn_resume (s := s.setKont ks) k h

end Sys2Proof.Machine

end

/-! ### What an interrupt operation writes (`41_interrupts.md` R152 to R157) -/

section

namespace Sys2Proof.Machine

variable (s : State) (i : Fin nIrq) (b : Bool)

theorem source_lt_sixteen : i.val < 16 := lt_trans i.isLt (by decide)

/-- A bit of a register after one of its bits is written. -/
theorem getLsbD_x_setRegBit (o : Nat) {k : Nat} (hk : k < 16) (j : Nat) :
    ((s.setRegBit o k b).x o).getLsbD j = if j = k then b else (s.x o).getLsbD j := by
  rw [State.x_setRegBit, if_pos rfl, withBit_getLsbD_lt hk]

theorem sameRegsBut_setRegBit (o k : Nat) : SameRegsBut [o] s (s.setRegBit o k b) := fun p hp => by
  rw [State.x_setRegBit, if_neg (by simpa using hp)]

theorem onlyRegs_setRegBit (o k : Nat) : OnlyRegs [o] s (s.setRegBit o k b) :=
  ⟨sameRegsBut_setRegBit s b o k, ⟨fun _ => rfl, fun _ => rfl, fun _ => rfl, fun _ => rfl⟩, rfl⟩

variable {s i b} {t : State}

/-- Where only the registers, the stacks and the suspended operations differ, no memory does. -/
theorem sameBytes_of_rest
    (h : t = { s with regs := t.regs, waits := t.waits, dispatch := t.dispatch, kont := t.kont }) : SameBytes s t := by
  rw [h]
  exact ⟨fun _ => rfl, fun _ => rfl, fun _ => rfl, fun _ => rfl⟩

theorem irqAcknowledge_of_pending (h : s.pending i = true) :
    irqAcknowledge s i = ackEvent (s.setRegBit Reg.irf i.val false) i := if_pos h

theorem irqAcknowledge_of_not_pending (h : s.pending i = false) : irqAcknowledge s i = s :=
  if_neg (Bool.eq_false_iff.mp h)

/-- The dispatch stack with its innermost frame marked (R157). -/
def markInnermost : List DispatchFrame → List DispatchFrame
  | [] => []
  | f :: fs => { f with touched := true } :: fs

@[simp] theorem length_markInnermost (ds : List DispatchFrame) : (markInnermost ds).length = ds.length := by
  cases ds <;> rfl

theorem irqSetMaster_eq (s : State) (b : Bool) :
    irqSetMaster s b = (s.setIme b).setDispatch (markInnermost s.dispatch) := by
  have hdispatch : (s.setIme b).dispatch = s.dispatch := rfl
  rw [irqSetMaster, hdispatch]
  cases h : s.dispatch with
  | nil => exact congrArg (s.setIme b).setDispatch h
  | cons f fs => rfl

@[simp] theorem x_irqSetMaster (s : State) (b : Bool) (o : Nat) : (irqSetMaster s b).x o = (s.setIme b).x o := by
  rw [irqSetMaster_eq, State.x_setDispatch]

/-- Settles O8: a source below `N_IRQ` has its bit of IE written. -/
theorem setenWritesOneEnableBit : Obligations.SetenWritesOneEnableBit := by
  refine fun s i b => ⟨fun h => congrArg Run.finish (withSource_fault s h), fun h => ?_⟩
  have hi : i.toNat < nIrq := lt_of_lt_of_le h (Nat.le_of_lt_succ s.cfg.irqCount.isLt)
  exact ⟨s.setRegBit Reg.ie i.toNat b, congrArg Run.finish (withSource_lt s (j := ⟨i.toNat, hi⟩) h rfl),
    onlyRegs_setRegBit s b Reg.ie i.toNat, getLsbD_x_setRegBit s b Reg.ie (source_lt_sixteen ⟨i.toNat, hi⟩)⟩

/-- Settles O9: a pending source's bit is cleared and its event recorded; a source that is not pending changes nothing. -/
theorem ackClearsAndRecords : Obligations.AckClearsAndRecords := by
  refine ⟨fun s i h => congrArg Run.finish (withSource_fault s h), fun s i hi => ?_⟩
  have hexec : exec (.irqAck (BitVec.ofNat 8 i.val)) s = .next (irqAcknowledge s i) :=
    congrArg Run.finish (withSource_ofNat s hi)
  rw [hexec]
  refine ⟨fun hp => ⟨_, congrArg _ (irqAcknowledge_of_pending hp), ?_, ?_, sameBytes_of_rest rfl, rfl⟩,
    fun hp => congrArg _ (irqAcknowledge_of_not_pending hp)⟩
  · exact getLsbD_x_setRegBit s false Reg.irf (source_lt_sixteen i)
  · exact sameRegsBut_setRegBit s false Reg.irf i.val

/-- A write of the master enable, whatever the value: its bit, the mark of the innermost frame, and nothing else. -/
theorem irqSetMaster_spec (s : State) (b : Bool) : (irqSetMaster s b).ime = b ∧
    (∀ j, 0 < j → ((irqSetMaster s b).x Reg.ime).getLsbD j = (s.x Reg.ime).getLsbD j) ∧
    SameRegsBut [Reg.ime] s (irqSetMaster s b) ∧ SameBytes s (irqSetMaster s b) ∧
    irqSetMaster s b = { s with regs := (irqSetMaster s b).regs, dispatch := markInnermost s.dispatch } := by
  refine ⟨?_, fun j hj => ?_, fun o ho => ?_, sameBytes_of_rest ?_, ?_⟩
  · rw [State.ime, x_irqSetMaster]
    exact s.ime_setIme b
  · rw [x_irqSetMaster]
    exact (getLsbD_x_setRegBit s b Reg.ime (by decide) j).trans (if_neg (by omega))
  · rw [x_irqSetMaster]
    exact sameRegsBut_setRegBit s b Reg.ime 0 o ho
  · rw [irqSetMaster_eq]; rfl
  · rw [irqSetMaster_eq]; rfl

/-- Settles O10: both forms are `irqSetMaster` of their bit, which the hook's mask keeps. -/
theorem setimeWritesAndMarks : Obligations.SetimeWritesAndMarks := by
  intro s b w op hop
  simp only [List.mem_cons, List.not_mem_nil, or_false] at hop
  rcases hop with rfl | rfl
  · exact ⟨irqSetMaster s b, rfl, irqSetMaster_spec s b⟩
  · obtain ⟨hime, hframe⟩ := irqSetMaster_spec s ((w &&& writeMask Reg.ime).getLsbD 0)
    exact ⟨_, rfl, hime.trans (getLsbD_and_of_mask (by decide)), hframe⟩

end Sys2Proof.Machine

end

/-! ### Raising and delivering a source (`41_interrupts.md` R151, R153, R156, `60_exceptions.md` R377) -/

section

namespace Sys2Proof.Machine

variable {s : State} {i : Fin nIrq}

/-- Only the three display sources have a sub-enable (`10_state.md` R14). -/
theorem subEnabled_iff : s.subEnabled i = true ↔ (i.val ≠ 0 ∨ (s.x Reg.dispstat).getLsbD 3 = true) ∧
    (i.val ≠ 1 ∨ (s.x Reg.dispstat).getLsbD 4 = true) ∧ (i.val ≠ 2 ∨ (s.x Reg.dispstat).getLsbD 5 = true) := by
  unfold State.subEnabled
  split
  case h_4 h0 h1 h2 => exact iff_of_true rfl ⟨.inl h0, .inl h1, .inl h2⟩
  all_goals
    next h => simp [h]

theorem deliverable_iff : s.deliverable i = true ↔
    s.ime = true ∧ (s.x Reg.ie).getLsbD i.val = true ∧ s.subEnabled i = true := by
  rw [State.deliverable, Bool.and_eq_true, Bool.and_eq_true, and_assoc]

theorem exec_irqDeliver (hi : i.val < s.cfg.irqCount.val) :
    exec (.irqDeliver (BitVec.ofNat 8 i.val)) s = (deliver s i).finish :=
  congrArg Run.finish (withSource_ofNat s hi)

/-- Settles O11: a raise writes the pending bit (`raise_quiet`), and a deliverable source is delivered from there
(`raise_deliverable`). -/
theorem raiseAlwaysSetsThePendingBit : Obligations.RaiseAlwaysSetsThePendingBit := by
  refine ⟨fun s i h => congrArg Run.finish (withSource_fault s h), fun s i => ⟨?_, fun hi hd => ?_, fun hi hd => ?_⟩⟩
  · rw [deliverable_iff, subEnabled_iff, State.ime]
  · refine ⟨s.setRegBit Reg.irf i.val true, ?_, onlyRegs_setRegBit s true Reg.irf i.val,
      getLsbD_x_setRegBit s true Reg.irf (source_lt_sixteen i)⟩
    exact congrArg Run.finish ((withSource_ofNat s hi).trans (raise_quiet s hd))
  · rw [exec_irqDeliver (s := s.setRegBit Reg.irf i.val true) hi, ← raise_deliverable s hd]
    exact congrArg Run.finish (withSource_ofNat s hi)

/-! #### The entry of a handler -/

variable (s i)

/-- Where a delivery to a handler goes on: inside that handler (R377; log 2). -/
def handlerKont : Kont :=
  match s.cfg.handlerOf i with
  | .program ops => .handlerProgram ops
  | _ => .handlerReturn

theorem getLsbD_irf_deliverEntry (j : Nat) : ((deliverEntry s i).x Reg.irf).getLsbD j =
    if j = i.val then false else (s.x Reg.irf).getLsbD j := by
  rw [(deliverEntry_spec s i).1, if_pos rfl, withBit_getLsbD_lt (source_lt_sixteen i)]

theorem getLsbD_ime_deliverEntry (j : Nat) : ((deliverEntry s i).x Reg.ime).getLsbD j =
    if j = 0 ∧ s.cfg.imeEntryClear = true then false else (s.x Reg.ime).getLsbD j := by
  rw [(deliverEntry_spec s i).1, if_neg (by decide)]
  by_cases hc : s.cfg.imeEntryClear = true
  · simp only [hc, and_self, and_true, if_true, withBit_getLsbD_lt (show 0 < 16 by decide)]
  · rw [if_neg fun h => hc h.2, if_neg fun h => hc h.2]

theorem sameRegsBut_deliverEntry : SameRegsBut [Reg.irf, Reg.ime] s (deliverEntry s i) := fun o ho => by
  simp only [List.mem_cons, List.not_mem_nil, or_false, not_or] at ho
  rw [(deliverEntry_spec s i).1, if_neg ho.1, if_neg fun h => ho.2 h.1]

theorem pending_deliverEntry (j : Fin nIrq) :
    (deliverEntry s i).pending j = if j = i then false else s.pending j := by
  rw [State.pending, getLsbD_irf_deliverEntry]
  simp only [Fin.ext_iff, State.pending]

variable {s i}

/-- Settles O12: without a handler `deliver_absent` is the whole delivery; with one it stops at `deliverEntry`. -/
theorem deliveryEntersTheHandler : Obligations.DeliveryEntersTheHandler := by
  intro s i hi
  rw [exec_irqDeliver hi]
  by_cases h : s.cfg.handlerOf i = .absent
  · obtain ⟨t, ht, hx, hrest⟩ := deliver_absent s h
    refine ⟨t, congrArg Run.finish ht, fun j => ?_, sameBytes_of_rest (by rw [hrest]), fun _ => ⟨fun o ho => ?_, hrest⟩,
      fun hn => absurd h hn⟩
    · rw [hx, if_pos rfl, withBit_getLsbD_lt (source_lt_sixteen i)]
    · rw [hx, if_neg (by simpa using ho)]
  · have hrest := (deliverEntry_spec s i).2
    have hkont : (deliverEntry s i).kont = s.kont := by rw [hrest]
    refine ⟨(deliverEntry s i).setKont (handlerKont s i :: s.kont), ?_, getLsbD_irf_deliverEntry s i,
      sameBytes_of_rest ?_, fun ha => absurd ha h, fun _ => ⟨sameRegsBut_deliverEntry s i, getLsbD_ime_deliverEntry s i, ?_⟩⟩
    · rw [deliver_handler s h, Run.finish, hkont]
      rfl
    · rw [hrest]; rfl
    · rw [hrest]; rfl

end Sys2Proof.Machine

end

/-! ### The poll as an operation (`41_interrupts.md` R158) -/

section

namespace Sys2Proof.Machine

variable {s : State}

/-- Settles O15: the poll has at most as many turns as there are sources, so it completes (`dispatchLoop_absent`). -/
theorem dispatchLeavesNothingDeliverable : Obligations.DispatchLeavesNothingDeliverable := by
  intro s ha
  obtain ⟨t, ht, hpend, hregs, hwaits, hrest⟩ := dispatchLoop_absent nIrq s ha (pollCount_le s)
  exact ⟨t, congrArg Run.finish ht, hpend, hregs, sameBytes_of_rest (by rw [hrest]), hwaits, hrest⟩

/-- Recording the events of `m'` and then that of `i` records those of `m`, which are all of them. -/
theorem recordAck_shift_recordAck {m m' : BitVec 14} {i : Fin nIrq}
    (hm : ∀ j : Fin nIrq, m.getLsbD j.val = (m'.getLsbD j.val || decide (j = i))) (ws : List WaitFrame) :
    recordAck (1#14 <<< i.val) (recordAck m' ws) = recordAck m ws := by
  have hor : m' ||| 1#14 <<< i.val = m := BitVec.eq_of_getLsbD_eq fun j hj => by
    rw [hm ⟨j, hj⟩, BitVec.getLsbD_or, getLsbD_one_shift]
    simp only [Fin.ext_iff]
  rw [recordAck_recordAck, hor]

/-- Settles O14: the poll comes to `i` after the sources before it (`dispatchLoop_first`) and stops at the entry of its
handler, with its own position below the handler's. -/
theorem dispatchTakesTheFirstInOrder : Obligations.DispatchTakesTheFirstInOrder := by
  intro s before after i horder hbefore hpi hdi hh
  obtain ⟨u, n, hloop, hpend, hdel, hregs, hwaits, hrest⟩ :=
    dispatchLoop_first horder nIrq s hbefore hpi hdi (pollCount_le s)
  have hcfg : u.cfg = s.cfg := by rw [hrest]
  have hime : u.ime = true := (deliverable_iff.mp ((hdel i).trans hdi)).1
  have hentry := (deliverEntry_spec u i).2
  rw [hime] at hentry
  have hrun : exec .irqDispatch s =
      .next ((deliverEntry u i).setKont (handlerKont u i :: .dispatch :: (deliverEntry u i).kont)) := by
    show (dispatchLoop nIrq s).finish = _
    rw [hloop, deliver_handler u (hcfg ▸ hh)]
    rfl
  refine ⟨_, hrun, fun j => ?_, fun m hm => ?_, ?_, fun o ho => ?_, sameBytes_of_rest ?_, ?_⟩
  · refine (pending_deliverEntry u i j).trans ?_
    rw [hpend]
    by_cases h : j = i
    · simp [h, hdi]
    · simp [h]
  · obtain ⟨m', hm'⟩ := exists_mask fun j => s.pending j && s.deliverable j && decide (j ∈ before)
    have hrec : (deliverEntry u i).waits = recordAck (1#14 <<< i.val) u.waits := by rw [hentry]
    refine hrec.trans ?_
    rw [hwaits m' hm']
    refine recordAck_shift_recordAck (fun j => ?_) s.waits
    rw [hm, hm']
    by_cases h : j = i
    · simp [h, hpi, hdi]
    · simp [h]
  · refine (getLsbD_ime_deliverEntry u i 0).trans ?_
    rw [hcfg, show (u.x Reg.ime).getLsbD 0 = true from hime]
    cases s.cfg.imeEntryClear <;> rfl
  · exact (sameRegsBut_deliverEntry u i o ho).trans (hregs o fun h => ho (List.mem_append_left [Reg.ime] h))
  · rw [hentry, hrest]; rfl
  · rw [handlerKont, hcfg, hentry, hrest]; rfl

end Sys2Proof.Machine

end

/-! ### Writes that enable a source (`41_interrupts.md` R160, `70_reset_and_hazards.md` R415) -/

section

namespace Sys2Proof.Machine

variable {s t u : State}

/-- Nothing is raised, acknowledged or delivered from `s` to `t`. -/
structure NoneDelivered (s t : State) : Prop where
  kont : t.kont = s.kont
  dispatch : t.dispatch.length = s.dispatch.length
  irf : t.x Reg.irf = s.x Reg.irf
  waits : t.waits = s.waits

namespace NoneDelivered

theorem refl (s : State) : NoneDelivered s s := ⟨rfl, rfl, rfl, rfl⟩

theorem trans (h : NoneDelivered s t) (h' : NoneDelivered t u) : NoneDelivered s u :=
  ⟨h'.kont.trans h.kont, h'.dispatch.trans h.dispatch, h'.irf.trans h.irf, h'.waits.trans h.waits⟩

theorem setReg (s : State) {o : Nat} (v : Half) (ho : o ≠ Reg.irf) : NoneDelivered s (s.setReg o v) :=
  ⟨rfl, rfl, s.x_setReg_other v ho.symm, rfl⟩

theorem irqSetEnabled (s : State) (i : Fin nIrq) (b : Bool) : NoneDelivered s (irqSetEnabled s i b) :=
  setReg s _ (by decide)

/-- The innermost dispatch frame is marked, and none comes or goes. -/
theorem irqSetMaster (s : State) (b : Bool) : NoneDelivered s (irqSetMaster s b) := by
  refine ⟨?_, ?_, (x_irqSetMaster s b _).trans (s.x_setReg_other _ (by decide)), ?_⟩
  · rw [irqSetMaster_eq]; rfl
  · rw [irqSetMaster_eq]
    exact length_markInnermost s.dispatch
  · rw [irqSetMaster_eq]; rfl

theorem writeIe (s : State) (old new : Half) : NoneDelivered s (writeIe s old new) :=
  List.foldlRecOn (motive := NoneDelivered s) allSources _ (refl s) fun t ht i _ => by
    split
    · exact ht.trans (irqSetEnabled t i _)
    · exact ht

/-- A host write of DISPSTAT, IE, IME or plain storage. -/
theorem regWrite16 {o : Nat} (hk : regKind o ∈ [RegKind.dispstat, .ie, .ime, .plain]) (s : State) (old new wr : Half) :
    (regWrite16 s o old new wr).Completes (NoneDelivered s) := by
  have ho : o ≠ Reg.irf := by
    rintro rfl
    revert hk
    decide
  simp only [List.mem_cons, List.not_mem_nil, or_false] at hk
  rcases hk with hk | hk | hk | hk <;> simp only [Machine.regWrite16, storeReg, hk]
  · exact setReg s _ ho
  · exact writeIe s old new
  · exact irqSetMaster s _
  · exact setReg s _ ho

end NoneDelivered

/-- A source operand out of range is a fault. -/
theorem withSource_completes {P : State → Prop} {i : Byte} {f : Fin nIrq → Run} (hf : ∀ c, (f c).Completes P) :
    (withSource i s f).Completes P := by
  unfold withSource
  split
  · exact hf _
  · exact trivial

/-- A misaligned write is a fault. -/
theorem hostWrite_completes {P : State → Prop} {a : Word} {n v off : Nat} {reg : Nat → Run}
    (hr : s.cfg.route a = .reg off) (hreg : (reg off).Completes P) : (hostWrite s a n v reg).Completes P := by
  unfold hostWrite
  split
  · exact trivial
  · rw [hr]; exact hreg

/-- An enabling register's halfword, and the odd offset above it, which is plain storage: an even address reaches that one
where the register file's base is odd. -/
theorem regKind_of_enabling {o : Nat} (ho : o - o % 2 ∈ [Reg.dispstat, Reg.ie, Reg.ime]) :
    regKind o ∈ [RegKind.dispstat, .ie, .ime, .plain] ∧ regKind (o - o % 2) ∈ [RegKind.dispstat, .ie, .ime, .plain] := by
  have hmem : o ∈ [0x004, 0x005, 0x200, 0x201, 0x208, 0x209] := by
    simp only [List.mem_cons, List.not_mem_nil, or_false, Reg.dispstat, Reg.ie, Reg.ime] at ho ⊢
    omega
  clear ho
  revert o
  decide

/-- Settles O16: each of the writes is made of updates that leave IF, the stacks and the suspended operations. -/
theorem enablingDeliversNothing : Obligations.EnablingDeliversNothing := by
  intro s t i b w v a o hr ho op hop h
  obtain ⟨hk16, hk8⟩ := regKind_of_enabling ho
  suffices hnone : NoneDelivered s t from ⟨hnone.kont, hnone.dispatch, hnone.irf, hnone.waits⟩
  simp only [List.mem_cons, List.not_mem_nil, or_false] at hop
  rcases hop with rfl | rfl | rfl | rfl | rfl | rfl
  · exact (Run.Completes.of_finish (withSource_completes (f := fun c => .done (irqSetEnabled s c b))
      fun c => NoneDelivered.irqSetEnabled s c b) h).2
  · exact (Run.Completes.of_finish (r := .done _) (NoneDelivered.irqSetMaster s b) h).2
  · exact (Run.Completes.of_finish (r := .done _) (NoneDelivered.writeIe s _ _) h).2
  · exact (Run.Completes.of_finish (r := .done _) (NoneDelivered.irqSetMaster s _) h).2
  · exact (Run.Completes.of_finish (hostWrite_completes hr (NoneDelivered.regWrite16 hk16 s _ _ _)) h).2
  · exact (Run.Completes.of_finish (hostWrite_completes hr (NoneDelivered.regWrite16 hk8 s _ _ _)) h).2

end Sys2Proof.Machine

end

/-! ### The control word and the operands of a configure (`42_dma.md` R181, R183, R184, R191) -/

section

namespace Sys2Proof.Machine

variable {s : State} {ch : Fin 4} {src dst : Word} {count flags f : Half}

/-! #### Fields of a stored control word -/

/-- A field depends on its own bits. -/
theorem fieldOf_congr_bits {w lo n : Nat} {v v' : BitVec w}
    (h : ∀ j, lo ≤ j → j < lo + n → v'.getLsbD j = v.getLsbD j) :
    fieldOf v' lo n = fieldOf v lo n := by
  refine Nat.eq_of_testBit_eq fun j => ?_
  simp only [fieldOf, Nat.testBit_mod_two_pow, Nat.testBit_div_two_pow, BitVec.testBit_toNat]
  by_cases hj : j < n
  · rw [h (j + lo) (by omega) (by omega)]
  · simp only [hj, decide_false, Bool.false_and]

theorem writeMask_dmaCntH_fin (ch : Fin 4) : writeMask (Reg.dmaCntH ch) = if ch = 3 then 0xFFE0 else 0xF7E0 := by
  revert ch; decide

theorem dmaFlags_eq (ch : Fin 4) (flags : Half) :
    dmaFlags ch flags = (flags &&& (if ch = 3 then 0xFFE0 else 0xF7E0)) ||| 0x8000 := by
  rw [dmaFlags, writeMask_dmaCntH_fin]

/-- A configure masks bits 4:0 and, below channel 3, bit 11, and sets bit 15. -/
theorem getLsbD_dmaFlags (ch : Fin 4) (flags : Half) {j : Nat} (hj : 5 ≤ j ∧ j < 15 ∧ j ≠ 11) :
    (dmaFlags ch flags).getLsbD j = flags.getLsbD j := by
  have hmask : ∀ ch : Fin 4, ∀ j < 15, 5 ≤ j → j ≠ 11 → (writeMask (Reg.dmaCntH ch)).getLsbD j = true := by decide
  have henable : ∀ j < 15, (0x8000 : Half).getLsbD j = false := by decide
  obtain ⟨h5, h15, h11⟩ := hj
  rw [dmaFlags, BitVec.getLsbD_or, henable j h15, Bool.or_false, getLsbD_and_of_mask (hmask ch j h15 h5 h11)]

theorem unit_dmaFlags (ch : Fin 4) (flags : Half) : DmaCtl.unit (dmaFlags ch flags) = DmaCtl.unit flags := by
  rw [DmaCtl.unit, DmaCtl.word32, getLsbD_dmaFlags ch flags (by decide), DmaCtl.unit, DmaCtl.word32]

theorem dstMode_dmaFlags (ch : Fin 4) (flags : Half) : DmaCtl.dstMode (dmaFlags ch flags) = DmaCtl.dstMode flags :=
  fieldOf_congr_bits fun _ _ _ => getLsbD_dmaFlags ch flags (by omega)

theorem srcMode_dmaFlags (ch : Fin 4) (flags : Half) : DmaCtl.srcMode (dmaFlags ch flags) = DmaCtl.srcMode flags :=
  fieldOf_congr_bits fun _ _ _ => getLsbD_dmaFlags ch flags (by omega)

theorem timing_dmaFlags (ch : Fin 4) (flags : Half) : DmaCtl.timing (dmaFlags ch flags) = DmaCtl.timing flags :=
  fieldOf_congr_bits fun _ _ _ => getLsbD_dmaFlags ch flags (by omega)

theorem dstMode_eq_bitsOf (c : Half) : DmaCtl.dstMode c = bitsOf c 6 5 := (bitsOf_eq_fieldOf c 6 5).symm

theorem srcMode_eq_bitsOf (c : Half) : DmaCtl.srcMode c = bitsOf c 8 7 := (bitsOf_eq_fieldOf c 8 7).symm

theorem timing_eq_bitsOf (c : Half) : DmaCtl.timing c = bitsOf c 13 12 := (bitsOf_eq_fieldOf c 13 12).symm

/-! #### The tests -/

theorem exec_dmaConfigure (s : State) (ch : Fin 4) (src dst : Word) (count flags : Half) :
    exec (.dmaConfigure (BitVec.ofNat 8 ch.val) src dst count flags) s = (dmaConfigure s ch src dst count flags).finish :=
  congrArg Run.finish (withChannel_ofNat ch s _)

/-- A channel below 3 would read cartridge ROM (R181). -/
theorem romTest_iff {cfg : Config} {a : Word} : (decide (ch.val ≤ 2) && cfg.inRom a) = true ↔
    ch.val ≤ 2 ∧ cfg.romLo ≤ a.toNat ∧ a.toNat ≤ cfg.romHi := by
  simp only [Config.inRom, Bool.and_eq_true, decide_eq_true_eq]

theorem stepModesValid_dmaFlags_eq_false : stepModesValid ch (dmaFlags ch flags) = false ↔
    bitsOf flags 8 7 = 3 ∨ bitsOf flags 6 5 = 3 ∧ ch ≠ 1 ∧ ch ≠ 2 := by
  rw [← Bool.not_eq_true, stepModesValid, srcMode_dmaFlags, dstMode_dmaFlags, srcMode_eq_bitsOf, dstMode_eq_bitsOf]
  simp only [Bool.and_eq_true, Bool.or_eq_true, decide_eq_true_eq]
  tauto

/-- Settles O17: the four tests are the first four branches of `dmaConfigure`, on fields that the stored word keeps. -/
theorem configureRejectsInOrder : Obligations.ConfigureRejectsInOrder := by
  intro s ch src dst count flags f unit rom op
  have hunit : DmaCtl.unit (dmaFlags ch flags) = unit := unit_dmaFlags ch flags
  have hreject {code : FaultCode} {info : Word}
      (h : dmaConfigure s ch src dst count flags = .fault (raiseFault code info s)) : Faults op s code info :=
    (exec_dmaConfigure s ch src dst count flags).trans (congrArg Run.finish h)
  refine ⟨fun hsrc => hreject ?_, fun hsrc hdst => hreject ?_, fun hsrc hdst hrom => hreject ?_,
    fun hsrc hdst hrom hmode => ?_⟩
  · simp only [dmaConfigure, hunit, if_pos hsrc]
  · simp only [dmaConfigure, hunit, if_neg (not_not_intro hsrc), if_pos hdst]
  · simp only [dmaConfigure, hunit, if_neg (not_not_intro hsrc), if_neg (not_not_intro hdst), if_pos (romTest_iff.mpr hrom)]
  · rw [show f = dmaFlags ch flags from (dmaFlags_eq ch flags).symm]
    refine hreject ?_
    simp only [dmaConfigure, hunit, if_neg (not_not_intro hsrc), if_neg (not_not_intro hdst),
      if_neg (romTest_iff.not.mpr hrom), if_pos (stepModesValid_dmaFlags_eq_false.mpr hmode)]

/-! #### A configure that no test rejects -/

/-- No test of a configure rejects it (R181 lines 4 to 7). -/
structure ConfigureAccepted (cfg : Config) (ch : Fin 4) (src dst : Word) (flags : Half) : Prop where
  srcAligned : src.toNat % DmaCtl.unit flags = 0
  dstAligned : dst.toNat % DmaCtl.unit flags = 0
  rom : ch.val ≤ 2 → src.toNat < cfg.romLo ∨ cfg.romHi < src.toNat
  srcMode : bitsOf flags 8 7 ≠ 3
  dstMode : bitsOf flags 6 5 = 3 → ch = 1 ∨ ch = 2

theorem dmaConfigure_of_accepted (h : ConfigureAccepted s.cfg ch src dst flags) : dmaConfigure s ch src dst count flags =
    if DmaCtl.timing flags = 0 then dmaTransfer (dmaStore s ch src dst count (dmaFlags ch flags)) ch
    else .done (dmaStore s ch src dst count (dmaFlags ch flags)) := by
  have hrom : ¬(decide (ch.val ≤ 2) && s.cfg.inRom src) = true := fun hc => by
    obtain ⟨h2, hlo, hhi⟩ := romTest_iff.mp hc
    have := h.rom h2
    omega
  have hmode : ¬stepModesValid ch (dmaFlags ch flags) = false := fun hc => by
    rcases stepModesValid_dmaFlags_eq_false.mp hc with h3 | ⟨h3, h1, h2⟩
    · exact h.srcMode h3
    · exact (h.dstMode h3).elim h1 h2
  simp only [dmaConfigure, unit_dmaFlags, timing_dmaFlags, if_neg (not_not_intro h.srcAligned),
    if_neg (not_not_intro h.dstAligned), if_neg hrom, if_neg hmode]

/-- A configure faults, or stores its operands and, if it is immediate, runs the transfer. -/
theorem dmaConfigure_cases (s : State) (ch : Fin 4) (src dst : Word) (count flags : Half) :
    (∃ e, dmaConfigure s ch src dst count flags = .fault e) ∨ dmaConfigure s ch src dst count flags =
      if DmaCtl.timing flags = 0 then dmaTransfer (dmaStore s ch src dst count (dmaFlags ch flags)) ch
      else .done (dmaStore s ch src dst count (dmaFlags ch flags)) := by
  rw [← timing_dmaFlags ch flags]
  unfold dmaConfigure
  dsimp only
  split
  · exact .inl ⟨_, rfl⟩
  split
  · exact .inl ⟨_, rfl⟩
  split
  · exact .inl ⟨_, rfl⟩
  split
  · exact .inl ⟨_, rfl⟩
  exact .inr rfl

/-! #### What a configure stores (R181 lines 8 to 14) -/

/-- The count that a channel's register takes. -/
theorem and_writeMask_dmaCntL (ch : Fin 4) (count : Half) :
    count &&& writeMask (Reg.dmaCntL ch) = if ch = 3 then count else count &&& 0x3FFF := by
  have hmask : ∀ ch : Fin 4, writeMask (Reg.dmaCntL ch) = if ch = 3 then 0xFFFF else 0x3FFF := by decide
  rw [hmask]
  split
  · exact BitVec.and_allOnes
  · rfl

theorem x_dmaStore (s : State) (ch : Fin 4) (src dst : Word) (count f : Half) (o : Nat) :
    (dmaStore s ch src dst count f).x o =
      if o = Reg.dmaCntH ch then f
      else if o = Reg.dmaCntL ch then count &&& writeMask (Reg.dmaCntL ch)
      else if o = Reg.dmaDad ch + 2 then (dst >>> 16).setWidth 16
      else if o = Reg.dmaDad ch then dst.setWidth 16
      else if o = Reg.dmaSad ch + 2 then (src >>> 16).setWidth 16
      else if o = Reg.dmaSad ch then src.setWidth 16
      else s.x o := by
  simp only [dmaStore, State.x_setDma, State.x_setReg, State.x_setReg32]

/-- The two halves that a 32-bit register is written as. -/
theorem halves_append (v : Word) : (v >>> 16).setWidth 16 ++ v.setWidth 16 = v := by
  have h := State.x32_setReg32_same State.reset 0 v
  rwa [State.x32, State.x_setReg32, State.x_setReg32, if_pos rfl, if_neg (by decide), if_pos rfl] at h

/-- The offsets of the halves that a configure of a channel writes. -/
def configureOffsets (ch : Fin 4) : List Nat :=
  [Reg.dmaSad ch, Reg.dmaSad ch + 2, Reg.dmaDad ch, Reg.dmaDad ch + 2, Reg.dmaCntL ch, Reg.dmaCntH ch]

section

variable (s ch src dst count f)

theorem x32_dmaSad_dmaStore : (dmaStore s ch src dst count f).x32 (Reg.dmaSad ch) = src := by
  have hne : Reg.dmaSad ch + 2 ∉ [Reg.dmaCntH ch, Reg.dmaCntL ch, Reg.dmaDad ch + 2, Reg.dmaDad ch] ∧
      Reg.dmaSad ch ∉ [Reg.dmaCntH ch, Reg.dmaCntL ch, Reg.dmaDad ch + 2, Reg.dmaDad ch, Reg.dmaSad ch + 2] := by
    revert ch; decide
  simp only [List.mem_cons, List.not_mem_nil, or_false, not_or] at hne
  simp only [State.x32, x_dmaStore, hne, if_true, if_false, halves_append]

theorem x32_dmaDad_dmaStore : (dmaStore s ch src dst count f).x32 (Reg.dmaDad ch) = dst := by
  have hne : Reg.dmaDad ch + 2 ∉ [Reg.dmaCntH ch, Reg.dmaCntL ch] ∧
      Reg.dmaDad ch ∉ [Reg.dmaCntH ch, Reg.dmaCntL ch, Reg.dmaDad ch + 2] := by
    revert ch; decide
  simp only [List.mem_cons, List.not_mem_nil, or_false, not_or] at hne
  simp only [State.x32, x_dmaStore, hne, if_true, if_false, halves_append]

theorem x_dmaCntL_dmaStore : (dmaStore s ch src dst count f).x (Reg.dmaCntL ch) =
    if ch = 3 then count else count &&& 0x3FFF := by
  have hne : Reg.dmaCntL ch ≠ Reg.dmaCntH ch := by revert ch; decide
  rw [x_dmaStore, if_neg hne, if_pos rfl, and_writeMask_dmaCntL]

theorem dma_dmaStore_other {c : Fin 4} (hc : c ≠ ch) : (dmaStore s ch src dst count f).dma.get c = s.dma.get c :=
  Four.get_set_other _ _ hc

theorem sameRegsBut_dmaStore : SameRegsBut (configureOffsets ch) s (dmaStore s ch src dst count f) := fun o ho => by
  simp only [configureOffsets, List.mem_cons, List.not_mem_nil, or_false, not_or] at ho
  simp only [x_dmaStore, ho, if_false]

end

/-- Settles O18: an accepted configure that is not immediate ends with `dmaStore`. -/
theorem configureArmsTheChannel : Obligations.ConfigureArmsTheChannel := by
  intro s ch src dst count flags unit cnt hsrc hdst hrom hsm hdm htiming
  have haccepted : ConfigureAccepted s.cfg ch src dst flags := ⟨hsrc, hdst, hrom, hsm, hdm⟩
  have htiming' : DmaCtl.timing flags ≠ 0 := timing_eq_bitsOf flags ▸ htiming
  have hlatch := dma_dmaStore s ch src dst count (dmaFlags ch flags)
  rw [and_writeMask_dmaCntL] at hlatch
  refine ⟨dmaStore s ch src dst count (dmaFlags ch flags), ?_, x32_dmaSad_dmaStore .., x32_dmaDad_dmaStore ..,
    x_dmaCntL_dmaStore .., ?_, hlatch, fun c hc => dma_dmaStore_other _ _ _ _ _ _ hc,
    sameRegsBut_dmaStore s ch src dst count _, sameBytes_dmaStore .., dmaStore_eq ..⟩
  · rw [exec_dmaConfigure, dmaConfigure_of_accepted haccepted, if_neg htiming']
    rfl
  · rw [x_dmaStore_dmaCntH, dmaFlags_eq]

/-! #### Stopping a channel (R191, R351) -/

theorem getLsbD_x_clearEnable (s : State) (o j : Nat) :
    ((s.setRegBit o 15 false).x o).getLsbD j = (decide (j ≠ 15) && (s.x o).getLsbD j) := by
  rw [getLsbD_x_setRegBit s false o (by decide) j]
  by_cases hj : j = 15 <;> simp [hj]

/-- Settles O25: `DMA_STOP` writes bit 15 of the control word; the hook form stores the word that its mask leaves. -/
theorem stopDisablesTheChannel : Obligations.StopDisablesTheChannel := by
  refine ⟨fun s ch => ⟨s.setRegBit (Reg.dmaCntH ch) 15 false, congrArg Run.finish (withChannel_ofNat ch s _),
    onlyRegs_setRegBit s false _ _, getLsbD_x_clearEnable s _⟩, fun s ch w _ => ⟨_, rfl, ⟨fun o ho => ?_, ?_, rfl⟩, ?_⟩⟩
  · exact State.x_setReg_other s _ fun h => ho (List.mem_singleton.mpr h)
  · exact ⟨fun _ => rfl, fun _ => rfl, fun _ => rfl, fun _ => rfl⟩
  · rw [← writeMask_dmaCntH]
    exact State.x_setReg_same s _ _

end Sys2Proof.Machine

end

/-! ### What one unit reads and leaves (`20_memory.md` R70, R72, R84, `47_register_access.md` R350, R356, R357) -/

section

namespace Sys2Proof.Machine

variable {s t : State} {a : Word} {unit v p o : Nat}

theorem unit_eq_two_or_four (c : Half) : DmaCtl.unit c = 2 ∨ DmaCtl.unit c = 4 := by
  unfold DmaCtl.unit
  split
  · exact .inr rfl
  · exact .inl rfl

/-! #### A read -/

/-- Byte `i` of a little-endian read (R70). -/
theorem readLE_byte (f : Nat → Byte) {n i : Nat} (hi : i < n) (p : Nat) :
    readLE f n p / 256 ^ i % 256 = (f (p + i)).toNat := by
  induction n generalizing i p with
  | zero => omega
  | succ n ih =>
    have hbyte := (f p).isLt
    cases i with
    | zero => rw [readLE, pow_zero, Nat.div_one, Nat.add_mul_mod_self_left, Nat.mod_eq_of_lt hbyte]; rfl
    | succ i =>
      have hdiv : ((f p).toNat + 256 * readLE f n (p + 1)) / 256 = readLE f n (p + 1) := by omega
      rw [readLE, pow_succ', ← Nat.div_div_eq_div_mul, hdiv, ih (by omega), Nat.add_assoc, Nat.add_comm 1 i]

theorem busAddr_aligned (a : Word) (hu : unit = 2 ∨ unit = 4) : (busAddr a unit).toNat % unit = 0 := by
  have ha := a.isLt
  rw [busAddr, BitVec.toNat_ofNat]
  rcases hu with rfl | rfl <;> omega

theorem memRead_reg (h : s.cfg.route (busAddr a unit) = .reg p) : memRead s a unit = some (regReadLE s unit p) := by
  simp only [memRead, h]

theorem memRead_pal (h : s.cfg.route (busAddr a unit) = .pal p) : memRead s a unit = some (readLE s.palByte unit p) := by
  simp only [memRead, h]

theorem memRead_vram (h : s.cfg.route (busAddr a unit) = .vram p) :
    memRead s a unit = some (readLE s.vramByte unit p) := by
  simp only [memRead, h]

theorem memRead_oam (h : s.cfg.route (busAddr a unit) = .oam p) : memRead s a unit = some (readLE s.oamByte unit p) := by
  simp only [memRead, h]

theorem memRead_ext (h : s.cfg.route (busAddr a unit) = .ext) : memRead s a unit =
    if s.extMapped unit (busAddr a unit).toNat then some (readLE s.extByte unit (busAddr a unit).toNat) else none := by
  simp only [memRead, h]

theorem eq_of_memRead_ext (h : s.cfg.route (busAddr a unit) = .ext) (hv : memRead s a unit = some v) :
    readLE s.extByte unit (busAddr a unit).toNat = v := by
  rw [memRead_ext h] at hv
  split at hv
  · exact Option.some.inj hv
  · cases hv

theorem regReadLE_lt (s : State) (hu : unit = 2 ∨ unit = 4) (p : Nat) : regReadLE s unit p < 256 ^ unit := by
  have hlo := (regRead16 s p).isLt
  have hhi := (regRead16 s (p + 2)).isLt
  rcases hu with rfl | rfl <;> simp only [regReadLE] <;> omega

theorem memRead_lt (hu : unit = 2 ∨ unit = 4) (hv : memRead s a unit = some v) : v < 256 ^ unit := by
  cases hr : s.cfg.route (busAddr a unit) with
  | reg p => exact Option.some.inj ((memRead_reg hr).symm.trans hv) ▸ regReadLE_lt s hu p
  | pal p => exact Option.some.inj ((memRead_pal hr).symm.trans hv) ▸ readLE_lt _ _ _
  | vram p => exact Option.some.inj ((memRead_vram hr).symm.trans hv) ▸ readLE_lt _ _ _
  | oam p => exact Option.some.inj ((memRead_oam hr).symm.trans hv) ▸ readLE_lt _ _ _
  | ext => exact eq_of_memRead_ext hr hv ▸ readLE_lt _ _ _

/-- An aligned host read of the register file. -/
theorem hostRead_of_reg (hr : s.cfg.route a = .reg p) (ha : a.toNat % unit = 0) :
    hostRead s a unit = .ok (regReadLE s unit p) := by
  rw [hostRead, if_neg (not_not_intro ha), hr]

theorem unitRead_of_memRead (hu : unit = 2 ∨ unit = 4) (hv : memRead s a unit = some v) : UnitRead s unit a v := by
  have halign := busAddr_aligned a hu
  refine ⟨memRead_lt hu hv, fun p hr i hi => ?_, fun p hr i hi => ?_, fun p hr i hi => ?_, fun hr i hi => ?_,
    fun p hr h2 => ?_, fun p hr h4 => ?_⟩
  · rw [← Option.some.inj ((memRead_pal hr).symm.trans hv), readLE_byte _ hi]
  · rw [← Option.some.inj ((memRead_vram hr).symm.trans hv), readLE_byte _ hi]
  · rw [← Option.some.inj ((memRead_oam hr).symm.trans hv), readLE_byte _ hi]
  · rw [← eq_of_memRead_ext hr hv, readLE_byte _ hi]
  · subst h2
    rw [← Option.some.inj ((memRead_reg hr).symm.trans hv)]
    show (readResult s _ 2 _).finish = _
    rw [readResult, hostRead_of_reg hr halign]
    rfl
  · subst h4
    rw [← Option.some.inj ((memRead_reg hr).symm.trans hv)]
    show (readResult s _ 4 _).finish = _
    rw [readResult, hostRead_of_reg hr halign]
    rfl

/-! #### A halfword stored into the register file -/

theorem regKind_eq_bgRef_iff {r : BgRef} : regKind o = .bgRef r ↔ o = Reg.bgref r ∨ o = Reg.bgref r + 2 := by
  refine ⟨regKind_bgRef, ?_⟩
  rintro (rfl | rfl) <;> cases r <;> rfl

theorem regKind_eq_tmrCntL_iff {ch : Fin 4} : regKind o = .tmrCntL ch ↔ o = Reg.tmrCntL ch :=
  ⟨regKind_tmrCntL, fun h => h ▸ regKind_of_tmrCntL ch⟩

/-- Outside VCOUNT, DISPSTAT and the reload values a DMA halfword is masked and stored (R84, R358). -/
theorem halfAfterDma_masked {old new : Half} (hv : regKind o ≠ .vcount) (hd : regKind o ≠ .dispstat)
    (ht : ∀ ch, regKind o ≠ .tmrCntL ch) : halfAfterDma o old new = new &&& writeMask o := by
  have hkept : o ∉ [0x006, 0x100, 0x104, 0x108, 0x10C] := by
    simp only [List.mem_cons, List.not_mem_nil, or_false]
    rintro (rfl | rfl | rfl | rfl | rfl)
    · exact hv rfl
    · exact ht 0 rfl
    · exact ht 1 rfl
    · exact ht 2 rfl
    · exact ht 3 rfl
  have hne : o ≠ 0x004 := fun h => hd (h ▸ rfl)
  rw [halfAfterDma, if_neg hkept, if_neg hne]

theorem halfAfterDma_tmrCntL (ch : Fin 4) (old new : Half) : halfAfterDma (Reg.tmrCntL ch) old new = old := by
  have hmem : Reg.tmrCntL ch ∈ [0x006, 0x100, 0x104, 0x108, 0x10C] := by revert ch; decide
  rw [halfAfterDma, if_pos hmem]

@[simp] theorem x_reloadRef (s : State) (r : BgRef) (p : Nat) : (reloadRef s r).x p = s.x p := by cases r <;> rfl

/-- What a DMA halfword `w` for the register at `o` leaves in the stored halfwords. -/
theorem x_storeReg_masked (s : State) (o : Nat) (w : Half) (p : Nat) : (storeReg s o (w &&& writeMask o)).x p =
    if p = o then halfAfterDma o (s.x o) w else s.x p := by
  have hkeep {v : Half} (h : v = s.x o) : s.x p = if p = o then v else s.x p := by
    split
    · next hp => rw [hp, h]
    · rfl
  unfold storeReg
  split
  case h_1 hk =>
    obtain rfl := regKind_vcount hk
    exact hkeep rfl
  case h_2 hk =>
    obtain rfl := regKind_dispstat hk
    rw [State.x_setReg, BitVec.and_assoc]
    rfl
  case h_3 r hk =>
    rw [x_reloadRef, State.x_setReg, halfAfterDma_masked (by simp [hk]) (by simp [hk]) (by simp [hk])]
  case h_4 ch hk =>
    obtain rfl := regKind_tmrCntL hk
    exact hkeep (halfAfterDma_tmrCntL ch _ w)
  case h_5 hv hd _ ht =>
    rw [State.x_setReg, halfAfterDma_masked hv hd ht]

/-- A DMA halfword for TMchCNT_L is its reload value. -/
theorem tmr_storeReg_masked (s : State) (o : Nat) (w : Half) (ch : Fin 4) :
    (storeReg s o (w &&& writeMask o)).tmr.get ch =
      { s.tmr.get ch with reload := if Reg.tmrCntL ch = o then w else (s.tmr.get ch).reload } := by
  have hother (h : ∀ c, regKind o ≠ .tmrCntL c) :
      s.tmr.get ch = { s.tmr.get ch with reload := if Reg.tmrCntL ch = o then w else (s.tmr.get ch).reload } := by
    rw [if_neg fun he => h ch (regKind_eq_tmrCntL_iff.mpr he.symm)]
  unfold storeReg
  split
  case h_1 hk => exact hother (by simp [hk])
  case h_2 hk => exact hother (by simp [hk])
  case h_3 r hk =>
    refine Eq.trans ?_ (hother (by simp [hk]))
    cases r <;> rfl
  case h_4 c hk =>
    obtain rfl := regKind_tmrCntL hk
    have hmask : writeMask (Reg.tmrCntL c) = BitVec.allOnes 16 := by
      fin_cases c <;> rfl
    rw [hmask, BitVec.and_allOnes, State.setTmr_tmr, Four.get_set]
    by_cases h : ch = c
    · subst h
      simp only [if_true]
    · have hne : Reg.tmrCntL ch ≠ Reg.tmrCntL c := fun he => h (Fin.ext (by simp only [Reg.tmrCntL] at he; omega))
      simp only [if_neg h, if_neg hne]
  case h_5 _ _ _ ht => exact hother ht

/-- The latch of a reference-point register (`10_state.md` R53). -/
def RefLatches.latch (l : RefLatches) : BgRef → BitVec 28
  | .bg2x => l.bgx2
  | .bg2y => l.bgy2
  | .bg3x => l.bgx3
  | .bg3y => l.bgy3

theorem RefLatches.eq_mk {l : RefLatches} {a b c d : BitVec 28} (ha : l.latch .bg2x = a) (hb : l.latch .bg2y = b)
    (hc : l.latch .bg3x = c) (hd : l.latch .bg3y = d) : l = ⟨a, b, c, d⟩ := by
  subst ha hb hc hd; rfl

theorem latch_reloadRef (s : State) (r r' : BgRef) : (reloadRef s r').refs.latch r =
    if r = r' then (s.x32 (Reg.bgref r)).setWidth 28 else s.refs.latch r := by
  cases r <;> cases r' <;> rfl

/-- A halfword stored into a reference-point register reloads its latch (R350). -/
theorem latch_storeReg (s : State) (o : Nat) (w : Half) (r : BgRef) : (storeReg s o w).refs.latch r =
    if Reg.bgref r = o ∨ Reg.bgref r + 2 = o then ((storeReg s o w).x32 (Reg.bgref r)).setWidth 28
    else s.refs.latch r := by
  have hiff : (Reg.bgref r = o ∨ Reg.bgref r + 2 = o) ↔ regKind o = .bgRef r := by
    rw [regKind_eq_bgRef_iff, eq_comm, @eq_comm _ o (Reg.bgref r + 2)]
  simp only [hiff]
  unfold storeReg
  split
  case h_1 hk => rw [hk, if_neg (by simp)]
  case h_2 hk => rw [hk, if_neg (by simp)]; rfl
  case h_3 r' hk =>
    rw [latch_reloadRef, hk]
    simp only [RegKind.bgRef.injEq, State.x32, x_reloadRef, eq_comm]
    rfl
  case h_4 ch hk => rw [hk, if_neg (by simp)]; rfl
  case h_5 _ _ hr _ => rw [if_neg (hr r)]; rfl

/-! #### A unit stored into the register file -/

theorem dmaRegWrite_two (s : State) (p v : Nat) :
    dmaRegWrite s p 2 v = storeReg s p (BitVec.ofNat 16 v &&& writeMask p) := rfl

theorem dmaRegWrite_four (s : State) (p v : Nat) : dmaRegWrite s p 4 v =
    storeReg (storeReg s p (BitVec.ofNat 16 v &&& writeMask p)) (p + 2)
      (BitVec.ofNat 16 (v / 65536) &&& writeMask (p + 2)) := rfl

/-- The halfword of a unit at `p` for the register half at `o` (R84, R357). -/
theorem unitHalf_two (p v o : Nat) : unitHalf 2 p v o = if o = p then some (BitVec.ofNat 16 v) else none := by
  simp [unitHalf]

theorem unitHalf_four (p v o : Nat) : unitHalf 4 p v o = if o = p then some (BitVec.ofNat 16 v)
    else if o = p + 2 then some (BitVec.ofNat 16 (v / 65536)) else none := by
  simp [unitHalf]

theorem isSome_unitHalf_iff : (unitHalf unit p v o).isSome = true ↔ o = p ∨ unit = 4 ∧ o = p + 2 := by
  unfold unitHalf
  split
  · next h => simp [h]
  · next h => split <;> simp [*]

theorem x_dmaRegWrite (s : State) (hu : unit = 2 ∨ unit = 4) (p v o : Nat) : (dmaRegWrite s p unit v).x o =
    ((unitHalf unit p v o).map (halfAfterDma o (s.x o))).getD (s.x o) := by
  rcases hu with rfl | rfl
  · rw [dmaRegWrite_two, x_storeReg_masked, unitHalf_two]
    split
    · next h => rw [h]; rfl
    · rfl
  · rw [dmaRegWrite_four, x_storeReg_masked, x_storeReg_masked, x_storeReg_masked, unitHalf_four,
      if_neg (show p + 2 ≠ p by omega)]
    by_cases h2 : o = p + 2
    · rw [if_pos h2, if_neg (by omega), if_pos h2, h2]; rfl
    · rw [if_neg h2, if_neg h2]
      split
      · next h => rw [h]; rfl
      · rfl

theorem tmr_dmaRegWrite (s : State) (hu : unit = 2 ∨ unit = 4) (p v : Nat) (ch : Fin 4) :
    (dmaRegWrite s p unit v).tmr.get ch = { s.tmr.get ch with
      reload := (unitHalf unit p v (Reg.tmrCntL ch)).getD (s.tmr.get ch).reload } := by
  rcases hu with rfl | rfl
  · rw [dmaRegWrite_two, tmr_storeReg_masked, unitHalf_two]
    split <;> rfl
  · rw [dmaRegWrite_four, tmr_storeReg_masked, tmr_storeReg_masked, unitHalf_four]
    by_cases h2 : Reg.tmrCntL ch = p + 2
    · have hp : Reg.tmrCntL ch ≠ p := by omega
      simp only [if_pos h2, if_neg hp, Option.getD_some]
    · simp only [if_neg h2]
      split <;> rfl

theorem latch_dmaRegWrite (s : State) (hu : unit = 2 ∨ unit = 4) (p v : Nat) (r : BgRef) :
    (dmaRegWrite s p unit v).refs.latch r =
      if (unitHalf unit p v (Reg.bgref r)).isSome = true ∨ (unitHalf unit p v (Reg.bgref r + 2)).isSome = true then
        ((dmaRegWrite s p unit v).x32 (Reg.bgref r)).setWidth 28
      else s.refs.latch r := by
  simp only [isSome_unitHalf_iff]
  rcases hu with rfl | rfl
  · rw [dmaRegWrite_two, latch_storeReg]
    simp only [show ¬(2 : Nat) = 4 by decide, false_and, or_false]
  · rw [dmaRegWrite_four, latch_storeReg, latch_storeReg]
    by_cases h2 : Reg.bgref r = p + 2 ∨ Reg.bgref r + 2 = p + 2
    · rw [if_pos h2, if_pos (by tauto)]
    · have hx : ∀ o, o = Reg.bgref r ∨ o = Reg.bgref r + 2 → ∀ (s' : State) (w : Half),
          (storeReg s' (p + 2) (w &&& writeMask (p + 2))).x o = s'.x o := fun o ho s' w => by
        rw [x_storeReg_masked, if_neg fun h => h2 (by rcases ho with rfl | rfl <;> tauto)]
      rw [if_neg h2, State.x32, State.x32, hx _ (.inl rfl), hx _ (.inr rfl)]
      exact if_congr (by tauto) rfl rfl

/-- A register write reaches no memory and no state but the registers, the reference latches and the timers. -/
theorem storeReg_rest (s : State) (o : Nat) (w : Half) : storeReg s o w =
    { s with regs := (storeReg s o w).regs, refs := (storeReg s o w).refs, tmr := (storeReg s o w).tmr } := by
  unfold storeReg
  split
  case h_3 r _ => cases r <;> rfl
  all_goals rfl

theorem sameBytes_storeReg (s : State) (o : Nat) (w : Half) : SameBytes s (storeReg s o w) := by
  rw [storeReg_rest]
  exact ⟨fun _ => rfl, fun _ => rfl, fun _ => rfl, fun _ => rfl⟩

theorem SameBytes.trans {u : State} (h : SameBytes s t) (h' : SameBytes t u) : SameBytes s u :=
  ⟨fun i => (h'.pal i).trans (h.pal i), fun i => (h'.vram i).trans (h.vram i), fun i => (h'.oam i).trans (h.oam i),
    fun i => (h'.ext i).trans (h.ext i)⟩

theorem sameBytes_dmaRegWrite (s : State) (p unit v : Nat) : SameBytes s (dmaRegWrite s p unit v) := by
  unfold dmaRegWrite
  dsimp only
  split
  · exact (sameBytes_storeReg s _ _).trans (sameBytes_storeReg _ _ _)
  · exact sameBytes_storeReg s _ _

/-! #### A write -/

theorem get_writeLE (d : Nat → Byte) (n : Nat) (m : Memory) (p v i : Nat) :
    Store.get d (writeLE d n m p v) i = storedByte (Store.get d m) p n v i := by
  unfold storedByte
  split
  · next h => rw [← get_writeLE_inside d n m p v (i - p) (by omega), Nat.add_sub_of_le h.1]
  · exact get_writeLE_outside d n m p v i (by omega)

theorem State.palByte_writePal (s : State) (n p v i : Nat) :
    (s.writePal n p v).palByte i = storedByte s.palByte p n v i := get_writeLE s.palInit n s.pal p v i

theorem State.vramByte_writeVram (s : State) (n p v i : Nat) :
    (s.writeVram n p v).vramByte i = storedByte s.vramByte p n v i := get_writeLE s.vramInit n s.vram p v i

theorem State.oamByte_writeOam (s : State) (n p v i : Nat) :
    (s.writeOam n p v).oamByte i = storedByte s.oamByte p n v i := get_writeLE s.oamInit n s.oam p v i

theorem State.extByte_writeExt (s : State) (n p v i : Nat) :
    (s.writeExt n p v).extByte i = storedByte s.extByte p n v i := get_writeLE s.extInit n s.ext p v i

/-- What a DMA write that happens leaves, by the window of its address (R72). -/
def windowWrite (s : State) (a : Word) (unit v : Nat) : State :=
  match s.cfg.route (busAddr a unit) with
  | .reg p => dmaRegWrite s p unit v
  | .pal p => s.writePal unit p v
  | .vram p => s.writeVram unit p v
  | .oam p => s.writeOam unit p v
  | .ext => s.writeExt unit (busAddr a unit).toNat v

theorem dmaWrite_eq_ok (h : dmaWrite s a unit v = .ok t) : t = windowWrite s a unit v := by
  cases hr : s.cfg.route (busAddr a unit) with
  | reg p =>
    simp only [dmaWrite, hr] at h
    split at h
    · cases h
    · cases h; simp only [windowWrite, hr]
  | ext =>
    simp only [dmaWrite, hr] at h
    split at h
    · cases h; simp only [windowWrite, hr]
    · cases h
  | pal p | vram p | oam p =>
    simp only [dmaWrite, hr] at h
    cases h
    simp only [windowWrite, hr]

theorem unitWritten_reg (hr : s.cfg.route (busAddr a unit) = .reg p) (hu : unit = 2 ∨ unit = 4) :
    UnitWritten s unit a v (dmaRegWrite s p unit v) := by
  obtain ⟨hpal, hvram, hoam, hext⟩ := sameBytes_dmaRegWrite s p unit v
  have hwindow {q : Nat} (hq : s.cfg.route (busAddr a unit) = .reg q) : q = p :=
    Window.reg.inj (hq.symm.trans hr)
  constructor
  case reg =>
    intro q hq o
    rw [hwindow hq, x_dmaRegWrite s hu]
    cases unitHalf unit p v o <;> rfl
  case reload =>
    intro q hq ch
    rw [hwindow hq]
    exact tmr_dmaRegWrite s hu p v ch
  case refs =>
    intro q hq
    rw [hwindow hq]
    have hlatch := latch_dmaRegWrite s hu p v
    exact RefLatches.eq_mk (hlatch .bg2x) (hlatch .bg2y) (hlatch .bg3x) (hlatch .bg3y)
  case regElse => exact fun h => absurd hr (h p)
  case pal | vram | oam | ext => simp [hr]
  case palElse => exact fun _ => hpal
  case vramElse => exact fun _ => hvram
  case oamElse => exact fun _ => hoam
  case extElse => exact fun _ => hext

theorem unitWritten_windowWrite (s : State) (a : Word) (v : Nat) (hu : unit = 2 ∨ unit = 4) :
    UnitWritten s unit a v (windowWrite s a unit v) := by
  cases hr : s.cfg.route (busAddr a unit) with
  | reg p => simp only [windowWrite, hr]; exact unitWritten_reg hr hu
  | pal p => simp only [windowWrite, hr]; constructor <;> simp [hr, State.palByte_writePal]
  | vram p => simp only [windowWrite, hr]; constructor <;> simp [hr, State.vramByte_writeVram]
  | oam p => simp only [windowWrite, hr]; constructor <;> simp [hr, State.oamByte_writeOam]
  | ext => simp only [windowWrite, hr]; constructor <;> simp [hr, State.extByte_writeExt]

end Sys2Proof.Machine

end

/-! ### A transfer, unit by unit (`42_dma.md` R185, R186) -/

section

namespace Sys2Proof.Machine

variable {s t u : State} {ch : Fin 4} {c : Half} {l : DmaLatch} {a : Word} {unit v k m n : Nat}

theorem exec_dmaXfer (s : State) (ch : Fin 4) :
    exec (.dmaXfer (BitVec.ofNat 8 ch.val)) s = (Run.ofExcept (dmaXfer s ch)).finish :=
  congrArg Run.finish (withChannel_ofNat ch s _)

theorem exec_dmaXfer_eq_next_iff : exec (.dmaXfer (BitVec.ofNat 8 ch.val)) s = .next t ↔ dmaXfer s ch = .ok t := by
  rw [exec_dmaXfer]
  cases dmaXfer s ch with
  | ok u => exact ⟨fun h => congrArg _ (Host.Outcome.next.inj h), fun h => congrArg _ (Except.ok.inj h)⟩
  | error e => exact ⟨fun h => (nomatch h), fun h => (nomatch h)⟩

theorem exec_dmaXfer_eq_fault_iff {e : Fault} :
    exec (.dmaXfer (BitVec.ofNat 8 ch.val)) s = .fault e ↔ dmaXfer s ch = .error e := by
  rw [exec_dmaXfer]
  cases dmaXfer s ch with
  | ok u => exact ⟨fun h => (nomatch h), fun h => (nomatch h)⟩
  | error e => exact ⟨fun h => congrArg _ (Host.Outcome.fault.inj h), fun h => congrArg _ (Except.error.inj h)⟩

/-! #### One unit -/

/-- A write happens where it may, and is the one of its window. -/
theorem dmaWrite_eq_ok_iff : dmaWrite s a unit v = .ok t ↔ writeAnswered s.cfg unit a ∧ t = windowWrite s a unit v := by
  refine ⟨fun h => ⟨⟨fun p hr => ?_, fun hr i hi => ?_⟩, dmaWrite_eq_ok h⟩, fun ⟨h, ht⟩ => ?_⟩
  · simp only [dmaWrite, hr] at h
    split at h
    · cases h
    · next hf =>
      simpa only [Bool.or_eq_true, Bool.and_eq_true, decide_eq_true_eq, not_or, Bool.not_eq_true, not_and] using hf
  · simp only [dmaWrite, hr] at h
    split at h
    · next hf =>
      have hbyte := List.all_eq_true.mp hf i (List.mem_range.mpr hi)
      rwa [Option.any_eq_true] at hbyte
    · cases h
  · obtain ⟨w, hw, _⟩ := dmaWrite_answered s v h
    rw [hw, ht, dmaWrite_eq_ok hw]

/-- A unit that moves is a read, a write and a step of both addresses. -/
theorem dmaUnit_eq_ok_iff : dmaUnit ch c s = .ok t ↔
    ¬(decide (ch.val ≤ 2) && s.cfg.inRom (s.dma.get ch).srcCur) = true ∧
    ∃ v w, memRead s (s.dma.get ch).srcCur (DmaCtl.unit c) = some v ∧
      dmaWrite s (s.dma.get ch).dstCur (DmaCtl.unit c) v = .ok w ∧ t = w.setDma ch (latchAfter c (s.dma.get ch) 1) := by
  refine ⟨fun h => ?_, fun ⟨hrom, v, w, hv, hw, ht⟩ => ?_⟩
  · simp only [dmaUnit] at h
    split at h
    · cases h
    next hrom =>
    split at h
    · cases h
    next v hv =>
    split at h
    · cases h
    next w hw =>
    cases h
    exact ⟨hrom, v, w, hv, hw, rfl⟩
  · simp only [dmaUnit, if_neg hrom, hv, hw, ht]
    rfl

theorem UnitWritten.setDma (h : UnitWritten s unit a v t) (l : DmaLatch) : UnitWritten s unit a v (t.setDma ch l) :=
  ⟨h.pal, h.palElse, h.vram, h.vramElse, h.oam, h.oamElse, h.ext, h.extElse, h.reg, h.reload, h.refs, h.regElse⟩

/-- What a unit that moves reads and leaves. -/
theorem unitWritten_of_dmaUnit (h : dmaUnit ch c s = .ok t) : ∃ v, UnitRead s (DmaCtl.unit c) (s.dma.get ch).srcCur v ∧
    UnitWritten s (DmaCtl.unit c) (s.dma.get ch).dstCur v t ∧ t.dma.get ch = latchAfter c (s.dma.get ch) 1 := by
  obtain ⟨_, v, w, hv, hw, rfl⟩ := dmaUnit_eq_ok_iff.mp h
  have hu := unit_eq_two_or_four c
  refine ⟨v, unitRead_of_memRead hu hv, ?_, by simp⟩
  rw [dmaWrite_eq_ok hw]
  exact (unitWritten_windowWrite s _ v hu).setDma _

theorem OnlyTransferred.cfg (h : OnlyTransferred ch s t) : t.cfg = s.cfg := by
  obtain ⟨_, _, _, hrest⟩ := h
  rw [hrest]

theorem OnlyTransferred.x_forbidden (h : OnlyTransferred ch s t) {o : Nat} (ho : dmaForbidden o = true) : t.x o = s.x o := by
  obtain ⟨_, _, hx, _⟩ := h
  exact hx o ho

theorem OnlyTransferred.dmaCtl (h : OnlyTransferred ch s t) (d : Fin 4) : t.dmaCtl d = s.dmaCtl d :=
  h.x_forbidden (by simp only [dmaForbidden, regKind_of_dmaCntH])

theorem OnlyTransferred.ime (h : OnlyTransferred ch s t) : t.ime = s.ime := congrArg (·.getLsbD 0) (h.x_forbidden rfl)

theorem OnlyTransferred.pending (h : OnlyTransferred ch s t) (i : Fin nIrq) : t.pending i = s.pending i :=
  congrArg (·.getLsbD i.val) (h.x_forbidden rfl)

theorem unitDst_latchAfter (c : Half) (l : DmaLatch) (k : Nat) : unitDst c (latchAfter c l 1) k = unitDst c l (k + 1) :=
  congrArg (busAddr · _) (walk_succ _ _ _ k)

/-! #### What a transfer leaves alone -/

theorem unitHalf_eq_none {p o : Nat} (h : o ≠ p ∧ (unit = 4 → o ≠ p + 2)) : unitHalf unit p v o = none := by
  have h4 : ¬(unit = 4 ∧ o = p + 2) := fun ⟨hu, ho⟩ => h.2 hu ho
  rw [unitHalf, if_neg h.1, if_neg h4]

theorem storedByte_outside {old : Nat → Byte} {p i : Nat} (h : i < p ∨ p + n ≤ i) : storedByte old p n v i = old i :=
  if_neg (by omega)

/-- An address lies in a window of one kind, at some offset, or it does not. -/
theorem route_cases {cfg : Config} {win : Nat → Window} {P : Prop} (hin : ∀ p, cfg.route a = win p → P)
    (hout : (∀ p, cfg.route a ≠ win p) → P) : P := by
  by_cases h : ∃ p, cfg.route a = win p
  · exact h.elim hin
  · exact hout (not_exists.mp h)

/-- A unit writes nothing outside its destination. -/
theorem UnitWritten.onlyUnits (h : UnitWritten s (DmaCtl.unit c) l.dstCur v t) : OnlyUnits c l 1 s t := by
  have hhalf {o p : Nat} (ho : HalfUncovered s.cfg c l 1 o)
      (hp : s.cfg.route (busAddr l.dstCur (DmaCtl.unit c)) = .reg p) : unitHalf (DmaCtl.unit c) p v o = none :=
    unitHalf_eq_none (ho 0 one_pos p hp)
  have hlatch {o : Nat} {f : RefLatches → BitVec 28} (hlo : HalfUncovered s.cfg c l 1 o)
      (hhi : HalfUncovered s.cfg c l 1 (o + 2)) (hf : ∀ p, s.cfg.route (busAddr l.dstCur (DmaCtl.unit c)) = .reg p →
        f t.refs = if (unitHalf (DmaCtl.unit c) p v o).isSome ∨ (unitHalf (DmaCtl.unit c) p v (o + 2)).isSome then
          (t.x32 o).setWidth 28 else f s.refs) : f t.refs = f s.refs := by
    refine route_cases (fun p hp => ?_) fun hn => by rw [(h.regElse hn).2.2]
    rw [hf p hp, hhalf hlo hp, hhalf hhi hp]
    rfl
  constructor
  case pal =>
    exact fun i hi => route_cases (fun p hp => (h.pal p hp i).trans (storedByte_outside (hi 0 one_pos p hp)))
      fun hn => h.palElse hn i
  case vram =>
    exact fun i hi => route_cases (fun p hp => (h.vram p hp i).trans (storedByte_outside (hi 0 one_pos p hp)))
      fun hn => h.vramElse hn i
  case oam =>
    exact fun i hi => route_cases (fun p hp => (h.oam p hp i).trans (storedByte_outside (hi 0 one_pos p hp)))
      fun hn => h.oamElse hn i
  case ext =>
    exact fun i hi => route_cases (win := fun _ => .ext)
      (fun _ hr => (h.ext hr i).trans (storedByte_outside (hi 0 one_pos hr))) fun hn => h.extElse (hn 0) i
  case reg =>
    exact fun o ho => route_cases (fun p hp => by rw [h.reg p hp, hhalf ho hp]) fun hn => (h.regElse hn).1 o
  case reload =>
    exact fun d hd => route_cases (fun p hp => by rw [h.reload p hp, hhalf hd hp]; rfl) fun hn => by
      rw [(h.regElse hn).2.1]
  case bgx2 => exact fun hlo hhi => hlatch (f := RefLatches.bgx2) hlo hhi fun p hp => by rw [h.refs p hp]
  case bgy2 => exact fun hlo hhi => hlatch (f := RefLatches.bgy2) hlo hhi fun p hp => by rw [h.refs p hp]
  case bgx3 => exact fun hlo hhi => hlatch (f := RefLatches.bgx3) hlo hhi fun p hp => by rw [h.refs p hp]
  case bgy3 => exact fun hlo hhi => hlatch (f := RefLatches.bgy3) hlo hhi fun p hp => by rw [h.refs p hp]

theorem OnlyUnits.refl (c : Half) (l : DmaLatch) (s : State) : OnlyUnits c l 0 s s :=
  ⟨fun _ _ => rfl, fun _ _ => rfl, fun _ _ => rfl, fun _ _ => rfl, fun _ _ => rfl, fun _ _ => rfl, fun _ _ => rfl,
    fun _ _ => rfl, fun _ _ => rfl, fun _ _ => rfl⟩

/-- One unit and then `n` are `n + 1`. -/
theorem OnlyUnits.cons (h : OnlyUnits c l 1 s t) (hcfg : t.cfg = s.cfg) (h' : OnlyUnits c (latchAfter c l 1) n t u) :
    OnlyUnits c l (n + 1) s u := by
  have hdst (k : Nat) : unitDst c (latchAfter c l 1) k = unitDst c l (k + 1) := unitDst_latchAfter c l k
  have hroute {k : Nat} {win : Window} (hr : t.cfg.route (unitDst c (latchAfter c l 1) k) = win) :
      s.cfg.route (unitDst c l (k + 1)) = win := by rw [← hdst, ← hcfg, hr]
  have hfirst {k : Nat} (hk : k < 1) : k < n + 1 := by omega
  have hlater {k : Nat} (hk : k < n) : k + 1 < n + 1 := by omega
  have hhalf {o : Nat} (ho : HalfUncovered s.cfg c l (n + 1) o) :
      HalfUncovered s.cfg c l 1 o ∧ HalfUncovered t.cfg c (latchAfter c l 1) n o :=
    ⟨fun k hk => ho k (hfirst hk), fun k hk p hp => ho (k + 1) (hlater hk) p (hroute hp)⟩
  constructor
  case pal =>
    exact fun i hi => (h'.pal i fun k hk p hp => hi (k + 1) (hlater hk) p (hroute hp)).trans
      (h.pal i fun k hk => hi k (hfirst hk))
  case vram =>
    exact fun i hi => (h'.vram i fun k hk p hp => hi (k + 1) (hlater hk) p (hroute hp)).trans
      (h.vram i fun k hk => hi k (hfirst hk))
  case oam =>
    exact fun i hi => (h'.oam i fun k hk p hp => hi (k + 1) (hlater hk) p (hroute hp)).trans
      (h.oam i fun k hk => hi k (hfirst hk))
  case ext =>
    exact fun i hi => (h'.ext i fun k hk hr => hdst k ▸ hi (k + 1) (hlater hk) (hroute hr)).trans
      (h.ext i fun k hk => hi k (hfirst hk))
  case reg => exact fun o ho => (h'.reg o (hhalf ho).2).trans (h.reg o (hhalf ho).1)
  case reload => exact fun d hd => (h'.reload d (hhalf hd).2).trans (h.reload d (hhalf hd).1)
  case bgx2 => exact fun ha hb => (h'.bgx2 (hhalf ha).2 (hhalf hb).2).trans (h.bgx2 (hhalf ha).1 (hhalf hb).1)
  case bgy2 => exact fun ha hb => (h'.bgy2 (hhalf ha).2 (hhalf hb).2).trans (h.bgy2 (hhalf ha).1 (hhalf hb).1)
  case bgx3 => exact fun ha hb => (h'.bgx3 (hhalf ha).2 (hhalf hb).2).trans (h.bgx3 (hhalf ha).1 (hhalf hb).1)
  case bgy3 => exact fun ha hb => (h'.bgy3 (hhalf ha).2 (hhalf hb).2).trans (h.bgy3 (hhalf ha).1 (hhalf hb).1)

theorem onlyUnits_of_dmaUnits (h : dmaUnits ch c n s = .ok t) : OnlyUnits c (s.dma.get ch) n s t := by
  induction n generalizing s with
  | zero => cases h; exact .refl _ _ _
  | succ n ih =>
    unfold dmaUnits at h
    split at h
    · cases h
    next w hw =>
    obtain ⟨_, _, hwritten, hl⟩ := unitWritten_of_dmaUnit hw
    exact hwritten.onlyUnits.cons (onlyTransferred_of_dmaUnit hw).cfg (hl ▸ ih h)

/-! #### How many units are left does not matter to a unit -/

theorem Four.set_set {α : Type} (f : Four α) (i : Fin 4) (v w : α) : (f.set i v).set i w = f.set i w := by
  fin_cases i <;> rfl

theorem Four.set_get {α : Type} (f : Four α) (i : Fin 4) : f.set i (f.get i) = f := by
  fin_cases i <;> rfl

theorem setDma_setDma (s : State) (ch : Fin 4) (l l' : DmaLatch) : (s.setDma ch l).setDma ch l' = s.setDma ch l' :=
  congrArg (fun d => { s with dma := d }) (Four.set_set s.dma ch l l')

theorem dma_withCount (s : State) (ch : Fin 4) (n : Nat) :
    (s.withCount ch n).dma.get ch = { s.dma.get ch with cntCur := BitVec.ofNat 17 n } := by
  rw [State.withCount, State.setDma_dma, Four.get_set_same]

theorem withCount_withCount (s : State) (ch : Fin 4) (m n : Nat) : (s.withCount ch m).withCount ch n = s.withCount ch n := by
  rw [State.withCount, dma_withCount, State.withCount, setDma_setDma, State.withCount]

theorem withCount_of_cntCur (h : (s.dma.get ch).cntCur.toNat = n) : s.withCount ch n = s := by
  have hl : { s.dma.get ch with cntCur := BitVec.ofNat 17 n } = s.dma.get ch := by
    rw [← h, BitVec.ofNat_toNat, BitVec.setWidth_eq]
  rw [State.withCount, hl]
  exact congrArg (fun d => { s with dma := d }) (Four.set_get s.dma ch)

theorem storeReg_setDma (s : State) (ch : Fin 4) (l : DmaLatch) (o : Nat) (w : Half) :
    storeReg (s.setDma ch l) o w = (storeReg s o w).setDma ch l := by
  unfold storeReg
  cases regKind o with
  | bgRef r => cases r <;> rfl
  | _ => rfl

theorem dmaRegWrite_setDma (s : State) (ch : Fin 4) (l : DmaLatch) (p unit v : Nat) :
    dmaRegWrite (s.setDma ch l) p unit v = (dmaRegWrite s p unit v).setDma ch l := by
  unfold dmaRegWrite
  dsimp only
  rw [storeReg_setDma, storeReg_setDma]
  split <;> rfl

theorem windowWrite_setDma (s : State) (ch : Fin 4) (l : DmaLatch) (a : Word) (unit v : Nat) :
    windowWrite (s.setDma ch l) a unit v = (windowWrite s a unit v).setDma ch l := by
  unfold windowWrite
  rw [State.setDma_cfg]
  split
  case h_1 => exact dmaRegWrite_setDma ..
  all_goals rfl

theorem dmaWrite_setDma (h : dmaWrite s a unit v = .ok t) (ch : Fin 4) (l : DmaLatch) :
    dmaWrite (s.setDma ch l) a unit v = .ok (t.setDma ch l) := by
  obtain ⟨hanswered, ht⟩ := dmaWrite_eq_ok_iff.mp h
  exact dmaWrite_eq_ok_iff.mpr ⟨hanswered, by rw [windowWrite_setDma, ht]⟩

theorem memRead_setDma (s : State) (ch : Fin 4) (l : DmaLatch) (a : Word) (n : Nat) :
    memRead (s.setDma ch l) a n = memRead s a n := rfl

theorem dmaUnit_withCount (h : dmaUnit ch c s = .ok t) (n : Nat) :
    dmaUnit ch c (s.withCount ch n) = .ok (t.withCount ch n) := by
  obtain ⟨hrom, v, w, hv, hw, ht⟩ := dmaUnit_eq_ok_iff.mp h
  rw [dmaUnit_eq_ok_iff, dma_withCount]
  refine ⟨hrom, v, _, (memRead_setDma ..).trans hv, dmaWrite_setDma hw _ _, ?_⟩
  rw [ht, setDma_setDma, State.withCount, setDma_setDma, State.setDma_dma, Four.get_set_same]
  rfl

theorem dmaUnits_withCount (h : dmaUnits ch c n s = .ok t) (k : Nat) :
    dmaUnits ch c n (s.withCount ch k) = .ok (t.withCount ch k) := by
  induction n generalizing s with
  | zero => cases h; rfl
  | succ n ih =>
    unfold dmaUnits at h ⊢
    split at h
    · cases h
    next w hw =>
    rw [dmaUnit_withCount hw]
    exact ih h

/-- A transfer of `n` units, in a state of any count. -/
theorem dmaXfer_withCount (hn : n < 2 ^ 17) (h : dmaUnits ch (s.dmaCtl ch) n s = .ok t) :
    dmaXfer (s.withCount ch n) ch = .ok (t.withCount ch n) := by
  have hcount : ((s.withCount ch n).dma.get ch).cntCur.toNat = n := by
    rw [dma_withCount]
    exact Nat.mod_eq_of_lt hn
  rw [dmaXfer, hcount]
  exact dmaUnits_withCount h n

/-- Units that may all move are moved. -/
theorem exists_dmaUnits (h : ∀ k < n, UnitAllowed s.cfg ch c (s.dma.get ch) k) :
    ∃ t, dmaUnits ch c n s = .ok t ∧ t.dma.get ch = latchAfter c (s.dma.get ch) n ∧ OnlyTransferred ch s t ∧
      OnlyUnits c (s.dma.get ch) n s t := by
  obtain ⟨t, ht, hl, honly⟩ := dmaUnits_allowed n h
  exact ⟨t, ht, hl, honly, onlyUnits_of_dmaUnits ht⟩

/-- Settles O21: the units move one at a time (`dmaUnits_add`), each leaving all but its destination alone. -/
theorem transferCompletes : Obligations.TransferCompletes := by
  refine ⟨?_, fun s ch m n hmn h => ?_⟩
  · intro s ch c l h
    obtain ⟨t, ht, hl, honly, hunits⟩ := exists_dmaUnits h
    exact ⟨t, exec_dmaXfer_eq_next_iff.mpr ht, hl, honly, hunits⟩
  · obtain ⟨w, hw, _, honly, _⟩ := exists_dmaUnits (n := m) fun k hk => h k (by omega)
    obtain ⟨t, ht, _, _, _⟩ := exists_dmaUnits (n := m + n) h
    have hrest : dmaUnits ch (w.dmaCtl ch) n w = .ok t := by
      rw [honly.dmaCtl, ← dmaUnits_add m n hw, ht]
    refine ⟨w.withCount ch m, t.withCount ch n, exec_dmaXfer_eq_next_iff.mpr (dmaXfer_withCount (by omega) hw), ?_, ?_⟩
    · rw [withCount_withCount]
      exact exec_dmaXfer_eq_next_iff.mpr (dmaXfer_withCount (by omega) hrest)
    · rw [withCount_withCount]
      exact exec_dmaXfer_eq_next_iff.mpr (dmaXfer_withCount hmn ht)

end Sys2Proof.Machine

end

/-! ### A unit that may not move (`42_dma.md` R186, `20_memory.md` R72, R84, `60_exceptions.md` R372, R386) -/

section

namespace Sys2Proof.Machine

variable {s t : State} {ch : Fin 4} {c : Half} {a : Word} {unit v p k o : Nat} {e : Fault}

theorem memRead_of_not_answered (h : ¬readAnswered s.cfg unit a) : memRead s a unit = none := by
  simp only [readAnswered, Classical.not_imp, not_forall] at h
  obtain ⟨hr, i, hi, hunmapped⟩ := h
  have hmapped : ¬s.extMapped unit (busAddr a unit).toNat = true := fun hm =>
    hunmapped (List.all_eq_true.mp hm i (List.mem_range.mpr hi))
  rw [memRead_ext hr, if_neg hmapped]

theorem dmaWrite_of_control (hr : s.cfg.route (busAddr a unit) = .reg p) (ho : dmaForbidden o = true)
    (hcover : o = p ∨ unit = 4 ∧ o = p + 2) (v : Nat) :
    dmaWrite s a unit v = .error (raiseFault .dmaIntoControl a s) := by
  have htest : (dmaForbidden p || (decide (unit = 4) && dmaForbidden (p + 2))) = true := by
    rcases hcover with rfl | ⟨h4, rfl⟩
    · rw [ho, Bool.true_or]
    · rw [ho, decide_eq_true h4, Bool.true_and, Bool.or_true]
  simp only [dmaWrite, hr, htest, if_true]

theorem dmaWrite_of_not_writable (hr : s.cfg.route (busAddr a unit) = .ext)
    (h : ∃ i < unit, ∀ r, s.cfg.rangeOf ((busAddr a unit).toNat + i) = some r → r.writable = false) (v : Nat) :
    dmaWrite s a unit v = .error (raiseFault .busError a s) := by
  have htest : ¬s.extWritable unit (busAddr a unit).toNat = true := fun hw => by
    obtain ⟨i, hi, hno⟩ := h
    have hbyte := List.all_eq_true.mp hw i (List.mem_range.mpr hi)
    rw [Option.any_eq_true] at hbyte
    obtain ⟨r, hrange, hwritable⟩ := hbyte
    exact Bool.false_ne_true ((hno r hrange).symm.trans hwritable)
  simp only [dmaWrite, hr, if_neg htest]

theorem dmaUnit_of_rom (h : (decide (ch.val ≤ 2) && s.cfg.inRom (s.dma.get ch).srcCur) = true) :
    dmaUnit ch c s = .error (raiseFault .dmaRomSource (s.dma.get ch).srcCur s) := by
  simp only [dmaUnit, if_pos h]

theorem dmaUnit_of_not_read (hrom : ¬(decide (ch.val ≤ 2) && s.cfg.inRom (s.dma.get ch).srcCur) = true)
    (h : ¬readAnswered s.cfg (DmaCtl.unit c) (s.dma.get ch).srcCur) :
    dmaUnit ch c s = .error (raiseFault .busError (s.dma.get ch).srcCur s) := by
  simp only [dmaUnit, if_neg hrom, memRead_of_not_answered h]

theorem dmaUnit_of_not_written (hrom : ¬(decide (ch.val ≤ 2) && s.cfg.inRom (s.dma.get ch).srcCur) = true)
    (h : readAnswered s.cfg (DmaCtl.unit c) (s.dma.get ch).srcCur)
    (hw : ∀ v, dmaWrite s (s.dma.get ch).dstCur (DmaCtl.unit c) v = .error e) : dmaUnit ch c s = .error e := by
  obtain ⟨v, hv⟩ := memRead_answered s h
  simp only [dmaUnit, if_neg hrom, hv, hw v]

/-- A transfer ends with the fault of its first unit that raises one. -/
theorem dmaXfer_of_unit_error (hk : k < (s.dma.get ch).cntCur.toNat) (h : dmaUnits ch (s.dmaCtl ch) k s = .ok t)
    (he : dmaUnit ch (s.dmaCtl ch) t = .error e) : dmaXfer s ch = .error e := by
  obtain ⟨n, hn⟩ := Nat.exists_eq_add_of_lt hk
  rw [dmaXfer, hn, Nat.add_assoc, dmaUnits_add k (n + 1) h, dmaUnits, he]

theorem unit_eq_four_iff (c : Half) : DmaCtl.unit c = 4 ↔ c.getLsbD 10 = true := by
  rw [DmaCtl.unit, DmaCtl.word32]
  split
  · next h => exact iff_of_true rfl h
  · next h => exact iff_of_false (by decide) h

/-- The halves that R84 names. -/
theorem dmaForbidden_of_mem (h : o ∈ [0x0BA, 0x0C6, 0x0D2, 0x0DE, 0x102, 0x106, 0x10A, 0x10E, 0x202, 0x208]) :
    dmaForbidden o = true :=
  (by decide : ∀ o ∈ [0x0BA, 0x0C6, 0x0D2, 0x0DE, 0x102, 0x106, 0x10A, 0x10E, 0x202, 0x208], dmaForbidden o = true) o h

/-- Settles O22: the units before it are moved, and unit `k` is the one whose test fails. -/
theorem transferStopsAtTheFirstForbiddenUnit : Obligations.TransferStopsAtTheFirstForbiddenUnit := by
  intro s ch k c l unit src dst rom op hk h
  have hsmall : l.cntCur.toNat < 2 ^ 17 := l.cntCur.isLt
  obtain ⟨w, hw, hl, honly, _⟩ := exists_dmaUnits h
  have hcount : (w.dma.get ch).cntCur.toNat = l.cntCur.toNat := by rw [hl]; rfl
  refine ⟨w.withCount ch k, exec_dmaXfer_eq_next_iff.mpr (dmaXfer_withCount (by omega) hw), ?_⟩
  rw [withCount_withCount, withCount_of_cntCur hcount]
  have hcfg : w.cfg = s.cfg := honly.cfg
  have hsrc : (w.dma.get ch).srcCur = src := by rw [hl]; rfl
  have hdst : (w.dma.get ch).dstCur = dst := by rw [hl]; rfl
  have hromTest : (decide (ch.val ≤ 2) && w.cfg.inRom (w.dma.get ch).srcCur) = true ↔ rom := by
    rw [hcfg, hsrc, Bool.and_eq_true, decide_eq_true_eq]
  have hstop {e : Fault} (he : dmaUnit ch c w = .error e) : exec op s = .fault e :=
    exec_dmaXfer_eq_fault_iff.mpr (dmaXfer_of_unit_error hk hw he)
  refine ⟨honly, hl, fun hr => hstop ?_, fun hr hread => hstop ?_, fun hr hread hcontrol => hstop ?_,
    fun hr hread hext hno => hstop ?_⟩
  · rw [dmaUnit_of_rom (hromTest.mpr hr), hsrc]
  · rw [dmaUnit_of_not_read (hromTest.not.mpr hr) (by rw [hcfg, hsrc]; exact hread), hsrc]
  · obtain ⟨p, hp, o, ho, hcover⟩ := hcontrol
    refine dmaUnit_of_not_written (hromTest.not.mpr hr) (by rw [hcfg, hsrc]; exact hread) fun v => ?_
    rw [hdst]
    exact dmaWrite_of_control (hcfg ▸ hp) (dmaForbidden_of_mem ho)
      (hcover.imp id (And.imp_left (unit_eq_four_iff c).mpr)) v
  · refine dmaUnit_of_not_written (hromTest.not.mpr hr) (by rw [hcfg, hsrc]; exact hread) fun v => ?_
    rw [hdst]
    exact dmaWrite_of_not_writable (hcfg ▸ hext) (hcfg ▸ hno) v

/-! #### What a transfer reads and stores (R186) -/

/-- A read outside VRAM does not see VRAM. -/
theorem memRead_of_vram (ht : t = { s with vram := t.vram, dma := t.dma })
    (ha : ∀ p, s.cfg.route (busAddr a unit) ≠ .vram p) : memRead t a unit = memRead s a unit := by
  rw [ht]
  cases hr : s.cfg.route (busAddr a unit) with
  | vram p => exact absurd hr (ha p)
  | reg p => rw [memRead_reg hr]; exact memRead_reg hr
  | pal p => rw [memRead_pal hr]; exact memRead_pal hr
  | oam p => rw [memRead_oam hr]; exact memRead_oam hr
  | ext => rw [memRead_ext hr]; exact memRead_ext hr

/-- `n` units from `l` are stored side by side in VRAM from `off`, each as it reads in `s`, and nothing else is written. -/
structure VramFilled (c : Half) (l : DmaLatch) (n off : Nat) (s t : State) : Prop where
  inside : ∀ k < n, ∀ v, (∀ p, s.cfg.route (busAddr (walk l.srcCur (DmaCtl.srcMode c) (DmaCtl.unit c) k)
      (DmaCtl.unit c)) ≠ .vram p) →
    memRead s (walk l.srcCur (DmaCtl.srcMode c) (DmaCtl.unit c) k) (DmaCtl.unit c) = some v →
    ∀ i < DmaCtl.unit c, t.vramByte (off + k * DmaCtl.unit c + i) = BitVec.ofNat 8 (v / 256 ^ i)
  outside : ∀ i, i < off ∨ off + n * DmaCtl.unit c ≤ i → t.vramByte i = s.vramByte i
  rest : t = { s with vram := t.vram, dma := t.dma }

theorem vramFilled_of_dmaUnits {n off : Nat} (h : dmaUnits ch c n s = .ok t)
    (hdst : ∀ k < n, s.cfg.route (unitDst c (s.dma.get ch) k) = .vram (off + k * DmaCtl.unit c)) :
    VramFilled c (s.dma.get ch) n off s t := by
  induction n generalizing s off with
  | zero =>
    cases h
    exact ⟨fun k hk => absurd hk (Nat.not_lt_zero k), fun _ _ => rfl, rfl⟩
  | succ n ih =>
    unfold dmaUnits at h
    split at h
    · cases h
    next u hu =>
    obtain ⟨_, v, w, hv, hw, hu'⟩ := dmaUnit_eq_ok_iff.mp hu
    have hroute : s.cfg.route (busAddr (s.dma.get ch).dstCur (DmaCtl.unit c)) = .vram off := by
      have h0 := hdst 0 (Nat.succ_pos n)
      rwa [Nat.zero_mul, Nat.add_zero] at h0
    have hwrite : w = s.writeVram (DmaCtl.unit c) off v := by
      rw [dmaWrite_eq_ok hw]
      simp only [windowWrite, hroute]
    have hrest : u = { s with vram := u.vram, dma := u.dma } := by rw [hu', hwrite]; rfl
    have hbyte : ∀ i, u.vramByte i = storedByte s.vramByte off (DmaCtl.unit c) v i := fun i => by
      rw [hu', hwrite, State.vramByte_setDma, State.vramByte_writeVram]
    have hl : u.dma.get ch = latchAfter c (s.dma.get ch) 1 := by rw [hu']; simp
    have hcfg : u.cfg = s.cfg := by rw [hrest]
    have hfilled := ih h (off := off + DmaCtl.unit c) fun k hk => by
      rw [hl, hcfg, unitDst_latchAfter, hdst (k + 1) (by omega), Nat.succ_mul, Nat.add_assoc,
        Nat.add_comm (DmaCtl.unit c)]
    rw [hl] at hfilled
    refine ⟨fun k hk v' hsrc hread i hi => ?_, fun i hi => ?_, by rw [hfilled.rest, hrest]⟩
    · cases k with
      | zero =>
        obtain rfl : v' = v := Option.some.inj (hread.symm.trans hv)
        rw [Nat.zero_mul, Nat.add_zero, hfilled.outside _ (.inl (by omega)), hbyte, storedByte, if_pos (by omega),
          Nat.add_sub_cancel_left]
      | succ k =>
        rw [← walk_succ] at hsrc hread
        have hinside := hfilled.inside k (by omega) v' (by rw [hcfg]; exact hsrc)
          ((memRead_of_vram hrest hsrc).trans hread) i hi
        rwa [Nat.add_assoc off, Nat.add_comm (DmaCtl.unit c), ← Nat.succ_mul] at hinside
    · rw [Nat.succ_mul] at hi
      rw [hfilled.outside i (by omega), hbyte]
      exact storedByte_outside (by omega)

/-- Settles O23: one unit by `unitWritten_of_dmaUnit`, a transfer into VRAM by `vramFilled_of_dmaUnits`. -/
theorem transferStoresWhatItReads : Obligations.TransferStoresWhatItReads := by
  refine ⟨?_, ?_⟩
  · intro s ch c l hcount h
    have hone : (s.dma.get ch).cntCur.toNat = 1 := congrArg BitVec.toNat hcount
    obtain ⟨_, t, _, _, _, ht⟩ := dmaUnit_allowed h
    obtain ⟨v, hread, hwritten, hl⟩ := unitWritten_of_dmaUnit ht
    refine ⟨_, v, exec_dmaXfer_eq_next_iff.mpr ?_, hread, hwritten, hl⟩
    rw [dmaXfer, hone, dmaUnits, ht]
    rfl
  · intro s ch off c l n unit src h _ hdst
    obtain ⟨t, ht, _, _, _⟩ := exists_dmaUnits h
    have hfilled := vramFilled_of_dmaUnits ht hdst
    have hrest := hfilled.rest
    refine ⟨t, exec_dmaXfer_eq_next_iff.mpr ht, fun k hk hsrc => ?_, hfilled.outside, ?_, ?_, hrest⟩
    · obtain ⟨v, hv⟩ := memRead_answered s (h k hk).read
      refine ⟨v, unitRead_of_memRead (unit_eq_two_or_four c) hv, fun i hi => ?_⟩
      rw [hfilled.inside k hk v hsrc hv i hi, BitVec.toNat_ofNat]
    · rw [hrest]
      exact fun _ => ⟨rfl, rfl, rfl⟩
    · rw [hrest]
      exact fun _ => rfl

end Sys2Proof.Machine

end

/-! ### The bookkeeping after a transfer, and its completion interrupt (`42_dma.md` R189, R190, R192) -/

section

namespace Sys2Proof.Machine

variable {s t u v : State} {ch : Fin 4} {i : Fin nIrq}

/-- A raise from `s` may have been delivered: the two registers of the controller and the stacks may differ. -/
structure MayDeliver (s t : State) : Prop where
  regs : SameRegsBut [Reg.irf, Reg.ime] s t
  rest : t = { s with regs := t.regs, waits := t.waits, dispatch := t.dispatch, kont := t.kont }

theorem MayDeliver.of_irf (h : MayDeliver (s.setRegBit Reg.irf i.val true) t) : MayDeliver s t := by
  refine ⟨fun o ho => (h.regs o ho).trans (State.x_setReg_other s _ ?_), h.rest⟩
  rintro rfl
  exact ho List.mem_cons_self

theorem mayDeliver_deliver (s : State) (i : Fin nIrq) : (deliver s i).All (MayDeliver s) (fun _ => True) := by
  by_cases h : s.cfg.handlerOf i = .absent
  · obtain ⟨t, ht, hx, hrest⟩ := deliver_absent s h
    rw [ht]
    refine ⟨fun o ho => ?_, by rw [hrest]⟩
    have hirf : o ≠ Reg.irf := fun he => ho (he ▸ List.mem_cons_self)
    rw [hx, if_neg hirf]
  · rw [deliver_handler s h]
    refine ⟨sameRegsBut_deliverEntry s i, ?_⟩
    rw [(deliverEntry_spec s i).2]

theorem mayDeliver_raise (s : State) (i : Fin nIrq) : (raise s i).All (MayDeliver s) (fun _ => True) := by
  have hset : MayDeliver s (s.setRegBit Reg.irf i.val true) :=
    MayDeliver.of_irf (i := i) ⟨fun _ _ => rfl, rfl⟩
  unfold raise
  dsimp only
  split
  · have hdeliver := mayDeliver_deliver (s.setRegBit Reg.irf i.val true) i
    cases hr : deliver (s.setRegBit Reg.irf i.val true) i with
    | done t => rw [hr] at hdeliver; exact MayDeliver.of_irf hdeliver
    | susp t ks => rw [hr] at hdeliver; exact MayDeliver.of_irf hdeliver
    | fault e => exact fun _ _ => trivial
  · exact hset

/-- The channel is disabled, or reloaded if it repeats (R189, R190). -/
def dmaBookkeep (s : State) (ch : Fin 4) : State :=
  if DmaCtl.timing (s.dmaCtl ch) = 0 ∨ DmaCtl.repeats (s.dmaCtl ch) = false then s.setRegBit (Reg.dmaCntH ch) 15 false
  else dmaReload s ch

theorem dmaComplete_eq (s : State) (ch : Fin 4) : dmaComplete s ch =
    if DmaCtl.irq (s.dmaCtl ch) then raise (dmaBookkeep s ch) (dmaSource ch) else .done (dmaBookkeep s ch) := rfl

theorem dmaBookkeep_of_disables (h : DmaCtl.timing (s.dmaCtl ch) = 0 ∨ DmaCtl.repeats (s.dmaCtl ch) = false) :
    dmaBookkeep s ch = s.setRegBit (Reg.dmaCntH ch) 15 false := if_pos h

theorem dmaBookkeep_of_repeats (ht : DmaCtl.timing (s.dmaCtl ch) ≠ 0) (hr : DmaCtl.repeats (s.dmaCtl ch) = true) :
    dmaBookkeep s ch = dmaReload s ch := if_neg (by simp [ht, hr])

/-- The bookkeeping of a triggered channel, on the fields of its control word. -/
theorem dmaBookkeep_of_triggered (ht : DmaCtl.timing (s.dmaCtl ch) ≠ 0) : dmaBookkeep s ch =
    if (s.dmaCtl ch).getLsbD 9 = true then
      s.setDma ch { s.dma.get ch with
        cntCur := s.cfg.countOf ch (s.x (Reg.dmaCntL ch))
        dstCur := if bitsOf (s.dmaCtl ch) 6 5 = 3 then s.x32 (Reg.dmaDad ch) else (s.dma.get ch).dstCur }
    else s.setRegBit (Reg.dmaCntH ch) 15 false := by
  split
  · next hr => rw [dmaBookkeep_of_repeats ht hr, dmaReload, dstMode_eq_bitsOf]
  · next hr => rw [dmaBookkeep_of_disables (.inr (Bool.eq_false_iff.mpr hr))]

theorem sameRegsBut_dmaBookkeep (s : State) (ch : Fin 4) : SameRegsBut [Reg.dmaCntH ch] s (dmaBookkeep s ch) := by
  unfold dmaBookkeep
  split
  · exact sameRegsBut_setRegBit s false _ _
  · exact fun _ _ => rfl

theorem dmaBookkeep_rest (s : State) (ch : Fin 4) :
    dmaBookkeep s ch = { s with regs := (dmaBookkeep s ch).regs, dma := (dmaBookkeep s ch).dma } := by
  unfold dmaBookkeep
  split <;> rfl

theorem dmaCntH_ne_irf_ime (ch : Fin 4) : Reg.irf ≠ Reg.dmaCntH ch ∧ Reg.ime ≠ Reg.dmaCntH ch := by revert ch; decide

theorem x_irf_dmaBookkeep (s : State) (ch : Fin 4) : (dmaBookkeep s ch).x Reg.irf = s.x Reg.irf :=
  sameRegsBut_dmaBookkeep s ch _ (by simpa using (dmaCntH_ne_irf_ime ch).1)

theorem ime_dmaBookkeep (s : State) (ch : Fin 4) : (dmaBookkeep s ch).ime = s.ime :=
  congrArg (·.getLsbD 0) (sameRegsBut_dmaBookkeep s ch _ (by simpa using (dmaCntH_ne_irf_ime ch).2))

/-- With the master enable clear the completion interrupt of a channel becomes pending, and that is all. -/
theorem dmaComplete_quiet (h : s.ime = false) : dmaComplete s ch =
    .done (if DmaCtl.irq (s.dmaCtl ch) then (dmaBookkeep s ch).setRegBit Reg.irf (8 + ch.val) true
      else dmaBookkeep s ch) := by
  rw [dmaComplete_eq, raise_quiet _ (deliverable_of_ime _ ((ime_dmaBookkeep s ch).trans h))]
  split <;> rfl

/-- What the completion of channel `ch` leaves of the state `s` after its transfer, a delivery's handler aside. -/
structure TurnEnded (ch : Fin 4) (s t : State) : Prop where
  regs : SameRegsBut [Reg.irf, Reg.ime] (dmaBookkeep s ch) t
  pending : s.ime = false →
    ∀ i, t.pending i = (s.pending i || (decide (i.val = 8 + ch.val) && (s.dmaCtl ch).getLsbD 14))
  rest : t = { dmaBookkeep s ch with regs := t.regs, waits := t.waits, dispatch := t.dispatch, kont := t.kont }

theorem pending_dmaBookkeep (s : State) (ch : Fin 4) (i : Fin nIrq) : (dmaBookkeep s ch).pending i = s.pending i :=
  congrArg (·.getLsbD i.val) (x_irf_dmaBookkeep s ch)

theorem dmaComplete_turnEnded (s : State) (ch : Fin 4) : (dmaComplete s ch).All (TurnEnded ch s) (fun _ => True) := by
  by_cases hime : s.ime = false
  · rw [dmaComplete_quiet hime]
    split
    · next hirq =>
      refine ⟨fun o ho => State.x_setReg_other _ _ fun he => ho (he ▸ List.mem_cons_self), fun _ i => ?_, rfl⟩
      have hbit : (s.dmaCtl ch).getLsbD 14 = true := hirq
      refine ((dmaBookkeep s ch).pending_setRegBit (dmaSource ch) i true).trans ?_
      rw [pending_dmaBookkeep, hbit, Bool.and_true]
      by_cases h : i = dmaSource ch
      · subst h; simp [dmaSource]
      · have hval : i.val ≠ 8 + ch.val := fun hv => h (Fin.ext hv)
        simp [h, hval]
    · next hirq =>
      have hbit : (s.dmaCtl ch).getLsbD 14 = false := Bool.eq_false_iff.mpr hirq
      refine ⟨fun _ _ => rfl, fun _ i => ?_, rfl⟩
      rw [pending_dmaBookkeep, hbit, Bool.and_false, Bool.or_false]
  · have hended {t : State} (h : MayDeliver (dmaBookkeep s ch) t) : TurnEnded ch s t :=
      ⟨h.regs, fun hoff => absurd hoff hime, h.rest⟩
    rw [dmaComplete_eq]
    split
    · have hraise := mayDeliver_raise (dmaBookkeep s ch) (dmaSource ch)
      cases hr : raise (dmaBookkeep s ch) (dmaSource ch) with
      | done t => rw [hr] at hraise; exact hended hraise
      | susp t ks => rw [hr] at hraise; exact hended hraise
      | fault e => exact fun _ _ => trivial
    · exact hended ⟨fun _ _ => rfl, rfl⟩

theorem dmaComplete_noFault (s : State) (ch : Fin 4) : (dmaComplete s ch).NoFault :=
  Run.NoFault.ite (raise_noFault _ _) trivial

namespace TurnEnded

theorem setKont (h : TurnEnded ch s t) (ks : List Kont) : TurnEnded ch s (t.setKont ks) :=
  ⟨h.regs, h.pending, congrArg (·.setKont ks) h.rest⟩

theorem cfg (h : TurnEnded ch s t) : t.cfg = s.cfg := by rw [h.rest, dmaBookkeep_rest]

theorem refs (h : TurnEnded ch s t) : t.refs = s.refs := by rw [h.rest, dmaBookkeep_rest]

theorem tmr (h : TurnEnded ch s t) : t.tmr = s.tmr := by rw [h.rest, dmaBookkeep_rest]

theorem dma (h : TurnEnded ch s t) : t.dma = (dmaBookkeep s ch).dma := by rw [h.rest]

theorem sameBytes (h : TurnEnded ch s t) : SameBytes s t := by
  rw [h.rest, dmaBookkeep_rest]
  exact ⟨fun _ => rfl, fun _ => rfl, fun _ => rfl, fun _ => rfl⟩

theorem sameRegsBut (h : TurnEnded ch s t) : SameRegsBut [Reg.dmaCntH ch, Reg.irf, Reg.ime] s t := fun o ho => by
  obtain ⟨hctl, hirq⟩ := not_or.mp (List.mem_cons.not.mp ho)
  rw [h.regs o hirq, sameRegsBut_dmaBookkeep s ch o (by simpa using hctl)]

theorem dmaCtl (h : TurnEnded ch s t) (d : Fin 4) : t.dmaCtl d = (dmaBookkeep s ch).dmaCtl d :=
  h.regs _ (by simp [(dmaCntH_ne_irf_ime d).1.symm, (dmaCntH_ne_irf_ime d).2.symm])

/-- The control words of the other channels stay. -/
theorem dmaCtl_other (h : TurnEnded ch s t) {d : Fin 4} (hd : d ≠ ch) : t.dmaCtl d = s.dmaCtl d := by
  have hne : Reg.dmaCntH d ≠ Reg.dmaCntH ch := fun he => hd (Fin.ext (by simp only [Reg.dmaCntH] at he; omega))
  exact (h.dmaCtl d).trans (sameRegsBut_dmaBookkeep s ch _ (by simpa using hne))

/-- A channel that is immediate or does not repeat is disabled, its latches as the transfer left them (R189). -/
theorem of_disables (h : TurnEnded ch s t)
    (hc : DmaCtl.timing (s.dmaCtl ch) = 0 ∨ DmaCtl.repeats (s.dmaCtl ch) = false) :
    t.dma = s.dma ∧ ∀ j, (t.dmaCtl ch).getLsbD j = (decide (j ≠ 15) && (s.dmaCtl ch).getLsbD j) := by
  rw [h.dma, h.dmaCtl, dmaBookkeep_of_disables hc]
  exact ⟨rfl, getLsbD_x_clearEnable s _⟩

/-- A repeating channel stays armed, with its count and, in mode 3, its destination reloaded (R190). -/
theorem of_repeats (h : TurnEnded ch s t) (ht : DmaCtl.timing (s.dmaCtl ch) ≠ 0)
    (hr : DmaCtl.repeats (s.dmaCtl ch) = true) : t.dmaCtl ch = s.dmaCtl ch ∧ t.dma.get ch = { s.dma.get ch with
      cntCur := s.cfg.countOf ch (s.x (Reg.dmaCntL ch))
      dstCur := if DmaCtl.dstMode (s.dmaCtl ch) = 3 then s.x32 (Reg.dmaDad ch) else (s.dma.get ch).dstCur } := by
  rw [h.dma, h.dmaCtl, dmaBookkeep_of_repeats ht hr]
  exact ⟨rfl, by rw [dmaReload, State.setDma_dma, Four.get_set_same]⟩

/-- The registers of a channel other than its control word. -/
theorem x32 (h : TurnEnded ch s t) {o : Nat} (hlo : o ∉ [Reg.dmaCntH ch, Reg.irf, Reg.ime])
    (hhi : o + 2 ∉ [Reg.dmaCntH ch, Reg.irf, Reg.ime]) : t.x32 o = s.x32 o := by
  rw [State.x32, h.sameRegsBut _ hlo, h.sameRegsBut _ hhi, State.x32]

end TurnEnded

/-- A channel's address and count registers are not among those that a completion writes. -/
theorem dmaRegs_notMem (ch : Fin 4) :
    ∀ o ∈ [Reg.dmaSad ch, Reg.dmaSad ch + 2, Reg.dmaDad ch, Reg.dmaDad ch + 2, Reg.dmaCntL ch],
      o ∉ [Reg.dmaCntH ch, Reg.irf, Reg.ime] := by
  revert ch; decide

end Sys2Proof.Machine

end

/-! ### An immediate configure (`42_dma.md` R181, R182, R197) -/

section

namespace Sys2Proof.Machine

variable {s t u v : State} {ch : Fin 4} {src dst : Word} {count flags : Half} {l : DmaLatch} {unit k : Nat}

theorem dmaTransfer_of_ok (h : dmaXfer s ch = .ok t) : dmaTransfer s ch = dmaComplete t ch := by
  rw [dmaTransfer, h]

/-- A completion gives a next state. -/
theorem exists_dmaComplete (v : State) (ch : Fin 4) : ∃ t, (dmaComplete v ch).finish = .next t ∧ TurnEnded ch v t :=
  (dmaComplete_noFault v ch).exists_next (dmaComplete_turnEnded v ch) fun _ ks h => h.setKont ks

/-- A transfer that gives a next state is one that completes, and then its bookkeeping. -/
theorem turnEnded_of_dmaTransfer (h : (dmaTransfer s ch).finish = .next t) :
    ∃ v, dmaXfer s ch = .ok v ∧ TurnEnded ch v t := by
  cases hv : dmaXfer s ch with
  | error e => rw [dmaTransfer, hv] at h; cases h
  | ok v =>
    rw [dmaTransfer_of_ok hv] at h
    obtain ⟨w, hw, hended⟩ := exists_dmaComplete v ch
    cases hw.symm.trans h
    exact ⟨v, rfl, hended⟩

theorem onlyTransferred_of_dmaXfer (h : dmaXfer s ch = .ok t) : OnlyTransferred ch s t :=
  onlyTransferred_of_dmaUnits _ h

theorem irf_ime_notMem_configureOffsets (ch : Fin 4) : Reg.irf ∉ configureOffsets ch ∧
    Reg.ime ∉ configureOffsets ch := by
  revert ch; decide

theorem dmaCtl_dmaStore (s : State) (ch : Fin 4) (src dst : Word) (count f : Half) :
    (dmaStore s ch src dst count f).dmaCtl ch = f := x_dmaStore_dmaCntH s ch src dst count f

/-- Settles O19: the completion of an immediate channel disables it (`TurnEnded.of_disables`). -/
theorem immediateTransferNeverRepeats : Obligations.ImmediateTransferNeverRepeats := by
  intro s t ch src dst count flags htiming h
  rw [← timing_eq_bitsOf] at htiming
  rw [exec_dmaConfigure] at h
  rcases dmaConfigure_cases s ch src dst count flags with ⟨e, he⟩ | hrun
  · rw [he] at h; cases h
  · rw [hrun, if_pos htiming] at h
    obtain ⟨v, hv, hended⟩ := turnEnded_of_dmaTransfer h
    have hctl : v.dmaCtl ch = dmaFlags ch flags := by
      rw [(onlyTransferred_of_dmaXfer hv).dmaCtl, dmaCtl_dmaStore]
    obtain ⟨_, hbits⟩ := hended.of_disables (.inl (by rw [hctl, timing_dmaFlags, htiming]))
    rw [hctl] at hbits
    exact ⟨hbits 15, (hbits 9).trans (by rw [getLsbD_dmaFlags ch flags (by decide)]; rfl)⟩

/-! #### The units of a stored control word -/

theorem latchAfter_dmaFlags (ch : Fin 4) (flags : Half) (l : DmaLatch) (n : Nat) :
    latchAfter (dmaFlags ch flags) l n = latchAfter flags l n := by
  simp only [latchAfter, unit_dmaFlags, srcMode_dmaFlags, dstMode_dmaFlags]

theorem UnitAllowed.dmaFlags {cfg : Config} {d : Fin 4} (h : UnitAllowed cfg d flags l k) :
    UnitAllowed cfg d (dmaFlags ch flags) l k := by
  obtain ⟨hrom, hread, hwrite⟩ := h
  rw [← unit_dmaFlags ch flags, ← srcMode_dmaFlags ch flags] at hrom hread
  rw [← unit_dmaFlags ch flags, ← dstMode_dmaFlags ch flags] at hwrite
  exact ⟨hrom, hread, hwrite⟩

/-- An aligned address keeps its alignment along a transfer. -/
theorem walk_aligned {a : Word} (hu : unit = 2 ∨ unit = 4) (ha : a.toNat % unit = 0) (mode k : Nat) :
    (walk a mode unit k).toNat % unit = 0 := by
  induction k with
  | zero => exact ha
  | succ k ih =>
    unfold walk stepAddr
    split
    · rcases hu with rfl | rfl <;> rw [BitVec.toNat_sub, BitVec.toNat_ofNat] <;> omega
    · exact ih
    · rcases hu with rfl | rfl <;> rw [BitVec.toNat_add, BitVec.toNat_ofNat] <;> omega

theorem busAddr_of_aligned {a : Word} (ha : a.toNat % unit = 0) : busAddr a unit = a := by
  rw [busAddr, ha, Nat.sub_zero, BitVec.ofNat_toNat, BitVec.setWidth_eq]

/-- Where no aligned unit lies in the register file, every register half is uncovered. -/
theorem halfUncovered_of_no_reg {cfg : Config} {c : Half} {n : Nat} (hdst : l.dstCur.toNat % DmaCtl.unit c = 0)
    (h : ∀ k < n, ∀ off, cfg.route (walk l.dstCur (DmaCtl.dstMode c) (DmaCtl.unit c) k) ≠ .reg off) (o : Nat) :
    HalfUncovered cfg c l n o := fun k hk p hp => by
  rw [unitDst, busAddr_of_aligned (walk_aligned (unit_eq_two_or_four c) hdst _ k)] at hp
  exact absurd hp (h k hk p)

/-- Settles O20: the configuration is stored (`dmaStore`), the units are moved from there (`exists_dmaUnits`), and the
completion disables the channel (`TurnEnded`). -/
theorem immediateConfigureMovesEveryUnit : Obligations.ImmediateConfigureMovesEveryUnit := by
  intro s ch src dst count flags unit cnt l hsrc hdst hsm hdm htiming hrom hunits
  rw [← timing_eq_bitsOf] at htiming
  have haccepted : ConfigureAccepted s.cfg ch src dst flags := ⟨hsrc, hdst, hrom, hsm, hdm⟩
  let u := dmaStore s ch src dst count (dmaFlags ch flags)
  have hctl : u.dmaCtl ch = dmaFlags ch flags := dmaCtl_dmaStore ..
  have hlatch : u.dma.get ch = l := by
    rw [dma_dmaStore, and_writeMask_dmaCntL]
    rfl
  have hregs : SameRegsBut (configureOffsets ch) s u := sameRegsBut_dmaStore s ch src dst count _
  obtain ⟨v, hv, hvl, honly, honlyUnits⟩ := exists_dmaUnits (s := u) (c := dmaFlags ch flags) (n := l.cntCur.toNat)
    fun k hk => hlatch ▸ (hunits k hk).dmaFlags
  have hxfer : dmaXfer u ch = .ok v := by rw [dmaXfer, hctl, hlatch, hv]
  rw [hlatch, latchAfter_dmaFlags] at hvl
  rw [hlatch] at honlyUnits
  have hvctl : v.dmaCtl ch = dmaFlags ch flags := (honly.dmaCtl ch).trans hctl
  obtain ⟨t, ht, hended⟩ := exists_dmaComplete v ch
  obtain ⟨htdma, hbits⟩ := hended.of_disables (.inl (by rw [hvctl, timing_dmaFlags, htiming]))
  refine ⟨t, ?_, ⟨u, v, x32_dmaSad_dmaStore .., x32_dmaDad_dmaStore .., x_dmaCntL_dmaStore .., ?_, hlatch,
    fun c hc => dma_dmaStore_other _ _ _ _ _ _ hc, hregs, dmaStore_eq .., exec_dmaXfer_eq_next_iff.mpr hxfer, hended.sameBytes,
    hended.sameRegsBut, hended.refs, hended.tmr⟩, by rw [htdma, hvl], hbits 15, fun hno => ?_, fun hime i => ?_⟩
  · rw [exec_dmaConfigure, dmaConfigure_of_accepted haccepted, if_pos htiming, dmaTransfer_of_ok hxfer, ht]
  · rw [← dmaFlags_eq]
    exact hctl
  · have hv_x : ∀ o, v.x o = u.x o := fun o => honlyUnits.reg o (halfUncovered_of_no_reg
      (by rw [unit_dmaFlags]; exact hdst) (by rw [unit_dmaFlags, dstMode_dmaFlags]; exact hno) o)
    have hx : ∀ o ∈ [Reg.dmaSad ch, Reg.dmaSad ch + 2, Reg.dmaDad ch, Reg.dmaDad ch + 2, Reg.dmaCntL ch],
        t.x o = u.x o := fun o ho => (hended.sameRegsBut o (dmaRegs_notMem ch o ho)).trans (hv_x o)
    refine ⟨(hx _ (by simp)).trans (x_dmaCntL_dmaStore ..), ?_, ?_⟩
    · rw [State.x32, hx _ (by simp), hx _ (by simp)]
      exact x32_dmaSad_dmaStore ..
    · rw [State.x32, hx _ (by simp), hx _ (by simp)]
      exact x32_dmaDad_dmaStore ..
  · obtain ⟨hirf, hime'⟩ := irf_ime_notMem_configureOffsets ch
    have huime : u.ime = s.ime := congrArg (·.getLsbD 0) (hregs _ hime')
    have hupend : u.pending i = s.pending i := congrArg (·.getLsbD i.val) (hregs _ hirf)
    rw [hended.pending (honly.ime.trans (huime.trans hime)), honly.pending, hupend, hvctl,
      getLsbD_dmaFlags ch flags (by decide)]

end Sys2Proof.Machine

end

/-! ### The fire operations (`42_dma.md` R187 to R192, `70_reset_and_hazards.md` R423) -/

section

namespace Sys2Proof.Machine

variable {s t u : State} {ch : Fin 4} {timing : BitVec 2} {m n k : Nat} {op : Instr}

/-- The two fire operations and their triggers (R187, R188). -/
theorem exec_fire {timing : Nat} (h : op = .dmaFireHblank ∧ timing = 2 ∨ op = .dmaFireVblank ∧ timing = 1) :
    ∃ trigger : BitVec 2, trigger.toNat = timing ∧ timing ≠ 0 ∧ ∀ s, exec op s = (fireFrom trigger 4 s).finish := by
  rcases h with ⟨rfl, rfl⟩ | ⟨rfl, rfl⟩
  · exact ⟨2, rfl, by decide, fun _ => rfl⟩
  · exact ⟨1, rfl, by decide, fun _ => rfl⟩

theorem armed_eq_false_of_or {timing : Nat}
    (h : (s.dmaCtl ch).getLsbD 15 = false ∨ bitsOf (s.dmaCtl ch) 13 12 ≠ timing) :
    s.armed ch timing = false :=
  armed_eq_false fun hon => h.resolve_left (Bool.eq_false_iff.not.mpr (not_not_intro hon))

/-- The channel whose turn it is when `n` turns follow. -/
theorem val_turn (hn : n < 4) : (Fin.ofNat 4 (3 - n)).val = 3 - n := Nat.mod_eq_of_lt (by omega)

/-- Turns of channels that are not armed are skipped. -/
theorem fireFrom_skip (hmn : m ≤ n) (hn : n ≤ 4)
    (h : ∀ d : Fin 4, 4 ≤ d.val + n → d.val + m < 4 → s.armed d timing.toNat = false) :
    fireFrom timing n s = fireFrom timing m s := by
  induction n, hmn using Nat.le_induction with
  | base => rfl
  | succ n hmn ih =>
    have hval := val_turn (n := n) (by omega)
    have hidle := h (Fin.ofNat 4 (3 - n)) (by omega) (by omega)
    refine Eq.trans ?_ (ih (by omega) fun d h1 h2 => h d (by omega) h2)
    simp only [fireFrom, hidle]
    rfl

theorem turn_of_val (ch : Fin 4) : Fin.ofNat 4 (3 - (3 - ch.val)) = ch := by revert ch; decide

theorem fireFrom_turn (ch : Fin 4) (ha : s.armed ch timing.toNat = true) : fireFrom timing (3 - ch.val + 1) s =
    (dmaTransfer s ch).andThen (.fire timing (3 - ch.val)) (fireFrom timing (3 - ch.val)) := by
  simp only [fireFrom, turn_of_val, ha, if_true]

/-- With one armed channel a fire operation is that channel's turn, and then those of the channels above it. -/
theorem fireFrom_of_only (ha : s.armed ch timing.toNat = true)
    (hothers : ∀ d, d ≠ ch → s.armed d timing.toNat = false) :
    fireFrom timing 4 s =
      (dmaTransfer s ch).andThen (.fire timing (3 - ch.val)) (fireFrom timing (3 - ch.val)) := by
  have hch := ch.isLt
  rw [fireFrom_skip (m := 3 - ch.val + 1) (by omega) le_rfl fun d _ hd => hothers d fun he => by subst he; omega]
  exact fireFrom_turn ch ha

/-- A piece without a fault, and then one that does nothing: the whole gives a next state. -/
theorem Run.NoFault.exists_next_andThen {P Q : State → Prop} {r : Run} {κ : Kont} {f : State → Run} (hr : r.NoFault)
    (hP : r.All P Q) (hf : ∀ t, P t → f t = .done t) (hk : ∀ t ks, P t → P (t.setKont ks)) :
    ∃ t, (r.andThen κ f).finish = .next t ∧ P t := by
  cases r with
  | done t => exact ⟨t, congrArg Run.finish (hf t hP), hP⟩
  | susp t ks => exact ⟨_, rfl, hk t _ hP⟩
  | fault e => exact hr.elim

/-- One armed channel whose units may all move: the operation gives the state after its transfer and completion. -/
theorem exists_fire_of_only (ha : s.armed ch timing.toNat = true)
    (hothers : ∀ d, d ≠ ch → s.armed d timing.toNat = false) (hv : dmaXfer s ch = .ok u) :
    ∃ t, (fireFrom timing 4 s).finish = .next t ∧ TurnEnded ch u t := by
  rw [fireFrom_of_only ha hothers, dmaTransfer_of_ok hv]
  refine (dmaComplete_noFault u ch).exists_next_andThen (dmaComplete_turnEnded u ch) (fun t ht => ?_)
    fun t ks ht => ht.setKont ks
  have hch := ch.isLt
  refine fireFrom_skip (m := 0) (Nat.zero_le _) (by omega) fun d hd _ => ?_
  have hne : d ≠ ch := fun he => by subst he; omega
  rw [State.armed, ht.dmaCtl_other hne, (onlyTransferred_of_dmaXfer hv).dmaCtl]
  exact hothers d hne

/-! #### Turns that nothing stops -/

theorem ime_setRegBit_irf (s : State) (i : Nat) (b : Bool) : (s.setRegBit Reg.irf i b).ime = s.ime :=
  congrArg (·.getLsbD 0) (State.x_setReg_other s _ (by decide : Reg.ime ≠ Reg.irf))

theorem not_armed_iff {timing : Nat} : s.armed ch timing = false ↔
    ¬((s.dmaCtl ch).getLsbD 15 = true ∧ bitsOf (s.dmaCtl ch) 13 12 = timing) := by
  rw [← armed_iff, Bool.not_eq_true]

/-- With the master enable clear, what `FiredOne` says of an armed channel's turn is its transfer and completion. -/
theorem dmaTransfer_of_firedOne (hime : s.ime = false) (ht : timing.toNat ≠ 0) (ha : s.armed ch timing.toNat = true)
    (h : FiredOne timing.toNat ch s t) : dmaTransfer s ch = .done t ∧ t.ime = false := by
  have hcond := (armed_iff s ch _).mp ha
  unfold FiredOne at h
  rw [if_pos hcond] at h
  obtain ⟨v, hexec, heq⟩ := h
  have hv := exec_dmaXfer_eq_next_iff.mp hexec
  have honly := onlyTransferred_of_dmaXfer hv
  have hctl := honly.dmaCtl ch
  have hvime := honly.ime.trans hime
  have htiming : DmaCtl.timing (v.dmaCtl ch) ≠ 0 := by rw [hctl, timing_eq_bitsOf, hcond.2]; exact ht
  have hbook := dmaBookkeep_of_triggered htiming
  rw [hctl] at hbook
  have hdone : dmaTransfer s ch = .done t := by
    rw [dmaTransfer_of_ok hv, dmaComplete_quiet hvime, heq, hctl, ← hbook]
    rfl
  refine ⟨hdone, ?_⟩
  rw [heq, ← hbook]
  split
  · exact (ime_setRegBit_irf (dmaBookkeep v ch) _ true).trans ((ime_dmaBookkeep v ch).trans hvime)
  · exact (ime_dmaBookkeep v ch).trans hvime

/-- A turn where the completion delivers nothing: the fire operation goes on from the state it leaves. -/
theorem fireFrom_of_firedOne (hime : s.ime = false) (ht : timing.toNat ≠ 0)
    (h : FiredOne timing.toNat (Fin.ofNat 4 (3 - n)) s t) :
    fireFrom timing (n + 1) s = fireFrom timing n t ∧ t.ime = false := by
  by_cases ha : s.armed (Fin.ofNat 4 (3 - n)) timing.toNat = true
  · obtain ⟨hrun, htime⟩ := dmaTransfer_of_firedOne hime ht ha h
    refine ⟨?_, htime⟩
    simp only [fireFrom, ha, if_true, hrun]
    rfl
  · have hidle := Bool.eq_false_iff.mpr ha
    unfold FiredOne at h
    rw [if_neg (not_armed_iff.mp hidle)] at h
    refine ⟨?_, h ▸ hime⟩
    simp only [fireFrom, hidle, h]
    rfl

/-- After the turns of channels 0 to `k - 1` the rest of the fire operation is that of the channels from `k`. -/
theorem fireFrom_of_firedUpTo (hk : k ≤ 4) (hime : s.ime = false) (ht : timing.toNat ≠ 0)
    (h : FiredUpTo timing.toNat k s t) : fireFrom timing 4 s = fireFrom timing (4 - k) t ∧ t.ime = false := by
  induction k generalizing t with
  | zero => obtain rfl : t = s := h; exact ⟨rfl, hime⟩
  | succ k ih =>
    obtain ⟨u, hu, hone⟩ := h
    obtain ⟨hrun, huime⟩ := ih (by omega) hu
    have hturn : Fin.ofNat 4 k = Fin.ofNat 4 (3 - (3 - k)) := congrArg _ (by omega)
    rw [hturn] at hone
    obtain ⟨hrest, htime⟩ := fireFrom_of_firedOne (n := 3 - k) huime ht hone
    refine ⟨?_, htime⟩
    rw [hrun, show 4 - k = 3 - k + 1 by omega, hrest, show 4 - (k + 1) = 3 - k by omega]

/-- The first transfer that faults ends the operation. -/
theorem fireFrom_of_fault {e : Fault} (hime : s.ime = false) (ht : timing.toNat ≠ 0)
    (h : FiredUpTo timing.toNat ch.val s u) (ha : u.armed ch timing.toNat = true) (he : dmaXfer u ch = .error e) :
    fireFrom timing 4 s = .fault e := by
  have hch := ch.isLt
  rw [(fireFrom_of_firedUpTo hch.le hime ht h).1, show 4 - ch.val = 3 - ch.val + 1 by omega, fireFrom_turn ch ha,
    dmaTransfer, he]
  rfl

/-- Settles O24: idle channels are skipped; one armed channel takes its turn (`exists_fire_of_only`); where nothing is
delivered the turns follow each other (`fireFrom_of_firedUpTo`). -/
theorem fireRunsTheArmedChannel : Obligations.FireRunsTheArmedChannel := by
  refine ⟨fun s => ⟨fun h => ?_, fun h => ?_⟩, ?_, fun s timing op hime hop => ?_⟩
  · exact congrArg Run.finish (fireFrom_idle 2 4 fun ch => armed_eq_false_of_or (h ch))
  · exact congrArg Run.finish (fireFrom_idle 1 4 fun ch => armed_eq_false_of_or (h ch))
  · intro s ch timing op c l hop hon htiming hothers hunits
    obtain ⟨trigger, rfl, hne, hexec⟩ := exec_fire hop
    obtain ⟨v, hv, hvl, honly, _⟩ := exists_dmaUnits hunits
    have hctl : v.dmaCtl ch = c := honly.dmaCtl ch
    have hvtiming : DmaCtl.timing (v.dmaCtl ch) ≠ 0 := by rw [hctl, timing_eq_bitsOf, htiming]; exact hne
    obtain ⟨t, ht, hended⟩ := exists_fire_of_only ((armed_iff s ch _).mpr ⟨hon, htiming⟩)
      (fun d hd => armed_eq_false_of_or (hothers d hd)) (u := v) hv
    have hrepeat (hr : c.getLsbD 9 = true) := hended.of_repeats hvtiming (hctl ▸ hr)
    have honeShot (hr : c.getLsbD 9 = false) := hended.of_disables (.inr (hctl ▸ hr))
    refine ⟨t, (hexec s).trans ht, ⟨v, exec_dmaXfer_eq_next_iff.mpr hv, hended.sameBytes, hended.sameRegsBut, hended.refs,
      hended.tmr⟩, ?_, fun hr => ?_, fun hr => ?_, fun hime i => ?_⟩
    · cases hr : c.getLsbD 9 with
      | false => rw [(honeShot hr).1, hvl]
      | true => rw [(hrepeat hr).2, hvl]
    · obtain ⟨hdma, hbits⟩ := honeShot hr
      rw [hctl] at hbits
      exact ⟨by rw [hdma, hvl], hbits⟩
    · obtain ⟨htctl, hreload⟩ := hrepeat hr
      have hmem := dmaRegs_notMem ch
      rw [hreload, hended.cfg, hended.sameRegsBut (Reg.dmaCntL ch) (hmem _ (by simp)),
        hended.x32 (hmem (Reg.dmaDad ch) (by simp)) (hmem _ (by simp)), hctl, dstMode_eq_bitsOf, hvl]
      exact ⟨htctl.trans hctl, rfl, rfl⟩
    · rw [hended.pending (honly.ime.trans hime), honly.pending, hctl]
  · obtain ⟨trigger, rfl, hne, hexec⟩ := exec_fire hop
    refine ⟨fun t ht => ?_, fun ch u f hu hon htiming hfault => ?_⟩
    · rw [hexec, (fireFrom_of_firedUpTo le_rfl hime hne ht).1]
      rfl
    · have hxfer := exec_dmaXfer_eq_fault_iff.mp hfault
      rw [hexec, fireFrom_of_fault hime hne hu ((armed_iff u ch _).mpr ⟨hon, htiming⟩) hxfer]
      rfl

end Sys2Proof.Machine

end

/-! ### Starting and stopping a timer (`43_timers.md` R211, R212, `30_encoding.md` R105, `47_register_access.md` R352) -/

section

namespace Sys2Proof.Machine

variable {s : State} {ch : Fin 4}

/-- The bits of a control word whose four fields are written (R211). -/
theorem getLsbD_withFields (c : Half) (p : BitVec 2) (k q r : Bool) (j : Nat) :
    (TmrCtl.withFields c p k q r).getLsbD j =
      if j = 0 ∨ j = 1 then p.getLsbD j else if j = 2 then k else if j = 6 then q else if j = 7 then r
      else c.getLsbD j := by
  have hbit {v : Half} {i : Nat} {b : Bool} (hi : i < 16) := withBit_getLsbD_lt (v := v) (j := j) (b := b) hi
  rw [TmrCtl.withFields, hbit (by decide), hbit (by decide), hbit (by decide), hbit (by decide), hbit (by decide)]
  by_cases hfield : j ∈ [0, 1, 2, 6, 7]
  · simp only [List.mem_cons, List.not_mem_nil, or_false] at hfield
    rcases hfield with rfl | rfl | rfl | rfl | rfl <;> rfl
  · simp only [List.mem_cons, List.not_mem_nil, or_false, not_or] at hfield
    simp only [hfield, or_self, if_false]

/-- What a start leaves in the control word: its fields written, the running bit set, all else as before. -/
theorem x_tmrStart (s : State) (ch : Fin 4) (reload : Half) (p : BitVec 2) (k q : Bool) (o : Nat) :
    (tmrStart s ch reload p k q).x o = if o = Reg.tmrCntH ch then
      TmrCtl.withFields (withBit (s.x (Reg.tmrCntH ch)) 7 false) p (k && decide (0 < ch.val)) q true else s.x o := by
  rw [tmrStart, State.x_setReg, State.tmrCtl, State.x_setTmr, State.x_setTmr, State.x_setRegBit, State.x_setRegBit,
    if_pos rfl]
  split
  · rfl
  · rfl

theorem exec_tmrStart (s : State) (ch : Fin 4) (reload : Half) (p : BitVec 2) (k q : Bool) :
    exec (.tmrStart (BitVec.ofNat 8 ch.val) reload p k q) s = .next (tmrStart s ch reload p k q) :=
  congrArg Run.finish (withChannel_ofNat ch s _)

/-- A start by a write of TMchCNT_H takes its fields from the written word: the mask drops nothing of them but the cascade
bit of channel 0, which a start drops too. -/
theorem hookStart_masked (s : State) (ch : Fin 4) (w : Half) : hookStart s ch (w &&& writeMask (Reg.tmrCntH ch)) =
    tmrStart s ch (s.tmr.get ch).reload (w.setWidth 2) (w.getLsbD 2) (w.getLsbD 6) := by
  have hprescaler : BitVec.ofNat 2 (TmrCtl.prescaler (w &&& writeMask (Reg.tmrCntH ch))) = w.setWidth 2 := by
    rw [TmrCtl.prescaler, fieldOf_and_of_mask (by revert ch; decide)]
    exact BitVec.eq_of_toNat_eq (by simp [fieldOf])
  have hmask6 : ∀ ch : Fin 4, (writeMask (Reg.tmrCntH ch)).getLsbD 6 = true := by decide
  have hirq : TmrCtl.irq (w &&& writeMask (Reg.tmrCntH ch)) = w.getLsbD 6 :=
    getLsbD_and_of_mask (hmask6 ch)
  have hcascade : (TmrCtl.cascade (w &&& writeMask (Reg.tmrCntH ch)) && decide (0 < ch.val)) =
      (w.getLsbD 2 && decide (0 < ch.val)) := by
    by_cases h : 0 < ch.val
    · have hmask : ∀ ch : Fin 4, 0 < ch.val → (writeMask (Reg.tmrCntH ch)).getLsbD 2 = true := by decide
      rw [TmrCtl.cascade, getLsbD_and_of_mask (hmask ch h)]
    · simp only [h, decide_false, Bool.and_false]
  simp only [hookStart, tmrStart, hprescaler, hirq, hcascade]

/-- Settles O26: what `tmrStart` leaves, and the hook form as the same start (`hookStart_masked`). -/
theorem startLoadsTheTimer : Obligations.StartLoadsTheTimer := by
  refine ⟨fun s ch reload p k q => ⟨tmrStart s ch reload p k q, exec_tmrStart .., Four.get_set_same _ _ _,
    fun d hd => Four.get_set_other _ _ hd, fun j => ?_, fun o ho => ?_, ?_, rfl⟩, fun s ch w _ => ⟨_, rfl, ?_⟩⟩
  · have hpos : decide (0 < ch.val) = decide (ch ≠ 0) := decide_eq_decide.mpr Fin.pos_iff_ne_zero
    rw [x_tmrStart, if_pos rfl, getLsbD_withFields, hpos, withBit_getLsbD_lt (by decide)]
    by_cases h7 : j = 7
    · subst h7
      rfl
    · simp only [h7, if_false]
  · rw [x_tmrStart, if_neg (by simpa using ho)]
  · exact ⟨fun _ => rfl, fun _ => rfl, fun _ => rfl, fun _ => rfl⟩
  · rw [hookStart_masked]
    exact congrArg Run.finish (withChannel_setWidth (s := s) (ch := ch) fun c => .done (tmrStart s c _ _ _ _))

theorem writeMask_tmrCntH (ch : BitVec 2) : writeMask (Reg.tmrCntH (channelOf ch)) =
    if ch = 0 then 0x00C3 else 0x00C7 := by
  revert ch; decide

/-- Settles O27: `TMR_STOP` writes bit 7 of the control word; the hook form stores the word that its mask leaves, whose
bit 7 is clear already. -/
theorem stopKeepsTheTimer : Obligations.StopKeepsTheTimer := by
  refine ⟨fun s ch => ⟨s.setRegBit (Reg.tmrCntH ch) 7 false, congrArg Run.finish (withChannel_ofNat ch s _),
    onlyRegs_setRegBit s false _ _, rfl, fun j => ?_⟩, fun s ch w h7 => ⟨_, rfl,
    ⟨fun o ho => ?_, sameBytes_of_rest rfl, rfl⟩, rfl, ?_⟩⟩
  · rw [getLsbD_x_setRegBit s false _ (by decide)]
    by_cases hj : j = 7 <;> simp [hj]
  · exact State.x_setReg_other s _ fun h => ho (List.mem_singleton.mpr h)
  · have hclear : (w &&& writeMask (Reg.tmrCntH (channelOf ch))).getLsbD 7 = false := by rw [BitVec.getLsbD_and, h7]; rfl
    rw [← writeMask_tmrCntH]
    exact (State.x_setReg_same s _ _).trans (withBit_false_of_getLsbD hclear)

end Sys2Proof.Machine

end

/-! ### The prescaler of a period (`43_timers.md` R217) -/

section

namespace Sys2Proof.Machine

variable {cfg : Config} {ms : Word}

/-- The divisors in the order of their selectors (R216). -/
theorem getElem?_divisors (k : Fin 4) : [1, 64, 256, 1024][k.val]? = some (TmrCtl.div k.val) := by
  fin_cases k <;> rfl

/-- A coarser prescaler has no more ticks. -/
theorem msTicks_le_of_div_le {j k : Nat} (h : TmrCtl.div j ≤ TmrCtl.div k) : msTicks cfg ms k ≤ msTicks cfg ms j :=
  Nat.div_le_div_left (Nat.mul_le_mul_left _ h) (Nat.mul_pos (by decide) (TmrCtl.div_pos j))

/-- The conversion takes the first selector whose ticks fit. -/
theorem msConfig_of_first {k : Fin 4} (hpos : 1 ≤ msTicks cfg ms k.val) (hfit : msTicks cfg ms k.val ≤ 65536)
    (hfirst : ∀ j < k.val, 65536 < msTicks cfg ms j) :
    msConfig cfg ms = .timerPeriod (BitVec.ofNat 2 k.val) (BitVec.ofNat 16 (65536 - msTicks cfg ms k.val)) := by
  have hsplit : ∀ k : Fin 4, [0, 1, 2, 3] = List.range k.val ++ k.val :: List.range' (k.val + 1) (3 - k.val) := by decide
  have hbefore : (List.range k.val).find? (fun sel => decide (1 ≤ msTicks cfg ms sel) &&
      decide (msTicks cfg ms sel ≤ 65536)) = none :=
    List.find?_eq_none.mpr fun j hj => by simp [hfirst j (List.mem_range.mp hj)]
  rw [msConfig, hsplit k, List.find?_append, hbefore]
  simp [hpos, hfit]

/-- The conversion reports the error where no selector's ticks fit. -/
theorem msConfig_of_none (h : ∀ j, msTicks cfg ms j = 0 ∨ 65536 < msTicks cfg ms j) :
    msConfig cfg ms = .timerPeriodUnrepresentable ms := by
  rw [msConfig, List.find?_eq_none.mpr fun j _ => ?_]
  rcases h j with h | h
  · simp [h]
  · simp [h]

theorem div_le_coarsest (j : Nat) : TmrCtl.div j ≤ TmrCtl.div 3 := by unfold TmrCtl.div; split <;> decide

/-- Settles O30: the conversion finds the first selector that fits (`msConfig_of_first`); with no tick of the finest, or more
than 65536 of the coarsest, no selector does. -/
theorem millisecondsTakeTheFinestPrescaler : Obligations.MillisecondsTakeTheFinestPrescaler := by
  refine fun s ms => ⟨s.setResult (msConfig s.cfg ms), rfl,
    ⟨⟨fun _ => rfl, fun _ => rfl, fun _ => rfl, fun _ => rfl⟩, rfl⟩, fun k d hd hpos hfit hfirst => ?_, fun hnone => ?_⟩
  · obtain rfl : TmrCtl.div k.val = d := Option.some.inj ((getElem?_divisors k).symm.trans hd)
    refine ⟨_, msConfig_of_first hpos hfit fun j hj =>
      hfirst ⟨j, hj.trans k.isLt⟩ (TmrCtl.div j) hj (getElem?_divisors ⟨j, hj.trans k.isLt⟩), ?_⟩
    rw [← msTicks] at hpos hfit ⊢
    rw [BitVec.toNat_ofNat]
    omega
  · refine msConfig_of_none fun j => ?_
    rcases hnone with hzero | hlarge
    · exact .inl (Nat.le_zero.mp ((msTicks_le_of_div_le (j := 0) (TmrCtl.div_pos j)).trans hzero.le))
    · exact .inr (lt_of_lt_of_le hlarge (msTicks_le_of_div_le (div_le_coarsest j)))

end Sys2Proof.Machine

end

/-! ### One count of a timer and its cascade (`43_timers.md` R214) -/

section

namespace Sys2Proof.Machine

variable {s t u : State} {ch c up : Fin 4} {R : Finset (Fin nIrq)}

/-! #### Where a tick goes -/

/-- A tick of channel `ch` reaches channel `c`: `State.tickReaches` by channel. -/
def State.Reaches (s : State) (ch c : Fin 4) : Prop := ∃ d, c.val = ch.val + d ∧ s.tickReaches ch.val d

theorem reaches_iff_tickReaches {d : Nat} (hd : c.val = ch.val + d) : s.Reaches ch c ↔ s.tickReaches ch.val d := by
  refine ⟨fun ⟨e, he, hreach⟩ => ?_, fun hreach => ⟨d, hd, hreach⟩⟩
  obtain rfl : d = e := Nat.add_left_cancel (hd.symm.trans he)
  exact hreach

theorem reaches_self (s : State) (ch : Fin 4) : s.Reaches ch ch := ⟨0, rfl, trivial⟩

theorem State.Reaches.le (h : s.Reaches ch c) : ch.val ≤ c.val := by
  obtain ⟨d, hd, _⟩ := h
  omega

theorem ofNat_four_eq {n : Nat} (h : c.val = n) : Fin.ofNat 4 n = c :=
  Fin.ext ((Nat.mod_eq_of_lt (h ▸ c.isLt)).trans h.symm)

/-- The last link of a chain: a tick reaches the channel above `c` through an overflow of `c`. -/
theorem reaches_above_iff (hle : ch.val ≤ c.val) (hup : up.val = c.val + 1) : s.Reaches ch up ↔
    s.Reaches ch c ∧ (s.tmr.get c).counter = 0xFFFF ∧ s.cascades up = true := by
  obtain ⟨d, hd⟩ := Nat.exists_eq_add_of_le hle
  have habove : up.val = ch.val + d + 1 := by omega
  rw [reaches_iff_tickReaches (d := d + 1) habove, reaches_iff_tickReaches hd, State.tickReaches, ofNat_four_eq hd,
    ofNat_four_eq habove]

/-- The first link of a chain. -/
theorem tickReaches_succ_iff (s : State) (n d : Nat) : s.tickReaches n (d + 1) ↔
    (s.tmr.get (Fin.ofNat 4 n)).counter = 0xFFFF ∧ s.cascades (Fin.ofNat 4 (n + 1)) = true ∧ s.tickReaches (n + 1) d := by
  induction d with
  | zero => simp [State.tickReaches]
  | succ d ih =>
    rw [State.tickReaches, ih, State.tickReaches, show n + 1 + d = n + (d + 1) by omega]
    simp only [and_assoc]

/-- A tick reaches another channel than its own by an overflow into the channel above, and a tick of that channel. -/
theorem reaches_iff_of_ne (hne : c ≠ ch) : s.Reaches ch c ↔ ∃ up : Fin 4, up.val = ch.val + 1 ∧
    (s.tmr.get ch).counter = 0xFFFF ∧ s.cascades up = true ∧ s.Reaches up c := by
  have hval : c.val ≠ ch.val := fun h => hne (Fin.ext h)
  by_cases hle : ch.val + 1 ≤ c.val
  · obtain ⟨d, hd⟩ := Nat.exists_eq_add_of_le hle
    let up : Fin 4 := ⟨ch.val + 1, by omega⟩
    have hreach : s.Reaches ch c ↔ (s.tmr.get ch).counter = 0xFFFF ∧ s.cascades up = true ∧ s.Reaches up c := by
      rw [reaches_iff_tickReaches (ch := ch) (d := d + 1) (by omega), tickReaches_succ_iff, ofNat_four_eq rfl,
        ofNat_four_eq (c := up) rfl, reaches_iff_tickReaches (ch := up) hd]
    refine hreach.trans ⟨fun h => ⟨up, rfl, h⟩, fun ⟨up', hup, h⟩ => ?_⟩
    obtain rfl : up' = up := Fin.ext hup
    exact h
  · exact ⟨fun h => absurd h.le (by omega), fun ⟨_, hup, _, _, h⟩ => absurd h.le (by omega)⟩

theorem tickReaches_congr {n d : Nat} (hn : n + d < 4)
    (hcounter : ∀ c : Fin 4, n ≤ c.val → (t.tmr.get c).counter = (s.tmr.get c).counter)
    (hcascades : ∀ c, t.cascades c = s.cascades c) : t.tickReaches n d ↔ s.tickReaches n d := by
  induction d with
  | zero => exact Iff.rfl
  | succ d ih =>
    have hval : (Fin.ofNat 4 (n + d)).val = n + d := Nat.mod_eq_of_lt (by omega)
    rw [State.tickReaches, State.tickReaches, ih (by omega), hcounter _ (by omega), hcascades]

/-- Where a tick goes depends on the counters from its channel up, and on which channels cascade. -/
theorem reaches_congr (hcounter : ∀ d : Fin 4, ch.val ≤ d.val → (t.tmr.get d).counter = (s.tmr.get d).counter)
    (hcascades : ∀ d, t.cascades d = s.cascades d) : t.Reaches ch c ↔ s.Reaches ch c :=
  exists_congr fun _ => and_congr_right fun hd => tickReaches_congr (by omega) hcounter hcascades

/-! #### What a tick leaves -/

/-- A timer after one count: one more, or, from 0xFFFF, its reload value. -/
def Timer.counted (l : Timer) : Timer :=
  { l with counter := if l.counter = 0xFFFF then l.reload else l.counter + 1 }

/-- Channel `c` raises its interrupt in a tick of channel `ch`: it is reached, overflows, and asks for it. -/
def State.TickRaises (s : State) (ch c : Fin 4) : Prop :=
  s.Reaches ch c ∧ (s.tmr.get c).counter = 0xFFFF ∧ TmrCtl.irq (s.tmrCtl c) = true

/-- What a tick of channel `ch` leaves where no handler takes an interrupt of it: the channels it reaches have counted, and
those of them that overflow have raised what they ask for. -/
structure Ticked (ch : Fin 4) (s t : State) : Prop where
  reached : ∀ c, s.Reaches ch c → t.tmr.get c = (s.tmr.get c).counted
  others : ∀ c, ¬s.Reaches ch c → t.tmr.get c = s.tmr.get c
  raised : ∃ R, (∀ i, i ∈ R ↔ ∃ c, i = timerSource c ∧ s.TickRaises ch c) ∧ Raised R s t

theorem timerSource_inj {d : Fin 4} : timerSource c = timerSource d ↔ c = d := by
  simp only [timerSource, Fin.mk.injEq, Nat.add_left_cancel_iff, Fin.val_inj]

theorem Raised.tmrCtl (h : Raised R s t) (c : Fin 4) : t.tmrCtl c = s.tmrCtl c := h.x (by revert c; decide)

theorem Raised.cascades (h : Raised R s t) (c : Fin 4) : t.cascades c = s.cascades c := by
  rw [State.cascades, h.tmrCtl, State.cascades]

/-- Events write no memory. -/
theorem Raised.sameBytes (h : Raised R s t) : SameBytes s t := by
  rw [h.rest]
  exact ⟨fun _ => rfl, fun _ => rfl, fun _ => rfl, fun _ => rfl⟩

/-- No delivery of a timer's interrupt stops at a handler. -/
def State.TimersUnhandled (s : State) : Prop := s.ime = false ∨ ∀ c : Fin 4, s.cfg.handlerOf (timerSource c) = .absent

theorem Raised.timersUnhandled (h : Raised R s t) (hs : s.TimersUnhandled) : t.TimersUnhandled := by
  rw [State.TimersUnhandled, h.ime, h.cfg]
  exact hs

/-- One event, or none, of a source that no handler takes. -/
theorem raised_of_event {i : Fin nIrq} {E : Prop} [Decidable E]
    (hx : ∀ o, t.x o = if o = Reg.irf ∧ E then withBit (s.x Reg.irf) i.val (!s.deliverable i) else s.x o)
    (hrest : t = { s with
      regs := t.regs
      tmr := t.tmr
      waits := if E ∧ s.deliverable i = true then recordAck (1#14 <<< i.val) s.waits else s.waits }) :
    Raised (if E then {i} else ∅) s t := by
  have hwaits : t.waits = if E ∧ s.deliverable i = true then recordAck (1#14 <<< i.val) s.waits else s.waits := by
    rw [hrest]
  refine ⟨fun o ho => by rw [hx, if_neg fun h => ho (by simp [h.1])], fun j => ?_, ?_, by rw [hrest]⟩
  · rw [State.pending, hx]
    by_cases hE : E
    · simp only [hE, and_self, if_true, Finset.mem_singleton, withBit_getLsbD_lt (source_lt_sixteen i), Fin.val_inj]
      split
      · next h => rw [h]
      · rfl
    · simp only [hE, and_false, if_false, Finset.notMem_empty]
      rfl
  · by_cases h : E ∧ s.deliverable i = true
    · refine ⟨1#14 <<< i.val, fun j => ?_, by rw [hwaits, if_pos h]⟩
      rw [getLsbD_one_shift, if_pos h.1]
      by_cases hj : j = i
      · simp [hj, h.2]
      · simp [hj, Fin.val_inj]
    · refine ⟨0, fun j => ?_, by rw [hwaits, if_neg h, recordAck_zero]⟩
      by_cases hj : j = i
      · subst hj
        by_cases hE : E
        · simpa [hE] using h
        · simp [hE]
      · by_cases hE : E <;> simp [hE, hj]

/-- `TMR_TICK` of every channel is one count, with its cascade. -/
theorem tmrTick_eq (s : State) (ch : Fin 4) : tmrTick s ch = tmrCount ch (fun t => tickCascade t ch) s := by
  fin_cases ch <;> rfl

/-- The event of a count of channel `ch` itself. -/
def State.countEvent (s : State) (ch : Fin 4) : Finset (Fin nIrq) :=
  if (s.tmr.get ch).counter = 0xFFFF ∧ TmrCtl.irq (s.tmrCtl ch) = true then {timerSource ch} else ∅

theorem mem_countEvent {i : Fin nIrq} : i ∈ s.countEvent ch ↔ i = timerSource ch ∧ s.TickRaises ch ch := by
  unfold State.countEvent State.TickRaises
  split
  · next h => rw [Finset.mem_singleton, and_iff_left ⟨reaches_self s ch, h⟩]
  · next h => exact iff_of_false (Finset.notMem_empty i) fun hi => h hi.2.2

/-- One count of channel `ch`, before its cascade, where no handler takes its interrupt. -/
structure CountedOnce (ch : Fin 4) (s t : State) : Prop where
  timer : t.tmr.get ch = (s.tmr.get ch).counted
  others : ∀ c, c ≠ ch → t.tmr.get c = s.tmr.get c
  raised : Raised (s.countEvent ch) s t

theorem exists_countedOnce (hs : s.TimersUnhandled) (ch : Fin 4) : ∃ t, CountedOnce ch s t ∧
    tmrTick s ch = if (s.tmr.get ch).counter = 0xFFFF then tickCascade t ch else .done t := by
  obtain ⟨t, hrun, hx, htmr, hrest⟩ := tmrCount_completes s (ch := ch) (hs.imp_right fun h => h ch)
  refine ⟨t, ⟨?_, fun c hc => (htmr c).trans (if_neg hc), raised_of_event hx ?_⟩, (tmrTick_eq s ch).trans (hrun _)⟩
  · rw [htmr, if_pos rfl, Timer.counted]
  · simpa only [and_assoc] using hrest

/-- A count whose cascade ends at its own channel is a whole tick. -/
theorem CountedOnce.ticked_of_stop (h : CountedOnce ch s t) (hstop : ∀ c, s.Reaches ch c ↔ c = ch) : Ticked ch s t where
  reached c hc := by rw [(hstop c).mp hc, h.timer]
  others c hc := h.others c fun hch => hc ((hstop c).mpr hch)
  raised := by
    refine ⟨_, fun i => mem_countEvent.trans ⟨fun hi => ⟨ch, hi⟩, fun ⟨c, hi, hc⟩ => ?_⟩, h.raised⟩
    obtain rfl : c = ch := (hstop c).mp hc.1
    exact ⟨hi, hc⟩

/-- A count that overflows into a channel that cascades goes on as a tick of that channel. -/
theorem CountedOnce.ticked_of_cascade (h : CountedOnce ch s t) (hup : up.val = ch.val + 1)
    (hov : (s.tmr.get ch).counter = 0xFFFF) (hcas : s.cascades up = true) (hu : Ticked up t u) : Ticked ch s u := by
  have hne {c : Fin 4} (hc : t.Reaches up c) : c ≠ ch := fun hch => by
    have := hc.le
    rw [hch] at this
    omega
  have hreach (c : Fin 4) : s.Reaches ch c ↔ c = ch ∨ t.Reaches up c := by
    rw [reaches_congr (fun d hd => by rw [h.others d fun hch => by rw [hch] at hd; omega]) h.raised.cascades]
    by_cases hc : c = ch
    · subst hc
      exact iff_of_true (reaches_self s c) (.inl rfl)
    · rw [reaches_iff_of_ne hc, or_iff_right hc]
      refine ⟨fun ⟨up', hup', _, _, h⟩ => ?_, fun h => ⟨up, hup, hov, hcas, h⟩⟩
      obtain rfl : up' = up := Fin.ext (hup'.trans hup.symm)
      exact h
  refine ⟨fun c hc => ?_, fun c hc => ?_, ?_⟩
  · rcases (hreach c).mp hc with rfl | hc
    · rw [hu.others c fun hc => hne hc rfl, h.timer]
    · rw [hu.reached c hc, h.others c (hne hc)]
  · rw [hreach, not_or] at hc
    rw [hu.others c hc.2, h.others c hc.1]
  · obtain ⟨R, hR, hru⟩ := hu.raised
    have hrest (c : Fin 4) (hc : c ≠ ch) : t.TickRaises up c ↔ s.TickRaises ch c := by
      rw [State.TickRaises, State.TickRaises, hreach, or_iff_right hc, h.others c hc, h.raised.tmrCtl]
    refine ⟨_, fun i => ?_, h.raised.trans hru⟩
    rw [Finset.mem_union, mem_countEvent, hR]
    constructor
    · rintro (hi | ⟨c, hi, hc⟩)
      · exact ⟨ch, hi⟩
      · exact ⟨c, hi, (hrest c (hne hc.1)).mp hc⟩
    · rintro ⟨c, hi, hc⟩
      by_cases hch : c = ch
      · subst hch
        exact .inl ⟨hi, hc⟩
      · exact .inr ⟨c, hi, (hrest c hch).mpr hc⟩

theorem tickCascade_of_above (t : State) (hup : up.val = ch.val + 1) :
    tickCascade t ch = if t.cascades up = true then tmrTick t up else .done t := by
  have habove : (⟨ch.val + 1, by omega⟩ : Fin 4) = up := Fin.ext hup.symm
  rw [tickCascade, dif_pos (by omega), habove]

theorem tickCascade_of_idle (h : ∀ up : Fin 4, up.val = ch.val + 1 → t.cascades up = false) : tickCascade t ch = .done t := by
  by_cases h3 : ch.val < 3
  · rw [tickCascade_of_above t (up := ⟨ch.val + 1, by omega⟩) rfl, h _ rfl]
    rfl
  · exact dif_neg h3

/-- A tick whose interrupts no handler takes completes (R214). -/
theorem exists_ticked (s : State) (hs : s.TimersUnhandled) (ch : Fin 4) : ∃ t, tmrTick s ch = .done t ∧ Ticked ch s t := by
  obtain ⟨t, hcount, hrun⟩ := exists_countedOnce hs ch
  by_cases hgo : ∃ up : Fin 4, up.val = ch.val + 1 ∧ (s.tmr.get ch).counter = 0xFFFF ∧ s.cascades up = true
  · obtain ⟨up, hup, hov, hcas⟩ := hgo
    obtain ⟨u, hu, htick⟩ := exists_ticked t (hcount.raised.timersUnhandled hs) up
    refine ⟨u, ?_, hcount.ticked_of_cascade hup hov hcas htick⟩
    rw [hrun, if_pos hov, tickCascade_of_above t hup, hcount.raised.cascades, if_pos hcas, hu]
  · have hstop (c : Fin 4) : s.Reaches ch c ↔ c = ch := by
      refine ⟨fun h => not_not.mp fun hc => hgo ?_, fun h => h ▸ reaches_self s ch⟩
      obtain ⟨up, hup, hov, hcas, _⟩ := (reaches_iff_of_ne hc).mp h
      exact ⟨up, hup, hov, hcas⟩
    refine ⟨t, ?_, hcount.ticked_of_stop hstop⟩
    rw [hrun]
    split
    · next hov =>
      refine tickCascade_of_idle fun up hup => ?_
      rw [hcount.raised.cascades]
      exact Bool.eq_false_iff.mpr fun hcas => hgo ⟨up, hup, hov, hcas⟩
    · rfl
termination_by 3 - ch.val

/-! #### A tick as an operation -/

theorem exec_tmrTick_of_count (h : (s.tmr.get ch).counter ≠ 0xFFFF) : exec (.tmrTick (BitVec.ofNat 8 ch.val)) s =
    .next (s.setTmr ch { s.tmr.get ch with counter := (s.tmr.get ch).counter + 1 }) := by
  rw [exec_tmrTick, tmrTick_eq, tmrCount, if_neg h]
  rfl

theorem timerSource_toNat (ch : Fin 4) : (BitVec.ofNat 8 (3 + ch.val)).toNat = (timerSource ch).val := by revert ch; decide

/-- At 0xFFFF the cascade is looked at where the interrupt's delivery leaves off. -/
theorem exec_tmrTick_of_overflow (hirq : 6 < s.cfg.irqCount.val) (h : (s.tmr.get ch).counter = 0xFFFF) :
    exec (.tmrTick (BitVec.ofNat 8 ch.val)) s =
      thenAt (onlyIf ((s.tmrCtl ch).getLsbD 6 = true) (exec (.irqRaise (BitVec.ofNat 8 (3 + ch.val))))) (.tickCascade ch)
        (cascadeRest ch) (s.setTmr ch { s.tmr.get ch with counter := (s.tmr.get ch).reload }) := by
  have hsource : (timerSource ch).val < s.cfg.irqCount.val := lt_of_le_of_lt (by simp only [timerSource]; omega) hirq
  rw [exec_tmrTick, tmrTick_eq, tmrCount, if_pos h]
  have hends : (tmrOverflow s ch).Ends (s.setTmr ch { s.tmr.get ch with counter := (s.tmr.get ch).reload }).shape :=
    tmrOverflow_ends ch rfl
  refine (thenAt_finish (r := tmrOverflow s ch) ?_ hends (Run.Stops.ite (raise_stops _ _) trivial)
    fun t _ => cascadeRest_eq ch t).symm
  exact onlyIf_finish (exec_irqRaise (timerSource_toNat ch) hsource)

theorem Run.NoFault.runs {r : Run} (h : r.NoFault) : ∃ t, r.finish = .next t := by
  cases r with
  | done t => exact ⟨t, rfl⟩
  | susp t ks => exact ⟨_, rfl⟩
  | fault e => exact h.elim

theorem tickRaises_iff {d : Nat} (h : ch.val + d < 4) : s.TickRaises ch ⟨ch.val + d, h⟩ ↔ s.tickReaches ch.val d ∧
    (s.tmr.get (Fin.ofNat 4 (ch.val + d))).counter = 0xFFFF ∧ (s.tmrCtl (Fin.ofNat 4 (ch.val + d))).getLsbD 6 = true := by
  rw [State.TickRaises, reaches_iff_tickReaches rfl, ofNat_four_eq (c := ⟨ch.val + d, h⟩) rfl]
  rfl

/-- The sources of a tick, by their distance from the channel that ticks. -/
theorem exists_tickRaises_iff {j : Fin nIrq} : (∃ c, j = timerSource c ∧ s.TickRaises ch c) ↔
    ∃ d, ch.val + d < 4 ∧ j.val = 3 + ch.val + d ∧ s.tickReaches ch.val d ∧
      (s.tmr.get (Fin.ofNat 4 (ch.val + d))).counter = 0xFFFF ∧
      (s.tmrCtl (Fin.ofNat 4 (ch.val + d))).getLsbD 6 = true := by
  constructor
  · rintro ⟨c, rfl, hc⟩
    obtain ⟨d, hd⟩ := Nat.exists_eq_add_of_le hc.1.le
    have h : ch.val + d < 4 := hd ▸ c.isLt
    have hcd : c = ⟨ch.val + d, h⟩ := Fin.ext hd
    exact ⟨d, h, by simp only [timerSource]; omega, (tickRaises_iff h).mp (hcd ▸ hc)⟩
  · rintro ⟨d, h, hj, hraised⟩
    exact ⟨⟨ch.val + d, h⟩, Fin.ext (by simp only [timerSource]; omega), (tickRaises_iff h).mpr hraised⟩

/-- A mask that names the events' deliverable sources is what the wait frames record. -/
theorem Raised.waits_of_mask (h : Raised R s t) {m : BitVec 14}
    (hm : ∀ j : Fin nIrq, m.getLsbD j.val = true ↔ s.deliverable j = true ∧ j ∈ R) : t.waits = recordAck m s.waits := by
  obtain ⟨k, hk, hw⟩ := h.waits
  have hmk : m = k := BitVec.eq_of_getLsbD_eq fun j hj => by
    rw [hk ⟨j, hj⟩, Bool.eq_iff_iff, hm ⟨j, hj⟩, Bool.and_eq_true, decide_eq_true_eq, and_comm]
  rw [hw, hmk]

/-- Settles O28: every tick runs; a count and an overflow by themselves; and, by `exists_ticked`, the whole cascade where no
handler takes its interrupts. -/
theorem tickMovesTheCascadeChain : Obligations.TickMovesTheCascadeChain := by
  refine ⟨fun s ch => ⟨?_, (tickSlots_noFault _ s).runs⟩,
    fun s ch hirq => ⟨exec_tmrTick_of_count, exec_tmrTick_of_overflow hirq⟩, fun s ch hs => ?_⟩
  · rw [Runs, exec_tmrTick]
    exact (tickUp_noFault _ s).runs
  · obtain ⟨t, hrun, htick⟩ := exists_ticked s hs ch
    obtain ⟨R, hR, hraised⟩ := htick.raised
    have hmem {d : Nat} (h : ch.val + d < 4) : timerSource ⟨ch.val + d, h⟩ ∈ R ↔ s.TickRaises ch ⟨ch.val + d, h⟩ := by
      simp only [hR, timerSource_inj, exists_eq_left']
    refine ⟨t, ?_, fun c hc => htick.others c fun h => absurd h.le (by omega), fun d h => ⟨fun hd => ?_, fun hd => ?_,
      fun hd => ?_, fun hd => ?_⟩, fun i hi => ?_, fun m hm => hraised.waits_of_mask fun j => ?_, hraised.regs,
      hraised.sameBytes, hraised.rest⟩
    · rw [exec_tmrTick, hrun]
      rfl
    · exact htick.reached _ ((reaches_iff_tickReaches rfl).mpr hd)
    · exact htick.others _ fun hr => hd ((reaches_iff_tickReaches rfl).mp hr)
    · rw [hraised.pending, if_pos ((hmem h).mpr ((tickRaises_iff h).mpr hd))]
    · rw [hraised.pending, if_neg fun hi => hd ((tickRaises_iff h).mp ((hmem h).mp hi))]
    · rw [hraised.pending, if_neg]
      rw [hR, exists_tickRaises_iff]
      rintro ⟨d, h, hd, -⟩
      omega
    · rw [hm, hR, exists_tickRaises_iff]

end Sys2Proof.Machine

end

/-! ### A line of ticks in closed form (`43_timers.md` R213, R215) -/

section

namespace Sys2Proof.Machine

variable {s t u : State} {ch c up : Fin 4} {N turns : Fin 4 → Nat}

/-! #### Counting with a remainder -/

/-- One more unit divided: the remainder grows, or wraps into the quotient. -/
theorem div_mod_add_one (m : Nat) {d : Nat} (hd : 0 < d) : (m + 1) / d = (if m % d + 1 = d then m / d + 1 else m / d) ∧
    (m + 1) % d = if m % d + 1 = d then 0 else m % d + 1 := by
  have hsum := Nat.mod_add_div m d
  have hlt := Nat.mod_lt m hd
  rw [Nat.div_mod_unique hd]
  split
  · next h => exact ⟨by rw [Nat.mul_add]; omega, hd⟩
  · next h => exact ⟨by omega, by omega⟩

/-- One more count of a counter with a reload value. -/
theorem counterAfter_add_one {c r : Nat} (hc : c < 65536) (hr : r < 65536) (n : Nat) :
    counterAfter c r (n + 1) = (if counterAfter c r n = 65535 then r else counterAfter c r n + 1) ∧
    overflowsIn c r (n + 1) = if counterAfter c r n = 65535 then overflowsIn c r n + 1 else overflowsIn c r n := by
  unfold counterAfter overflowsIn
  by_cases hn : n < 65536 - c
  · by_cases hlast : n + 1 < 65536 - c
    · simp only [hn, hlast, if_true, show ¬c + n = 65535 by omega, if_false]
      exact ⟨by omega, trivial⟩
    · have hzero : n + 1 - (65536 - c) = 0 := by omega
      simp only [hn, hlast, hzero, if_true, if_false, show c + n = 65535 by omega, Nat.zero_mod, Nat.zero_div]
      exact ⟨rfl, trivial⟩
  · obtain ⟨m, rfl⟩ := Nat.exists_eq_add_of_le (Nat.le_of_not_lt hn)
    obtain ⟨hdiv, hmod⟩ := div_mod_add_one m (d := 65536 - r) (by omega)
    have hlast : ¬65536 - c + m + 1 < 65536 - c := by omega
    have hiff : r + m % (65536 - r) = 65535 ↔ m % (65536 - r) + 1 = 65536 - r := by omega
    simp only [hn, hlast, if_false, Nat.add_sub_cancel_left, show 65536 - c + m + 1 - (65536 - c) = m + 1 by omega, hdiv,
      hmod, hiff]
    split
    · exact ⟨rfl, by omega⟩
    · exact ⟨by omega, rfl⟩

/-- A timer's overflows in `n` counts. -/
abbrev Timer.overflows (l : Timer) (n : Nat) : Nat := overflowsIn l.counter.toNat l.reload.toNat n

/-- Where a timer's counter stands after `n` counts. -/
abbrev Timer.countAfter (l : Timer) (n : Nat) : Nat := counterAfter l.counter.toNat l.reload.toNat n

theorem Timer.countAfter_add_one (l : Timer) (n : Nat) :
    l.countAfter (n + 1) = if l.countAfter n = 65535 then l.reload.toNat else l.countAfter n + 1 :=
  (counterAfter_add_one l.counter.isLt l.reload.isLt n).1

theorem Timer.overflows_add_one (l : Timer) (n : Nat) :
    l.overflows (n + 1) = if l.countAfter n = 65535 then l.overflows n + 1 else l.overflows n :=
  (counterAfter_add_one l.counter.isLt l.reload.isLt n).2

theorem Timer.countAfter_zero (l : Timer) : l.countAfter 0 = l.counter.toNat :=
  if_pos (by omega)

theorem Timer.overflows_zero (l : Timer) : l.overflows 0 = 0 := if_pos (by omega)

theorem eq_ffff_iff (v : Half) : v = 0xFFFF ↔ v.toNat = 65535 := by
  rw [BitVec.toNat_eq]
  rfl

theorem Timer.toNat_counter_counted (l : Timer) : l.counted.counter.toNat =
    if l.counter.toNat = 65535 then l.reload.toNat else l.counter.toNat + 1 := by
  have hlt := l.counter.isLt
  simp only [Timer.counted, eq_ffff_iff]
  split
  · rfl
  · rw [BitVec.toNat_add]
    exact Nat.mod_eq_of_lt (show l.counter.toNat + 1 < 65536 by omega)

/-! #### The counts each channel has received -/

/-- The prescaler's divisor of channel `c`. -/
def State.divisor (s : State) (c : Fin 4) : Nat := TmrCtl.div (TmrCtl.prescaler (s.tmrCtl c))

theorem divisor_pos (s : State) (c : Fin 4) : 0 < s.divisor c := TmrCtl.div_pos _

theorem divisor_le (s : State) (c : Fin 4) : s.divisor c ≤ 1024 := div_le_coarsest _

/-- `N` is how many counts each channel has received after `turns` turns of the channels (R215). -/
structure Received (s : State) (turns N : Fin 4 → Nat) : Prop where
  own : ∀ c, s.ownTicks c = true →
    N c = ((s.tmr.get c).prescAcc.toNat + turns c) / s.divisor c
  cascades : ∀ c up : Fin 4, up.val = c.val + 1 → s.cascades up = true →
    N up = (s.tmr.get c).overflows (N c)
  idle : ∀ c, s.ownTicks c = false → (c.val = 0 ∨ s.cascades c = false) → N c = 0

theorem ownTicks_eq_false_of_cascades (hpos : 0 < c.val) (h : s.cascades c = true) : s.ownTicks c = false := by
  rw [State.cascades, Bool.and_eq_true] at h
  simp [State.ownTicks, h.2, Nat.pos_iff_ne_zero.mp hpos]

/-- The counts of a whole line are the closed form's. -/
theorem Received.eq_lineCounts (h : Received s (fun _ => s.cfg.cyclesPerLine) N) : ∀ (n : Nat) (c : Fin 4), c.val = n →
    N c = s.lineCounts n := by
  intro n
  induction n with
  | zero =>
    intro c hc
    obtain rfl : c = 0 := Fin.ext hc
    rw [State.lineCounts]
    split
    · next ho => exact h.own _ ho
    · next ho => exact h.idle _ (Bool.eq_false_iff.mpr ho) (.inl rfl)
  | succ n ih =>
    intro up hup
    let c : Fin 4 := ⟨n, by omega⟩
    rw [State.lineCounts, ofNat_four_eq hup, ofNat_four_eq (c := c) rfl]
    split
    · next ho => exact h.own _ ho
    · next ho =>
      split
      · next hcas => rw [h.cascades c up hup hcas, ih c rfl]
      · next hcas => exact h.idle _ (Bool.eq_false_iff.mpr ho) (.inr (Bool.eq_false_iff.mpr hcas))

/-- Before the first turn no channel has received a count. -/
theorem received_zero (hacc : s.AccInRange) : Received s (fun _ => 0) (fun _ => 0) where
  own c ho := (Nat.div_eq_of_lt (hacc c ho)).symm
  cascades _ _ _ _ := (Timer.overflows_zero _).symm
  idle _ _ _ := rfl

/-- One turn more of channel `ch`. -/
def addTurn (ch : Fin 4) (turns : Fin 4 → Nat) (c : Fin 4) : Nat := if c = ch then turns c + 1 else turns c

/-- A turn in which channel `ch` takes no tick of its own gives no counts. -/
theorem Received.of_no_tick (h : Received s turns N) (hno : s.ownTicks ch = true →
    ((s.tmr.get ch).prescAcc.toNat + turns ch) % s.divisor ch + 1 ≠ s.divisor ch) : Received s (addTurn ch turns) N where
  own c ho := by
    rw [h.own c ho, addTurn]
    split
    · next hc =>
      subst hc
      rw [← Nat.add_assoc, (div_mod_add_one _ (divisor_pos s c)).1, if_neg (hno ho)]
    · rfl
  cascades := h.cascades
  idle := h.idle

open Classical in
/-- The counts received with those of a tick of channel `ch` in state `t`. -/
noncomputable def addTick (t : State) (ch : Fin 4) (N : Fin 4 → Nat) (c : Fin 4) : Nat :=
  if t.Reaches ch c then N c + 1 else N c

theorem addTick_of_reaches (h : t.Reaches ch c) : addTick t ch N c = N c + 1 := if_pos h

theorem addTick_of_not_reaches (h : ¬t.Reaches ch c) : addTick t ch N c = N c := if_neg h

/-- A channel that another's tick reaches cascades. -/
theorem State.Reaches.cascades_of_ne (h : s.Reaches ch c) (hne : c ≠ ch) : 0 < c.val ∧ s.cascades c = true := by
  have hlt : ch.val < c.val := lt_of_le_of_ne h.le fun hv => hne (Fin.ext hv.symm)
  let below : Fin 4 := ⟨c.val - 1, by omega⟩
  have hup : c.val = below.val + 1 := by simp only [below]; omega
  exact ⟨by omega, ((reaches_above_iff (by simp only [below]; omega) hup).mp h).2.2⟩

/-- `t` is where the timers of `s` stand after `N` counts of each channel, with their events and no others. -/
structure Counted (s : State) (N : Fin 4 → Nat) (t : State) : Prop where
  reload : ∀ c, (t.tmr.get c).reload = (s.tmr.get c).reload
  counter : ∀ c, (t.tmr.get c).counter.toNat = (s.tmr.get c).countAfter (N c)
  raised : ∃ R, (∀ i, i ∈ R ↔ ∃ c, i = timerSource c ∧ 0 < (s.tmr.get c).overflows (N c) ∧
    TmrCtl.irq (s.tmrCtl c) = true) ∧ Raised R s t

theorem Counted.cascades (h : Counted s N t) (c : Fin 4) : t.cascades c = s.cascades c := by
  obtain ⟨R, _, hR⟩ := h.raised
  exact hR.cascades c

theorem Counted.tmrCtl (h : Counted s N t) (c : Fin 4) : t.tmrCtl c = s.tmrCtl c := by
  obtain ⟨R, _, hR⟩ := h.raised
  exact hR.tmrCtl c

theorem Counted.ime (h : Counted s N t) : t.ime = s.ime := by
  obtain ⟨R, _, hR⟩ := h.raised
  exact hR.ime

theorem Counted.counter_eq_ffff_iff (h : Counted s N t) : (t.tmr.get c).counter = 0xFFFF ↔
    (s.tmr.get c).countAfter (N c) = 65535 := by
  rw [eq_ffff_iff, h.counter]

theorem counted_zero (s : State) : Counted s (fun _ => 0) s where
  reload _ := rfl
  counter c := (Timer.countAfter_zero _).symm
  raised := ⟨∅, fun i => by simp [Timer.overflows_zero], .refl s⟩

/-- The accumulators are not part of it. -/
theorem Counted.setPrescAcc (h : Counted s N t) (ch : Fin 4) (v : BitVec 10) :
    Counted s N (t.setTmr ch { t.tmr.get ch with prescAcc := v }) := by
  obtain ⟨R, hR, hraised⟩ := h.raised
  have htmr (c : Fin 4) : (t.setTmr ch { t.tmr.get ch with prescAcc := v }).tmr.get c =
      { t.tmr.get c with prescAcc := if c = ch then v else (t.tmr.get c).prescAcc } := by
    rw [State.setTmr_tmr, Four.get_set]
    split
    · next hc => rw [hc]
    · rfl
  refine ⟨fun c => ?_, fun c => ?_, R, hR, hraised.regs, hraised.pending, hraised.waits, ?_⟩
  · rw [htmr]
    exact h.reload c
  · rw [htmr]
    exact h.counter c
  · exact congrArg (fun w : State => w.setTmr ch _) hraised.rest

/-- A tick is a count of every channel it reaches. -/
theorem Counted.tick (h : Counted s N t) (hu : Ticked ch t u) : Counted s (addTick t ch N) u := by
  refine ⟨fun c => ?_, fun c => ?_, ?_⟩
  · by_cases hc : t.Reaches ch c
    · rw [hu.reached c hc]
      exact h.reload c
    · rw [hu.others c hc, h.reload]
  · by_cases hc : t.Reaches ch c
    · rw [hu.reached c hc, addTick_of_reaches hc, Timer.toNat_counter_counted, Timer.countAfter_add_one, h.counter, h.reload]
    · rw [hu.others c hc, addTick_of_not_reaches hc, h.counter]
  · obtain ⟨R, hR, hst⟩ := h.raised
    obtain ⟨R', hR', htu⟩ := hu.raised
    have hevents (c : Fin 4) : (0 < (s.tmr.get c).overflows (addTick t ch N c) ∧ TmrCtl.irq (s.tmrCtl c) = true) ↔
        (0 < (s.tmr.get c).overflows (N c) ∧ TmrCtl.irq (s.tmrCtl c) = true) ∨ t.TickRaises ch c := by
      rw [State.TickRaises, h.counter_eq_ffff_iff, h.tmrCtl]
      by_cases hc : t.Reaches ch c
      · rw [addTick_of_reaches hc, Timer.overflows_add_one]
        by_cases hlast : (s.tmr.get c).countAfter (N c) = 65535
        · simp only [hlast, hc, if_true, true_and, Nat.succ_pos]
          tauto
        · simp [hlast]
      · simp [addTick_of_not_reaches hc, hc]
    refine ⟨_, fun i => ?_, hst.trans htu⟩
    simp only [Finset.mem_union, hR, hR', hevents, and_or_left, exists_or]

/-- A tick of a channel whose accumulator reaches its divisor. -/
theorem Received.tick (h : Received s turns N) (ht : Counted s N t) (hown : s.ownTicks ch = true)
    (hdiv : ((s.tmr.get ch).prescAcc.toNat + turns ch) % s.divisor ch + 1 = s.divisor ch) :
    Received s (addTurn ch turns) (addTick t ch N) := by
  have hreach (c : Fin 4) (hne : c ≠ ch) (hc : t.Reaches ch c) : 0 < c.val ∧ s.cascades c = true :=
    ht.cascades c ▸ hc.cascades_of_ne hne
  refine ⟨fun c ho => ?_, fun c up hup hcas => ?_, fun c ho hidle => ?_⟩
  · by_cases hc : c = ch
    · subst hc
      rw [addTick_of_reaches (reaches_self t c), addTurn, if_pos rfl, ← Nat.add_assoc,
        (div_mod_add_one _ (divisor_pos s c)).1, if_pos hdiv, h.own c ho]
    · rw [addTurn, if_neg hc, addTick_of_not_reaches, h.own c ho]
      intro hr
      obtain ⟨hpos, hcas⟩ := hreach c hc hr
      exact absurd ho (Bool.eq_false_iff.mp (ownTicks_eq_false_of_cascades hpos hcas))
  · have hne : up ≠ ch := fun hch => by
      subst hch
      exact absurd hown (Bool.eq_false_iff.mp (ownTicks_eq_false_of_cascades (by omega) hcas))
    have hlink : t.Reaches ch up ↔ t.Reaches ch c ∧ (s.tmr.get c).countAfter (N c) = 65535 := by
      by_cases hle : ch.val ≤ c.val
      · rw [reaches_above_iff hle hup, ht.counter_eq_ffff_iff, ht.cascades, hcas, and_iff_left rfl]
      · refine iff_of_false (fun hr => hne (Fin.ext ?_)) fun hr => hle hr.1.le
        have := hr.le
        omega
    by_cases hc : t.Reaches ch c
    · rw [addTick_of_reaches hc, Timer.overflows_add_one, ← h.cascades c up hup hcas]
      by_cases hlast : (s.tmr.get c).countAfter (N c) = 65535
      · rw [addTick_of_reaches (hlink.mpr ⟨hc, hlast⟩), if_pos hlast]
      · rw [addTick_of_not_reaches fun hr => hlast (hlink.mp hr).2, if_neg hlast]
    · rw [addTick_of_not_reaches hc, addTick_of_not_reaches fun hr => hc (hlink.mp hr).1, h.cascades c up hup hcas]
  · have hne : c ≠ ch := fun hch => by
      rw [hch, hown] at ho
      cases ho
    rw [addTick_of_not_reaches, h.idle c ho hidle]
    intro hr
    obtain ⟨hpos, hcas⟩ := hreach c hne hr
    rcases hidle with h0 | hcas'
    · omega
    · rw [hcas] at hcas'
      cases hcas'

/-! #### The turns of a line -/

/-- `t` is where a line that started in `s` stands after `turns` turns of the channels: their accumulators, and the counts
`N` they have received. -/
structure LineAt (s : State) (turns N : Fin 4 → Nat) (t : State) : Prop where
  received : Received s turns N
  counted : Counted s N t
  acc : ∀ c, (t.tmr.get c).prescAcc.toNat = if s.ownTicks c = true then
    ((s.tmr.get c).prescAcc.toNat + turns c) % s.divisor c else (s.tmr.get c).prescAcc.toNat

theorem lineAt_start (hacc : s.AccInRange) : LineAt s (fun _ => 0) (fun _ => 0) s where
  received := received_zero hacc
  counted := counted_zero s
  acc c := by
    split
    · next ho => exact (Nat.mod_eq_of_lt (hacc c ho)).symm
    · rfl

theorem Ticked.prescAcc (h : Ticked ch s t) (c : Fin 4) : (t.tmr.get c).prescAcc = (s.tmr.get c).prescAcc := by
  by_cases hc : s.Reaches ch c
  · rw [h.reached c hc, Timer.counted]
  · rw [h.others c hc]

/-- One turn of channel `ch` (R213). -/
theorem tickSlot_eq (t : State) (ch : Fin 4) : tickSlot t ch = if t.ownTicks ch = true then
    (if t.divisor ch ≤ (t.tmr.get ch).prescAcc.toNat + 1 then tmrTick (t.setTmr ch { t.tmr.get ch with prescAcc := 0 }) ch
      else .done (t.setTmr ch { t.tmr.get ch with prescAcc := (t.tmr.get ch).prescAcc + 1 }))
    else .done t := rfl

/-- The accumulators after a turn of channel `ch` that leaves `v` in its own. -/
theorem LineAt.acc_addTurn (h : LineAt s turns N t) (hown : s.ownTicks ch = true) {v : BitVec 10}
    (hv : v.toNat = ((s.tmr.get ch).prescAcc.toNat + turns ch + 1) % s.divisor ch) (c : Fin 4) :
    ((t.setTmr ch { t.tmr.get ch with prescAcc := v }).tmr.get c).prescAcc.toNat = if s.ownTicks c = true then
      ((s.tmr.get c).prescAcc.toNat + addTurn ch turns c) % s.divisor c else (s.tmr.get c).prescAcc.toNat := by
  rw [State.setTmr_tmr, Four.get_set, addTurn]
  split
  · next hc =>
    subst hc
    rw [if_pos hown]
    exact hv
  · exact h.acc c

/-- A turn where the master enable is clear. -/
theorem LineAt.turn (hime : s.ime = false) (h : LineAt s turns N t) (ch : Fin 4) :
    ∃ u N', tickSlot t ch = .done u ∧ LineAt s (addTurn ch turns) N' u := by
  have hctl := h.counted.tmrCtl ch
  have hown : t.ownTicks ch = s.ownTicks ch := by rw [State.ownTicks, hctl, State.ownTicks]
  have hdivisor : t.divisor ch = s.divisor ch := by rw [State.divisor, hctl, State.divisor]
  rw [tickSlot_eq, hown, hdivisor]
  cases ho : s.ownTicks ch with
  | false =>
    refine ⟨t, N, rfl, ⟨h.received.of_no_tick fun h1 => absurd (ho.symm.trans h1) (by decide), h.counted, fun c => ?_⟩⟩
    rw [h.acc, addTurn]
    split
    · next hc => rw [if_neg fun hch => absurd (ho.symm.trans (hch ▸ hc)) (by decide)]
    · rfl
  | true =>
    have hacc := h.acc ch
    rw [if_pos ho] at hacc
    have hlt := Nat.mod_lt ((s.tmr.get ch).prescAcc.toNat + turns ch) (divisor_pos s ch)
    have hnext := (div_mod_add_one ((s.tmr.get ch).prescAcc.toNat + turns ch) (divisor_pos s ch)).2
    rw [if_pos rfl, hacc]
    by_cases hdiv : ((s.tmr.get ch).prescAcc.toNat + turns ch) % s.divisor ch + 1 = s.divisor ch
    · rw [if_pos hdiv] at hnext
      rw [if_pos hdiv.ge]
      have hcleared := h.counted.setPrescAcc ch 0
      obtain ⟨u, hu, htick⟩ := exists_ticked (t.setTmr ch { t.tmr.get ch with prescAcc := 0 })
        (.inl (hcleared.ime.trans hime)) ch
      refine ⟨u, _, hu, ⟨h.received.tick hcleared ho hdiv, hcleared.tick htick, fun c => ?_⟩⟩
      rw [htick.prescAcc, h.acc_addTurn ho (v := 0) hnext.symm]
    · rw [if_neg hdiv] at hnext
      rw [if_neg (by omega)]
      refine ⟨_, N, rfl, ⟨h.received.of_no_tick fun _ => hdiv, h.counted.setPrescAcc ch _, h.acc_addTurn ho ?_⟩⟩
      have hle := divisor_le s ch
      rw [hnext, BitVec.toNat_add, hacc]
      exact Nat.mod_eq_of_lt (show _ + 1 < 1024 by omega)

/-- The turns each channel has had in a line of `cycles` cycles with `n` turns to come. -/
def turnsBefore (cycles n : Nat) (c : Fin 4) : Nat := cycles - (n + c.val) / 4

theorem addTurn_turnsBefore {cycles n : Nat} (hn : n + 1 ≤ 4 * cycles) :
    addTurn (slotChannel n) (turnsBefore cycles (n + 1)) = turnsBefore cycles n := by
  funext c
  simp only [addTurn, turnsBefore, slotChannel, Fin.ext_iff]
  split <;> omega

/-- The rest of a line. -/
theorem LineAt.rest {cycles : Nat} (hime : s.ime = false) (n : Nat) (hn : n ≤ 4 * cycles)
    (h : LineAt s (turnsBefore cycles n) N t) : ∃ u N', tickSlots n t = .done u ∧ LineAt s (fun _ => cycles) N' u := by
  induction n generalizing N t with
  | zero =>
    have hall : turnsBefore cycles 0 = fun _ => cycles := funext fun c => by simp only [turnsBefore]; omega
    exact ⟨t, N, rfl, hall ▸ h⟩
  | succ n ih =>
    obtain ⟨v, N', hv, hline⟩ := h.turn hime (slotChannel n)
    rw [addTurn_turnsBefore hn] at hline
    obtain ⟨u, N'', hu, hend⟩ := ih (by omega) hline
    exact ⟨u, N'', by rw [tickSlots, hv]; exact hu, hend⟩

/-- Settles O29: the state of a line after each turn (`LineAt`) is kept by every turn, and after the last it is the closed
form (`Received.eq_lineCounts`). -/
theorem lineOfTicksInClosedForm : Obligations.LineOfTicksInClosedForm := by
  intro s hime hacc
  have hnone : turnsBefore s.cfg.cyclesPerLine (4 * s.cfg.cyclesPerLine) = fun _ => 0 :=
    funext fun c => by simp only [turnsBefore]; omega
  obtain ⟨t, N, hrun, hline⟩ := LineAt.rest hime _ le_rfl (hnone ▸ lineAt_start hacc)
  obtain ⟨R, hR, hraised⟩ := hline.counted.raised
  have hcounts (ch : Fin 4) : N ch = s.lineCounts ch.val := hline.received.eq_lineCounts ch.val ch rfl
  refine ⟨t, congrArg Run.finish hrun, fun ch => ⟨hline.counted.reload ch, ?_, hline.acc ch, ?_⟩, fun i hi => ?_,
    hraised.regs, hraised.sameBytes, ?_⟩
  · rw [← hcounts]
    exact hline.counted.counter ch
  · have hmem : timerSource ch ∈ R ↔ 0 < (s.tmr.get ch).overflows (N ch) ∧ TmrCtl.irq (s.tmrCtl ch) = true := by
      simp only [hR, timerSource_inj, exists_eq_left']
    rw [← hcounts, hraised.pending, deliverable_of_ime s hime]
    split
    · next h => exact iff_of_true rfl (.inr (hmem.mp h))
    · next h => exact (or_iff_left fun he => h (hmem.mpr he)).symm
  · rw [hraised.pending, if_neg]
    rw [hR]
    rintro ⟨c, rfl, -⟩
    simp only [timerSource] at hi
    omega
  · have hrest := hraised.rest
    rw [hraised.waits_eq hime] at hrest
    exact hrest

end Sys2Proof.Machine

end

/-! ### The background layers, pixel by pixel (`44_ppu_backgrounds.md` R244 to R272) -/

section

namespace Sys2Proof.Machine

/-! #### Fields as the formulas read them -/

/-- The formulas test a flag as a one-bit field, the model as a bit. -/
theorem bitsOf_self_eq_one {w : Nat} (v : BitVec w) (i : Nat) : bitsOf v i i = 1 ↔ v.getLsbD i = true := by
  rw [bitsOf, show i + 1 - i = 1 by omega, Nat.pow_one, ← BitVec.testBit_toNat, Nat.testBit_eq_decide_div_mod_eq,
    Nat.shiftRight_eq_div_pow, decide_eq_true_iff]

theorem bitsOf_self_eq_zero {w : Nat} (v : BitVec w) (i : Nat) : bitsOf v i i = 0 ↔ v.getLsbD i = false := by
  have hlt := bitsOf_lt v i i
  rw [show i + 1 - i = 1 by omega] at hlt
  rw [← Bool.not_eq_true, ← bitsOf_self_eq_one]
  omega

theorem decide_bitsOf_self {w : Nat} (v : BitVec w) (i : Nat) : decide (bitsOf v i i = 1) = v.getLsbD i := by
  simp only [bitsOf_self_eq_one, Bool.decide_eq_true]

theorem getLsbD_ofNat_eq_true {w i : Nat} (a : Nat) (hi : i < w) :
    (BitVec.ofNat w a).getLsbD i = true ↔ a / 2 ^ i % 2 = 1 := by
  rw [BitVec.getLsbD_ofNat, decide_eq_true hi, Bool.true_and, Nat.testBit_eq_decide_div_mod_eq, decide_eq_true_iff]

theorem fieldOf_ofNat {w lo n : Nat} (a : Nat) (h : lo + n ≤ w) :
    fieldOf (BitVec.ofNat w a) lo n = a / 2 ^ lo % 2 ^ n := by
  refine Nat.eq_of_testBit_eq fun j => ?_
  simp only [fieldOf, Nat.testBit_mod_two_pow, Nat.testBit_div_two_pow, BitVec.toNat_ofNat]
  by_cases hj : j < n
  · simp only [hj, show j + lo < w by omega, decide_true, Bool.true_and]
  · simp only [hj, decide_false, Bool.false_and]

theorem fieldOf_zero_ofNat {w n : Nat} (a : Nat) (h : n ≤ w) : fieldOf (BitVec.ofNat w a) 0 n = a % 2 ^ n := by
  rw [fieldOf_ofNat a (by omega), Nat.pow_zero, Nat.div_one]

/-! #### BGnCNT and the shared steps of the backgrounds (`10_state.md` R16, R245, R251, R253) -/

theorem mosaic_eq_bitsOf (c : Half) : BgCnt.mosaic c = decide (bitsOf c 6 6 = 1) := (decide_bitsOf_self c 6).symm
theorem charBase_eq_bitsOf (c : Half) : BgCnt.charBase c = bitsOf c 3 2 := (bitsOf_eq_fieldOf c 3 2).symm
theorem screenBase_eq_bitsOf (c : Half) : BgCnt.screenBase c = bitsOf c 12 8 := (bitsOf_eq_fieldOf c 12 8).symm
theorem size_eq_bitsOf (c : Half) : BgCnt.size c = bitsOf c 15 14 := (bitsOf_eq_fieldOf c 15 14).symm

theorem sampleX_eq (s : State) (on : Bool) (px : Nat) : s.sampleX on px = quantised on (bitsOf (s.x 0x04C) 3 0) px := by
  rw [bitsOf_eq_fieldOf]; rfl

theorem sampleY_eq (s : State) (on : Bool) (y : Nat) : s.sampleY on y = quantised on (bitsOf (s.x 0x04C) 7 4) y := by
  rw [bitsOf_eq_fieldOf]; rfl

theorem textExtent_eq (c : Half) (i : Nat) : textExtent (c.getLsbD i) = if bitsOf c i i = 1 then 512 else 256 := by
  simp only [bitsOf_self_eq_one]; rfl

theorem tilePixel_eq (s : State) (c : Half) (base t u v : Nat) : s.tilePixel base t (BgCnt.bpp8 c) u v =
    if bitsOf c 7 7 = 1 then s.vram8 ((base + t * 64 + v * 8 + u) % 0x10000)
    else if u % 2 = 0 then s.vram8 ((base + t * 32 + v * 4 + u / 2) % 0x10000) % 16
    else s.vram8 ((base + t * 32 + v * 4 + u / 2) % 0x10000) / 16 := by
  simp only [bitsOf_self_eq_one]; rfl

/-! #### A text pixel (R250 to R252) -/

/-- The two texts name the same quantities one after the other, so each is carried over by those before it. -/
theorem textPixel_eq_specText (s : State) (n : Fin 4) (y px : Nat) : s.textPixel n y px = s.specText n y px := by
  unfold State.textPixel State.specText
  extract_lets c w h sy sx se u v i c' m w' h' sy' sx' sb a e u' v' base t i'
  have hw : w = w' := textExtent_eq c 14
  have hsy : sy = sy' := by
    simp only [sy, h, mosaic_eq_bitsOf, sampleY_eq, textExtent_eq]
    rw [← bitsOf_eq_fieldOf _ 8 0]
    rfl
  have hsx : sx = sx' := by
    simp only [sx, hw, mosaic_eq_bitsOf, sampleX_eq]
    rw [← bitsOf_eq_fieldOf _ 8 0]
    rfl
  have hse : se = BitVec.ofNat 16 e := by
    simp only [se, screenEntryAddr, hw, hsx, hsy, screenBase_eq_bitsOf]
    rfl
  have hu : u = u' := by
    simp only [u, u', hse, hsx, getLsbD_ofNat_eq_true e (show 10 < 16 by decide)]
  have hv : v = v' := by
    simp only [v, v', hse, hsy, getLsbD_ofNat_eq_true e (show 11 < 16 by decide)]
  have hi : i = i' := by
    simp only [i, tilePixel_eq, hse, hu, hv, fieldOf_zero_ofNat e (show 10 ≤ 16 by decide), charBase_eq_bitsOf]
    rfl
  rw [hi, hse, fieldOf_ofNat e (by decide)]
  simp only [bitsOf_self_eq_one]
  rfl

/-! #### An affine pixel (R260, R261) -/

/-- A coordinate that the canvas shows, wrapped or not, is the coordinate modulo its extent. -/
theorem canvasCoord_of_shown {wrap : Bool} {n : Nat} {t : Int} (h : wrap = true ∨ (0 ≤ t ∧ t < n)) :
    canvasCoord wrap n t = some (t % n).toNat := by
  unfold canvasCoord
  split
  · rfl
  · next hw =>
    have hin := h.resolve_left hw
    rw [if_pos hin, Int.emod_eq_of_lt hin.1 hin.2]

theorem canvasCoord_of_outside {n : Nat} {t : Int} (h : t < 0 ∨ n ≤ t) : canvasCoord false n t = none := by
  rw [canvasCoord, if_neg Bool.false_ne_true, if_neg (by omega)]

/-- The formulas shift by an integer. -/
theorem shiftRight_eight (t : Int) : t >>> (8 : Int) = t / 256 :=
  (Int.shiftRight_natCast_right t 8).trans (Int.shiftRight_eq_div_pow t 8)

/-- The quantities before the texture are the same; the texel then is by whether both coordinates are shown. -/
theorem affinePixel_eq_specAffine (s : State) (k3 : Bool) (y px : Nat) :
    s.affinePixel k3 y px = s.specAffine k3 y px := by
  unfold State.affinePixel State.specAffine
  extract_lets c n pa pb pc pd m rx ry xs c' o mo n' mos lines rx' ry' xs' tx ty ux uy e i
  have hc : c = c' := by cases k3 <;> rfl
  have hn : n' = n := by simp only [n', n, hc, size_eq_bitsOf, Nat.shiftLeft_eq]
  have hm : m = lines := by
    simp only [m, lines, mos, mosaic_eq_bitsOf, hc, mo, bitsOf_eq_fieldOf]
    rfl
  have hxs : xs = xs' := by simp only [xs, xs', sampleX_eq, mosaic_eq_bitsOf, hc]; rfl
  have htx : (rx + pa * xs) / 256 = tx := by
    simp only [rx, tx, rx', hm, hxs, shiftRight_eight]
    cases k3 <;> rfl
  have hty : (ry + pc * xs) / 256 = ty := by
    simp only [ry, ty, ry', hm, hxs, shiftRight_eight]
    cases k3 <;> rfl
  rw [htx, hty]
  have houtside : (bitsOf c' 13 13 = 0 ∧ (tx < 0 ∨ tx ≥ n' ∨ ty < 0 ∨ ty ≥ n')) ↔
      BgCnt.wrap c = false ∧ ((tx < 0 ∨ n ≤ tx) ∨ (ty < 0 ∨ n ≤ ty)) := by
    rw [hn, or_assoc, bitsOf_self_eq_zero, hc]; rfl
  by_cases h : BgCnt.wrap c = false ∧ ((tx < 0 ∨ n ≤ tx) ∨ (ty < 0 ∨ n ≤ ty))
  · rw [if_pos (houtside.mpr h)]
    obtain ⟨hw, hx | hy⟩ := h
    · rw [hw, canvasCoord_of_outside hx]
    · rw [hw, canvasCoord_of_outside hy]
      cases canvasCoord false n tx <;> rfl
  · rw [if_neg (mt houtside.mp h)]
    have hin : BgCnt.wrap c = true ∨ ((0 ≤ tx ∧ tx < n) ∧ (0 ≤ ty ∧ ty < n)) := by
      refine or_iff_not_imp_left.mpr fun hw => ?_
      have hshown := not_and.mp h (Bool.eq_false_iff.mpr hw)
      omega
    rw [canvasCoord_of_shown (hin.imp_right And.left), canvasCoord_of_shown (hin.imp_right And.right)]
    have hi : s.tilePixel (BgCnt.charBase c * 0x4000)
        (s.vram8 ((BgCnt.screenBase c * 0x800 + (ty % n).toNat / 8 * (n / 8) + (tx % n).toNat / 8) % 0x10000)) true
        ((tx % n).toNat % 8) ((ty % n).toNat % 8) = i := by
      simp only [i, e, ux, uy, hn, ← hc, charBase_eq_bitsOf, screenBase_eq_bitsOf, Int.toNat_natCast]
      rfl
    dsimp only
    rw [hi]
    rfl

/-! #### A bitmap pixel (R270 to R272) -/

theorem sampleX_bg2Mosaic (s : State) (px : Nat) : s.sampleX s.bg2Mosaic px = s.specBitmapX px := by
  rw [State.bg2Mosaic, sampleX_eq, mosaic_eq_bitsOf]; rfl

theorem sampleY_bg2Mosaic (s : State) (y : Nat) : s.sampleY s.bg2Mosaic y = s.specBitmapY y := by
  rw [State.bg2Mosaic, sampleY_eq, mosaic_eq_bitsOf]; rfl

/-- A colour drops bit 15 of its halfword. -/
theorem colour_mod (v : Nat) : BitVec.ofNat 15 (v % 0x8000) = BitVec.ofNat 15 v :=
  BitVec.eq_of_toNat_eq (by simp)

theorem bitmap3Pixel_eq (s : State) (y px : Nat) : s.bitmap3Pixel y px =
    some (BitVec.ofNat 15 (s.vram16 ((s.specBitmapY y * 240 + s.specBitmapX px) * 2) % 0x8000)) := by
  rw [State.bitmap3Pixel, sampleX_bg2Mosaic, sampleY_bg2Mosaic, colour_mod]

theorem bitmap4Pixel_eq (s : State) (y px : Nat) : s.bitmap4Pixel y px =
    if s.vram8 (s.bitmapBase + s.specBitmapY y * 240 + s.specBitmapX px) = 0 then none
    else some (s.pal16 (2 * s.vram8 (s.bitmapBase + s.specBitmapY y * 240 + s.specBitmapX px))) := by
  rw [State.bitmap4Pixel, sampleX_bg2Mosaic, sampleY_bg2Mosaic]; rfl

theorem bitmap5Pixel_eq (s : State) (y px : Nat) : s.bitmap5Pixel y px =
    if s.specBitmapX px < 160 ∧ s.specBitmapY y < 128 then
      some (BitVec.ofNat 15 (s.vram16 (s.bitmapBase + (s.specBitmapY y * 160 + s.specBitmapX px) * 2) % 0x8000))
    else none := by
  rw [State.bitmap5Pixel, sampleX_bg2Mosaic, sampleY_bg2Mosaic, colour_mod]

theorem decide_channelOf_three (k : BitVec 2) : decide (channelOf k = 3) = decide (k = 3) := by revert k; decide

/-! #### The frame start (R244) -/

/-- The sampled mode is the low three bits of DISPCNT (log 15). -/
theorem frameMode_frameStart (s : State) : (frameStart s).frameMode = (s.x 0x000).setWidth 3 := by
  show BitVec.ofNat 3 (fieldOf (s.x 0x000) 0 3) = _
  exact BitVec.eq_of_toNat_eq (by simp [fieldOf])

/-- Settles O31: the frame start is a record of the four registers and of the sampled mode. -/
theorem frameStartLoadsTheReferencePoints : Obligations.FrameStartLoadsTheReferencePoints := fun s => by
  refine ⟨frameStart s, rfl, rfl, fun _ _ => rfl, ⟨fun _ => rfl, fun _ => rfl, fun _ => rfl, fun _ => rfl⟩, ?_⟩
  rw [← frameMode_frameStart]
  rfl

/-! #### A filled layer (R240, log 27) -/

/-- Layer `n` has its 240 pixels and no other line buffer is written. -/
structure LayerFilled (n : Fin 4) (s t : State) : Prop where
  rest : t.lb = { s.lb with bgpix := t.lb.bgpix }
  others : ∀ m, m ≠ n → t.lb.bgpix.get m = s.lb.bgpix.get m
  length : (t.lb.bgpix.get n).length = 240

theorem layerFilled_fillBg (s : State) (n : Fin 4) (pixel : Nat → Option Colour) :
    LayerFilled n s (s.fillBg n pixel) where
  rest := rfl
  others m hm := get_fillBg_other s n m pixel hm
  length := by
    show ((s.lb.bgpix.set n _).get n).length = 240
    rw [Four.get_set_same, List.length_map, List.length_range]

theorem onlyLineBuffers_fillBg (s : State) (n : Fin 4) (pixel : Nat → Option Colour) :
    OnlyLineBuffers s (s.fillBg n pixel) :=
  ⟨⟨fun _ => rfl, fun _ => rfl, fun _ => rfl, fun _ => rfl⟩, rfl⟩

theorem layerFilled_fillFree (s : State) (n : Fin 4) : LayerFilled n s (s.fillFree n) :=
  let h := layerFilled_fillBg s n fun px => freePixel (s.freeAt px n.val)
  ⟨h.rest, h.others, h.length⟩

theorem bgText_of_lt {y : Nat} (h : y < screenH) (s : State) (n : Fin 4) :
    bgText s n y = s.fillBg n (s.textPixel n y) :=
  if_pos h

theorem bgAffine_of_lt {n : Fin 4} {y : Nat} (hn : 2 ≤ n.val) (h : y < screenH) (s : State) :
    bgAffine s n y = s.fillBg n (s.affinePixel (decide (n = 3)) y) :=
  if_pos ⟨hn, h⟩

theorem layerFilled_bgText (s : State) (n : Fin 4) (y : Nat) : LayerFilled n s (bgText s n y) := by
  unfold bgText
  split
  · exact layerFilled_fillBg s n _
  · exact layerFilled_fillFree s n

theorem layerFilled_bgAffine (s : State) (n : Fin 4) (y : Nat) : LayerFilled n s (bgAffine s n y) := by
  unfold bgAffine
  split
  · exact layerFilled_fillBg s n _
  · exact layerFilled_fillFree s n

/-- Settles O32: the operation fills its layer, on a line with `textPixel`, which is the formula of R250. -/
theorem textLineFollowsTheScreenEntries : Obligations.TextLineFollowsTheScreenEntries := by
  intro s n y
  have hfill := layerFilled_bgText s (channelOf n) y.toNat
  refine ⟨_, rfl, bgText_only s _ _, hfill.rest, hfill.others, hfill.length, fun hy => ?_⟩
  rw [bgText_of_lt hy]
  refine ⟨onlyLineBuffers_fillBg s _ _, fun px hpx => ?_⟩
  rw [get_fillBg s _ _ px hpx, textPixel_eq_specText]

/-- Settles O33: the operation fills its layer, of layers 2 and 3 on a line with `affinePixel`, which is the formula of
R260. -/
theorem affineLineFollowsTheMatrix : Obligations.AffineLineFollowsTheMatrix := by
  intro s k y
  have hfill := layerFilled_bgAffine s (channelOf k) y.toNat
  refine ⟨_, rfl, bgAffine_only s _ _, hfill.rest, hfill.others, hfill.length, fun hk hy => ?_⟩
  rw [bgAffine_of_lt (n := channelOf k) hk hy]
  refine ⟨onlyLineBuffers_fillBg s _ _, fun px hpx => ?_⟩
  rw [get_fillBg s _ _ px hpx, affinePixel_eq_specAffine, decide_channelOf_three]

/-- Settles O34: each of the three operations fills layer 2 with its pixel, which is its formula at every line. -/
theorem bitmapLinesReadTheirFrames : Obligations.BitmapLinesReadTheirFrames := by
  intro s y base ys op hop
  have hfill (pixel : Nat → Option Colour) := layerFilled_fillBg s 2 pixel
  have hpixel (pixel : Nat → Option Colour) (px : Nat) (hpx : px < 240) := get_fillBg s 2 pixel px hpx
  simp only [List.mem_cons, List.not_mem_nil, or_false] at hop
  rcases hop with rfl | rfl | rfl
  · refine ⟨_, rfl, onlyLineBuffers_fillBg s 2 _, (hfill _).rest, (hfill _).others, (hfill _).length, fun px hpx =>
      ⟨fun _ => ?_, nofun, nofun⟩⟩
    exact (hpixel _ px hpx).trans (congrArg some (bitmap3Pixel_eq s _ px))
  · refine ⟨_, rfl, onlyLineBuffers_fillBg s 2 _, (hfill _).rest, (hfill _).others, (hfill _).length, fun px hpx =>
      ⟨nofun, fun _ => ?_, nofun⟩⟩
    exact (hpixel _ px hpx).trans (congrArg some (bitmap4Pixel_eq s _ px))
  · refine ⟨_, rfl, onlyLineBuffers_fillBg s 2 _, (hfill _).rest, (hfill _).others, (hfill _).length, fun px hpx =>
      ⟨nofun, nofun, fun _ => ?_⟩⟩
    exact (hpixel _ px hpx).trans (congrArg some (bitmap5Pixel_eq s _ px))

end Sys2Proof.Machine

end

/-! ### What an operation of the compositor may change (`44_ppu_backgrounds.md` R240, `20_memory.md` R76) -/

section

namespace Sys2Proof.Machine

variable {s t : State}

/-- What an operation of the compositor may change; no register, memory, clock, timer or channel is among it. -/
structure OnlyCompositor (s t : State) : Prop where
  rest : t = { s with
    lb := t.lb, fb0 := t.fb0, fb1 := t.fb1, refs := t.refs, active := t.active, frameMode := t.frameMode
    result := t.result, freeCount := t.freeCount }

theorem OnlyVideo.onlyCompositor (h : OnlyVideo s t) : OnlyCompositor s t := ⟨by rw [h.rest]⟩

theorem OnlyLineBuffersOrFree.onlyCompositor (h : OnlyLineBuffersOrFree s t) : OnlyCompositor s t :=
  ⟨by rw [h.rest]⟩

theorem OnlyCompositor.useFreeOff (h : OnlyCompositor s t) (px y : Nat) : OnlyCompositor s (t.useFreeOff px y) :=
  ⟨by rw [useFreeOff_only, h.rest]⟩

theorem OnlyCompositor.regs (h : OnlyCompositor s t) : SameRegsBut [] s t := fun o _ => by rw [h.rest]; rfl

theorem OnlyCompositor.bytes (h : OnlyCompositor s t) : SameBytes s t := by
  rw [h.rest]
  exact ⟨fun _ => rfl, fun _ => rfl, fun _ => rfl, fun _ => rfl⟩

/-- Settles O43: operation by operation, from what each is made of. -/
theorem compositorWritesNoRegisterOrMemory : Obligations.CompositorWritesNoRegisterOrMemory := by
  intro s t y x n op hop h
  have honly : OnlyCompositor s t := by
    simp only [List.mem_cons, List.not_mem_nil, or_false] at hop
    rcases hop with rfl | rfl | rfl | rfl | rfl | rfl | rfl | rfl | rfl | rfl | rfl | rfl | rfl | rfl | rfl <;>
      obtain rfl := Host.Outcome.next.inj h
    · exact (onlyVideo_renderLine s _).onlyCompositor
    · exact ⟨rfl⟩
    · exact (bgText_only s _ _).onlyCompositor
    · exact (bgAffine_only s _ _).onlyCompositor
    · exact ⟨rfl⟩
    · exact ⟨rfl⟩
    · exact ⟨rfl⟩
    · exact (objLine_only s _).onlyCompositor
    · exact ⟨rfl⟩
    · exact OnlyCompositor.useFreeOff ⟨rfl⟩ _ _
    · exact OnlyCompositor.useFreeOff ⟨rfl⟩ _ _
    · exact (greenSwap_only s).onlyCompositor
    · exact (onlyVideo_commit s _).onlyCompositor
    · exact ⟨rfl⟩
    · exact ⟨rfl⟩
  exact ⟨honly.regs, honly.bytes, honly.rest⟩

end Sys2Proof.Machine

end

/-! ### A rendered line (`44_ppu_backgrounds.md` R240, R241, R262) -/

section

namespace Sys2Proof.Machine

variable {s : State} {y : Nat}

/-! #### The row and the latches (R262, R317) -/

/-- Before the latches step, rendering a line writes the line buffers and one frame buffer. -/
theorem commit_outputLine_rest (s : State) (y : Nat) : commit (outputLine s y) y = { s with
    lb := (outputLine s y).lb, fb0 := (commit (outputLine s y) y).fb0, fb1 := (commit (outputLine s y) y).fb1
    freeCount := (outputLine s y).freeCount } := by
  unfold commit
  split <;> rw [(outputLine_only s y).rest]

theorem lb_renderLine (s : State) (y : Nat) : (renderLine s y).lb = (outputLine s y).lb := by
  show (commit _ _).lb = _
  rw [commit_outputLine_rest]

theorem freeCount_renderLine (s : State) (y : Nat) : (renderLine s y).freeCount = (outputLine s y).freeCount := by
  show (commit _ _).freeCount = _
  rw [commit_outputLine_rest]

theorem renderLine_rest (s : State) (y : Nat) : renderLine s y = { s with
    lb := (renderLine s y).lb, fb0 := (renderLine s y).fb0, fb1 := (renderLine s y).fb1
    refs := (renderLine s y).refs, freeCount := (renderLine s y).freeCount } := by
  unfold renderLine affineLineStep
  rw [commit_outputLine_rest]
  rfl

theorem refs_renderLine (s : State) (y : Nat) : (renderLine s y).refs = (affineLineStep s).refs := by
  unfold renderLine
  rw [commit_outputLine_rest]
  rfl

theorem active_outputLine (s : State) (y : Nat) : (outputLine s y).active = s.active := by
  rw [(outputLine_only s y).rest]

theorem fb_outputLine (s : State) (y : Nat) (i : BitVec 1) : (outputLine s y).fb i = s.fb i := by
  rw [(outputLine_only s y).rest]; rfl

/-- The commit sets the row of the active buffer to the line. -/
theorem fb_renderLine_eq_set (s : State) (y : Nat) :
    (renderLine s y).fb s.active = (s.fb s.active).set y (renderLine s y).lb.line := by
  have hcommit := fb_commit (outputLine s y) y
  rw [active_outputLine, fb_outputLine] at hcommit
  rw [lb_renderLine]
  exact hcommit

theorem fb_commit_other (s : State) (y : Nat) : (commit s y).fb (~~~s.active) = s.fb (~~~s.active) := by
  have hbuffers : ∀ a : BitVec 1, a = 0 ∨ a = 1 := by decide
  rcases hbuffers s.active with h | h <;> simp [commit, State.fb, h]

theorem fb_renderLine_other (s : State) (y : Nat) : (renderLine s y).fb (~~~s.active) = s.fb (~~~s.active) := by
  have hcommit := fb_commit_other (outputLine s y) y
  rw [active_outputLine, fb_outputLine] at hcommit
  exact hcommit

/-! #### No free value on a visible line (log 27) -/

theorem two_le_of_kind_affine {n : Fin 4} (h : s.kind n = .affine) : 2 ≤ n.val := by
  unfold State.kind kindOf at h
  split at h <;> simp_all

/-- On a line a text layer has its pixels, and so has an affine one, which is layer 2 or 3. -/
theorem freeCount_renderLayer (hy : y < screenH) (s : State) (n : Fin 4) :
    (renderLayer y s n).freeCount = s.freeCount := by
  unfold renderLayer
  split
  · split
    · rw [bgText_of_lt hy]; rfl
    · next hk => rw [bgAffine_of_lt (two_le_of_kind_affine hk) hy]; rfl
    · rfl
    · rfl
    · rfl
    · rfl
  · rfl

theorem freeCount_renderLayers (hy : y < screenH) (s : State) : (renderLayers s y).freeCount = s.freeCount := by
  have hobj (b : State) : (objLine b y).freeCount = b.freeCount := by rw [objLine, if_pos hy]; rfl
  unfold renderLayers
  simp only [List.foldl_cons, List.foldl_nil, apply_ite State.freeCount, hobj, freeCount_renderLayer hy, ite_self]
  rfl

theorem freeCount_greenSwap (s : State) : (greenSwap s).freeCount = s.freeCount := by
  unfold greenSwap
  split <;> rfl

theorem freeCount_outputLine (hy : y < screenH) (s : State) : (outputLine s y).freeCount = s.freeCount := by
  unfold outputLine
  split
  · rfl
  · rw [freeCount_greenSwap, composeLine, useFreeOff_on _ (by decide) hy]
    exact freeCount_renderLayers hy s

/-! #### The pipeline as a chain of operations (R240) -/

theorem channelOf_ofNat (n : Fin 4) : channelOf (BitVec.ofNat 2 n.val) = n := by revert n; decide

theorem layerDrawn_renderLayer (y : Byte) (n : Fin 4) (s : State) : LayerDrawn y n s (renderLayer y.toNat s n) := by
  unfold LayerDrawn renderLayer
  by_cases hen : (s.x 0x000).getLsbD (8 + n.val) = true
  · have hbg : DispCnt.bgEn s.dispcnt n = true := hen
    rw [if_pos hen, if_pos hbg]
    cases s.kind n with
    | text => exact congrArg (fun c => Host.Outcome.next (bgText s c y.toNat)) (channelOf_ofNat n)
    | affine => exact congrArg (fun c => Host.Outcome.next (bgAffine s c y.toNat)) (channelOf_ofNat n)
    | _ => rfl
  · have hbg : ¬DispCnt.bgEn s.dispcnt n = true := hen
    rw [if_neg hen, if_neg hbg]

/-- The state after `PPU_SORT`. -/
def afterSort (s : State) : State := (s.setLb { s.lb with order := s.sortLayers }).setResult (.order s.sortLayers)

theorem exec_ppuSort (s : State) : exec .ppuSort s = .next (afterSort s) := rfl

theorem layersSorted_renderLayers (y : Byte) (s : State) : LayersSorted y s (afterSort (renderLayers s y.toNat)) := by
  refine ⟨_, _, _, _, renderLayers s y.toNat, layerDrawn_renderLayer y 0 _, layerDrawn_renderLayer y 1 _,
    layerDrawn_renderLayer y 2 _, layerDrawn_renderLayer y 3 _, ?_, exec_ppuSort _⟩
  split
  · next h =>
    have hobj : DispCnt.objEn s.dispcnt = true := h
    rw [renderLayers, if_pos hobj]
    rfl
  · next h =>
    have hobj : ¬DispCnt.objEn s.dispcnt = true := h
    rw [renderLayers, if_neg hobj]
    rfl

/-- The pixels stages 4 and 5 give from the drawn layers. -/
def State.composedLine (s : State) (y : Nat) : List Colour :=
  (List.range screenW).map fun px => s.effectColour s.sortLayers (s.windowMask px y) px

theorem line_composeLine (s : State) (y : Nat) : (composeLine s y).lb.line = s.composedLine y := by
  rw [composeLine, useFreeOff_lb]; rfl

/-- The state after `PPU_WINDOW`. -/
def afterWindow (s : State) (px y : Nat) : State :=
  ((s.setLb { s.lb with wm := s.windowMask px y }).setResult (.mask (s.windowMask px y))).useFreeOff px y

theorem exec_ppuWindow (px y : Byte) (s : State) :
    exec (.ppuWindow px y) s = .next (afterWindow s px.toNat y.toNat) := rfl

theorem lb_afterWindow (s : State) (px y : Nat) : (afterWindow s px y).lb = { s.lb with wm := s.windowMask px y } := by
  rw [afterWindow, useFreeOff_lb]; rfl

theorem x_afterWindow (s : State) (px y o : Nat) : (afterWindow s px y).x o = s.x o := by
  rw [afterWindow, useFreeOff_x]; rfl

theorem pal16_afterWindow (s : State) (px y i : Nat) : (afterWindow s px y).pal16 i = s.pal16 i := by
  rw [afterWindow, useFreeOff_pal16]; rfl

theorem windowMask_afterSort (s : State) (px y : Nat) : (afterSort s).windowMask px y = s.windowMask px y := rfl

theorem effectColour_afterWindow_afterSort {px : Nat} (hpx : px < screenW) (y : Nat) (s : State) (order : List Layer)
    (wm : BitVec 6) : (afterWindow (afterSort s) px y).effectColour order wm px = s.effectColour order wm px :=
  effectColour_congr wm order hpx (by rw [lb_afterWindow]; rfl) (by rw [lb_afterWindow]; rfl)
    (fun o => x_afterWindow _ px y o) (fun i => pal16_afterWindow _ px y i)

/-- On the line the mask and the effect do not depend on what `PPU_SORT` and `PPU_WINDOW` have written. -/
theorem pixelComposed_afterSort {px : Byte} (hpx : px.toNat < screenW) (y : Byte) (s : State) :
    PixelComposed px y (afterSort s) (s.effectColour s.sortLayers (s.windowMask px.toNat y.toNat) px.toNat) := by
  refine ⟨_, _, exec_ppuWindow px y _, rfl, ?_⟩
  rw [useFreeOff_result, State.setResult_result, effectColour_afterWindow_afterSort hpx, lb_afterWindow,
    windowMask_afterSort]
  rfl

theorem line_greenSwap (s : State) :
    (greenSwap s).lb.line = if (s.x Reg.greenswap).getLsbD 0 then swapGreens s.lb.line else s.lb.line := by
  unfold greenSwap
  split <;> rfl

theorem outputLine_of_blank (h : (s.x 0x000).getLsbD 7 = true) (y : Nat) :
    outputLine s y = s.setLb { s.lb with line := List.replicate screenW 0x7FFF } := if_pos h

theorem outputLine_of_not_blank (h : (s.x 0x000).getLsbD 7 = false) (y : Nat) :
    outputLine s y = greenSwap (composeLine (renderLayers s y) y) :=
  if_neg (Bool.eq_false_iff.mp h)

/-- The output line is the channel swap of the composed one, whose other line buffers the swap does not read. -/
theorem line_outputLine (h : (s.x 0x000).getLsbD 7 = false) (y : Nat) : (outputLine s y).lb.line =
    (greenSwap ((afterSort (renderLayers s y)).setLb { (afterSort (renderLayers s y)).lb with
      line := (renderLayers s y).composedLine y })).lb.line := by
  rw [outputLine_of_not_blank h, line_greenSwap, line_greenSwap, line_composeLine, composeLine, useFreeOff_x]
  rfl

/-! #### A line that shows the backdrop only -/

theorem getLsbD_of_bitsOf_zero {w hi lo i : Nat} {v : BitVec w} (h : bitsOf v hi lo = 0) (hlo : lo ≤ i)
    (hhi : i ≤ hi) : v.getLsbD i = false := by
  rw [← BitVec.testBit_toNat]
  have hbit := congrArg (Nat.testBit · (i - lo)) h
  simpa [bitsOf, Nat.testBit_mod_two_pow, Nat.testBit_shiftRight, show i - lo < hi + 1 - lo by omega,
    show lo + (i - lo) = i by omega] using hbit

theorem rgb_channels (c : Colour) : rgb (red c) (green c) (blue c) = c := by
  refine BitVec.eq_of_toNat_eq ?_
  have hlt := c.isLt
  simp only [rgb, red, green, blue, fieldOf, BitVec.toNat_ofNat]
  omega

theorem swapGreens_replicate (n : Nat) (c : Colour) : swapGreens (List.replicate n c) = List.replicate n c := by
  induction n using Nat.twoStepInduction with
  | zero => rfl
  | one => rfl
  | more n ih _ => rw [List.replicate_succ, List.replicate_succ, swapGreens, rgb_channels, ih]

/-- The backdrop alone is not affected where it is no first target. -/
theorem effectOf_backdrop (h : (s.x 0x050).getLsbD 5 = false) (wm : BitVec 6) (px : Nat) :
    s.effectOf wm px [.backdrop] = s.pal16 0 := by
  have ht : target1 (s.x Reg.bldcnt) .backdrop = false := h
  have hmode : s.modeEffect px .backdrop none = s.pal16 0 := by
    unfold State.modeEffect
    simp only [ht, Bool.false_eq_true, if_false]
    split <;> rfl
  show (if wm.getLsbD 5 then s.modeEffect px .backdrop none else s.pal16 0) = _
  rw [hmode, ite_self]

/-- With no layer and no sprite enabled the buffers stay cleared. -/
theorem renderLayers_of_none (h : bitsOf (s.x 0x000) 15 8 = 0) (y : Nat) : renderLayers s y = clearBuffers s := by
  have hobj : ¬DispCnt.objEn s.dispcnt = true :=
    Bool.eq_false_iff.mp (getLsbD_of_bitsOf_zero (i := 12) h (by decide) (by decide))
  have hlayer (n : Fin 4) : renderLayer y (clearBuffers s) n = clearBuffers s :=
    if_neg (Bool.eq_false_iff.mp (getLsbD_of_bitsOf_zero (i := 8 + n.val) h (by omega) (by omega)))
  rw [renderLayers, if_neg hobj]
  simp only [List.foldl_cons, List.foldl_nil, hlayer]

theorem sortLayers_of_none (h : bitsOf (s.x 0x000) 15 8 = 0) :
    s.sortLayers = [.obj 0, .obj 1, .obj 2, .obj 3, .backdrop] := by
  have hbg (n : Fin 4) : DispCnt.bgEn s.dispcnt n = false :=
    getLsbD_of_bitsOf_zero (i := 8 + n.val) h (by omega) (by omega)
  have hlayers (p : Fin 4) : s.layersOf p = [.obj p] := by
    simp only [State.layersOf, hbg, Bool.false_and, List.filter_false, List.map_nil]
  simp only [State.sortLayers, List.flatMap_cons, List.flatMap_nil, hlayers, List.cons_append, List.nil_append]

theorem not_visible_clearBuffers (s : State) (wm : BitVec 6) {px : Nat} (hpx : px < screenW) (p : Fin 4) :
    (clearBuffers s).visible wm px (.obj p) = false := by
  have hnone : (clearBuffers s).objAt p px = none := by
    rw [objAt_on _ _ hpx]
    have hget : (clearBuffers s).lb.objpix.get p = List.replicate screenW none := by fin_cases p <;> rfl
    rw [hget, List.getD_replicate _ hpx]
  rw [State.visible, hnone, Option.isSome_none, Bool.and_false]

/-- No sprite bucket has a pixel and no background is in the order, so the backdrop is in front. -/
theorem composedLine_clearBuffers (h : bitsOf (s.x 0x000) 15 8 = 0) (h5 : (s.x 0x050).getLsbD 5 = false) (y : Nat) :
    (clearBuffers s).composedLine y = List.replicate screenW (s.pal16 0) := by
  have hpixel (px : Nat) (hpx : px < screenW) (wm : BitVec 6) :
      (clearBuffers s).effectColour (clearBuffers s).sortLayers wm px = s.pal16 0 := by
    have hfront : (clearBuffers s).sortLayers.filter ((clearBuffers s).visible wm px) = [.backdrop] := by
      rw [sortLayers_of_none (s := clearBuffers s) h]
      simp only [List.filter_cons, List.filter_nil, not_visible_clearBuffers s wm hpx, Bool.false_eq_true, if_false]
      rfl
    rw [State.effectColour, hfront]
    exact effectOf_backdrop (s := clearBuffers s) h5 wm px
  refine List.eq_replicate_iff.mpr ⟨by simp [State.composedLine], fun c hc => ?_⟩
  obtain ⟨px, hpx, rfl⟩ := List.mem_map.mp hc
  exact hpixel px (List.mem_range.mp hpx) _

theorem line_renderLine_backdrop (h7 : (s.x 0x000).getLsbD 7 = false) (h : bitsOf (s.x 0x000) 15 8 = 0)
    (h5 : (s.x 0x050).getLsbD 5 = false) (y : Nat) :
    (renderLine s y).lb.line = List.replicate screenW (s.pal16 0) := by
  rw [lb_renderLine, outputLine_of_not_blank h7, line_greenSwap, line_composeLine, renderLayers_of_none h,
    composedLine_clearBuffers h h5, swapGreens_replicate, ite_self]

/-- Settles O42: a line is its output line, committed, and the latches' step. The output line is the chain of its stages;
it is white where blank, and with nothing enabled every pixel has the backdrop alone in front. -/
theorem renderLineWritesOneRow : Obligations.RenderLineWritesOneRow := by
  refine ⟨fun s y hrows => ?_, fun s y h7 => ?_, fun s y => ⟨fun h7 => ?_, fun h7 hnone h5 => ?_⟩⟩
  · have hvideo := onlyVideo_renderLine s y.toNat
    have hset := fb_renderLine_eq_set s y.toNat
    refine ⟨_, rfl, refs_renderLine s _, fun hy => ⟨fb_renderLine (by omega), ?_⟩, fun r hr => ?_, ?_,
      fb_renderLine_other s _, hvideo.onlyCompositor.regs, hvideo.onlyCompositor.bytes, renderLine_rest s _⟩
    · rw [freeCount_renderLine, freeCount_outputLine hy]
    · rw [hset, List.getElem?_set_ne (Ne.symm hr)]
    · rw [hset, List.length_set, hrows]
  · refine ⟨_, _, (renderLayers s y.toNat).composedLine y.toNat, _, rfl, layersSorted_renderLayers y s, ?_,
      fun px hpx => ?_, rfl, (congrArg LineBuffers.line (lb_renderLine s _)).trans (line_outputLine h7 _)⟩
    · rw [State.composedLine, List.length_map, List.length_range]
    · refine ⟨_, ?_, pixelComposed_afterSort hpx y _⟩
      rw [State.composedLine, List.getElem?_map, List.getElem?_range hpx]
      rfl
  · exact ⟨_, rfl, by rw [lb_renderLine, outputLine_of_blank h7]; rfl⟩
  · exact ⟨_, rfl, line_renderLine_backdrop h7 hnone h5 _⟩

end Sys2Proof.Machine

end

/-! ### What a sprite shows at a pixel (`45_ppu_sprites.md` R281 to R289) -/

section

namespace Sys2Proof.Machine

/-! #### The fields of an entry as the formulas read them (`10_state.md` R43 to R46) -/

theorem objAttr_y_eq (a0 : Half) : ObjAttr.y a0 = bitsOf a0 7 0 := (bitsOf_eq_fieldOf a0 7 0).symm
theorem objAttr_objmode_eq (a0 : Half) : ObjAttr.objmode a0 = bitsOf a0 11 10 := (bitsOf_eq_fieldOf a0 11 10).symm
theorem objAttr_shape_eq (a0 : Half) : ObjAttr.shape a0 = bitsOf a0 15 14 := (bitsOf_eq_fieldOf a0 15 14).symm
theorem objAttr_x_eq (a1 : Half) : ObjAttr.x a1 = bitsOf a1 8 0 := (bitsOf_eq_fieldOf a1 8 0).symm
theorem objAttr_matrix_eq (a1 : Half) : ObjAttr.matrix a1 = bitsOf a1 13 9 := (bitsOf_eq_fieldOf a1 13 9).symm
theorem objAttr_size_eq (a1 : Half) : ObjAttr.size a1 = bitsOf a1 15 14 := (bitsOf_eq_fieldOf a1 15 14).symm
theorem objAttr_tile_eq (a2 : Half) : ObjAttr.tile a2 = bitsOf a2 9 0 := (bitsOf_eq_fieldOf a2 9 0).symm
theorem objAttr_palette_eq (a2 : Half) : ObjAttr.palette a2 = bitsOf a2 15 12 := (bitsOf_eq_fieldOf a2 15 12).symm

theorem objAttr_priority_eq_iff (a2 : Half) (p : Fin 4) : ObjAttr.priority a2 = p ↔ bitsOf a2 11 10 = p.val := by
  rw [Fin.ext_iff, bitsOf_eq_fieldOf]; rfl

theorem objX_eq (a1 : Half) :
    objX a1 = if bitsOf a1 8 0 ≥ 240 then (bitsOf a1 8 0 : Int) - 512 else bitsOf a1 8 0 := by
  rw [objX, objAttr_x_eq]

theorem objY_eq (a0 : Half) :
    objY a0 = if bitsOf a0 7 0 ≥ 160 then (bitsOf a0 7 0 : Int) - 256 else bitsOf a0 7 0 := by
  rw [objY, objAttr_y_eq]

/-- The two size tables agree on the shapes that are drawn. -/
theorem sizeOf_eq_specObjSize {shape size : Nat} (hshape : shape < 3) (hsize : size < 4) :
    ObjAttr.sizeOf shape size = specObjSize shape size := by
  have hall : ∀ i < 3, ∀ j < 4, ObjAttr.sizeOf i j = specObjSize i j := by decide
  exact hall shape hshape size hsize

theorem objDrawn_eq_false_iff (a0 : Half) : objDrawn a0 = false ↔
    (ObjAttr.affine a0 = false ∧ ObjAttr.dblOrDis a0 = true) ∨ bitsOf a0 11 10 = 3 ∨ bitsOf a0 15 14 = 3 := by
  simp only [objDrawn, objAttr_objmode_eq, objAttr_shape_eq, Bool.and_eq_false_iff, Bool.or_eq_false_iff,
    Bool.not_eq_false', decide_eq_false_iff_not, not_not, or_assoc]

/-- The disabled entry as a two-bit field: bit 9 set and bit 8 clear (R281). -/
theorem bitsOf_nine_eight_eq_two_iff (a0 : Half) :
    bitsOf a0 9 8 = 2 ↔ ObjAttr.affine a0 = false ∧ ObjAttr.dblOrDis a0 = true := by
  rw [show ObjAttr.affine a0 = a0.getLsbD 8 from rfl, show ObjAttr.dblOrDis a0 = a0.getLsbD 9 from rfl,
    ← bitsOf_self_eq_zero, ← bitsOf_self_eq_one]
  simp only [bitsOf_eq_fieldOf, fieldOf]
  omega

/-! #### The pixel -/

section

variable (s : State) (a0 a1 a2 : Half)

/-- A tile of 8 bits a pixel takes two slots (R286). -/
def slotsPerTile : Nat := if bitsOf a0 13 13 = 1 then 2 else 1

theorem slotsPerTile_eq_bpp8 : slotsPerTile a0 = if ObjAttr.bpp8 a0 = true then 2 else 1 := by
  rw [slotsPerTile]
  simp only [bitsOf_self_eq_one]
  rfl

theorem slotsPerTile_eq_two_iff : slotsPerTile a0 = 2 ↔ ObjAttr.bpp8 a0 = true := by
  rw [slotsPerTile_eq_bpp8]
  cases ObjAttr.bpp8 a0 <;> decide

theorem mode_dispcnt_eq : DispCnt.mode s.dispcnt = bitsOf (s.x 0x000) 2 0 := (bitsOf_eq_fieldOf (s.x 0x000) 2 0).symm

/-- The texture coordinate an entry shows, whichever of the two transformations gives it (R284, R285). -/
theorem objTex_eq {lx ly tx ty : Int} {w h cw chh : Nat}
    (haff : ObjAttr.affine a0 = true → s.affineTex a1 lx ly w h cw chh = (tx, ty))
    (hreg : ¬ObjAttr.affine a0 = true → regularTex a1 lx ly w h = (tx, ty)) :
    s.objTex a0 a1 lx ly w h cw chh =
      if ObjAttr.affine a0 = true ∧ (tx < 0 ∨ tx ≥ w ∨ ty < 0 ∨ ty ≥ h) then none
      else some (tx.toNat, ty.toNat) := by
  unfold State.objTex
  by_cases ha : ObjAttr.affine a0 = true
  · simp only [ha, true_and, haff ha]
    rfl
  · rw [if_neg ha, if_neg (fun hout => ha hout.1), hreg ha]

/-- The slot of a texel's tile: the two mappings differ in the slots of a row of tiles (R286). -/
theorem objSlot_eq (tx ty w : Nat) : s.objSlot a0 a2 tx ty w =
    (bitsOf a2 9 0 + ty / 8 * (if bitsOf (s.x 0x000) 6 6 = 1 then w / 8 * slotsPerTile a0 else 32)
      + tx / 8 * slotsPerTile a0) % 1024 := by
  simp only [State.objSlot, objAttr_tile_eq, bitsOf_self_eq_one, Nat.mul_assoc, slotsPerTile_eq_bpp8]
  rw [show DispCnt.obj1d s.dispcnt = (s.x 0x000).getLsbD 6 from rfl]
  split <;> rfl

theorem objIndex_eq (t u v : Nat) : s.objIndex a0 t u v =
    if slotsPerTile a0 = 2 then s.vram8 (0x10000 + (t * 32 + v * 8 + u) % 0x8000)
    else if u % 2 = 0 then s.vram8 (0x10000 + (t * 32 + v * 4 + u / 2) % 0x8000) % 16
    else s.vram8 (0x10000 + (t * 32 + v * 4 + u / 2) % 0x8000) / 16 := by
  simp only [slotsPerTile_eq_two_iff]
  rfl

/-- The colour of a texel by its tile's slot `t` and its number `i` in the palette (R286, R288). -/
theorem objTexel_eq {tx ty w t i : Nat} (ht : s.objSlot a0 a2 tx ty w = t)
    (hi : s.objIndex a0 t (tx % 8) (ty % 8) = i) : s.objTexel a0 a2 tx ty w =
      if bitsOf (s.x 0x000) 2 0 ≥ 3 ∧ t < 512 then none
      else if i = 0 then none
      else if slotsPerTile a0 = 2 then some (s.pal16 (0x200 + 2 * i))
      else some (s.pal16 (0x200 + 2 * (bitsOf a2 15 12 * 16 + i))) := by
  simp only [State.objTexel, ht, hi, slotsPerTile_eq_two_iff, mode_dispcnt_eq, objAttr_palette_eq]

end

/-- The quantities before the texel are the same, but for the size of an entry that is not drawn; the texel then is by
whether the texture has the coordinate. -/
theorem objPixelAt_eq_specObj (s : State) (a0 a1 a2 : Half) (y px : Nat) :
    s.objPixelAt a0 a1 a2 y px = s.specObj a0 a1 a2 y px := by
  unfold State.objPixelAt State.specObj
  extract_lets wh cv ox oy m lx ly affine flag w h cw chh oy' ox' mosaic lx' ly' m' cx cy tx ty k row t u v i
  have haff : ObjAttr.affine a0 = affine := (decide_bitsOf_self a0 8).symm
  have hflag : ObjAttr.dblOrDis a0 = flag := (decide_bitsOf_self a0 9).symm
  rw [← haff, ← hflag]
  by_cases hd : objDrawn a0 = false
  · rw [if_pos (Or.inl hd), if_pos ((objDrawn_eq_false_iff a0).mp hd)]
  have hdrawn := mt (objDrawn_eq_false_iff a0).mpr hd
  rw [if_neg hdrawn]
  have hwh : wh = (w, h) := by
    have hshape := bitsOf_lt a0 15 14
    simp only [wh, objAttr_shape_eq, objAttr_size_eq]
    rw [sizeOf_eq_specObjSize (by omega) (bitsOf_lt a1 15 14)]
  have hcv : cv = (cw, chh) := by
    simp only [cv, objCanvas, hwh, haff, hflag, cw, chh]
    split <;> rfl
  have hox : ox = ox' := objX_eq a1
  have hoy : oy = oy' := objY_eq a0
  have hmos : ObjAttr.mosaic a0 = mosaic := (decide_bitsOf_self a0 12).symm
  have hlx : lx = lx' := by
    simp only [lx, hox, hmos, lx', bitsOf_eq_fieldOf]
    rfl
  have hly : ly = ly' := by
    simp only [ly, hoy, hmos, ly', bitsOf_eq_fieldOf]
    rfl
  rw [hcv, hox, hoy, hlx, hly, hwh]
  by_cases hin : (y : Int) < oy' ∨ (y : Int) ≥ oy' + chh ∨ (px : Int) < ox' ∨ (px : Int) ≥ ox' + cw
  · rw [if_pos (Or.inr hin), if_pos hin]
  rw [if_neg (fun hnone => hnone.elim hd hin), if_neg hin]
  have haffine (ha : ObjAttr.affine a0 = true) : s.affineTex a1 lx' ly' w h cw chh = (tx, ty) := by
    simp only [State.affineTex, tx, ty, ← haff, if_pos ha, shiftRight_eight, objAttr_matrix_eq]
    rfl
  have hregular (ha : ¬ObjAttr.affine a0 = true) : regularTex a1 lx' ly' w h = (tx, ty) := by
    simp only [regularTex, tx, ty, ← haff, if_neg ha, bitsOf_self_eq_one]
    rfl
  have ht : s.objSlot a0 a2 tx.toNat ty.toNat w = t := objSlot_eq s a0 a2 _ _ w
  have hi : s.objIndex a0 t (tx.toNat % 8) (ty.toNat % 8) = i := objIndex_eq s a0 t _ _
  dsimp only
  rw [objTex_eq s a0 a1 haffine hregular]
  by_cases hout : ObjAttr.affine a0 = true ∧ (tx < 0 ∨ tx ≥ w ∨ ty < 0 ∨ ty ≥ h)
  · rw [if_pos hout, if_pos hout]
  · rw [if_neg hout, if_neg hout]
    exact objTexel_eq s a0 a2 ht hi

theorem specObj_of_not_drawn (s : State) {a0 : Half} (h : objDrawn a0 = false) (a1 a2 : Half) (y px : Nat) :
    s.specObj a0 a1 a2 y px = none := by
  rw [← objPixelAt_eq_specObj]
  exact if_pos (Or.inl h)

/-- An entry that does not cross the line shows nothing on it (R280). -/
theorem specObj_of_not_onLine (s : State) {a0 a1 : Half} {y : Nat} (h : objOnLine a0 a1 y = false) (a2 : Half)
    (px : Nat) : s.specObj a0 a1 a2 y px = none := by
  rw [← objPixelAt_eq_specObj]
  simp only [objOnLine, Bool.and_eq_false_iff, decide_eq_false_iff_not] at h
  rcases h with (hdrawn | habove) | hbelow
  · exact if_pos (.inl hdrawn)
  · exact if_pos (.inr (.inl (not_le.mp habove)))
  · exact if_pos (.inr (.inr (.inl (not_lt.mp hbelow))))

end Sys2Proof.Machine

end

/-! ### The entries of a line, one after the other (`45_ppu_sprites.md` R280, R290, R291) -/

section

namespace Sys2Proof.Machine

/-! #### What is added to the sprite buffers -/

/-- The sprite buffers of `b'` are those of `b` with the pixels `pix` and the marks `win` added where none is there (R290,
R291); the other line buffers are the same. -/
structure SpritesAdded (pix : Fin 4 → Nat → Option ObjPixel) (win : Nat → Bool) (b b' : LineBuffers) : Prop where
  rest : b' = { b with objpix := b'.objpix, objwin := b'.objwin }
  objpix : ∀ p px, (b'.objpix.get p)[px]? = ((b.objpix.get p)[px]?).map (Option.or · (pix p px))
  objwin : ∀ px, b'.objwin[px]? = (b.objwin[px]?).map (· || win px)

namespace SpritesAdded

variable {pix pix' : Fin 4 → Nat → Option ObjPixel} {win win' : Nat → Bool} {b b' b'' : LineBuffers}

/-- Adding nothing. -/
theorem refl (b : LineBuffers) : SpritesAdded (fun _ _ => none) (fun _ => false) b b where
  rest := rfl
  objpix p px := by simp
  objwin px := by simp

/-- Of two additions the first keeps the pixel. -/
theorem trans (h : SpritesAdded pix win b b') (h' : SpritesAdded pix' win' b' b'') :
    SpritesAdded (fun p px => (pix p px).or (pix' p px)) (fun px => win px || win' px) b b'' where
  rest := by rw [h'.rest, h.rest]
  objpix p px := by simp [h'.objpix, h.objpix, Function.comp_def, Option.or_assoc]
  objwin px := by simp [h'.objwin, h.objwin, Function.comp_def, Bool.or_assoc]

theorem eq_of_none (h : SpritesAdded pix win b b') (hpix : ∀ p px, pix p px = none) (hwin : ∀ px, win px = false) :
    b' = b := by
  have hp : b'.objpix = b.objpix := Four.ext_get fun p => List.ext_getElem? fun px => by simp [h.objpix, hpix]
  have hw : b'.objwin = b.objwin := List.ext_getElem? fun px => by simp [h.objwin, hwin]
  rw [h.rest, hp, hw]

end SpritesAdded

theorem length_eq_of_getElem?_map {α : Type} {l l' : List α} {f : Nat → α → α}
    (h : ∀ i, l'[i]? = (l[i]?).map (f i)) : l'.length = l.length := by
  have hle (i : Nat) : l'.length ≤ i ↔ l.length ≤ i := by
    rw [← List.getElem?_eq_none_iff, h, Option.map_eq_none_iff, List.getElem?_eq_none_iff]
  exact Nat.le_antisymm ((hle _).mpr le_rfl) ((hle _).mp le_rfl)

/-! #### One entry -/

/-- A span misses no column if `f` changes nothing outside it. -/
theorem getElem?_mapSpan_of_unchanged {α : Type} {f : Nat → α → α} {skip n : Nat} {l : List α} {i : Nat}
    (h : ¬(skip ≤ i ∧ i < skip + n) → ∀ a, f i a = a) : (mapSpan f 0 skip n l)[i]? = (l[i]?).map (f i) := by
  rw [getElem?_mapSpan, Nat.zero_add]
  by_cases hi : skip ≤ i ∧ i < skip + n
  · simp only [if_pos hi]
  · simp only [if_neg hi]
    congr 1
    exact funext fun a => (h hi a).symm

theorem bucketKeep_eq (old : Option ObjPixel) (c : Option Colour) (semi : Bool) :
    bucketKeep old c semi = old.or (c.map fun c => { colour := c, semi := semi }) := by
  cases old <;> cases c <;> rfl

variable (s : State) (y i : Nat)

/-- What entry `i` shows at column `px` of line `y`. -/
def State.entryColour (px : Nat) : Option Colour :=
  s.specObj (s.oam16 (8 * i)) (s.oam16 (8 * i + 2)) (s.oam16 (8 * i + 4)) y px

/-- The pixel entry `i` has for bucket `p` at column `px` of line `y` (R290). -/
def State.entryPixel (p : Fin 4) (px : Nat) : Option ObjPixel :=
  if bitsOf (s.oam16 (8 * i + 4)) 11 10 = p.val ∧ bitsOf (s.oam16 (8 * i)) 11 10 ≠ 2 then
    (s.entryColour y i px).map fun c => { colour := c, semi := decide (bitsOf (s.oam16 (8 * i)) 11 10 = 1) }
  else none

/-- The mark entry `i` has for the object window at column `px` of line `y` (R291). -/
def State.entryMark (px : Nat) : Bool :=
  decide (bitsOf (s.oam16 (8 * i)) 11 10 = 2) && (s.entryColour y i px).isSome

theorem entryPixel_of_none {px : Nat} (h : s.entryColour y i px = none) (p : Fin 4) : s.entryPixel y i p px = none := by
  rw [State.entryPixel, h, Option.map_none, ite_self]

theorem entryMark_of_none {px : Nat} (h : s.entryColour y i px = none) : s.entryMark y i px = false := by
  rw [State.entryMark, h, Option.isSome_none, Bool.and_false]

/-- Outside the columns of its canvas an entry shows nothing (R280). -/
theorem specObj_of_outside_columns {a0 a1 : Half} {px : Nat}
    (h : ¬((objX a1).toNat ≤ px ∧ px < (objX a1).toNat +
      ((objX a1 + (objCanvas a0 (ObjAttr.sizeOf (ObjAttr.shape a0) (ObjAttr.size a1))).1).toNat - (objX a1).toNat)))
    (a2 : Half) : s.specObj a0 a1 a2 y px = none := by
  rw [← objPixelAt_eq_specObj]
  refine if_pos (.inr (.inr (.inr ?_)))
  omega

/-- An entry adds what it shows: its loop passes the columns of its canvas, outside which it shows nothing. -/
theorem objEntry_added (b : LineBuffers) :
    SpritesAdded (s.entryPixel y i) (s.entryMark y i) b (s.objEntry y b i) := by
  simp only [State.objEntry, objPixelAt_eq_specObj, objAttr_objmode_eq, bucketKeep_eq]
  by_cases hline : objOnLine (s.oam16 (8 * i)) (s.oam16 (8 * i + 2)) y = true
  · rw [if_pos hline]
    by_cases hwin : bitsOf (s.oam16 (8 * i)) 11 10 = 2
    · rw [if_pos hwin]
      refine ⟨rfl, fun p px => ?_, fun px => ?_⟩
      · simp [State.entryPixel, hwin]
      · simp only [State.entryMark, hwin, decide_true, Bool.true_and]
        exact getElem?_mapSpan_of_unchanged fun hout w => by
          rw [specObj_of_outside_columns s y hout, Option.isSome_none, Bool.or_false]
    · rw [if_neg hwin]
      refine ⟨rfl, fun p px => ?_, fun px => ?_⟩
      · simp only [Four.get_set, eq_comm (a := p), objAttr_priority_eq_iff]
        by_cases hp : bitsOf (s.oam16 (8 * i + 4)) 11 10 = p.val
        · simp only [State.entryPixel, (objAttr_priority_eq_iff _ p).mpr hp, if_pos (And.intro hp hwin), if_pos hp]
          exact getElem?_mapSpan_of_unchanged fun hout o => by
            rw [specObj_of_outside_columns s y hout, Option.map_none, Option.or_none]
        · simp [State.entryPixel, hp]
      · simp [State.entryMark, hwin]
  · rw [if_neg hline]
    have hnone (px : Nat) : s.entryColour y i px = none := specObj_of_not_onLine s (Bool.eq_false_iff.mpr hline) _ px
    have hpix : s.entryPixel y i = fun _ _ => none := funext₂ fun p px => entryPixel_of_none s y i (hnone px) p
    have hmark : s.entryMark y i = fun _ => false := funext fun px => entryMark_of_none s y i (hnone px)
    rw [hpix, hmark]
    exact .refl b

/-- The entries of a list in its order: at every pixel the first that shows something keeps it. -/
theorem foldl_objEntry_added (l : List Nat) (b : LineBuffers) :
    SpritesAdded (fun p px => l.findSome? fun i => s.entryPixel y i p px) (fun px => l.any fun i => s.entryMark y i px)
      b (l.foldl (s.objEntry y) b) := by
  induction l generalizing b with
  | nil => exact .refl b
  | cons i l ih =>
    have h := (objEntry_added s y i b).trans (ih (s.objEntry y b i))
    have hfirst (p : Fin 4) (px : Nat) : ((i :: l).findSome? fun j => s.entryPixel y j p px) =
        (s.entryPixel y i p px).or (l.findSome? fun j => s.entryPixel y j p px) := by
      rw [List.findSome?_cons]
      cases s.entryPixel y i p px <;> rfl
    simpa only [hfirst, List.any_cons, List.foldl_cons] using h

/-! #### A line the rule states nothing of (log 27) -/

/-- A free pixel of bucket `p`, of the screen and where an entry of the bucket is drawn. -/
def State.freeBucketPixel (p : Fin 4) (px : Nat) : Option ObjPixel :=
  if s.objDrawnAny (fun a0 a2 => decide (ObjAttr.objmode a0 ≠ 2) && decide (ObjAttr.priority a2 = p)) = true ∧
      px < screenW then
    freeObjPixel (s.freeAt px (4 + p.val))
  else none

/-- A free mark of the object window, of the screen and where a window sprite is drawn. -/
def State.freeMark (px : Nat) : Bool :=
  s.objDrawnAny (fun a0 _ => decide (ObjAttr.objmode a0 = 2)) && decide (px < screenW) && (s.freeAt px 8).getLsbD 0

theorem getElem?_bucketFree (p : Fin 4) (px : Nat) :
    (s.bucketFree p)[px]? = ((s.lb.objpix.get p)[px]?).map (Option.or · (s.freeBucketPixel p px)) := by
  unfold State.bucketFree State.freeBucketPixel
  split
  · next hany =>
    rw [getElem?_mapSpan]
    by_cases hpx : px < screenW
    · simp only [hany, hpx, Nat.zero_le, Nat.zero_add, and_self, if_true]
    · simp only [hpx, Nat.zero_add, and_false, if_false, Option.or_none]
  · next hany => simp only [hany, Bool.false_eq_true, false_and, if_false, Option.or_none, Option.map_id']

theorem getElem?_objwinFree (px : Nat) : s.objwinFree[px]? = (s.lb.objwin[px]?).map (· || s.freeMark px) := by
  unfold State.objwinFree State.freeMark
  split
  · next hany =>
    rw [getElem?_mapSpan]
    by_cases hpx : px < screenW <;> simp [hany, hpx]
  · next hany => simp [hany]

theorem objFree_added : SpritesAdded s.freeBucketPixel s.freeMark s.lb (objFree s).lb where
  rest := rfl
  objpix p px := by
    rw [← getElem?_bucketFree]
    fin_cases p <;> rfl
  objwin px := getElem?_objwinFree s px

/-! #### No entry drawn (R281) -/

theorem not_drawn_of_undrawn {a0 : Half} (h : bitsOf a0 9 8 = 2 ∨ bitsOf a0 11 10 = 3 ∨ bitsOf a0 15 14 = 3) :
    objDrawn a0 = false := by
  rw [objDrawn_eq_false_iff, ← bitsOf_nine_eight_eq_two_iff]
  exact h

section

variable {s} (h : ∀ i < 128, objDrawn (s.oam16 (8 * i)) = false)

include h

theorem objDrawnAny_of_none_drawn (want : Half → Half → Bool) : s.objDrawnAny want = false := by
  refine List.any_eq_false.mpr fun i hi => ?_
  simp [h i (List.mem_range.mp hi)]

theorem objLine_of_none_drawn : (objLine s y).lb = s.lb := by
  unfold objLine
  split
  · refine (foldl_objEntry_added s y (List.range 128) s.lb).eq_of_none (fun p px => ?_) (fun px => ?_)
    · refine List.findSome?_eq_none_iff.mpr fun i hi => ?_
      exact entryPixel_of_none s y i (specObj_of_not_drawn s (h i (List.mem_range.mp hi)) _ _ y px) p
    · refine List.any_eq_false.mpr fun i hi => ?_
      rw [entryMark_of_none s y i (specObj_of_not_drawn s (h i (List.mem_range.mp hi)) _ _ y px)]
      exact Bool.false_ne_true
  · refine (objFree_added s).eq_of_none (fun p px => ?_) (fun px => ?_)
    · rw [State.freeBucketPixel, objDrawnAny_of_none_drawn h]
      exact if_neg (fun hfree => Bool.false_ne_true hfree.1)
    · rw [State.freeMark, objDrawnAny_of_none_drawn h]
      rfl

end

/-! #### The operation -/

theorem objLine_of_lt {y : Nat} (hy : y < screenH) :
    objLine s y = s.setLb ((List.range 128).foldl (s.objEntry y) s.lb) :=
  if_pos hy

theorem objLine_added : ∃ pix win, SpritesAdded pix win s.lb (objLine s y).lb := by
  unfold objLine
  split
  · exact ⟨_, _, foldl_objEntry_added s y (List.range 128) s.lb⟩
  · exact ⟨_, _, objFree_added s⟩

/-- Settles O35: the operation only adds to the sprite buffers, on a line what the first entry to show something shows, and
nothing if no entry is drawn. -/
theorem lowestSpriteKeepsThePixel : Obligations.LowestSpriteKeepsThePixel := by
  intro s y a0 a1 a2 pixel undrawn
  obtain ⟨pix, win, hadded⟩ := objLine_added s y.toNat
  refine ⟨_, rfl, objLine_only s _, hadded.rest, fun p => length_eq_of_getElem?_map (hadded.objpix p),
    length_eq_of_getElem?_map hadded.objwin, fun p px o ho => ?_, fun px ho => ?_,
    fun hnone => objLine_of_none_drawn y.toNat fun i hi => not_drawn_of_undrawn (hnone i hi), fun hy => ?_⟩
  · rw [hadded.objpix, ho]; rfl
  · rw [hadded.objwin, ho]; rfl
  · rw [objLine_of_lt s hy]
    have hline := foldl_objEntry_added s y.toNat (List.range 128) s.lb
    refine ⟨⟨⟨fun _ => rfl, fun _ => rfl, fun _ => rfl, fun _ => rfl⟩, rfl⟩, fun p px old hold => ?_,
      fun px old hold => ?_⟩
    · refine (hline.objpix p px).trans ?_
      rw [hold]
      cases old <;> rfl
    · refine (hline.objwin px).trans ?_
      rw [hold]
      rfl

end Sys2Proof.Machine

end

/-! ### The channels of a colour, and the three effects on them (`46_ppu_compose.md` R312 to R314) -/

section

namespace Sys2Proof.Machine

/-- The three channels of a colour, as the bits they take. -/
theorem bitsOf_rgb {r g b : Nat} (hr : r < 32) (hg : g < 32) (hb : b < 32) :
    bitsOf (rgb r g b) 4 0 = r ∧ bitsOf (rgb r g b) 9 5 = g ∧ bitsOf (rgb r g b) 14 10 = b := by
  simp only [bitsOf_eq_fieldOf, fieldOf, rgb, BitVec.toNat_ofNat]
  omega

/-- A colour made channel by channel has the function's value in each channel, if that is 5 bits wide. -/
theorem bitsOf_channelwise {f : Nat → Nat → Nat} (hf : ∀ m < 32, ∀ n < 32, f m n < 32) (a b : Colour) :
    ∀ ch ∈ [(4, 0), (9, 5), (14, 10)],
      bitsOf (rgb (f (red a) (red b)) (f (green a) (green b)) (f (blue a) (blue b))) ch.1 ch.2 =
        f (bitsOf a ch.1 ch.2) (bitsOf b ch.1 ch.2) := by
  have hlt (c : Colour) (lo : Nat) : fieldOf c lo 5 < 32 := Nat.mod_lt _ (by decide)
  have hfield (lo : Nat) : f (fieldOf a lo 5) (fieldOf b lo 5) < 32 := hf _ (hlt a lo) _ (hlt b lo)
  obtain ⟨hr, hg, hb⟩ := bitsOf_rgb (hfield 0) (hfield 5) (hfield 10)
  simp only [List.forall_mem_cons, bitsOf_eq_fieldOf a, bitsOf_eq_fieldOf b]
  exact ⟨hr, hg, hb, List.forall_mem_nil _⟩

theorem alphaChannel_eq (eva evb a b : Nat) : alphaChannel eva evb a b = min 31 ((a * eva + b * evb) >>> 4) := by
  rw [Nat.shiftRight_eq_div_pow]; rfl

theorem brightChannel_eq (evy a : Nat) : brightChannel evy a = a + ((31 - a) * evy) >>> 4 := by
  rw [Nat.shiftRight_eq_div_pow]; rfl

theorem darkChannel_eq (evy a : Nat) : darkChannel evy a = a - (a * evy) >>> 4 := by
  rw [Nat.shiftRight_eq_div_pow]; rfl

theorem alphaChannel_lt (eva evb a b : Nat) : alphaChannel eva evb a b < 32 := by
  unfold alphaChannel
  omega

/-- A fade to white adds at most what is missing to 31. -/
theorem brightChannel_lt {evy a : Nat} (hevy : evy ≤ 16) (ha : a < 32) : brightChannel evy a < 32 := by
  have hstep : (31 - a) * evy / 16 ≤ 31 - a := by
    refine Nat.div_le_of_le_mul ?_
    rw [Nat.mul_comm 16]
    exact Nat.mul_le_mul_left _ hevy
  unfold brightChannel
  omega

theorem darkChannel_le (evy a : Nat) : darkChannel evy a ≤ a := Nat.sub_le _ _

/-- R312, channel by channel. -/
theorem bitsOf_alphaBlend (eva evb : Nat) (a b : Colour) : ∀ ch ∈ [(4, 0), (9, 5), (14, 10)],
    bitsOf (alphaBlend eva evb a b) ch.1 ch.2 =
      alphaChannel eva evb (bitsOf a ch.1 ch.2) (bitsOf b ch.1 ch.2) :=
  bitsOf_channelwise (f := alphaChannel eva evb) (fun _ _ _ _ => alphaChannel_lt eva evb _ _) a b

/-- R313, channel by channel. -/
theorem bitsOf_brighten {evy : Nat} (hevy : evy ≤ 16) (a : Colour) : ∀ ch ∈ [(4, 0), (9, 5), (14, 10)],
    bitsOf (brighten evy a) ch.1 ch.2 = brightChannel evy (bitsOf a ch.1 ch.2) :=
  bitsOf_channelwise (f := fun m _ => brightChannel evy m) (fun _ hm _ _ => brightChannel_lt hevy hm) a a

/-- R314, channel by channel. -/
theorem bitsOf_darken (evy : Nat) (a : Colour) : ∀ ch ∈ [(4, 0), (9, 5), (14, 10)],
    bitsOf (darken evy a) ch.1 ch.2 = darkChannel evy (bitsOf a ch.1 ch.2) :=
  bitsOf_channelwise (f := fun m _ => darkChannel evy m) (fun m hm _ _ => (darkChannel_le evy m).trans_lt hm) a a

theorem brightChannel_zero (a : Nat) : brightChannel 0 a = a := by simp [brightChannel]

theorem brightChannel_sixteen {a : Nat} (ha : a < 32) : brightChannel 16 a = 31 := by
  unfold brightChannel
  omega

theorem darkChannel_zero (a : Nat) : darkChannel 0 a = a := by simp [darkChannel]

theorem darkChannel_sixteen (a : Nat) : darkChannel 16 a = 0 := by simp [darkChannel]

theorem eva_eq (s : State) : s.eva = min 16 (bitsOf (s.x 0x052) 4 0) := by rw [bitsOf_eq_fieldOf]; rfl
theorem evb_eq (s : State) : s.evb = min 16 (bitsOf (s.x 0x052) 12 8) := by rw [bitsOf_eq_fieldOf]; rfl
theorem evy_eq (s : State) : s.evy = min 16 (bitsOf (s.x 0x054) 4 0) := by rw [bitsOf_eq_fieldOf]; rfl

/-- Settles O39: each effect is made channel by channel, and no channel overflows its 5 bits. -/
theorem effectArithmetic : Obligations.EffectArithmetic := by
  refine ⟨fun s => ⟨eva_eq s, evb_eq s, evy_eq s⟩, fun a b eva evb evy _ _ hevy =>
    ⟨fun ch hch => ⟨?_, ?_, ?_⟩, ?_, ?_, ?_, ?_⟩⟩
  · rw [← alphaChannel_eq]
    exact bitsOf_alphaBlend eva evb a b ch hch
  · rw [← brightChannel_eq]
    exact bitsOf_brighten hevy a ch hch
  · rw [← darkChannel_eq]
    exact bitsOf_darken evy a ch hch
  · simp only [brighten, brightChannel_zero, rgb_channels]
  · have hlt (lo : Nat) : fieldOf a lo 5 < 32 := Nat.mod_lt _ (by decide)
    rw [brighten, red, green, blue, brightChannel_sixteen (hlt 0), brightChannel_sixteen (hlt 5),
      brightChannel_sixteen (hlt 10)]
    rfl
  · simp only [darken, darkChannel_zero, rgb_channels]
  · simp only [darken, darkChannel_sixteen]
    rfl

end Sys2Proof.Machine

end

/-! ### The channel swap (`46_ppu_compose.md` R316) -/

section

namespace Sys2Proof.Machine

/-- The pair at the columns `2 * j` and `2 * j + 1`, by the recursion over pairs. -/
theorem swapGreens_pair {l : List Colour} {j : Nat} {a b : Colour} (ha : l[2 * j]? = some a)
    (hb : l[2 * j + 1]? = some b) : (swapGreens l)[2 * j]? = some (rgb (red a) (green b) (blue a)) ∧
      (swapGreens l)[2 * j + 1]? = some (rgb (red b) (green a) (blue b)) := by
  fun_induction swapGreens l generalizing j with
  | case1 c d l ih =>
    cases j with
    | zero =>
      cases ha
      cases hb
      exact ⟨rfl, rfl⟩
    | succ j => exact ih ha hb
  | case2 l hshort =>
    match l with
    | [] => cases ha
    | [_] => cases hb
    | c :: d :: l => exact (hshort c d l rfl).elim

theorem onlyLineBuffers_greenSwap (s : State) : OnlyLineBuffers s (greenSwap s) := by
  refine ⟨(greenSwap_only s).bytes, ?_⟩
  unfold greenSwap
  split <;> rfl

theorem lb_greenSwap (s : State) : (greenSwap s).lb = { s.lb with line := (greenSwap s).lb.line } := by
  unfold greenSwap
  split <;> rfl

/-- Settles O40: with the swap on the line is its pairs swapped, with it off the state is the same. -/
theorem greenSwapExchangesGreens : Obligations.GreenSwapExchangesGreens := by
  intro s hlen
  refine ⟨greenSwap s, rfl, onlyLineBuffers_greenSwap s, lb_greenSwap s,
    fun hoff => if_neg (Bool.eq_false_iff.mp hoff), fun hon => ?_⟩
  have hline : (greenSwap s).lb.line = swapGreens s.lb.line := (line_greenSwap s).trans (if_pos hon)
  rw [hline]
  exact ⟨(length_swapGreens _).trans hlen, fun j _ a b => swapGreens_pair⟩

end Sys2Proof.Machine

end

/-! ### The frame buffers (`46_ppu_compose.md` R317, R320, R322) -/

section

namespace Sys2Proof.Machine

theorem commit_rest (s : State) (y : Nat) : commit s y =
    { s with fb0 := (commit s y).fb0, fb1 := (commit s y).fb1 } := by
  unfold commit
  split <;> rfl

/-- A row that the active buffer does not have is not committed (log 27). -/
theorem commit_of_length_le {s : State} {y : Nat} (h : (s.fb s.active).length ≤ y) : commit s y = s := by
  unfold commit
  unfold State.fb at h
  split at h
  · next ha => rw [if_pos ha, List.set_eq_of_length_le h]
  · next ha => rw [if_neg ha, List.set_eq_of_length_le h]

theorem toNat_not_bit (a : BitVec 1) : (~~~a).toNat = 1 - a.toNat := by revert a; decide

/-- Settles O41: a commit sets one row of the active buffer, and the other two operations turn `active` over. -/
theorem commitSwapAndGetFrame : Obligations.CommitSwapAndGetFrame := by
  refine ⟨fun s y hy hrows => ?_, fun s y hy hrows => ?_, fun s => ⟨?_, ?_⟩⟩
  · have honly := (onlyVideo_commit s y.toNat).onlyCompositor
    refine ⟨_, rfl, ?_, fun r hr => ?_, fb_commit_other s _, honly.regs, honly.bytes, commit_rest s _⟩
    · rw [fb_commit, List.getElem?_set_self (by omega)]
    · rw [fb_commit, List.getElem?_set_ne (Ne.symm hr)]
  · exact congrArg Host.Outcome.next (commit_of_length_le (by omega))
  · exact ⟨_, rfl, toNat_not_bit s.active, OnlyCompositor.bytes ⟨rfl⟩, rfl⟩
  · exact ⟨_, _, rfl, ⟨OnlyCompositor.bytes ⟨rfl⟩, rfl⟩, rfl, toNat_not_bit s.active⟩

end Sys2Proof.Machine

end

/-! ### The window mask (`46_ppu_compose.md` R305, R307) -/

section

namespace Sys2Proof.Machine

variable (s : State) {px y : Nat}

/-- `Inside` of the rule, on the registers of one window (R307). -/
theorem insideWindow_iff (w1 : Bool) (px y : Nat) :
    s.insideWindow w1 px y = true ↔ insideOf (s.x (Reg.winh w1)) (s.x (Reg.winv w1)) px y := by
  simp only [State.insideWindow, insideOf, bitsOf_eq_fieldOf, Bool.and_eq_true, decide_eq_true_eq, and_assoc]
  rfl

theorem inObjWindow_iff (px : Nat) : s.lb.objwin.getD px false = true ↔ s.lb.objwin[px]? = some true := by
  rw [List.getD_eq_getElem?_getD]
  cases s.lb.objwin[px]? with
  | none => decide
  | some b => simp

/-- No window is enabled exactly where the field of the three enable bits is 0. -/
theorem winEn_all_false_iff (d : Half) :
    (!DispCnt.winEn d false && !DispCnt.winEn d true && !DispCnt.objwinEn d) = true ↔ bitsOf d 15 13 = 0 := by
  simp only [Bool.and_eq_true, Bool.not_eq_true', DispCnt.winEn, DispCnt.objwinEn, Bool.false_eq_true, if_false,
    if_true, ← bitsOf_self_eq_zero, bitsOf_eq_fieldOf, fieldOf]
  omega

theorem windowMask_of_no_window (h : bitsOf (s.x 0x000) 15 13 = 0) (px y : Nat) : s.windowMask px y = 0x3F :=
  if_pos ((winEn_all_false_iff (s.x 0x000)).mpr h)

/-- With a window enabled, the mask of a pixel of the screen is a field of the registers. -/
theorem windowMask_of_window (h : bitsOf (s.x 0x000) 15 13 ≠ 0) (hpx : px < 240) (hy : y < 160) :
    (s.windowMask px y).toNat =
      if DispCnt.winEn s.dispcnt false && s.insideWindow false px y then bitsOf (s.x 0x048) 5 0
      else if DispCnt.winEn s.dispcnt true && s.insideWindow true px y then bitsOf (s.x 0x048) 13 8
      else if DispCnt.objwinEn s.dispcnt && s.lb.objwin.getD px false then bitsOf (s.x 0x04A) 13 8
      else bitsOf (s.x 0x04A) 5 0 := by
  have hen := mt (winEn_all_false_iff s.dispcnt).mp h
  have hon : ¬offScreen px y = true := by
    rw [offScreen_iff]
    exact not_or.mpr ⟨not_le.mpr hpx, not_le.mpr hy⟩
  have hfield (v : Half) (lo : Nat) : (BitVec.ofNat 6 (fieldOf v lo 6)).toNat = fieldOf v lo 6 :=
    Nat.mod_eq_of_lt (Nat.mod_lt _ (by decide))
  rw [State.windowMask, if_neg hen, if_neg hon]
  simp only [apply_ite BitVec.toNat, hfield, bitsOf_eq_fieldOf]
  rfl

theorem afterWindow_rest (px y : Nat) : afterWindow s px y = { s with
    lb := (afterWindow s px y).lb, result := (afterWindow s px y).result
    freeCount := (afterWindow s px y).freeCount } := by
  rw [afterWindow, useFreeOff_only]
  rfl

/-- Settles O37: the conditions of the rule are those the mask is chosen by, in the same order. -/
theorem windowMaskByPrecedence : Obligations.WindowMaskByPrecedence := by
  intro s x y d in0 in1 inObj
  have h0 : (DispCnt.winEn s.dispcnt false && s.insideWindow false x.toNat y.toNat) = true ↔ in0 := by
    rw [Bool.and_eq_true, insideWindow_iff]; rfl
  have h1 : (DispCnt.winEn s.dispcnt true && s.insideWindow true x.toNat y.toNat) = true ↔ in1 := by
    rw [Bool.and_eq_true, insideWindow_iff]; rfl
  have hobj : (DispCnt.objwinEn s.dispcnt && s.lb.objwin.getD x.toNat false) = true ↔ inObj := by
    rw [Bool.and_eq_true, inObjWindow_iff]; rfl
  have hen {i : Nat} (hlo : 13 ≤ i) (hhi : i ≤ 15) (hbit : d.getLsbD i = true) : bitsOf d 15 13 ≠ 0 := fun hz =>
    Bool.eq_false_iff.mp (getLsbD_of_bitsOf_zero hz hlo hhi) hbit
  have honly : OnlyCompositor s (afterWindow s x.toNat y.toNat) := OnlyCompositor.useFreeOff ⟨rfl⟩ _ _
  refine ⟨_, s.windowMask x.toNat y.toNat, exec_ppuWindow x y s, useFreeOff_result _ _ _, lb_afterWindow s _ _,
    fun hnone => windowMask_of_no_window s hnone _ _, fun hx hy => ⟨fun hin0 => ?_, fun hnin0 hin1 => ?_,
    fun hnin0 hnin1 hinObj => ?_, fun hwin hnin0 hnin1 hninObj => ?_, ?_⟩,
    honly.regs, honly.bytes, afterWindow_rest s _ _⟩
  · rw [windowMask_of_window s (hen (by decide) (by decide) hin0.1) hx hy, if_pos (h0.mpr hin0)]
  · rw [windowMask_of_window s (hen (by decide) (by decide) hin1.1) hx hy, if_neg (mt h0.mp hnin0),
      if_pos (h1.mpr hin1)]
  · rw [windowMask_of_window s (hen (by decide) (by decide) hinObj.1) hx hy, if_neg (mt h0.mp hnin0),
      if_neg (mt h1.mp hnin1), if_pos (hobj.mpr hinObj)]
  · rw [windowMask_of_window s hwin hx hy, if_neg (mt h0.mp hnin0), if_neg (mt h1.mp hnin1),
      if_neg (mt hobj.mp hninObj)]
  · rw [afterWindow, useFreeOff_on _ hx hy]
    rfl

end Sys2Proof.Machine

end

/-! ### The draw order (`46_ppu_compose.md` R300, R301; `44_ppu_backgrounds.md` R242, R243) -/

section

namespace Sys2Proof.Machine

variable (s : State)

/-- A background has its place in the order: it is enabled and the mode draws it (R300). -/
def State.bgActive (n : Fin 4) : Prop := (s.x 0x000).getLsbD (8 + n.val) = true ∧ s.kind n ≠ .none

theorem obj_mem_layersOf {p q : Fin 4} : Layer.obj q ∈ s.layersOf p ↔ q = p := by simp [State.layersOf]

theorem bg_mem_layersOf {p n : Fin 4} :
    Layer.bg n ∈ s.layersOf p ↔ s.bgActive n ∧ bitsOf (s.x (0x008 + 2 * n.val)) 1 0 = p.val := by
  have hprio : BgCnt.priority (s.x (Reg.bgcnt n)) = bitsOf (s.x (0x008 + 2 * n.val)) 1 0 :=
    (bitsOf_eq_fieldOf _ 1 0).symm
  simp only [State.layersOf, State.bgActive, List.mem_cons, reduceCtorEq, false_or, List.mem_map, List.mem_filter,
    Bool.and_eq_true, decide_eq_true_eq, Layer.bg.injEq, exists_eq_right, hprio]
  exact and_iff_right (by clear hprio; revert n; decide)

theorem backdrop_not_mem_layersOf {p : Fin 4} : Layer.backdrop ∉ s.layersOf p := by simp [State.layersOf]

/-- The layers of a priority have the eight ranks from eight times it. -/
theorem layerRank_of_mem_layersOf {p : Fin 4} {l : Layer} (h : l ∈ s.layersOf p) :
    8 * p.val ≤ s.layerRank l ∧ s.layerRank l < 8 * p.val + 8 := by
  cases l with
  | obj q =>
    obtain rfl := (obj_mem_layersOf s).mp h
    simp only [State.layerRank]
    omega
  | bg n =>
    obtain ⟨-, hprio⟩ := (bg_mem_layersOf s).mp h
    simp only [State.layerRank, hprio]
    omega
  | backdrop => exact absurd h (backdrop_not_mem_layersOf s)

/-- Within a priority the sprite bucket is in front, and the backgrounds stand by number. -/
theorem pairwise_layersOf (p : Fin 4) : (s.layersOf p).Pairwise (fun a b => s.layerRank a < s.layerRank b) := by
  have hrank {n : Fin 4} (hn : Layer.bg n ∈ s.layersOf p) : s.layerRank (.bg n) = 8 * p.val + 1 + n.val := by
    rw [State.layerRank, ((bg_mem_layersOf s).mp hn).2]
  unfold State.layersOf at hrank ⊢
  have hnumbers : ([0, 1, 2, 3] : List (Fin 4)).Pairwise (· < ·) := by decide
  refine List.pairwise_cons.mpr ⟨fun l hl => ?_, List.pairwise_map.mpr ((hnumbers.filter _).imp_of_mem ?_)⟩
  · obtain ⟨n, -, rfl⟩ := List.mem_map.mp hl
    rw [hrank (List.mem_cons_of_mem _ hl), State.layerRank]
    omega
  · intro n m hn hm hlt
    rw [hrank (List.mem_cons_of_mem _ (List.mem_map_of_mem hn)),
      hrank (List.mem_cons_of_mem _ (List.mem_map_of_mem hm))]
    exact Nat.add_lt_add_left hlt _

theorem mem_sortLayers {l : Layer} : l ∈ s.sortLayers ↔ (∃ p, l ∈ s.layersOf p) ∨ l = .backdrop := by
  have hall (p : Fin 4) : p ∈ ([0, 1, 2, 3] : List (Fin 4)) := by revert p; decide
  simp only [State.sortLayers, List.mem_append, List.mem_flatMap, List.mem_singleton, hall, true_and]

/-- The priorities' ranks stand apart, and the backdrop's is behind them. -/
theorem pairwise_sortLayers : s.sortLayers.Pairwise (fun a b => s.layerRank a < s.layerRank b) := by
  have hpriorities : ([0, 1, 2, 3] : List (Fin 4)).Pairwise (· < ·) := by decide
  refine List.pairwise_append.mpr ⟨List.pairwise_flatMap.mpr ⟨fun p _ => pairwise_layersOf s p,
    hpriorities.imp fun {p q} hpq a ha b hb => ?_⟩, List.pairwise_singleton _ _, fun a ha b hb => ?_⟩
  · have hfront := layerRank_of_mem_layersOf s ha
    have hbehind := layerRank_of_mem_layersOf s hb
    omega
  · obtain ⟨p, -, hp⟩ := List.mem_flatMap.mp ha
    have hfront := layerRank_of_mem_layersOf s hp
    rw [List.mem_singleton.mp hb, State.layerRank]
    omega

theorem bg_mem_sortLayers {n : Fin 4} : Layer.bg n ∈ s.sortLayers ↔ s.bgActive n := by
  have hprio : bitsOf (s.x (0x008 + 2 * n.val)) 1 0 < 4 := bitsOf_lt _ 1 0
  simp only [mem_sortLayers, bg_mem_layersOf, reduceCtorEq, or_false]
  exact ⟨fun ⟨_, hactive, _⟩ => hactive, fun hactive => ⟨⟨_, hprio⟩, hactive, rfl⟩⟩

theorem kind_of_perLine {s : State} (h : s.cfg.modeLatch = .perLine) (n : Fin 4) :
    s.kind n = kindOf (bitsOf (s.x 0x000) 2 0) n := by
  rw [State.kind, State.bgMode, h, mode_dispcnt_eq]

/-- Settles O36: the order's ranks ascend, and its layers are those of the four priorities and the backdrop. -/
theorem sortOrdersTheLayers : Obligations.SortOrdersTheLayers := by
  refine ⟨fun s => ⟨_, s.sortLayers, exec_ppuSort s, rfl, pairwise_sortLayers s, fun l => ?_,
    OnlyCompositor.regs ⟨rfl⟩, OnlyCompositor.bytes ⟨rfl⟩, rfl⟩, fun s n hlatch => ?_⟩
  · cases l with
    | obj p => exact iff_true_intro ((mem_sortLayers s).mpr (.inl ⟨p, (obj_mem_layersOf s).mpr rfl⟩))
    | bg n => exact bg_mem_sortLayers s
    | backdrop => exact iff_true_intro ((mem_sortLayers s).mpr (.inr rfl))
  · have hmode : bitsOf (s.x 0x000) 2 0 < 8 := bitsOf_lt _ 2 0
    rw [kind_of_perLine hlatch]
    generalize bitsOf (s.x 0x000) 2 0 = mode at hmode ⊢
    revert mode n
    decide

end Sys2Proof.Machine

end

/-! ### The effect on the two front layers (`46_ppu_compose.md` R310, R311, R315) -/

section

namespace Sys2Proof.Machine

/-- The elements that satisfy `p` are the first of them and those behind its first place in the list: no element in
front of it satisfies `p`, so it is none of them. -/
theorem filter_of_find?_eq_some {α : Type} [DecidableEq α] {p : α → Bool} {l : List α} {a : α}
    (h : l.find? p = some a) :
    l.filter p = a :: ((l.dropWhile (fun b => decide (b ≠ a))).drop 1).filter p := by
  obtain ⟨hpa, front, back, rfl, hfront⟩ := List.find?_eq_some_iff_append.mp h
  have hne : ∀ b ∈ front, decide (b ≠ a) = true := by
    intro b hb
    have hnot := hfront b hb
    refine decide_eq_true fun hba => ?_
    simp [hba, hpa] at hnot
  have hnone : front.filter p = [] := List.filter_eq_nil_iff.mpr fun b hb => by simpa using hfront b hb
  rw [List.filter_append, hnone, List.nil_append, List.filter_cons_of_pos hpa, List.dropWhile_append_of_pos hne,
    List.dropWhile_cons_of_neg (by simp), List.drop_one, List.tail_cons]

variable (s : State) (wm : BitVec 6) (px : Nat)

/-- The ordinary path, by the mode's number; a blend that there is none of leaves the colour (R310). -/
theorem modeEffect_eq (top : Layer) (second : Option Layer) : s.modeEffect px top second =
    let c1 := s.layerColour px top
    let blend := s.blendWith px c1 second
    let mode := bitsOf (s.x 0x050) 7 6
    if mode = 1 then (if target1 (s.x 0x050) top = true ∧ blend.isSome = true then blend.getD 0 else c1)
    else if mode = 2 then (if target1 (s.x 0x050) top = true then brighten s.evy c1 else c1)
    else if mode = 3 then (if target1 (s.x 0x050) top = true then darken s.evy c1 else c1)
    else c1 := by
  have hmode : bitsOf (s.x 0x050) 7 6 < 4 := bitsOf_lt _ 7 6
  have hfield : fieldOf (s.x Reg.bldcnt) 6 2 = bitsOf (s.x 0x050) 7 6 := (bitsOf_eq_fieldOf _ 7 6).symm
  have hblend (blend : Option Colour) (c1 : Colour) : (if target1 (s.x 0x050) top then blend.getD c1 else c1) =
      if target1 (s.x 0x050) top = true ∧ blend.isSome = true then blend.getD 0 else c1 := by
    cases blend <;> simp
  simp only [State.modeEffect, hfield, ← hblend]
  generalize bitsOf (s.x 0x050) 7 6 = mode at hmode ⊢
  interval_cases mode <;> rfl

/-- The rule's formula in the model's terms: a blend, the window's gate, the ordinary path (R310, R315). -/
theorem specEffect_eq (top : Layer) (second : Option Layer) : s.specEffect wm px top second =
    let blend := s.blendWith px (s.layerColour px top) second
    if s.layerSemi px top = true ∧ blend.isSome = true then blend.getD 0
    else if wm.getLsbD 5 = false then s.layerColour px top
    else s.modeEffect px top second := by
  rw [modeEffect_eq, evy_eq]
  cases second with
  | none => rfl
  | some l =>
    simp only [State.blendWith, eva_eq, evb_eq]
    rfl

/-- The effect on the visible layers is the rule's, of the first and the second. -/
theorem effectOf_cons (top : Layer) (rest : List Layer) : s.effectOf wm px (top :: rest) =
    s.specEffect wm px top (if top = .backdrop then none else rest.head?) := by
  rw [specEffect_eq, State.effectOf]
  generalize (if top = Layer.backdrop then none else rest.head?) = second
  have hgate : (if wm.getLsbD 5 then s.modeEffect px top second else s.layerColour px top) =
      if wm.getLsbD 5 = false then s.layerColour px top else s.modeEffect px top second := by
    cases wm.getLsbD 5 <;> rfl
  rw [hgate]
  cases s.blendWith px (s.layerColour px top) second <;> cases s.layerSemi px top <;> rfl

/-- With a layer visible, the effect is the rule's of the first visible layer and the next one. -/
theorem effectColour_of_top {order : List Layer} {top : Layer} (h : order.find? (s.visible wm px) = some top) :
    s.effectColour order wm px = s.specEffect wm px top (s.secondAfter order wm px top) := by
  rw [State.effectColour, filter_of_find?_eq_some h, effectOf_cons, List.head?_filter]
  rfl

theorem isSome_getD_none_iff {α : Type} (l : List (Option α)) (i : Nat) :
    (l.getD i none).isSome = true ↔ ∃ a, l[i]? = some (some a) := by
  rw [List.getD_eq_getElem?_getD]
  cases l[i]? with
  | none => simp
  | some o => simp [Option.isSome_iff_exists]

variable {s px}

theorem bgAt_of_pixel (hpx : px < 240) {n : Fin 4} {c : Colour} (h : (s.lb.bgpix.get n)[px]? = some (some c)) :
    s.bgAt n px = some c := by
  rw [bgAt_on _ _ hpx, List.getD_eq_getElem?_getD, h]
  rfl

theorem objAt_of_pixel (hpx : px < 240) {p : Fin 4} {o : ObjPixel} (h : (s.lb.objpix.get p)[px]? = some (some o)) :
    s.objAt p px = some o := by
  rw [objAt_on _ _ hpx, List.getD_eq_getElem?_getD, h]
  rfl

variable {wm}

theorem visible_bg_iff (hpx : px < 240) {n : Fin 4} : s.visible wm px (.bg n) = true ↔
    wm.getLsbD n.val = true ∧ ∃ c, (s.lb.bgpix.get n)[px]? = some (some c) := by
  rw [State.visible, Bool.and_eq_true, bgAt_on _ _ hpx, isSome_getD_none_iff]

theorem visible_obj_iff (hpx : px < 240) {p : Fin 4} : s.visible wm px (.obj p) = true ↔
    wm.getLsbD 4 = true ∧ ∃ o, (s.lb.objpix.get p)[px]? = some (some o) := by
  rw [State.visible, Bool.and_eq_true, objAt_on _ _ hpx, isSome_getD_none_iff]

/-- The state after `PPU_EFFECT`. -/
def afterEffect (s : State) (px : Nat) : State :=
  (s.setResult (.colour (s.effectColour s.lb.order s.lb.wm px))).useFreeOff px 0

theorem exec_ppuEffect (x : Byte) (s : State) : exec (.ppuEffect x) s = .next (afterEffect s x.toNat) := rfl

theorem afterEffect_rest (s : State) (px : Nat) : afterEffect s px = { s with
    result := (afterEffect s px).result, freeCount := (afterEffect s px).freeCount } := by
  rw [afterEffect, useFreeOff_only]
  rfl

theorem onlyResult_afterEffect (hpx : px < 240) : OnlyResult s (afterEffect s px) := by
  rw [afterEffect, useFreeOff_on _ hpx (by decide)]
  exact ⟨OnlyCompositor.bytes ⟨rfl⟩, rfl⟩

/-- Settles O38: the effect of the two front visible layers, and what a layer shows at a pixel of the line. -/
theorem effectOnTheTopTwoLayers : Obligations.EffectOnTheTopTwoLayers := by
  refine ⟨fun s x top htop => ?_, fun s wm px => ⟨rfl, rfl, rfl⟩, fun s wm px hpx => ⟨fun n => ?_, fun p => ?_⟩⟩
  · have honly : OnlyCompositor s (afterEffect s x.toNat) := OnlyCompositor.useFreeOff ⟨rfl⟩ _ _
    refine ⟨_, exec_ppuEffect x s, honly.bytes, afterEffect_rest s _, fun hx => onlyResult_afterEffect hx, ?_⟩
    rw [afterEffect, useFreeOff_result, ← effectColour_of_top s _ _ htop]
    rfl
  · refine ⟨visible_bg_iff hpx, fun c hc => ?_, rfl⟩
    rw [State.layerColour, bgAt_of_pixel hpx hc]
    rfl
  · refine ⟨visible_obj_iff hpx, fun o ho => ?_⟩
    rw [State.layerColour, State.layerSemi, objAt_of_pixel hpx ho]
    exact ⟨rfl, rfl⟩

end Sys2Proof.Machine

end

/-! ### Reserved bits, clock, accumulators and frames along a step (`10_state.md` R15, R52, R54, R55,
`40_scheduler.md` R136, `43_timers.md` R213, `47_register_access.md` R358) -/

section

namespace Sys2Proof.Machine

variable {P : State → Prop} {s t : State} {o : Nat} {v : Half} {ch : Fin 4}

/-- The registers, the timers, the clock, the frame buffers and the output line: all that the four invariants read. -/
def State.guarded (s : State) :
    Store Half × Four Timer × BitVec 8 × List (List Colour) × List (List Colour) × List Colour :=
  (s.regs, s.tmr, s.frameClock, s.fb0, s.fb1, s.lb.line)

/-- `P` reads `State.guarded` only, holds at reset, and is kept by the updates that write a part of it. -/
structure GuardedInvariant (P : State → Prop) : Prop where
  congr : ∀ {s t}, t.guarded = s.guarded → P s → P t
  resetWith : ∀ cfg, P (State.resetWith cfg)
  setReg : ∀ s o v, OrdinaryReg o → (Conforms o (s.x o) → Conforms o v) → P s → P (s.setReg o v)
  setTmrCtl : ∀ s ch v, (Conforms (Reg.tmrCntH ch) (s.x (Reg.tmrCntH ch)) → Conforms (Reg.tmrCntH ch) v) →
    (TmrCtl.running v = false ∨ (s.tmr.get ch).prescAcc = 0) → P s → P (s.setReg (Reg.tmrCntH ch) v)
  setTmr : ∀ s ch v, (v.prescAcc = (s.tmr.get ch).prescAcc ∨
    v.prescAcc.toNat < TmrCtl.div (TmrCtl.prescaler (s.tmrCtl ch))) → P s → P (s.setTmr ch v)
  setLb : ∀ s v, (s.lb.line.length = screenW → v.line.length = screenW) → P s → P (s.setLb v)
  commit : ∀ s y, P s → P (commit s y)
  clock : ∀ s, P s → P (tickClock s)

/-- Every other update leaves `State.guarded` as it is. -/
theorem GuardedInvariant.closedStep (h : GuardedInvariant P) : ClosedStep P (fun _ => True) where
  setReg := h.setReg
  setTmrCtl := h.setTmrCtl
  setTmr := h.setTmr
  setLb := h.setLb
  commit := h.commit
  clock := h.clock
  reset s _ := h.congr (s := State.resetWith s.cfg) rfl (h.resetWith s.cfg)
  writePal _ _ _ _ := h.congr rfl
  writeVram _ _ _ _ := h.congr rfl
  writeOam _ _ _ _ := h.congr rfl
  writeExt _ _ _ _ := h.congr rfl
  setDma _ _ _ := h.congr rfl
  setRefs _ _ := h.congr rfl
  frameMode _ _ := h.congr rfl
  useFree _ := h.congr rfl
  swap _ := h.congr rfl
  setResult _ _ := h.congr rfl
  setDispatch _ _ := h.congr rfl
  setWaits _ _ := h.congr rfl
  setHost _ _ := h.congr rfl
  setKont _ _ := h.congr rfl
  extRaises _ _ := h.congr rfl
  afterFault _ _ _ := trivial

theorem GuardedInvariant.step (h : GuardedInvariant P) (hs : P s) (ht : step s = .next t) : P t :=
  (h.closedStep.step hs).next ht

theorem x_of_guarded (h : t.guarded = s.guarded) (o : Nat) : t.x o = s.x o :=
  congrArg (Store.get (fun _ => 0) · o) (congrArg Prod.fst h)

theorem tmr_of_guarded (h : t.guarded = s.guarded) : t.tmr = s.tmr := congrArg (·.2.1) h

theorem frameClock_of_guarded (h : t.guarded = s.guarded) : t.frameClock = s.frameClock := congrArg (·.2.2.1) h

theorem x_resetWith (cfg : Config) (o : Nat) : (State.resetWith cfg).x o = 0 := rfl

theorem x_tickClock (s : State) (o : Nat) :
    (tickClock s).x o = if o = Reg.vcount then s.frameClock.setWidth 16 else s.x o :=
  State.x_setReg _ _ _ _

theorem x_commit (s : State) (y o : Nat) : (commit s y).x o = s.x o := by
  rw [commit_rest]; rfl

/-! #### Reserved bits -/

theorem State.ReservedZero.setReg (hs : s.ReservedZero) (hv : Conforms o v) : (s.setReg o v).ReservedZero := fun p => by
  rw [State.x_setReg]
  split
  · next hp => exact hp ▸ hv
  · exact hs p

/-- A line number is stored in the low byte of VCOUNT. -/
theorem conforms_vcount (l : BitVec 8) : Conforms Reg.vcount (l.setWidth 16) := by
  have hmask : ∀ i < 8, (storedMask Reg.vcount).getLsbD i = true := by decide
  rw [conforms_iff]
  intro i _ hi
  rw [BitVec.getLsbD_setWidth, Bool.and_eq_true] at hi
  exact hmask i (BitVec.lt_of_getLsbD hi.2)

theorem guardedInvariant_reservedZero : GuardedInvariant State.ReservedZero where
  congr h hs o := by rw [x_of_guarded h]; exact hs o
  resetWith _ _ := BitVec.zero_and
  setReg _ o _ _ hv hs := hs.setReg (hv (hs o))
  setTmrCtl _ _ _ hv _ hs := hs.setReg (hv (hs _))
  setTmr _ _ _ _ hs := hs
  setLb _ _ _ hs := hs
  commit s y hs o := by rw [x_commit]; exact hs o
  clock s hs := State.ReservedZero.setReg (s := { s with frameClock := _ }) hs (conforms_vcount _)

/-! #### The clock -/

theorem State.ClockInRange.setReg (hs : s.ClockInRange) (ho : Reg.vcount ≠ o) : (s.setReg o v).ClockInRange :=
  ⟨hs.clock, by rw [State.x_setReg_other _ _ ho]; exact hs.vcount⟩

theorem guardedInvariant_clockInRange : GuardedInvariant State.ClockInRange where
  congr h hs := ⟨by rw [frameClock_of_guarded h]; exact hs.clock, by rw [x_of_guarded h]; exact hs.vcount⟩
  resetWith _ := ⟨Nat.zero_lt_succ _, Nat.zero_lt_succ _⟩
  setReg _ _ _ ho _ hs := hs.setReg ho.1.symm
  setTmrCtl _ ch _ _ _ hs := hs.setReg (vcount_ne_tmrCntH ch)
  setTmr _ _ _ _ hs := ⟨hs.clock, hs.vcount⟩
  setLb _ _ _ hs := ⟨hs.clock, hs.vcount⟩
  commit s y hs := by rw [commit_rest]; exact ⟨hs.clock, hs.vcount⟩
  clock s hs := by
    refine ⟨(toNat_nextLine _).trans_lt (Nat.mod_lt _ (by decide)), ?_⟩
    rw [x_tickClock, if_pos rfl, BitVec.toNat_setWidth]
    exact (Nat.mod_le _ _).trans_lt hs.clock

/-! #### The prescaler accumulators -/

/-- The accumulator of channel `ch` is below its divisor, if the channel takes its own ticks. -/
def State.AccAt (s : State) (ch : Fin 4) : Prop :=
  s.ownTicks ch = true → (s.tmr.get ch).prescAcc.toNat < TmrCtl.div (TmrCtl.prescaler (s.tmrCtl ch))

theorem State.AccAt.congr (hs : s.AccAt ch) (hctl : t.tmrCtl ch = s.tmrCtl ch)
    (hacc : (t.tmr.get ch).prescAcc = (s.tmr.get ch).prescAcc) : t.AccAt ch := by
  rw [State.AccAt, State.ownTicks, hctl, hacc]
  exact hs

theorem ownTicks_eq_false_of_stopped (h : TmrCtl.running (s.tmrCtl ch) = false) : s.ownTicks ch = false := by
  rw [State.ownTicks, h, Bool.false_and]

theorem State.AccAt.of_stopped (h : TmrCtl.running (s.tmrCtl ch) = false) : s.AccAt ch := fun how => by
  rw [ownTicks_eq_false_of_stopped h] at how
  cases how

theorem State.AccAt.of_zero (h : (s.tmr.get ch).prescAcc = 0) : s.AccAt ch := fun _ => by
  rw [h]
  exact TmrCtl.div_pos _

theorem tmrCntH_inj {c d : Fin 4} (h : Reg.tmrCntH c = Reg.tmrCntH d) : c = d :=
  Fin.ext (by simp only [Reg.tmrCntH] at h; omega)

theorem guardedInvariant_accInRange : GuardedInvariant State.AccInRange where
  congr h hs c := State.AccAt.congr (hs c) (x_of_guarded h _) (by rw [tmr_of_guarded h])
  resetWith _ _ := State.AccAt.of_stopped (by rw [State.tmrCtl, x_resetWith]; rfl)
  setReg s _ v ho _ hs c := State.AccAt.congr (hs c) (s.x_setReg_other v (ho.2 c).symm) rfl
  setTmrCtl s ch v _ hv hs c := by
    by_cases hc : c = ch
    · subst hc
      rcases hv with hstop | hzero
      · exact State.AccAt.of_stopped (by rw [State.tmrCtl, State.x_setReg_same, hstop])
      · exact State.AccAt.of_zero hzero
    · exact State.AccAt.congr (hs c) (s.x_setReg_other v fun h => hc (tmrCntH_inj h)) rfl
  setTmr s ch v hv hs c := by
    by_cases hc : c = ch
    · subst hc
      have hget : (s.setTmr c v).tmr.get c = v := Four.get_set_same _ _ _
      rcases hv with hkept | hbelow
      · exact State.AccAt.congr (hs c) rfl ((congrArg Timer.prescAcc hget).trans hkept)
      · exact fun _ => hget.symm ▸ hbelow
    · exact State.AccAt.congr (hs c) rfl (congrArg Timer.prescAcc (Four.get_set_other _ v hc))
  setLb _ _ _ hs := hs
  commit s y hs := by rw [commit_rest]; exact hs
  clock s hs c := State.AccAt.congr (hs c)
    ((x_tickClock s _).trans (if_neg (vcount_ne_tmrCntH c).symm)) rfl

/-! #### The frames -/

/-- A row of the line's size put into a frame keeps its shape. -/
theorem frameShape_set {f : List (List Colour)} {row : List Colour} (hf : frameShape f) (hrow : row.length = screenW)
    (y : Nat) : frameShape (f.set y row) := by
  refine ⟨List.length_set.trans hf.1, fun r hr => ?_⟩
  rcases List.mem_or_eq_of_mem_set hr with hr | rfl
  · exact hf.2 r hr
  · exact hrow

theorem guardedInvariant_framesShaped : GuardedInvariant State.FramesShaped where
  congr h hs := by
    simp only [State.guarded, Prod.mk.injEq] at h
    obtain ⟨-, -, -, h0, h1, hline⟩ := h
    exact ⟨h0 ▸ hs.fb0, h1 ▸ hs.fb1, hline ▸ hs.line⟩
  resetWith _ := ⟨frameShape_blackFrame, frameShape_blackFrame, List.length_replicate⟩
  setReg _ _ _ _ _ hs := ⟨hs.fb0, hs.fb1, hs.line⟩
  setTmrCtl _ _ _ _ _ hs := ⟨hs.fb0, hs.fb1, hs.line⟩
  setTmr _ _ _ _ hs := ⟨hs.fb0, hs.fb1, hs.line⟩
  setLb _ _ hv hs := ⟨hs.fb0, hs.fb1, hv hs.line⟩
  commit s y hs := by
    unfold commit
    split
    · exact ⟨frameShape_set hs.fb0 hs.line y, hs.fb1, hs.line⟩
    · exact ⟨hs.fb0, frameShape_set hs.fb1 hs.line y, hs.line⟩
  clock _ hs := ⟨hs.fb0, hs.fb1, hs.line⟩

/-- Settles O59: each of the four properties is kept by every update a step is made of. -/
theorem stepKeepsRegistersClockTimersAndFrames : Obligations.StepKeepsRegistersClockTimersAndFrames :=
  ⟨fun _ _ => guardedInvariant_reservedZero.step, fun _ _ => guardedInvariant_clockInRange.step,
    fun _ _ => guardedInvariant_accInRange.step, fun _ _ => guardedInvariant_framesShaped.step⟩

end Sys2Proof.Machine

end

/-! ### Host accesses that fault (`47_register_access.md` R340, `60_exceptions.md` R386) -/

section

namespace Sys2Proof.Machine

variable {s : State} {a : Word} {n v : Nat}

theorem hostRead_misaligned (h : a.toNat % n ≠ 0) : hostRead s a n = .error (raiseFault .hostMisaligned a s) := if_pos h

theorem hostRead_unserved (ha : a.toNat % n = 0) (hr : s.cfg.route a = .ext) :
    hostRead s a n = .error (raiseFault .busError a s) := by
  rw [hostRead, if_neg (not_not_intro ha), hr]

theorem readResult_of_error {e : Fault} (h : hostRead s a n = .error e) (mk : Nat → Result) :
    readResult s a n mk = .fault e := by
  rw [readResult, h]

theorem readResult_of_ok (h : hostRead s a n = .ok v) (mk : Nat → Result) :
    readResult s a n mk = .done (s.setResult (mk v)) := by
  rw [readResult, h]

theorem hostWrite_misaligned (h : a.toNat % n ≠ 0) (reg : Nat → Run) :
    hostWrite s a n v reg = .fault (raiseFault .hostMisaligned a s) := if_pos h

theorem hostWrite_unserved (ha : a.toNat % n = 0) (hr : s.cfg.route a = .ext) (reg : Nat → Run) :
    hostWrite s a n v reg = .fault (raiseFault .busError a s) := by
  rw [hostWrite, if_neg (not_not_intro ha), hr]

/-- Both faults of a read of `n` bytes. -/
theorem finish_readResult_faults (s : State) (a : Word) (n : Nat) (mk : Nat → Result) :
    (a.toNat % n ≠ 0 → (readResult s a n mk).finish = .fault (raiseFault .hostMisaligned a s)) ∧
    (a.toNat % n = 0 → s.cfg.route a = .ext → (readResult s a n mk).finish = .fault (raiseFault .busError a s)) :=
  ⟨fun h => congrArg Run.finish (readResult_of_error (hostRead_misaligned h) mk),
    fun ha hr => congrArg Run.finish (readResult_of_error (hostRead_unserved ha hr) mk)⟩

/-- Both faults of a write of `n` bytes. -/
theorem finish_hostWrite_faults (s : State) (a : Word) (n v : Nat) (reg : Nat → Run) :
    (a.toNat % n ≠ 0 → (hostWrite s a n v reg).finish = .fault (raiseFault .hostMisaligned a s)) ∧
    (a.toNat % n = 0 → s.cfg.route a = .ext → (hostWrite s a n v reg).finish = .fault (raiseFault .busError a s)) :=
  ⟨fun h => congrArg Run.finish (hostWrite_misaligned h reg),
    fun ha hr => congrArg Run.finish (hostWrite_unserved ha hr reg)⟩

/-- Settles O44: three accesses are reads and three are writes. -/
theorem hostAccessFaults : Obligations.HostAccessFaults := by
  intro s a b h w p hp
  simp only [List.mem_cons, List.not_mem_nil, or_false] at hp
  rcases hp with rfl | rfl | rfl | rfl | rfl | rfl
  · exact finish_readResult_faults s a 1 _
  · exact finish_readResult_faults s a 2 _
  · exact finish_readResult_faults s a 4 _
  · exact finish_hostWrite_faults s a 1 _ _
  · exact finish_hostWrite_faults s a 2 _ _
  · exact finish_hostWrite_faults s a 4 _ _

end Sys2Proof.Machine

end

/-! ### Host reads (`47_register_access.md` R341, R343 to R345, `20_memory.md` R70, R76; log 9) -/

section

namespace Sys2Proof.Machine

variable {s : State} {a : Word} {n v off : Nat} {byte : Nat → Byte} {view : Nat → Half}

theorem onlyResult_setResult (s : State) (r : Result) : OnlyResult s (s.setResult r) :=
  ⟨⟨fun _ => rfl, fun _ => rfl, fun _ => rfl, fun _ => rfl⟩, rfl⟩

theorem exec_rd8_of_hostRead (h : hostRead s a 1 = .ok v) :
    exec (.rd8 a) s = .next (s.setResult (.byte (BitVec.ofNat 8 v))) := congrArg Run.finish (readResult_of_ok h _)

theorem exec_rd16_of_hostRead (h : hostRead s a 2 = .ok v) :
    exec (.rd16 a) s = .next (s.setResult (.half (BitVec.ofNat 16 v))) := congrArg Run.finish (readResult_of_ok h _)

theorem exec_rd32_of_hostRead (h : hostRead s a 4 = .ok v) :
    exec (.rd32 a) s = .next (s.setResult (.word (BitVec.ofNat 32 v))) := congrArg Run.finish (readResult_of_ok h _)

/-! #### Little-endian words (R70) -/

theorem toNat_append_eq_add {m k : Nat} (x : BitVec m) (y : BitVec k) :
    (x ++ y).toNat = x.toNat * 2 ^ k + y.toNat := by
  rw [BitVec.toNat_append, ← Nat.shiftLeft_add_eq_or_of_lt y.isLt, Nat.shiftLeft_eq]

theorem ofNat_toNat_add {m k : Nat} (x : BitVec m) (y : BitVec k) :
    BitVec.ofNat (m + k) (y.toNat + 2 ^ k * x.toNat) = x ++ y := by
  refine BitVec.eq_of_toNat_eq ?_
  have hlt := (x ++ y).isLt
  rw [toNat_append_eq_add] at hlt ⊢
  rw [BitVec.toNat_ofNat, Nat.add_comm, Nat.mul_comm, Nat.mod_eq_of_lt hlt]

theorem ofNat_readLE_one (f : Nat → Byte) (p : Nat) : BitVec.ofNat 8 (readLE f 1 p) = f p := by
  simp [readLE]

theorem ofNat_readLE_two (f : Nat → Byte) (p : Nat) : BitVec.ofNat 16 (readLE f 2 p) = f (p + 1) ++ f p :=
  ofNat_toNat_add (f (p + 1)) (f p)

theorem ofNat_readLE_four (f : Nat → Byte) (p : Nat) :
    BitVec.ofNat 32 (readLE f 4 p) = f (p + 3) ++ f (p + 2) ++ f (p + 1) ++ f p := by
  show BitVec.ofNat 32 (readLE f 4 p) = f (p + 1 + 1 + 1) ++ f (p + 1 + 1) ++ f (p + 1) ++ f p
  refine BitVec.eq_of_toNat_eq ?_
  have h0 := (f p).isLt
  have h1 := (f (p + 1)).isLt
  have h2 := (f (p + 1 + 1)).isLt
  have h3 := (f (p + 1 + 1 + 1)).isLt
  simp only [toNat_append_eq_add, readLE, BitVec.toNat_ofNat]
  omega

/-! #### The memories -/

theorem hostRead_of_memory (h : s.cfg.route a = .pal off ∧ byte = s.palByte ∨
      s.cfg.route a = .vram off ∧ byte = s.vramByte ∨ s.cfg.route a = .oam off ∧ byte = s.oamByte)
    (ha : a.toNat % n = 0) : hostRead s a n = .ok (readLE byte n off) := by
  rw [hostRead, if_neg (not_not_intro ha)]
  rcases h with ⟨hr, rfl⟩ | ⟨hr, rfl⟩ | ⟨hr, rfl⟩ <;> rw [hr]

/-! #### The register file -/

/-- DISPSTAT as it reads: its stored bits, but for the live match flag (R14, R341). -/
theorem getLsbD_dispstatView (s : State) (j : Nat) : s.dispstatView.getLsbD j =
    if j = 2 then decide (bitsOf (s.x 0x006) 7 0 = bitsOf (s.x 0x004) 15 8) else (s.x 0x004).getLsbD j := by
  rw [State.dispstatView, withBit_getLsbD_lt (by decide), vcountMatch_eq_bitsOf, bitsOf_eq_fieldOf (s.x 0x006)]
  rfl

/-- The read view has three cases: DISPSTAT, the counters, and the stored halfwords. -/
theorem eq_regRead16 (hdisp : view Reg.dispstat = s.dispstatView)
    (htmr : ∀ ch, view (Reg.tmrCntL ch) = (s.tmr.get ch).counter)
    (helse : ∀ o, o ∉ [0x004, 0x100, 0x104, 0x108, 0x10C] → view o = s.x o) (o : Nat) : view o = regRead16 s o := by
  unfold regRead16
  split
  case h_1 hk => rw [regKind_dispstat hk, hdisp]
  case h_2 ch hk => rw [regKind_tmrCntL hk, htmr]
  case h_3 hd ht =>
    refine helse o fun ho => ?_
    simp only [List.mem_cons, List.not_mem_nil, or_false] at ho
    rcases ho with rfl | rfl | rfl | rfl | rfl
    · exact hd rfl
    · exact ht 0 rfl
    · exact ht 1 rfl
    · exact ht 2 rfl
    · exact ht 3 rfl

theorem ofNat_regReadLE_one (s : State) (off : Nat) : BitVec.ofNat 8 (regReadLE s 1 off) =
    if off % 2 = 0 then (regRead16 s off).setWidth 8 else (regRead16 s (off - 1) >>> 8).setWidth 8 := by
  refine BitVec.eq_of_toNat_eq ?_
  rcases Nat.mod_two_eq_zero_or_one off with h | h
  · simp [regReadLE, h]
  · simp [regReadLE, h, Nat.shiftRight_eq_div_pow]

theorem ofNat_regReadLE_two (s : State) (off : Nat) : BitVec.ofNat 16 (regReadLE s 2 off) = regRead16 s off := by
  rw [regReadLE, BitVec.ofNat_toNat, BitVec.setWidth_eq]

theorem ofNat_regReadLE_four (s : State) (off : Nat) :
    BitVec.ofNat 32 (regReadLE s 4 off) = regRead16 s (off + 2) ++ regRead16 s off :=
  ofNat_toNat_add (regRead16 s (off + 2)) (regRead16 s off)

/-- Settles O45: a read gives the little-endian bytes of its memory, or the read view of its registers. -/
theorem readsChangeNothing : Obligations.ReadsChangeNothing := by
  refine ⟨fun s a off byte hmem => ⟨?_, fun ha => ?_, fun ha => ?_⟩,
    fun s a off view hr hdisp htmr helse => ⟨?_, fun ha => ?_, fun ha => ?_⟩⟩
  · exact ⟨_, exec_rd8_of_hostRead (hostRead_of_memory hmem (Nat.mod_one _)), onlyResult_setResult _ _,
      congrArg Result.byte (ofNat_readLE_one byte off)⟩
  · exact ⟨_, exec_rd16_of_hostRead (hostRead_of_memory hmem ha), onlyResult_setResult _ _,
      congrArg Result.half (ofNat_readLE_two byte off)⟩
  · exact ⟨_, exec_rd32_of_hostRead (hostRead_of_memory hmem ha), onlyResult_setResult _ _,
      congrArg Result.word (ofNat_readLE_four byte off)⟩
  all_goals
    have hdisp' : view Reg.dispstat = s.dispstatView :=
      BitVec.eq_of_getLsbD_eq fun j _ => (hdisp j).trans (getLsbD_dispstatView s j).symm
    obtain rfl : view = regRead16 s := funext (eq_regRead16 hdisp' htmr helse)
  · exact ⟨_, _, exec_rd8_of_hostRead (hostRead_of_reg hr (Nat.mod_one _)), onlyResult_setResult _ _, rfl,
      ofNat_regReadLE_one s off⟩
  · exact ⟨_, exec_rd16_of_hostRead (hostRead_of_reg hr ha), onlyResult_setResult _ _,
      congrArg Result.half (ofNat_regReadLE_two s off)⟩
  · exact ⟨_, exec_rd32_of_hostRead (hostRead_of_reg hr ha), onlyResult_setResult _ _,
      congrArg Result.word (ofNat_regReadLE_four s off)⟩

end Sys2Proof.Machine

end

/-! ### Host writes of the memories (`47_register_access.md` R346 to R348, `20_memory.md` R70) -/

section

namespace Sys2Proof.Machine

variable {s : State} {a : Word} {n off : Nat} {byte : State → Nat → Byte}

/-- What a host write of the `n` bytes of `v` at `a`, offset `off` of the memory that `byte` reads, leaves. -/
structure BytesWritten (s : State) (a : Word) (byte : State → Nat → Byte) (n off v : Nat) (t : State) : Prop where
  memory : ∀ i, byte t i = storedByte (byte s) off n v i
  palElse : (∀ o, s.cfg.route a ≠ .pal o) → ∀ i, t.palByte i = s.palByte i
  vramElse : (∀ o, s.cfg.route a ≠ .vram o) → ∀ i, t.vramByte i = s.vramByte i
  oamElse : (∀ o, s.cfg.route a ≠ .oam o) → ∀ i, t.oamByte i = s.oamByte i
  ext : ∀ i, t.extByte i = s.extByte i
  regs : ∀ o, t.x o = s.x o
  rest : t = { s with pal := t.pal, vram := t.vram, oam := t.oam }

theorem toNat_storedByte_inside (old : Nat → Byte) (off v : Nat) {n i : Nat} (hi : i < n) :
    (storedByte old off n v (off + i)).toNat = v / 256 ^ i % 256 := by
  rw [storedByte, if_pos (by omega), Nat.add_sub_cancel_left, BitVec.toNat_ofNat]

/-- An aligned write of a memory window completes, whatever a write of the register file would do. -/
theorem hostWrite_of_memory (h : s.cfg.route a = .pal off ∧ byte = State.palByte ∨
      s.cfg.route a = .vram off ∧ byte = State.vramByte ∨ s.cfg.route a = .oam off ∧ byte = State.oamByte)
    (ha : a.toNat % n = 0) (v : Nat) (reg : Nat → Run) :
    ∃ t, hostWrite s a n v reg = .done t ∧ BytesWritten s a byte n off v t := by
  rw [hostWrite, if_neg (not_not_intro ha)]
  rcases h with ⟨hr, rfl⟩ | ⟨hr, rfl⟩ | ⟨hr, rfl⟩ <;> rw [hr] <;> refine ⟨_, rfl, ?_⟩
  · exact ⟨s.palByte_writePal n off v, fun h => absurd hr (h off), fun _ _ => rfl, fun _ _ => rfl, fun _ => rfl,
      fun _ => rfl, rfl⟩
  · exact ⟨s.vramByte_writeVram n off v, fun _ _ => rfl, fun h => absurd hr (h off), fun _ _ => rfl, fun _ => rfl,
      fun _ => rfl, rfl⟩
  · exact ⟨s.oamByte_writeOam n off v, fun _ _ => rfl, fun _ _ => rfl, fun h => absurd hr (h off), fun _ => rfl,
      fun _ => rfl, rfl⟩

/-- Settles O46: the three writes are host writes of 1, 2 and 4 bytes, and store in the window of their address. -/
theorem writesStoreTheirBytes : Obligations.WritesStoreTheirBytes := by
  intro s a off b h w byte hmem p hp ha
  have hexec : ∃ reg, exec p.1 s = (hostWrite s a p.2.1 p.2.2 reg).finish := by
    simp only [List.mem_cons, List.not_mem_nil, or_false] at hp
    rcases hp with rfl | rfl | rfl <;> exact ⟨_, rfl⟩
  obtain ⟨reg, hexec⟩ := hexec
  obtain ⟨t, ht, hw⟩ := hostWrite_of_memory hmem ha p.2.2 reg
  refine ⟨t, hexec.trans (congrArg Run.finish ht), fun i hi => ?_, fun i hi => ?_, hw.palElse, hw.vramElse, hw.oamElse,
    hw.ext, hw.regs, hw.rest⟩
  · rw [hw.memory, toNat_storedByte_inside _ _ _ hi]
  · rw [hw.memory, storedByte_outside hi]

end Sys2Proof.Machine

end

/-! ### Host writes of registers without a hook (`47_register_access.md` R342, R356, R358, `10_state.md` R34,
`42_dma.md` R196) -/

section

namespace Sys2Proof.Machine

variable {s : State} {a : Word} {off o : Nat} {w : Half} {b : Byte} {ch : Fin 4}

/-- An aligned halfword write falls on a register's own offset, in a file whose base is even. -/
theorem sub_mod_two_of_aligned (hp : off % 2 = a.toNat % 2) (ha : a.toNat % 2 = 0) : off - off % 2 = off := by omega

theorem onlyRegs_setReg (s : State) (o : Nat) (v : Half) : OnlyRegs [o] s (s.setReg o v) :=
  ⟨fun _ hp => s.x_setReg_other v fun h => hp (List.mem_singleton.mpr h),
    ⟨fun _ => rfl, fun _ => rfl, fun _ => rfl, fun _ => rfl⟩, rfl⟩

/-! #### Plain storage -/

/-- Every register whose writes are more than masked storage stands in the list of R342. -/
theorem regKind_eq_plain (h : o ∉ [0x004, 0x006, 0x028, 0x02A, 0x02C, 0x02E, 0x038, 0x03A, 0x03C, 0x03E, 0x0BA, 0x0C6,
    0x0D2, 0x0DE, 0x100, 0x102, 0x104, 0x106, 0x108, 0x10A, 0x10C, 0x10E, 0x200, 0x202, 0x208]) :
    regKind o = .plain := by
  unfold regKind
  split
  case h_26 => rfl
  all_goals exact absurd (by decide) h

theorem regWriteHalf_plain (h : regKind o = .plain) : regWriteHalf s o w = .done (s.setReg o (w &&& writeMask o)) := by
  simp only [regWriteHalf, regWrite16, storeReg, h]

theorem regWrite8_plain (ho : off - off % 2 = o) (h : regKind o = .plain) :
    regWrite8 s off b = .done (s.setReg o (byteMerged (s.x o) off b &&& writeMask o)) := by
  rw [regWrite8_eq_regWriteHalf ho (by simp [h]) (by simp [h]), regWriteHalf_plain h]

/-! #### VCOUNT and DISPSTAT -/

theorem regWriteHalf_vcount : regWriteHalf s Reg.vcount w = .done s := rfl

theorem regWrite8_vcount (ho : off - off % 2 = Reg.vcount) : regWrite8 s off b = .done s := by
  rw [regWrite8_eq_regWriteHalf ho (by decide) (by decide), regWriteHalf_vcount]

/-- DISPSTAT after a write of `w`: the flags stay, the other writable bits are stored (R342). -/
def dispstatWritten (s : State) (w : Half) : Half := (w &&& 0xFF38 &&& 0xFFF8) ||| (s.x Reg.dispstat &&& 0x0007)

theorem regWriteHalf_dispstat :
    regWriteHalf s Reg.dispstat w = .done (s.setReg Reg.dispstat (dispstatWritten s w)) := rfl

theorem regWrite8_dispstat (ho : off - off % 2 = Reg.dispstat) : regWrite8 s off b =
    .done (s.setReg Reg.dispstat (dispstatWritten s (byteMerged (s.x Reg.dispstat) off b))) := by
  rw [regWrite8_eq_regWriteHalf ho (by decide) (by decide), regWriteHalf_dispstat]

theorem getLsbD_dispstatWritten (s : State) (w : Half) (j : Nat) : (dispstatWritten s w).getLsbD j =
    if j < 3 then (s.x Reg.dispstat).getLsbD j else (w &&& 0xFF38).getLsbD j := by
  have hflags : ∀ j < 16, (0x0007 : Half).getLsbD j = decide (j < 3) := by decide
  have hrest : ∀ j < 16, (0xFFF8 : Half).getLsbD j = decide (3 ≤ j) := by decide
  by_cases hj : j < 16
  · rw [dispstatWritten, BitVec.getLsbD_or, BitVec.getLsbD_and (x := w &&& 0xFF38), BitVec.getLsbD_and (x := s.x _),
      hflags j hj, hrest j hj]
    by_cases h3 : j < 3
    · simp [h3, Nat.not_le.mpr h3]
    · simp [h3, Nat.le_of_not_lt h3]
  · have hge := Nat.le_of_not_lt hj
    rw [BitVec.getLsbD_of_ge _ _ hge, BitVec.getLsbD_of_ge _ _ hge, BitVec.getLsbD_of_ge _ _ hge, ite_self]

/-! #### The reload value of a timer -/

/-- TMchCNT_L written: the reload value is stored, the counter and the accumulator stay. -/
def reloadWritten (s : State) (ch : Fin 4) (w : Half) : State := s.setTmr ch { s.tmr.get ch with reload := w }

theorem regWrite16_tmrCntL (old wr : Half) :
    regWrite16 s (Reg.tmrCntL ch) old (w &&& writeMask (Reg.tmrCntL ch)) wr = .done (reloadWritten s ch w) := by
  have hmask : writeMask (Reg.tmrCntL ch) = BitVec.allOnes 16 := by fin_cases ch <;> rfl
  rw [hmask, BitVec.and_allOnes]
  simp only [regWrite16, storeReg, regKind_of_tmrCntL, reloadWritten]

theorem regWriteHalf_tmrCntL : regWriteHalf s (Reg.tmrCntL ch) w = .done (reloadWritten s ch w) := regWrite16_tmrCntL _ _

/-- A byte write is merged with the reload value, not with the stored halfword. -/
theorem regWrite8_tmrCntL (ho : off - off % 2 = Reg.tmrCntL ch) :
    regWrite8 s off b = .done (reloadWritten s ch (byteMerged (s.tmr.get ch).reload off b)) := by
  simp only [regWrite8, ho, mergeByte_eq_byteMerged, regWrite16_tmrCntL, storedHalf, regKind_of_tmrCntL]

theorem reloadWritten_frame (s : State) (ch : Fin 4) (w : Half) :
    (reloadWritten s ch w).tmr.get ch = { s.tmr.get ch with reload := w } ∧
      (∀ c, c ≠ ch → (reloadWritten s ch w).tmr.get c = s.tmr.get c) ∧ SameRegsBut [] s (reloadWritten s ch w) ∧
      SameBytes s (reloadWritten s ch w) ∧ reloadWritten s ch w = { s with tmr := (reloadWritten s ch w).tmr } :=
  ⟨Four.get_set_same _ _ _, fun _ hc => Four.get_set_other _ _ hc, fun _ _ => rfl,
    ⟨fun _ => rfl, fun _ => rfl, fun _ => rfl, fun _ => rfl⟩, rfl⟩

/-! #### The masks -/

theorem writeMask_eq_full (h : o ∉ [0x000, 0x002, 0x004, 0x006, 0x008, 0x00A, 0x00C, 0x00E, 0x010, 0x012, 0x014, 0x016,
    0x018, 0x01A, 0x01C, 0x01E, 0x02A, 0x02E, 0x03A, 0x03E, 0x048, 0x04A, 0x050, 0x052, 0x054, 0x0B8, 0x0C4, 0x0D0, 0x0BA,
    0x0C6, 0x0D2, 0x0DE, 0x102, 0x106, 0x10A, 0x10E, 0x200, 0x202, 0x208]) : writeMask o = 0xFFFF := by
  unfold writeMask
  split
  case h_40 => rfl
  all_goals exact absurd (by decide) h

/-- Settles O47: the kind of the offset says what a write of it stores. -/
theorem plainRegisterWritesAreMasked : Obligations.PlainRegisterWritesAreMasked := by
  refine ⟨fun s a off d b hr hp => ⟨fun o ho hplain => ⟨fun ha => ?_, ?_⟩, fun ho => ⟨fun ha => ?_, ?_⟩,
      fun ho p hop h0 => ?_⟩,
    fun s a off ch w b hr hp ho p hop h0 => ?_, by decide, by decide, fun o => writeMask_eq_full⟩
  · obtain rfl : o = off := ho.trans (sub_mod_two_of_aligned hp ha)
    exact ⟨_, (exec_wr16_of_reg hr ha).trans (congrArg Run.finish (regWriteHalf_plain (regKind_eq_plain hplain))),
      onlyRegs_setReg .., s.x_setReg_same ..⟩
  · exact ⟨_, (exec_wr8_of_reg hr).trans (congrArg Run.finish (regWrite8_plain ho.symm (regKind_eq_plain hplain))),
      onlyRegs_setReg .., s.x_setReg_same ..⟩
  · obtain rfl : off = Reg.vcount := (sub_mod_two_of_aligned hp ha).symm.trans ho
    exact exec_wr16_of_reg hr ha
  · exact (exec_wr8_of_reg hr).trans (congrArg Run.finish (regWrite8_vcount ho))
  · suffices hexec : exec p.1 s = .next (s.setReg Reg.dispstat (dispstatWritten s p.2.1)) from
      ⟨_, hexec, onlyRegs_setReg .., fun j => by
        show ((s.setReg Reg.dispstat _).x Reg.dispstat).getLsbD j = _
        rw [State.x_setReg_same, getLsbD_dispstatWritten]
        rfl⟩
    simp only [List.mem_cons, List.not_mem_nil, or_false] at hop
    rcases hop with rfl | rfl
    · obtain rfl : off = Reg.dispstat := (sub_mod_two_of_aligned hp h0).symm.trans ho
      exact exec_wr16_of_reg hr h0
    · exact (exec_wr8_of_reg hr).trans (congrArg Run.finish (regWrite8_dispstat ho))
  · suffices hexec : exec p.1 s = .next (reloadWritten s ch p.2.1) from ⟨_, hexec, reloadWritten_frame s ch p.2.1⟩
    simp only [List.mem_cons, List.not_mem_nil, or_false] at hop
    rcases hop with rfl | rfl
    · obtain rfl : off = Reg.tmrCntL ch := (sub_mod_two_of_aligned hp h0).symm.trans ho
      exact (exec_wr16_of_reg hr h0).trans (congrArg Run.finish regWriteHalf_tmrCntL)
    · exact (exec_wr8_of_reg hr).trans (congrArg Run.finish (regWrite8_tmrCntL ho))

end Sys2Proof.Machine

end

/-! ### Host writes of the reference points (`47_register_access.md` R342, R350) -/

section

namespace Sys2Proof.Machine

variable {s : State} {r : BgRef} {hi : Bool} {off : Nat} {w : Half} {b : Byte}

/-- The offset of a half of a reference-point register. -/
def Reg.bgrefHalf (r : BgRef) (hi : Bool) : Nat := Reg.bgref r + (if hi then 2 else 0)

theorem regKind_bgrefHalf (r : BgRef) (hi : Bool) : regKind (Reg.bgrefHalf r hi) = .bgRef r := by
  cases r <;> cases hi <;> rfl

theorem writeMask_bgrefHalf (r : BgRef) (hi : Bool) :
    writeMask (Reg.bgrefHalf r hi) = if hi = true then 0x0FFF else 0xFFFF := by
  cases r <;> cases hi <;> rfl

/-- A half of a reference-point register written: stored, and the latch reloaded from both halves. -/
def refWritten (s : State) (r : BgRef) (hi : Bool) (w : Half) : State :=
  reloadRef (s.setReg (Reg.bgrefHalf r hi) (w &&& writeMask (Reg.bgrefHalf r hi))) r

theorem exec_bgRefReload (s : State) (r : BgRef) (hi : Bool) (w : Half) :
    exec (.bgRefReload r hi w) s = .next (refWritten s r hi w) := rfl

theorem regWriteHalf_bgrefHalf : regWriteHalf s (Reg.bgrefHalf r hi) w = .done (refWritten s r hi w) := by
  simp only [regWriteHalf, regWrite16, storeReg, regKind_bgrefHalf, refWritten]

theorem regWrite8_bgrefHalf (ho : off - off % 2 = Reg.bgrefHalf r hi) : regWrite8 s off b =
    .done (refWritten s r hi (byteMerged (s.x (Reg.bgrefHalf r hi)) off b)) := by
  rw [regWrite8_eq_regWriteHalf ho (by simp [regKind_bgrefHalf]) (by simp [regKind_bgrefHalf]), regWriteHalf_bgrefHalf]

theorem x_refWritten (s : State) (r : BgRef) (hi : Bool) (w : Half) (o : Nat) : (refWritten s r hi w).x o =
    if o = Reg.bgrefHalf r hi then w &&& writeMask (Reg.bgrefHalf r hi) else s.x o := by
  rw [refWritten, x_reloadRef, State.x_setReg]

/-- A reload writes the latches only. -/
theorem reloadRef_rest (s : State) (r : BgRef) : reloadRef s r = { s with refs := (reloadRef s r).refs } := by
  cases r <;> rfl

theorem refWritten_rest (s : State) (r : BgRef) (hi : Bool) (w : Half) : refWritten s r hi w =
    { s with regs := (refWritten s r hi w).regs, refs := (refWritten s r hi w).refs } := by
  rw [refWritten, reloadRef_rest]
  rfl

theorem sameBytes_refWritten (s : State) (r : BgRef) (hi : Bool) (w : Half) : SameBytes s (refWritten s r hi w) := by
  rw [refWritten_rest]
  exact ⟨fun _ => rfl, fun _ => rfl, fun _ => rfl, fun _ => rfl⟩

/-- Settles O48: the bus write and the operation both leave `refWritten`. -/
theorem referenceWritesReloadTheLatch : Obligations.ReferenceWritesReloadTheLatch := by
  intro r hi base o
  have hbase : base = Reg.bgref r := rfl
  have ho : o = Reg.bgrefHalf r hi := rfl
  clear_value o base
  subst hbase ho
  refine ⟨fun s a w hr ha => ⟨refWritten s r hi w, exec_bgRefReload s r hi w, ?_, ?_, ?_, fun p hp => ?_,
    sameBytes_refWritten s r hi w, refWritten_rest s r hi w⟩, fun s a off b hr ho => ?_⟩
  · exact (exec_wr16_of_reg hr ha).trans (congrArg Run.finish regWriteHalf_bgrefHalf)
  · rw [x_refWritten, if_pos rfl, writeMask_bgrefHalf]
    split
    · rfl
    · exact BitVec.and_allOnes
  · cases r <;> rfl
  · rw [x_refWritten, if_neg fun h => hp (List.mem_singleton.mpr h)]
  · exact (exec_wr8_of_reg hr).trans (congrArg Run.finish (regWrite8_bgrefHalf ho))

end Sys2Proof.Machine

end

/-! ### Host writes of IE and IF (`47_register_access.md` R342, R353, R354, `30_encoding.md` R106, R107) -/

section

namespace Sys2Proof.Machine

variable {s t u : State} {a : Word} {off j : Nat} {w : Half} {b : Byte} {f g : Fin nIrq → Bool}

/-- The bits of a halfword with one byte replaced. -/
theorem getLsbD_byteMerged (old : Half) (off : Nat) (b : Byte) (hj : j < 16) : (byteMerged old off b).getLsbD j =
    if j / 8 = off % 2 then b.getLsbD (j % 8) else old.getLsbD j := by
  have hhigh (h8 : ¬j < 8) : j / 8 = 1 ∧ j % 8 = j - 8 ∧ j - 8 < 8 ∧ 8 + (j - 8) = j := by omega
  rcases Nat.mod_two_eq_zero_or_one off with h | h <;> rw [byteMerged, h]
  · rw [if_pos rfl, BitVec.getLsbD_append]
    by_cases h8 : j < 8
    · rw [if_pos h8, Nat.div_eq_of_lt h8, Nat.mod_eq_of_lt h8, if_pos rfl]
    · obtain ⟨hdiv, -, hlt, hadd⟩ := hhigh h8
      simp [h8, hdiv, hlt, hadd]
  · rw [if_neg one_ne_zero, BitVec.getLsbD_append]
    by_cases h8 : j < 8
    · simp [h8, Nat.div_eq_of_lt h8]
    · obtain ⟨hdiv, hmod, -, -⟩ := hhigh h8
      rw [if_neg h8, hdiv, hmod, if_pos rfl]

theorem getLsbD_and_sources (w : Half) (hj : j < 14) : (w &&& 0x3FFF).getLsbD j = w.getLsbD j := by
  have hmask : ∀ j < 14, (0x3FFF : Half).getLsbD j = true := by decide
  exact getLsbD_and_of_mask (hmask j hj)

/-! #### IE -/

theorem onlyRegs_refl (os : List Nat) (s : State) : OnlyRegs os s s :=
  ⟨fun _ _ => rfl, ⟨fun _ => rfl, fun _ => rfl, fun _ => rfl, fun _ => rfl⟩, rfl⟩

theorem OnlyRegs.trans {os : List Nat} (h : OnlyRegs os s t) (h' : OnlyRegs os t u) : OnlyRegs os s u :=
  ⟨fun o ho => (h'.regs o ho).trans (h.regs o ho), h.bytes.trans h'.bytes, by rw [h'.rest, h.rest]⟩

theorem onlyRegs_writeIe (s : State) (old new : Half) : OnlyRegs [Reg.ie] s (writeIe s old new) :=
  List.foldlRecOn (motive := OnlyRegs [Reg.ie] s) allSources _ (onlyRegs_refl _ s) fun t ht i _ => by
    split
    · exact ht.trans (onlyRegs_setRegBit t _ _ _)
    · exact ht

/-- The sources of `l` whose bit differs from `old` have their enable bit as in `new`; the other bits stay. -/
theorem getLsbD_foldl_irqSetEnabled (old new : Half) (j : Nat) : ∀ (l : List (Fin nIrq)) (s : State),
    ((l.foldl (fun t i => if new.getLsbD i.val ≠ old.getLsbD i.val then irqSetEnabled t i (new.getLsbD i.val) else t)
      s).x Reg.ie).getLsbD j =
      if (∃ i ∈ l, j = i.val) ∧ new.getLsbD j ≠ old.getLsbD j then new.getLsbD j else (s.x Reg.ie).getLsbD j
  | [], s => by simp
  | i :: l, s => by
    have hturn : ((if new.getLsbD i.val ≠ old.getLsbD i.val then irqSetEnabled s i (new.getLsbD i.val) else s).x
        Reg.ie).getLsbD j = if j = i.val ∧ new.getLsbD j ≠ old.getLsbD j then new.getLsbD j
          else (s.x Reg.ie).getLsbD j := by
      split
      · next hi =>
        rw [irqSetEnabled, getLsbD_x_setRegBit _ _ _ (source_lt_sixteen i)]
        by_cases hj : j = i.val
        · subst hj
          rw [if_pos rfl, if_pos ⟨rfl, hi⟩]
        · rw [if_neg hj, if_neg fun h => hj h.1]
      · next hi =>
        rw [if_neg]
        rintro ⟨rfl, hne⟩
        exact hi hne
    rw [List.foldl_cons, getLsbD_foldl_irqSetEnabled old new j l, hturn, ← ite_or]
    refine if_congr ?_ rfl rfl
    rw [← or_and_right, or_comm, List.exists_mem_cons_iff]

/-- A write of IE from its stored value makes the enable bits those of the word. -/
theorem getLsbD_writeIe (s : State) (new : Half) (j : Nat) : ((writeIe s (s.x Reg.ie) new).x Reg.ie).getLsbD j =
    if j < 14 then new.getLsbD j else (s.x Reg.ie).getLsbD j := by
  rw [writeIe, getLsbD_foldl_irqSetEnabled]
  by_cases hj : j < 14
  · have hmem : ∃ i ∈ allSources, j = i.val := ⟨⟨j, hj⟩, List.mem_finRange _, rfl⟩
    by_cases hne : new.getLsbD j = (s.x Reg.ie).getLsbD j
    · rw [if_neg (fun h => h.2 hne), if_pos hj, hne]
    · rw [if_pos ⟨hmem, hne⟩, if_pos hj]
  · rw [if_neg hj, if_neg]
    rintro ⟨⟨i, _, rfl⟩, _⟩
    exact hj i.isLt

/-- IE written with the word `w`. -/
def ieWritten (s : State) (w : Half) : State := writeIe s (s.x Reg.ie) (w &&& writeMask Reg.ie)

theorem regWriteHalf_ie : regWriteHalf s Reg.ie w = .done (ieWritten s w) := rfl

theorem regWrite8_ie (ho : off - off % 2 = Reg.ie) :
    regWrite8 s off b = .done (ieWritten s (byteMerged (s.x Reg.ie) off b)) := by
  rw [regWrite8_eq_regWriteHalf ho (by decide) (by decide), regWriteHalf_ie]

theorem getLsbD_ieWritten (s : State) (w : Half) (j : Nat) : ((ieWritten s w).x Reg.ie).getLsbD j =
    if j < 14 then w.getLsbD j else (s.x Reg.ie).getLsbD j := by
  rw [ieWritten, getLsbD_writeIe]
  split
  · next hj => exact getLsbD_and_sources w hj
  · rfl

theorem getLsbD_ieWritten_byte (s : State) (off : Nat) (b : Byte) (j : Nat) :
    ((ieWritten s (byteMerged (s.x Reg.ie) off b)).x Reg.ie).getLsbD j =
      if j < 14 ∧ j / 8 = off % 2 then b.getLsbD (j % 8) else (s.x Reg.ie).getLsbD j := by
  rw [getLsbD_ieWritten]
  by_cases hj : j < 14
  · rw [if_pos hj, getLsbD_byteMerged _ _ _ (by omega)]
    simp only [hj, true_and]
  · simp only [hj, false_and, if_false]

/-! #### IF -/

/-- The sources of `f` have been acknowledged: each that was pending no longer is, and is recorded in every wait frame. -/
structure Acknowledged (f : Fin nIrq → Bool) (s t : State) : Prop where
  pending : ∀ i, t.pending i = (s.pending i && !f i)
  waits : ∃ m : BitVec 14, (∀ i : Fin nIrq, m.getLsbD i.val = (s.pending i && f i)) ∧ t.waits = recordAck m s.waits
  regs : SameRegsBut [Reg.irf] s t
  rest : t = { s with regs := t.regs, waits := t.waits }

namespace Acknowledged

theorem of_none (hf : ∀ i, (s.pending i && f i) = false) : Acknowledged f s s where
  pending i := by
    have hi := hf i
    revert hi
    cases s.pending i <;> cases f i <;> simp
  waits := ⟨0, fun i => (hf i).symm ▸ BitVec.getLsbD_zero, (recordAck_zero _).symm⟩
  regs _ _ := rfl
  rest := rfl

theorem trans (h : Acknowledged f s t) (h' : Acknowledged g t u) : Acknowledged (fun i => f i || g i) s u := by
  obtain ⟨m, hm, hwaits⟩ := h.waits
  obtain ⟨k, hk, hwaits'⟩ := h'.waits
  refine ⟨fun i => ?_, ⟨m ||| k, fun i => ?_, ?_⟩, fun o ho => (h'.regs o ho).trans (h.regs o ho), ?_⟩
  · rw [h'.pending, h.pending, Bool.not_or, Bool.and_assoc]
  · rw [BitVec.getLsbD_or, hm, hk, h.pending]
    cases s.pending i <;> cases f i <;> simp
  · rw [hwaits', hwaits, recordAck_recordAck]
  · rw [h'.rest, h.rest]

theorem congr (h : Acknowledged f s t) (hfg : ∀ i, f i = g i) : Acknowledged g s t := funext hfg ▸ h

/-- The mask of the recorded sources is the only one with those bits. -/
theorem waits_of_mask (h : Acknowledged f s t) {m : BitVec 14}
    (hm : ∀ j : Fin nIrq, m.getLsbD j.val = (s.pending j && f j)) : t.waits = recordAck m s.waits := by
  obtain ⟨k, hk, hwaits⟩ := h.waits
  obtain rfl : m = k := BitVec.eq_of_getLsbD_eq fun j hj => (hm ⟨j, hj⟩).trans (hk ⟨j, hj⟩).symm
  exact hwaits

end Acknowledged

theorem acknowledged_irqAcknowledge (s : State) (i : Fin nIrq) :
    Acknowledged (fun j => decide (j = i)) s (irqAcknowledge s i) := by
  cases hp : s.pending i with
  | false =>
    rw [irqAcknowledge_of_not_pending hp]
    refine .of_none fun j => ?_
    by_cases hj : j = i <;> simp [hj, hp]
  | true =>
    rw [irqAcknowledge_of_pending hp]
    refine ⟨fun j => ?_, ⟨1#14 <<< i.val, fun j => ?_, rfl⟩, sameRegsBut_setRegBit s false Reg.irf i.val, rfl⟩
    · refine (s.pending_setRegBit i j false).trans ?_
      by_cases hj : j = i <;> simp [hj]
    · rw [getLsbD_one_shift]
      by_cases hj : j = i <;> simp [hj, hp, Fin.ext_iff.not.mp]

/-- One `IRQ_ACK` per source of `l` whose bit of `wr` is 1. -/
theorem acknowledged_foldl (wr : Half) : ∀ (l : List (Fin nIrq)) (s : State),
    Acknowledged (fun i => wr.getLsbD i.val && decide (i ∈ l)) s
      (l.foldl (fun t i => if wr.getLsbD i.val then irqAcknowledge t i else t) s)
  | [], s => .of_none fun i => by simp
  | i :: l, s => by
    have hfirst : Acknowledged (fun j => wr.getLsbD j.val && decide (j = i)) s
        (if wr.getLsbD i.val then irqAcknowledge s i else s) := by
      split
      · next hi =>
        refine (acknowledged_irqAcknowledge s i).congr fun j => ?_
        by_cases hj : j = i <;> simp [hj, hi]
      · next hi =>
        refine .of_none fun j => ?_
        by_cases hj : j = i <;> simp [hj, hi]
    refine (hfirst.trans (acknowledged_foldl wr l _)).congr fun j => ?_
    simp only [List.mem_cons, Bool.decide_or, Bool.and_or_distrib_left]

theorem acknowledged_writeIf (s : State) (wr : Half) : Acknowledged (fun i => wr.getLsbD i.val) s (writeIf s wr) :=
  (acknowledged_foldl wr allSources s).congr fun i => by simp [allSources]

theorem regWriteHalf_irf : regWriteHalf s Reg.irf w = .done (writeIf s w) := rfl

/-- A byte write of IF is merged with 0, so it acknowledges no source of the other byte. -/
theorem regWrite8_irf (ho : off - off % 2 = Reg.irf) : regWrite8 s off b = .done (writeIf s (byteMerged 0 off b)) := by
  simp only [regWrite8, ho, mergeByte_eq_byteMerged]
  rfl

/-- Settles O49: a write of IE enables one source at a time (`getLsbD_ieWritten`), one of IF acknowledges one at a time
(`acknowledged_writeIf`). -/
theorem interruptRegisterWrites : Obligations.InterruptRegisterWrites := by
  refine ⟨fun s a w hr ha => ?_, fun s a off b hr ho => ?_, fun s a off w b hr ho p hop h0 => ?_⟩
  · exact ⟨ieWritten s w, rfl, (exec_wr16_of_reg hr ha).trans (congrArg Run.finish regWriteHalf_ie),
      onlyRegs_writeIe .., getLsbD_ieWritten s w⟩
  · exact ⟨_, (exec_wr8_of_reg hr).trans (congrArg Run.finish (regWrite8_ie ho)), onlyRegs_writeIe ..,
      getLsbD_ieWritten_byte s off b⟩
  · suffices hexec : exec p.1 s = .next (writeIf s p.2.1) by
      have hack := acknowledged_writeIf s p.2.1
      exact ⟨_, hexec, hack.pending, fun m hm => hack.waits_of_mask hm, hack.regs, sameBytes_of_rest (by rw [hack.rest]),
        hack.rest⟩
    simp only [List.mem_cons, List.not_mem_nil, or_false] at hop
    rcases hop with rfl | rfl | rfl
    · rfl
    · obtain ⟨ha, hoff⟩ := Nat.add_eq_zero_iff.mp h0
      obtain rfl : off = Reg.irf := by rw [hoff] at ho; exact ho
      exact exec_wr16_of_reg hr ha
    · exact (exec_wr8_of_reg hr).trans (congrArg Run.finish (regWrite8_irf ho))

end Sys2Proof.Machine

end

/-! ### Word writes of the register file (`47_register_access.md` R348) -/

section

namespace Sys2Proof.Machine

variable {s : State} {a : Word} {off o : Nat} {w : Word}

/-- Only a write of DMAchCNT_H can fail or be suspended. -/
theorem regWrite16_completes (h : ∀ ch, regKind o ≠ .dmaCntH ch) (s : State) (old new wr : Half) :
    ∃ u, regWrite16 s o old new wr = .done u := by
  unfold regWrite16
  split
  case h_1 ch hk => exact absurd hk (h ch)
  all_goals exact ⟨_, rfl⟩

theorem not_dmaCntH_of_word_aligned (h : o % 4 = 0) (ch : Fin 4) : regKind o ≠ .dmaCntH ch := fun hk => by
  have ho := regKind_dmaCntH hk
  rw [Reg.dmaCntH] at ho
  omega

theorem cfg_of_regWriteHalf {u : State} {d : Half} (h : regWriteHalf s o d = .done u) : u.cfg = s.cfg :=
  ((closedStep_cfg s.cfg).regWriteHalf rfl o d).of_done h

/-- An address in the register window is the window's base and the offset. -/
theorem toNat_of_route_reg {cfg : Config} (h : cfg.route a = .reg off) : a.toNat = cfg.regBase + off := by
  simp only [Config.route] at h
  split at h
  · next hin =>
    have hoff := Window.reg.inj h
    omega
  · split_ifs at h

theorem exec_wr32_of_reg (hr : s.cfg.route a = .reg off) (ha : a.toNat % 4 = 0) :
    exec (.wr32 a w) s = (regWriteWord s off w).finish := by
  show (hostWrite s a 4 _ _).finish = _
  rw [hostWrite, if_neg (not_not_intro ha), hr]

/-- A word write whose low half completes goes on with its high half. -/
theorem regWriteWord_of_low {u : State} (h : regWriteHalf s off (w.setWidth 16) = .done u) :
    regWriteWord s off w = regWriteHalf u (off + 2) ((w >>> 16).setWidth 16) := by
  simp only [regWriteWord, h]
  rfl

/-- Settles O51: no DMAchCNT_H is word aligned, so the low halfword's write completes. -/
theorem wordWriteIsTwoHalfwordWrites : Obligations.WordWriteIsTwoHalfwordWrites := by
  intro s a off w hbase ha hr hr2
  have hoff : off % 4 = 0 := by
    have haddr := toNat_of_route_reg hr
    omega
  have hhigh : (a + 2).toNat % 2 = 0 := by
    rw [BitVec.toNat_add]
    show (a.toNat + 2) % 4294967296 % 2 = 0
    omega
  obtain ⟨u, hu⟩ := regWrite16_completes (not_dmaCntH_of_word_aligned hoff) s (storedHalf s off)
    (w.setWidth 16 &&& writeMask off) (w.setWidth 16)
  have hlow : regWriteHalf s off (w.setWidth 16) = .done u := hu
  refine ⟨u, (exec_wr16_of_reg hr (by omega)).trans (congrArg Run.finish hlow), ?_⟩
  rw [← cfg_of_regWriteHalf hlow] at hr2
  rw [exec_wr32_of_reg hr ha, regWriteWord_of_low hlow, exec_wr16_of_reg hr2 hhigh]

end Sys2Proof.Machine

end

/-! ### Faults (`60_exceptions.md` R370, R372, R426, `30_encoding.md` R108; log 13) -/

section

namespace Sys2Proof.Machine

variable {s : State} {code : FaultCode} {rest : List HostEvent}

theorem left_raiseFault (code : FaultCode) (info : Word) (s : State) :
    (raiseFault code info s).left = some (s.afterFault code) := by
  cases code <;> rfl

theorem withChannel_fault {ch : Byte} (h : 3 < ch.toNat) (s : State) (f : Fin 4 → Run) :
    withChannel ch s f = .fault (raiseFault .invalidChannel (ch.setWidth 32) s) :=
  dif_neg (Nat.not_lt.mpr h)

/-- Settles O7: the first fault's code is the one kept, and each operation tests its operand before anything else. -/
theorem faultsLeaveTheState : Obligations.FaultsLeaveTheState := by
  refine ⟨fun code info s => ?_, fun s ch src dst count flags p c q hch op hop => ?_,
    fun s i hi => congrArg Run.finish (withSource_fault s hi)⟩
  · rw [left_raiseFault, State.afterFault]
    cases s.faulted <;> rfl
  · simp only [List.mem_cons, List.not_mem_nil, or_false] at hop
    rcases hop with rfl | rfl | rfl | rfl | rfl | rfl <;> exact congrArg Run.finish (withChannel_fault hch s _)

/-! #### The stuck block and its reset (R372 (4), `70_reset_and_hazards.md` R410; log 21) -/

theorem stuckStep_of_reset (h : s.host = .reset :: rest) : stuckStep code s = resetEvent (s.setHost rest) := by
  rw [stuckStep, h]

theorem stuckStep_of_not_reset (h : ∀ rest, s.host ≠ .reset :: rest) : stuckStep code s = .fault (.stuck code) := by
  unfold stuckStep
  split
  · next rest hrest => exact absurd hrest (h rest)
  · rfl

theorem hostStep_reset (h : s.host = .reset :: rest) : hostStep s = resetEvent (s.setHost rest) := by
  rw [hostStep, h]

theorem resetEvent_of_idle (h : s.kont = []) : resetEvent s = .next (applyReset s) := by
  rw [resetEvent, h]

/-- With no operation in progress a reset event is taken, with `faulted` set or empty. -/
theorem step_reset_of_idle (hk : s.kont = []) (hh : s.host = .reset :: rest) :
    step s = .next (applyReset (s.setHost rest)) := by
  rw [← resetEvent_of_idle (s := s.setHost rest) hk]
  cases hf : s.faulted with
  | none => rw [step_of_running hf, hostTurn_eq_true (.inl hk), if_pos rfl, hostStep_reset hh]
  | some code => rw [step_of_stuck hf, stuckStep_of_reset hh]

/-- Settles O6: a stuck block answers `.stuck` to all but a reset event, and a reset event leaves `applyReset`. -/
theorem onlyResetLeavesAFault : Obligations.OnlyResetLeavesAFault := by
  refine ⟨fun s c hf => ⟨fun hh => (step_of_stuck hf).trans (stuckStep_of_not_reset hh), fun t ht => ?_⟩,
    fun s rest hk hh => ⟨_, step_reset_of_idle hk hh, rfl, rfl, fun _ => rfl, rfl⟩⟩
  rw [step_of_stuck hf] at ht
  by_cases hh : ∃ rest, s.host = .reset :: rest
  · obtain ⟨rest, hrest⟩ := hh
    obtain ⟨_, rfl⟩ := eq_applyReset_of_stuckStep ht
    exact ⟨rest, hrest, rfl⟩
  · rw [stuckStep_of_not_reset fun rest hrest => hh ⟨rest, hrest⟩] at ht
    cases ht

end Sys2Proof.Machine

end

/-! ### The return from a handler (`60_exceptions.md` R378; log 1, 2) -/

section

namespace Sys2Proof.Machine

variable {s : State} {ks : List Kont} {rest : List HostEvent} {f : DispatchFrame} {fs : List DispatchFrame}

/-- A handler that wrote the master enable leaves it as written. -/
theorem deliverReturn_of_touched (hd : s.dispatch = f :: fs) (ht : f.touched = true) :
    deliverReturn s = s.setDispatch fs := by
  simp only [deliverReturn, hd, ht, if_true]

theorem deliverReturn_of_untouched (hd : s.dispatch = f :: fs) (ht : f.touched = false) :
    deliverReturn s = (s.setDispatch fs).setIme f.savedIme := by
  simp only [deliverReturn, hd, ht, Bool.false_eq_true, if_false]

/-- A return pops the frame and writes at most the master enable's bit. -/
theorem deliverReturn_spec (hd : s.dispatch = f :: fs) :
    (deliverReturn s).ime = (if f.touched = true then s.ime else f.savedIme) ∧
    (∀ j, 0 < j → ((deliverReturn s).x Reg.ime).getLsbD j = (s.x Reg.ime).getLsbD j) ∧
    SameRegsBut [Reg.ime] s (deliverReturn s) ∧
    deliverReturn s = { s with regs := (deliverReturn s).regs, dispatch := fs } := by
  cases ht : f.touched with
  | true =>
    rw [deliverReturn_of_touched hd ht]
    exact ⟨rfl, fun _ _ => rfl, fun _ _ => rfl, rfl⟩
  | false =>
    rw [deliverReturn_of_untouched hd ht]
    refine ⟨State.ime_setIme _ _, fun j hj => ?_, sameRegsBut_setRegBit (s.setDispatch fs) f.savedIme Reg.ime 0, rfl⟩
    exact (getLsbD_x_setRegBit (s.setDispatch fs) f.savedIme Reg.ime (by decide) j).trans (if_neg (by omega))

/-- An interactive handler returns by the host's event. -/
theorem step_return_interactive (hf : s.faulted = none) (hk : s.kont = .handlerReturn :: ks)
    (hh : s.host = .handlerReturn :: rest) : step s = .next (deliverReturn ((s.setHost rest).setKont ks)) := by
  have hkont : (s.setHost rest).kont = .handlerReturn :: ks := hk
  rw [step_of_running hf, hostTurn_eq_true (.inr ⟨ks, hk⟩), if_pos rfl, hostStep, hh]
  simp only [returnEvent, hkont]

/-- A handler program returns by itself, after its last operation. -/
theorem step_return_program (hf : s.faulted = none) (hk : s.kont = .handlerProgram [] :: ks) :
    step s = .next (deliverReturn (s.setKont ks)) := by
  rw [step_of_running hf, hostTurn_of_handlerProgram hk, if_neg Bool.false_ne_true, innerStep, hk]
  rfl

/-- Settles O13: both ways to return are `deliverReturn` from the raising operation's position (`deliverReturn_spec`). -/
theorem handlerReturnRestoresTheMasterEnable : Obligations.HandlerReturnRestoresTheMasterEnable := by
  intro s ks rest f fs hf hd hreturn
  have hstep : step s = .next (deliverReturn ((s.setHost rest).setKont ks)) := by
    rcases hreturn with ⟨hk, hh⟩ | ⟨hk, rfl⟩
    · exact step_return_interactive hf hk hh
    · exact step_return_program hf hk
  obtain ⟨hime, hbits, hregs, hrest⟩ := deliverReturn_spec (s := (s.setHost rest).setKont ks) hd
  refine ⟨_, hstep, hime, hbits, hregs, ?_, hrest⟩
  rw [hrest]
  exact ⟨fun _ => rfl, fun _ => rfl, fun _ => rfl, fun _ => rfl⟩

end Sys2Proof.Machine

end
